-- ==== Sys2Proof/Word.lean ====
section
/-! DEFINITION. The word types of the ZT9-2304: 64-bit registers, bytes, 96-bit instruction words, 48 lanes of 32 bits. -/

namespace Sys2Proof

/-- A 64-bit register value (R15). -/
abbrev Word := BitVec 64
/-- A byte of memory (R4). -/
abbrev Byte := BitVec 8
/-- A 96-bit instruction word (R90). -/
abbrev IWord := BitVec 96
/-- The 32 bits of one vector lane or of one accumulator element (R21, R23). -/
abbrev Lane := BitVec 32
/-- A lane mask: bit i governs lane i (R22). -/
abbrev Mask := BitVec 48
/-- A vector register: 48 lanes (R21). -/
abbrev VReg := Vector Lane 48

/-- A one-bit value. -/
def bit (b : Bool) : BitVec 1 := BitVec.ofBool b

end Sys2Proof
end

