-- ==== Sys2Proof/Syntax.lean ====
section
/-! DEFINITION. The syntax: operands, the fields of the 153 encoded instructions, the data that
device steps carry, and `Instr`, one constructor for each row of the opcode table. -/

namespace Sys2Proof

/-! ## Operands (R15, R94, R145, R231) -/

/-- Operand letter S: a scalar register s0-s31, or zr. -/
inductive SOp where
  | r (n : BitVec 5)
  | zr
deriving DecidableEq, Repr, Inhabited

/-- A predicate destination that also accepts zr (CACHE by R185, RFCHK by R203). -/
inductive PZ where
  | p (n : BitVec 3)
  | zr
deriving DecidableEq, Repr

/-- PMOV's operands: predicate, lane mask or scalar (R163). -/
inductive PMS where
  | p (n : BitVec 3)
  | m (n : BitVec 3)
  | s (r : SOp)
deriving DecidableEq, Repr

/-- VBCAST's source: a scalar or a vector (R220). -/
inductive SV where
  | s (r : SOp)
  | v (n : BitVec 5)
deriving DecidableEq, Repr

/-- A tile or an accumulator (TZERO and ACVT, R235). -/
inductive TA where
  | t (n : BitVec 4)
  | a (n : BitVec 3)
deriving DecidableEq, Repr

/-- The second source of a scalar R/I function: B or IMM32 (R96). -/
inductive Src where
  | r (b : SOp)
  | i (imm : BitVec 32)
deriving DecidableEq, Repr

/-- The second source of a vector R/I function: B or IMM32 in every lane (R96). -/
inductive VSrc where
  | r (b : BitVec 5)
  | i (imm : BitVec 32)
deriving DecidableEq, Repr

/-- The guard and the hints of a word: GD and HN (R92, R93). -/
structure Hdr where
  gneg  : Bool
  gp    : BitVec 3
  yld   : Bool
  ra    : Bool
  rb    : Bool
  stall : BitVec 3
deriving DecidableEq, Repr

/-- No guard, no hints. -/
def Hdr.plain : Hdr := ⟨false, 0, false, false, false, 0⟩

/-! ## Codes of the fields -/

/-- SPACE of a memory operand: virtual, scratchpad, cluster memory (R174). -/
inductive Space where
  | g | sp | cm
deriving DecidableEq, Repr

/-- SPACE of a copy, where code 3 is the array window (R250). -/
inductive CSpace where
  | g | sp | cm | arr
deriving DecidableEq, Repr

/-- ORD (R77): plain, acquire, release, acquire-release. -/
inductive Ord where
  | pl | acq | rel | ar
deriving DecidableEq, Repr

/-- Access size of LD and ST (R179). -/
inductive Size where
  | d | w | h | b
deriving DecidableEq, Repr

/-- Element size of VGATH and VSCAT (R179). -/
inductive ESize where
  | w | h | b
deriving DecidableEq, Repr

/-- The common part of a format-M word: base, offset, SPACE, SC and cache hint (R97). -/
structure MemOp where
  base  : SOp
  off   : BitVec 32
  space : Space
  sc    : BitVec 3
  hint  : BitVec 3
deriving DecidableEq, Repr

/-- SM of ADD and SUB (R148). -/
inductive Sat where
  | wrap | ss | us
deriving DecidableEq, Repr

/-- Condition codes of CMP and CMPU (R161). -/
inductive CC where
  | eq | ne | lt | ge | le | gt
deriving DecidableEq, Repr

/-- CB with its C operand (R161). -/
inductive Comb where
  | set
  | and (c : BitVec 3)
  | or (c : BitVec 3)
deriving DecidableEq, Repr

/-- PLOG's operands: all predicates or all masks (R162). -/
inductive PlogOps where
  | p (d a b : BitVec 3)
  | m (d a b : BitVec 3)
deriving DecidableEq, Repr

/-- Lane types (R49). -/
inductive LT where
  | f32 | bf16x2 | f16x2 | i32 | i16x2 | i8x4
deriving DecidableEq, Repr

/-- Rounding modes (R49). -/
inductive RM where
  | rne | rtz | rdn | rup
deriving DecidableEq, Repr

/-- Element formats: the FMT codes 1 to 10 of R24. -/
inductive Fmt where
  | bf16 | fp16 | fp32 | e4m3 | e5m2 | int8 | uint8 | fp4 | d2s8 | int32
deriving DecidableEq, Repr

/-- VCMP's condition codes (R213). -/
inductive VCC where
  | eq | ne | lt | ge | le | gt | un
deriving DecidableEq, Repr

/-- VRED's and VSCAN's operation (R221). -/
inductive RedOp where
  | add | min | max
deriving DecidableEq, Repr

/-- VMASK's operation with its operand (R223). -/
inductive MaskSrc where
  | lt (a : SOp)
  | nz (a : BitVec 5)
  | first (a : BitVec 3)
deriving DecidableEq, Repr

/-- AMO's operations (R186). -/
inductive AmoOp where
  | add | and | or | xor | min | max | minu | maxu | swap
deriving DecidableEq, Repr

/-- AMOF's operations (R188). -/
inductive AmofOp where
  | fadd | fmin | fmax | fadd2
deriving DecidableEq, Repr

/-- CACHE's operations (R185). -/
inductive CacheOp where
  | pin | unpin | inv1 | evict2
deriving DecidableEq, Repr

/-- WAITA's conditions (R195). -/
inductive WaitCond where
  | eq | ne | geu | ltu | any
deriving DecidableEq, Repr

/-- TCFG's value: a register (RG = 1) or IMM32 (R236). -/
inductive TcfgSrc where
  | r (a : SOp)
  | i (imm : BitVec 32)
deriving DecidableEq, Repr

/-- The engine that performs a copy (R249). -/
inductive Eng where
  | quill | local | brush
deriving DecidableEq, Repr

/-- CK: the completion target of a copy (R249). -/
inductive CK where
  | none | cwsp | cwcm | barsp | barcm
deriving DecidableEq, Repr

/-- MOD and IMM32 of the copy commands (R249). -/
structure CpyMod where
  cs   : BitVec 3
  eng  : Eng
  dsp  : CSpace
  ssp  : CSpace
  cadd : Bool
  cfr  : Bool
  ck   : CK
  dir  : Bool
  coff : BitVec 20
  cval : BitVec 8
deriving DecidableEq, Repr

/-- GSET's OP with its operand (R256). -/
inductive GsetOp where
  | pred (a : BitVec 3)
  | pass | disc | empty
deriving DecidableEq, Repr

/-- ASELF's selection (R272). -/
inductive SelfWhat where
  | key | cls | frame | lines | home
deriving DecidableEq, Repr

/-- CNTRD's WHAT (R284). -/
inductive CntWhat where
  | lrem | ldone | lcan | jout | jdrop
deriving DecidableEq, Repr

/-- KIND of a patch source (R290). -/
inductive PKind where
  | pay | frm | key | fbase
deriving DecidableEq, Repr

/-- KIND and IX of TPATCH and TGUARD (R290). -/
structure PSrc where
  kind : PKind
  ix   : BitVec 10
deriving DecidableEq, Repr

/-- Control registers by number (R27). -/
abbrev CReg := BitVec 5

/-! ## Data of the device steps -/

/-- Agents (R10-R12), by global thread, core, cluster and chiplet numbers within the package
(R332): thread t is thread t mod 4 of core t / 4. -/
inductive Agent where
  | thread (t : Nat)
  | seqr (core : Nat)
  | queue (t q : Nat)
  | quill (cl : Nat)
  | brush (chip : Nat)
  | port (p : Nat)
deriving DecidableEq, Repr, Inhabited

/-- Who owns a set of engine queues: a thread, or a core's tape sequencer (R38, R300). -/
inductive QOwner where
  | thread (t : Nat)
  | seqr (core : Nat)
deriving DecidableEq, Repr, Inhabited

/-- A key in the directory: partition, class, key (R308, R309). -/
structure AKey where
  part : Nat
  cls  : BitVec 16
  key  : Word
deriving DecidableEq, Repr, Inhabited

/-- A message: header (R262) and payload. The last fields say what the device knows of it besides: its
partition, whether a host packet asked for a completion entry (R408), the package that handed it to the
slice (R433), the ASID of the unit that sent it (R349), the number of that unit, and the number in program order that
the sender's accesses before the send are below (R123). -/
structure Msg where
  cls     : BitVec 16
  sel     : BitVec 8
  len     : BitVec 8
  job     : BitVec 16
  rv      : Bool
  rd      : Bool
  rt      : Bool
  host    : Bool
  fwd     : Bool
  ifn     : BitVec 6
  key     : Word
  sender  : BitVec 32
  seq     : BitVec 32
  rkey    : Word
  rcls    : BitVec 16
  rsel    : BitVec 8
  payload : List Byte
  part    : Nat
  irq     : Bool
  via     : BitVec 9
  asid    : BitVec 16
  uid     : Nat
  slot    : Nat
  no      : Nat
deriving DecidableEq, Repr, Inhabited

/-- A packet written to a notify page (R408), with the PASID prefix of the write. -/
structure Packet where
  cls   : BitVec 16
  sel   : BitVec 8
  len   : BitVec 8
  job   : BitVec 16
  flags : BitVec 8
  rsv7  : BitVec 8
  key   : Word
  paddr : Word
  inl   : List Byte
  hseq  : BitVec 32
  rsv60 : BitVec 32
  pasid : Option (BitVec 20)
deriving DecidableEq, Repr, Inhabited

/-- A flit: the header of R396 and what its payload carries. -/
structure Flit where
  sagent : BitVec 32
  dpkg   : BitVec 9
  part   : BitVec 7
  vl     : BitVec 2
  typ    : BitVec 6
  smask  : BitVec 4
  reason : BitVec 4
  tag    : BitVec 12
  addr   : BitVec 52
  data   : List Byte
  msgs   : List Msg
  key    : AKey
  home   : BitVec 9
  secs   : List (Nat × List Byte)
deriving DecidableEq, Repr, Inhabited

/-- An answer to a peer access (R131, R133): acknowledgement, reply with data, or refusal. -/
inductive PeerAns where
  | ack
  | reply (data : List Byte)
  | refuse (reason : BitVec 8)
deriving DecidableEq, Repr

/-- Who sends a message again after RETRY: its sending agent (R321, R322), or the home slice that forwards
the messages of a key (R433). -/
inductive Resender where
  | agent (a : Agent)
  | slice (k : AKey)
deriving DecidableEq, Repr

/-- A flit of a link's replay buffer, by its place there, the oldest first (R399). -/
structure SentFlit where
  link : Nat
  place : Nat
deriving DecidableEq, Repr

/-- Where a soft error is found (R386, R348). -/
inductive ErrSite where
  | corrected (core : Nat)
  | thread (t : Nat) (sub : BitVec 8) (line : Nat)
  | scratch (core off : Nat)
  | cluster (cl off : Nat)
  | tile (core n : Nat)
  | acc (core n : Nat)
  | l1 (core : Nat)
  | tapeCache (cl : Nat)
  | seqr (core : Nat)
  | l2 (chip : Nat)
  | hbm (pa : Nat)
deriving DecidableEq, Repr

/-- Who performs an access to a register of the control window (R432, R406, R415). -/
inductive Requester where
  | thread (t : Nat)
  | port (p : Nat)
  | firmware
deriving DecidableEq, Repr

/-! ## Instructions -/

/-- One constructor for each row of the opcode table: 153 encoded instructions, then 105 steps
of the device, which have no encoding. -/
inductive Instr where
  -- group 0x00, system (R302)
  | nop (h : Hdr)
  | brk (h : Hdr) (imm : BitVec 32)
  | trap (h : Hdr) (imm : BitVec 32)
  | eret (h : Hdr) (a : SOp)
  | halt (h : Hdr)
  | mfc (h : Hdr) (d : SOp) (c : CReg)
  | mtc (h : Hdr) (c : CReg) (a : SOp)
  | synci (h : Hdr)
  | scopeof (h : Hdr) (d a b : SOp)
  | clkrd (h : Hdr) (d : SOp)
  -- group 0x02, integer A (R147)
  | add (h : Hdr) (d a : SOp) (b : Src) (sm : Sat)
  | sub (h : Hdr) (d a : SOp) (b : Src) (sm : Sat)
  | mul (h : Hdr) (d a : SOp) (b : Src)
  | mulh (h : Hdr) (d a : SOp) (b : Src)
  | mulhu (h : Hdr) (d a : SOp) (b : Src)
  | div (h : Hdr) (d a : SOp) (b : Src)
  | divu (h : Hdr) (d a : SOp) (b : Src)
  | rem (h : Hdr) (d a : SOp) (b : Src)
  | remu (h : Hdr) (d a : SOp) (b : Src)
  | madd (h : Hdr) (d a b c : SOp)
  | divl (h : Hdr) (d a : SOp) (b : Src) (qr : Bool)
  -- group 0x03, integer B (R152)
  | and (h : Hdr) (d a : SOp) (b : Src)
  | or (h : Hdr) (d a : SOp) (b : Src)
  | xor (h : Hdr) (d a : SOp) (b : Src)
  | andn (h : Hdr) (d a : SOp) (b : Src)
  | shl (h : Hdr) (d a : SOp) (b : Src)
  | shr (h : Hdr) (d a : SOp) (b : Src)
  | sar (h : Hdr) (d a : SOp) (b : Src)
  | rol (h : Hdr) (d a : SOp) (b : Src)
  | min (h : Hdr) (d a : SOp) (b : Src)
  | max (h : Hdr) (d a : SOp) (b : Src)
  | minu (h : Hdr) (d a : SOp) (b : Src)
  | maxu (h : Hdr) (d a : SOp) (b : Src)
  -- group 0x04, integer C (R154); `len` is the field LEN − 1
  | clz (h : Hdr) (d a : SOp)
  | ctz (h : Hdr) (d a : SOp)
  | popc (h : Hdr) (d a : SOp)
  | brev (h : Hdr) (d a : SOp)
  | bfx (h : Hdr) (d a : SOp) (len pos : BitVec 6)
  | bfi (h : Hdr) (d a b : SOp) (len pos : BitVec 6)
  | sext (h : Hdr) (d a : SOp) (len : BitVec 6)
  | zext (h : Hdr) (d a : SOp) (len : BitVec 6)
  | lea (h : Hdr) (d a b : SOp) (x3 : Bool) (k : BitVec 6) (imm : BitVec 32)
  | sel (h : Hdr) (d a b : SOp) (c : BitVec 3)
  -- group 0x05, move and compare (R159)
  | movi (h : Hdr) (d : SOp) (zx : Bool) (imm : BitVec 32)
  | movhi (h : Hdr) (d a : SOp) (imm : BitVec 32)
  | mov (h : Hdr) (d a : SOp)
  | cmp (h : Hdr) (d : BitVec 3) (a : SOp) (b : Src) (cc : CC) (cb : Comb)
  | cmpu (h : Hdr) (d : BitVec 3) (a : SOp) (b : Src) (cc : CC) (cb : Comb)
  | plog (h : Hdr) (ops : PlogOps) (tt : BitVec 4)
  | pmov (h : Hdr) (d a : PMS)
  -- group 0x06, control (R164)
  | br (h : Hdr) (off : BitVec 32)
  | jmp (h : Hdr) (a : SOp)
  | call (h : Hdr) (off : BitVec 32)
  | callr (h : Hdr) (a : SOp)
  | ret (h : Hdr) (a : SOp)
  | lsetup (h : Hdr) (a : SOp) (ic : Bool) (cnt : BitVec 16) (l : BitVec 2) (off : BitVec 32)
  | lbrk (h : Hdr) (all : Bool) (l : BitVec 2)
  | yield (h : Hdr)
  | waitc (h : Hdr) (lims : BitVec 32)
  | sleep (h : Hdr) (a : SOp) (imm : BitVec 32)
  -- group 0x07, task (R273)
  | fork (h : Hdr) (d : BitVec 3) (a : SOp) (cmc : Bool) (off : BitVec 32)
  | join (h : Hdr) (a : SOp) (cmc : Bool)
  | finit (h : Hdr) (a : SOp) (sc : BitVec 3) (space : Space)
  | frd (h : Hdr) (d a : SOp) (sc : BitVec 3) (space : Space)
  | fwr (h : Hdr) (d : BitVec 3) (a b : SOp) (sc : BitVec 3) (space : Space)
  | qpush (h : Hdr) (d : BitVec 3) (a b : SOp) (sc : BitVec 3) (space : Space)
  | qpop (h : Hdr) (d a : SOp) (c : BitVec 3) (sc : BitVec 3) (space : Space)
  | launch (h : Hdr) (d a : SOp) (space : Space)
  | cancel (h : Hdr) (d : BitVec 3) (a : SOp) (jb : Bool)
  | cntrd (h : Hdr) (d a : SOp) (what : CntWhat)
  -- group 0x08, scalar memory (R177)
  | ld (h : Hdr) (d : SOp) (m : MemOp) (sz : Size) (acq : Bool)
  | st (h : Hdr) (b : SOp) (m : MemOp) (sz : Size) (rel : Bool)
  | pfetch (h : Hdr) (m : MemOp) (l2 : Bool)
  | cache (h : Hdr) (d : PZ) (m : MemOp) (op : CacheOp)
  | amo (h : Hdr) (d b : SOp) (m : MemOp) (w4 : Bool) (ord : Ord) (op : AmoOp)
  | cas (h : Hdr) (d b c : SOp) (m : MemOp) (w4 : Bool) (ord : Ord)
  | amof (h : Hdr) (d b : SOp) (m : MemOp) (ord : Ord) (op : AmofOp)
  -- group 0x09, vector memory (R177)
  | vld (h : Hdr) (d : BitVec 5) (m : MemOp) (c : BitVec 3) (acq : Bool)
  | vst (h : Hdr) (nib : Option (BitVec 5)) (b : BitVec 5) (m : MemOp) (c : BitVec 3) (rel : Bool)
  | vlds (h : Hdr) (d : BitVec 5) (b : SOp) (m : MemOp) (c : BitVec 3) (acq : Bool)
  | vsts (h : Hdr) (d : BitVec 5) (b : SOp) (m : MemOp) (c : BitVec 3) (rel : Bool)
  | vgath (h : Hdr) (d b : BitVec 5) (m : MemOp) (c : BitVec 3) (e : ESize) (acq : Bool)
  | vscat (h : Hdr) (d b : BitVec 5) (m : MemOp) (c : BitVec 3) (e : ESize) (rel : Bool)
  -- group 0x0A, sync (R177)
  | waita (h : Hdr) (d b : SOp) (m : MemOp) (w4 : Bool) (acq : Bool) (cond : WaitCond)
  | bari (h : Hdr) (b : SOp) (m : MemOp) (rel : Bool)
  | bara (h : Hdr) (d : SOp) (m : MemOp)
  | barw (h : Hdr) (d b : SOp) (m : MemOp)
  | barx (h : Hdr) (d : SOp) (m : MemOp) (ar : Bool) (abandon : Bool)
  | rfchk (h : Hdr) (d : PZ) (wt : Bool)
  -- group 0x0B, vector arithmetic (R209)
  | vadd (h : Hdr) (d a : BitVec 5) (b : VSrc) (c : BitVec 3) (lt : LT) (rm : RM) (ss un : Bool)
  | vsub (h : Hdr) (d a : BitVec 5) (b : VSrc) (c : BitVec 3) (lt : LT) (rm : RM) (ss un : Bool)
  | vmul (h : Hdr) (d a : BitVec 5) (b : VSrc) (c : BitVec 3) (lt : LT) (rm : RM) (ss un : Bool)
  | vfma (h : Hdr) (d a : BitVec 5) (b : VSrc) (c : BitVec 3) (lt : LT) (rm : RM) (ss un : Bool)
  | vmin (h : Hdr) (d a : BitVec 5) (b : VSrc) (c : BitVec 3) (lt : LT) (un : Bool)
  | vmax (h : Hdr) (d a : BitVec 5) (b : VSrc) (c : BitVec 3) (lt : LT) (un : Bool)
  | vabs (h : Hdr) (d a : BitVec 5) (c : BitVec 3) (lt : LT) (ss : Bool)
  | vneg (h : Hdr) (d a : BitVec 5) (c : BitVec 3) (lt : LT) (ss : Bool)
  -- group 0x0C, vector logic (R212)
  | vand (h : Hdr) (d a : BitVec 5) (b : VSrc) (c : BitVec 3)
  | vor (h : Hdr) (d a : BitVec 5) (b : VSrc) (c : BitVec 3)
  | vxor (h : Hdr) (d a : BitVec 5) (b : VSrc) (c : BitVec 3)
  | vshl (h : Hdr) (d a : BitVec 5) (b : VSrc) (c : BitVec 3) (lt : LT)
  | vshr (h : Hdr) (d a : BitVec 5) (b : VSrc) (c : BitVec 3) (lt : LT)
  | vsar (h : Hdr) (d a : BitVec 5) (b : VSrc) (c : BitVec 3) (lt : LT)
  | vcmp (h : Hdr) (d : BitVec 3) (a : BitVec 5) (b : VSrc) (c : BitVec 3) (lt : LT) (el : BitVec 2)
      (un : Bool) (cc : VCC)
  | vsel (h : Hdr) (d a b : BitVec 5) (c : BitVec 3)
  -- group 0x0D, vector function (R215-R219)
  | vrcp (h : Hdr) (d a : BitVec 5) (c : BitVec 3) (lt : LT)
  | vrsq (h : Hdr) (d a : BitVec 5) (c : BitVec 3) (lt : LT)
  | vexp2 (h : Hdr) (d a : BitVec 5) (c : BitVec 3) (lt : LT)
  | vlog2 (h : Hdr) (d a : BitVec 5) (c : BitVec 3) (lt : LT)
  | vtanh (h : Hdr) (d a : BitVec 5) (c : BitVec 3) (lt : LT)
  | vcvt (h : Hdr) (d a : BitVec 5) (c : BitVec 3) (dt st : LT) (el : BitVec 2) (rm : RM) (ss : Bool)
  | vquant (h : Hdr) (d a b : BitVec 5) (c : BitVec 3) (fmt : Fmt) (el : BitVec 3) (rm : RM) (sr : Bool)
  | vdeq (h : Hdr) (d a b : BitVec 5) (c : BitVec 3) (fmt : Fmt) (el : BitVec 3) (rm : RM)
  -- group 0x0E, vector lane (R220)
  | vred (h : Hdr) (d : SOp) (a : BitVec 5) (c : BitVec 3) (lt : LT) (rm : RM) (op : RedOp) (un : Bool)
  | vscan (h : Hdr) (d a : BitVec 5) (c : BitVec 3) (lt : LT) (rm : RM) (op : RedOp) (un ex : Bool)
  | vperm (h : Hdr) (d a b : BitVec 5) (c : BitVec 3)
  | vbcast (h : Hdr) (d : BitVec 5) (a : SV) (c : BitVec 3) (lane : BitVec 6)
  | vins (h : Hdr) (d : BitVec 5) (a : SOp) (lane : BitVec 6)
  | vext (h : Hdr) (d : SOp) (a : BitVec 5) (lane : BitVec 6)
  | vmask (h : Hdr) (d : BitVec 3) (src : MaskSrc)
  | vpopm (h : Hdr) (d : SOp) (a : BitVec 3) (ff : Bool)
  -- group 0x0F, repeat (R224); `n` is the field N − 1
  | repb (h : Hdr) (a b : SOp) (slot n : BitVec 4) (cs : BitVec 3) (st : BitVec 5) (rs : BitVec 6)
      (rb : BitVec 5) (count : BitVec 16)
  -- group 0x10, tile (R235)
  | tcfg (h : Hdr) (d : BitVec 4) (src : TcfgSrc)
  | tld (h : Hdr) (d : BitVec 4) (c : SOp) (m : MemOp) (acq : Bool)
  | tst (h : Hdr) (b : BitVec 4) (c : SOp) (m : MemOp) (rel : Bool)
  | tzero (h : Hdr) (d : TA) (int : Bool)
  | ttrn (h : Hdr) (d a : BitVec 4)
  | acvt (h : Hdr) (d : TA) (a : BitVec 3) (ss : Bool) (rm : RM)
  | ast (h : Hdr) (b : BitVec 3) (c : SOp) (m : MemOp) (rel : Bool)
  | atov (h : Hdr) (d : BitVec 5) (a : BitVec 3) (b : SOp) (c : BitVec 3) (col : Bool) (row : BitVec 6)
  | vtoa (h : Hdr) (d : BitVec 3) (a : BitVec 5) (b : SOp) (c : BitVec 3) (col : Bool) (row : BitVec 6)
  -- group 0x11, matrix (R243)
  | tmma (h : Hdr) (d : BitVec 3) (a b : BitVec 4) (slot : BitVec 4) (za sat : Bool) (ko kc : BitVec 8)
  | tsca (h : Hdr) (d a : BitVec 3) (b cv : BitVec 5) (slot : BitVec 4) (za fs : Bool)
  -- group 0x12, copy (R249, R255, R256); `q2` chooses Q2 over Q1
  | cpy (h : Hdr) (d a b : SOp) (q2 : Bool) (slot : BitVec 4) (k : CpyMod)
  | cpy2d (h : Hdr) (d a b : SOp) (q2 : Bool) (slot : BitVec 4) (k : CpyMod)
  | cpyg (h : Hdr) (d a b : SOp) (q2 : Bool) (slot : BitVec 4) (k : CpyMod)
  | cpys (h : Hdr) (d a b : SOp) (q2 : Bool) (slot : BitVec 4) (k : CpyMod)
  | qjoin (h : Hdr) (q : BitVec 2) (slot : BitVec 4) (set : BitVec 4)
  | gset (h : Hdr) (k : BitVec 4) (op : GsetOp)
  -- group 0x13, actor (R266-R272)
  | send (h : Hdr) (d : BitVec 3) (a : SOp) (b : BitVec 5) (c : SOp)
  | sendm (h : Hdr) (d : BitVec 3) (a b c : SOp) (space : Space)
  | reply (h : Hdr) (d : BitVec 3) (b : BitVec 5) (c : SOp)
  | adone (h : Hdr)
  | aretire (h : Hdr)
  | aexport (h : Hdr) (d : BitVec 3) (a : SOp)
  | aimport (h : Hdr) (d : BitVec 3) (a b : SOp) (cn : Bool)
  | aself (h : Hdr) (d : SOp) (what : SelfWhat)
  -- group 0x14, tape (R290)
  | trec (h : Hdr) (var : BitVec 4)
  | tpatch (h : Hdr) (d a : SOp) (src : PSrc) (imm : BitVec 32)
  | tguard (h : Hdr) (d b : SOp) (src : PSrc)
  | tseal (h : Hdr) (d : BitVec 3)
  | tplay (h : Hdr) (d : BitVec 3) (var : BitVec 4)
  | tinv (h : Hdr) (a b : SOp) (all : Bool)
  -- the ordering machine (R114-R117)
  | performLoad (ag : Agent) (n : Nat)
  | issueStore (ag : Agent) (n : Nat)
  | storeLeaveBuffer (ag : Agent) (id : Nat)
  | storeClimb (id lvl : Nat)
  | discardSettled (lvl inst loc : Nat)
  -- wakes
  | waitcReturn (t : Nat)
  | waitaWake (t : Nat)
  | barwWake (t : Nat)
  | joinWake (t : Nat)
  | frdRetry (t : Nat)
  | sleepExpire (t : Nat)
  | adoneDrained (t : Nat)
  | rfchkWaitEnd (t : Nat)
  | exportAnswer (t : Nat) (accepted : Bool)
  | tplayDrained (t : Nat)
  -- engine commands
  | commandAtHead (o : QOwner) (q : Nat)
  | commandBegin (o : QOwner) (q : Nat)
  | copyUnit (o : QOwner) (q n : Nat)
  | repeatIteration (o : QOwner) (q : Nat)
  | commandComplete (o : QOwner) (q : Nat)
  -- peers
  | peerAnswer (tag : Nat) (ans : PeerAns)
  | answerTimeout (tag : Nat)
  -- dispatch and replay
  | unitDispatch (t : Nat)
  | replayTake (core : Nat)
  | replayIssue (core : Nat)
  | replayDrained (core : Nat)
  -- the directory
  | messageArrival (n : Nat)
  | importRecord (k : AKey)
  | importCancel (k : AKey)
  | exportOffer (k : AKey) (src : Nat)
  | activationDone (k : AKey)
  | statePageNotResident (k : AKey)
  | stateBlockFailed (k : AKey)
  | runEnded (k : AKey)
  | roomNotice (core : Nat)
  | hardwareErrorNotice (k : AKey)
  | runFailed (k : AKey)
  | writeBackDone (k : AKey)
  | writeBackFailed (k : AKey)
  | moveDone (k : AKey)
  | moving (k : AKey) (src : Nat)
  | movingAck (k : AKey)
  | carriedState (k : AKey) (src home : Nat) (secs : List (Nat × List Byte)) (msgs : List Msg)
  | moved (k : AKey) (src dst : Nat)
  | withdraw (k : AKey) (sender : BitVec 32) (ifn : BitVec 6) (seq : BitVec 32)
  | idleRetirement (k : AKey)
  | capacityRetirement (core : Nat)
  | messageAnswer (n : Nat)
  | retryResend (who : Resender) (n : Nat)
  -- failure, switching, clocks, errors
  | watchdogExpire (t : Nat)
  | sliceEnd (cl : Nat)
  | switchIn (cl : Nat)
  | clockStepEffective (cl : Nat)
  | stepDrift (cl : Nat)
  | softError (e : ErrSite)
  | scrub (stack : Nat)
  -- translation and migration
  | pageResponse (idx : Nat) (ok : Bool)
  | walk (core part : Nat) (asid : BitVec 16) (va : Word)
  | xinvcmd (part : Nat) (value : Word)
  | migcmd (part : Nat) (value : Word)
  | migrationCopy (part : Nat)
  -- register writes with behaviour of their own
  | poolcfgWrite (core : Nat) (value : Word)
  | framecfgWrite (core : Nat) (value : Word)
  | eqcfgWrite (part : Nat) (value : Word)
  | classInstall (part : Nat) (cls : BitVec 16)
  | installResume (part : Nat) (cls : BitVec 16)
  | classClear (part : Nat) (cls : BitVec 16)
  | jobReset (part : Nat)
  | jobCancel (part : Nat)
  | debugLookup (slice : Nat) (value : Word)
  | debugHalt (t : Nat)
  | debugResume (t : Nat)
  | debugStep (t : Nat)
  | registerWrite (who : Requester) (off : Nat) (value : Word)
  -- the host and management
  | msemAcquire (port : Nat) (value : Word)
  | msemRelease (port : Nat)
  | leaseExpire
  | batchrel (port : Nat) (mask : Word)
  | packetSubmit (port ifn : Nat) (pk : Packet)
  | completionEntry (port ifn : Nat)
  | mrbaseWrite (port : Nat) (value : Word)
  | createPartition (port : Nat)
  | destroyPartition (port : Nat)
  | writeRotation (port cl reg : Nat) (value : Word)
  | migratePartition (port part : Nat) (clusters : List Nat)
  | bindPort (port : Nat)
  | unbindPort (port : Nat)
  | bindInterface (port ifport ifn part : Nat) (pasid : BitVec 20)
  | revoke (port : Nat) (pasid : BitVec 20)
  | writeRoute (port dst : Nat) (value : Word)
  | firmwareImage (port slot : Nat) (activate : Bool) (image : List Byte)
  | attestationQuote (port : Nat) (nonce : BitVec 256)
  | readErrorRing (port : Nat)
  -- links
  | flitReceive (link : Nat) (f : Flit)
  | flitResend (f : SentFlit)
  | linkTrained (link : Nat)
  | linkDown (link : Nat)
  | flowStopGo (link : Nat) (vl : BitVec 2) (stop : Bool)
  -- CXL
  | cxlPostedWrite (port : Nat) (strict : Bool) (pa : Nat) (data : List Byte)
  | cxlRead (port : Nat) (pa n : Nat)
  | cxlMemAccess (port : Nat) (wr : Bool) (off : Nat) (data : List Byte)
  | atsInvalidation (port : Nat)
  -- resets and power
  | coldReset (pkgid : BitVec 9)
  | warmReset
  | powerSample (inlet : Nat) (watts : Nat)
deriving DecidableEq, Repr

end Sys2Proof
end

