-- ==== Sys2Proof/WellFormed.lean ====
section
/-! DEFINITION. When an instruction is well formed: exactly the words that pass the checks of R101. -/

namespace Sys2Proof

/-- GD = 0b1000 is reserved (R92). -/
def Hdr.wf (h : Hdr) : Bool := !(h.gneg && h.gp == 0)

/-- Float lane types are codes 0-2 (R49). -/
def LT.isFloat : LT → Bool
  | .f32 | .bf16x2 | .f16x2 => true
  | .i32 | .i16x2 | .i8x4 => false

/-- Elements per lane (R48). -/
def LT.count : LT → Nat
  | .f32 | .i32 => 1
  | .bf16x2 | .f16x2 | .i16x2 => 2
  | .i8x4 => 4

/-- Element width of a lane type in bits (R48). -/
def LT.width (t : LT) : Nat := 32 / t.count

/-- Element width of a format in bits (R50, R53). -/
def Fmt.width : Fmt → Nat
  | .bf16 | .fp16 => 16
  | .fp32 | .int32 => 32
  | .e4m3 | .e5m2 | .int8 | .uint8 | .d2s8 => 8
  | .fp4 => 4

/-- The FMT code (R24). -/
def Fmt.code : Fmt → BitVec 4
  | .bf16 => 1 | .fp16 => 2 | .fp32 => 3 | .e4m3 => 4 | .e5m2 => 5
  | .int8 => 6 | .uint8 => 7 | .fp4 => 8 | .d2s8 => 9 | .int32 => 10

/-- The format of an FMT code; code 0 (unconfigured) and 11-15 name none (R24). -/
def Fmt.ofCode (c : BitVec 4) : Option Fmt :=
  match c.toNat with
  | 1 => some .bf16 | 2 => some .fp16 | 3 => some .fp32 | 4 => some .e4m3 | 5 => some .e5m2
  | 6 => some .int8 | 7 => some .uint8 | 8 => some .fp4 | 9 => some .d2s8 | 10 => some .int32
  | _ => none

/-- COLS, ROWS and FMT of a shape descriptor (R24). -/
def descCols (d : BitVec 32) : Nat := (d.extractLsb' 10 9).toNat
def descRows (d : BitVec 32) : Nat := (d.extractLsb' 4 6).toNat
def descFmt (d : BitVec 32) : Option Fmt := Fmt.ofCode (d.extractLsb' 0 4)

/-- The shape descriptors that TCFG accepts (R236). -/
def descOk (d : BitVec 32) : Bool :=
  d.extractLsb' 19 13 == 0 && descRows d < 48 &&
  (if d.extractLsb' 0 4 == 0 then descRows d == 0 && descCols d == 0
   else match descFmt d with
     | some f => (descCols d + 1) * f.width ≤ 1536
     | none => false)

/-- A limit byte of WAITC: 0 to 32, or 0xFF (R171). -/
def limitOk (b : BitVec 8) : Bool := b.toNat ≤ 32 || b == 0xFF

/-- The four limit bytes of WAITC (R171). -/
def limit (lims : BitVec 32) (q : Nat) : BitVec 8 := lims.extractLsb' (8 * q) 8

/-- R249: the combinations of copy fields that check 5 accepts. -/
def CpyMod.wf (k : CpyMod) : Bool :=
  k.cs != 0 &&
  (match k.ck with
   | .none => !k.cadd && !k.cfr && !k.dir && k.coff == 0 && k.cval == 0
   | .cwsp => !k.dir
   | .cwcm => !k.dir && !k.cfr
   | .barsp => k.cval == 0 && !k.cadd && k.coff.extractLsb' 0 2 == 0
   | .barcm => k.cval == 0 && !k.cadd && !k.cfr && k.coff.extractLsb' 0 2 == 0) &&
  (match k.eng with
   | .quill => true
   | .local => (k.dsp == .sp || k.dsp == .arr) && (k.ssp == .sp || k.ssp == .arr)
   | .brush => k.dsp == .g && k.ssp == .g)

/-- R290: the range of IX by KIND. -/
def PSrc.wf (p : PSrc) : Bool :=
  match p.kind with
  | .pay => p.ix.toNat ≤ 23
  | .frm => true
  | .key | .fbase => p.ix == 0

/-- R209: SS and UN only with integer types, RM only with float types. -/
def arithOk (lt : LT) (rm : RM) (ss un : Bool) : Bool :=
  if lt.isFloat then !ss && !un else rm == .rne

/-- R217: the formats of VQUANT. -/
def quantFmt : Fmt → Bool
  | .e4m3 | .e5m2 | .int8 | .uint8 | .fp4 => true
  | .bf16 | .fp16 | .fp32 | .d2s8 | .int32 => false

/-- R217: EL is 0-3 for 8-bit formats and 0-7 for FP4. -/
def elOk (f : Fmt) (el : BitVec 3) : Bool := f == .fp4 || el.toNat ≤ 3

/-- R216: the pairs and selections that VCVT accepts. -/
def cvtOk (dt st : LT) (el : BitVec 2) (ss : Bool) : Bool :=
  dt != st &&
  el.toNat ≤ Nat.max st.count dt.count / Nat.min st.count dt.count - 1 &&
  (!ss || (!dt.isFloat && !st.isFloat && st.count < dt.count))

/-- R221: UN only with integer .min and .max, RM only with float types. -/
def redOk (lt : LT) (rm : RM) (op : RedOp) (un : Bool) : Bool :=
  (!un || (op != .add && !lt.isFloat)) && (lt.isFloat || rm == .rne)

/-- R151, R153: immediate ranges of DIVL and of the shifts. -/
def Src.immLe (b : Src) (n : Nat) : Bool :=
  match b with
  | .r _ => true
  | .i imm => imm.toNat ≤ n

/-- Well-formedness: the instructions whose words pass every check of R101. A device step has no
word and is always well formed. -/
def Instr.wf : Instr → Bool
  | .nop h | .brk h _ | .trap h _ | .eret h _ | .halt h | .mfc h _ _ | .mtc h _ _ | .synci h
  | .scopeof h _ _ _ | .clkrd h _ => h.wf
  | .add h _ _ _ _ | .sub h _ _ _ _ => h.wf
  | .mul h _ _ _ | .mulh h _ _ _ | .mulhu h _ _ _ | .div h _ _ _ | .divu h _ _ _ | .rem h _ _ _
  | .remu h _ _ _ | .madd h _ _ _ _ => h.wf
  | .divl h _ _ b _ => h.wf && b.immLe 62
  | .and h _ _ _ | .or h _ _ _ | .xor h _ _ _ | .andn h _ _ _ | .min h _ _ _ | .max h _ _ _
  | .minu h _ _ _ | .maxu h _ _ _ => h.wf
  | .shl h _ _ b | .shr h _ _ b | .sar h _ _ b | .rol h _ _ b => h.wf && b.immLe 63
  | .clz h _ _ | .ctz h _ _ | .popc h _ _ | .brev h _ _ => h.wf
  | .bfx h _ _ len pos | .bfi h _ _ _ len pos => h.wf && pos.toNat + len.toNat + 1 ≤ 64
  | .sext h _ _ _ | .zext h _ _ _ | .lea h _ _ _ _ _ _ | .sel h _ _ _ _ => h.wf
  | .movi h _ _ _ | .movhi h _ _ _ | .mov h _ _ | .cmp h _ _ _ _ _ | .cmpu h _ _ _ _ _
  | .plog h _ _ => h.wf
  | .pmov h d a => h.wf && (match d, a with | .s _, .s _ => false | _, _ => true)
  | .br h _ | .jmp h _ | .call h _ | .callr h _ | .ret h _ => h.wf
  | .lsetup h a ic _ _ _ => h.wf && (!ic || a == .zr)
  | .lbrk h all l => h.wf && (!all || l == 0)
  | .yield h | .sleep h _ _ => h.wf
  | .waitc h lims =>
    h.wf && limitOk (limit lims 0) && limitOk (limit lims 1) && limitOk (limit lims 2) &&
      limitOk (limit lims 3)
  | .fork h _ _ _ _ | .join h _ _ => h.wf
  | .finit h _ sc _ | .frd h _ _ sc _ | .fwr h _ _ _ sc _ => h.wf && sc != 0
  | .qpush h _ _ _ sc spc | .qpop h _ _ _ sc spc => h.wf && sc != 0 && spc != .g
  | .launch h _ _ _ | .cancel h _ _ _ | .cntrd h _ _ _ => h.wf
  | .ld h _ _ _ _ | .st h _ _ _ _ => h.wf
  | .pfetch h m _ | .cache h _ m _ => h.wf && m.space == .g
  | .amo h _ _ _ _ _ _ | .cas h _ _ _ _ _ _ | .amof h _ _ _ _ _ => h.wf
  | .vld h _ _ _ _ | .vst h _ _ _ _ _ | .vlds h _ _ _ _ _ | .vsts h _ _ _ _ _
  | .vgath h _ _ _ _ _ _ | .vscat h _ _ _ _ _ _ => h.wf
  | .waita h _ _ m _ _ _ | .bari h _ m _ | .bara h _ m | .barw h _ _ m | .barx h _ m _ _ =>
    h.wf && m.space != .g
  | .rfchk h _ _ => h.wf
  | .vadd h _ _ _ _ lt rm ss un | .vsub h _ _ _ _ lt rm ss un | .vmul h _ _ _ _ lt rm ss un
  | .vfma h _ _ _ _ lt rm ss un => h.wf && arithOk lt rm ss un
  | .vmin h _ _ _ _ lt un | .vmax h _ _ _ _ lt un => h.wf && (!lt.isFloat || !un)
  | .vabs h _ _ _ lt ss | .vneg h _ _ _ lt ss => h.wf && (!lt.isFloat || !ss)
  | .vand h _ _ _ _ | .vor h _ _ _ _ | .vxor h _ _ _ _ => h.wf
  | .vshl h _ _ _ _ lt | .vshr h _ _ _ _ lt | .vsar h _ _ _ _ lt => h.wf && !lt.isFloat
  | .vcmp h _ _ _ _ lt el un cc =>
    h.wf && el.toNat < lt.count && (!lt.isFloat || !un) && (lt.isFloat || cc != .un)
  | .vsel h _ _ _ _ => h.wf
  | .vrcp h _ _ _ lt | .vrsq h _ _ _ lt | .vexp2 h _ _ _ lt | .vlog2 h _ _ _ lt
  | .vtanh h _ _ _ lt => h.wf && lt.isFloat
  | .vcvt h _ _ _ dt sty el _ ss => h.wf && cvtOk dt sty el ss
  | .vquant h _ _ _ _ f el rm sr => h.wf && quantFmt f && elOk f el && (!sr || rm == .rne)
  | .vdeq h _ _ _ _ f el _ => h.wf && (quantFmt f || f == .d2s8) && elOk f el
  | .vred h _ _ _ lt rm op un | .vscan h _ _ _ lt rm op un _ => h.wf && redOk lt rm op un
  | .vperm h _ _ _ _ => h.wf
  | .vbcast h _ a _ lane =>
    h.wf && lane.toNat ≤ 47 && (match a with | .s _ => lane == 0 | .v _ => true)
  | .vins h _ _ lane | .vext h _ _ lane => h.wf && lane.toNat ≤ 47
  | .vmask h _ _ | .vpopm h _ _ _ => h.wf
  | .repb h _ _ _ _ cs stp rs rb _ =>
    h.wf && cs != 0 && rs.toNat ≤ 32 && rb.toNat + rs.toNat ≤ 32 &&
      (rs != 0 || (rb == 0 && stp == 0))
  | .tcfg h _ src => h.wf && (match src with | .r _ => true | .i imm => descOk imm)
  | .tld h _ _ _ _ | .tst h _ _ _ _ | .ast h _ _ _ _ => h.wf
  | .tzero h d int => h.wf && (match d with | .t _ => !int | .a _ => true)
  | .ttrn h _ _ | .acvt h _ _ _ _ => h.wf
  | .atov h _ _ _ _ _ row | .vtoa h _ _ _ _ _ row => h.wf && row.toNat ≤ 47
  | .tmma h _ _ _ _ _ _ _ _ | .tsca h _ _ _ _ _ _ _ => h.wf
  | .cpy h _ _ _ _ _ k | .cpy2d h _ _ _ _ _ k | .cpyg h _ _ _ _ _ k | .cpys h _ _ _ _ _ k =>
    h.wf && k.wf
  | .qjoin h _ _ set => h.wf && set != 0
  | .gset h k _ => h.wf && k != 0
  | .send h _ _ _ _ | .sendm h _ _ _ _ _ | .reply h _ _ _ | .adone h | .aretire h | .aexport h _ _
  | .aimport h _ _ _ _ | .aself h _ _ => h.wf
  | .trec h var => h.wf && var != 0
  | .tpatch h _ _ src _ | .tguard h _ _ src => h.wf && src.wf
  | .tseal h _ | .tplay h _ _ => h.wf
  | .tinv h _ b all => h.wf && (!all || b == .zr)
  | .performLoad _ _ | .issueStore _ _ | .storeLeaveBuffer _ _ | .storeClimb _ _
  | .discardSettled _ _ _ | .waitcReturn _ | .waitaWake _ | .barwWake _ | .joinWake _
  | .frdRetry _ | .sleepExpire _ | .adoneDrained _ | .rfchkWaitEnd _ | .exportAnswer _ _
  | .commandAtHead _ _ | .commandBegin _ _ | .copyUnit _ _ _ | .repeatIteration _ _
  | .commandComplete _ _ | .peerAnswer _ _ | .answerTimeout _ | .unitDispatch _ | .replayTake _
  | .replayIssue _ | .replayDrained _ | .messageArrival _ | .importRecord _ | .importCancel _
  | .exportOffer _ _ | .activationDone _ | .statePageNotResident _ | .stateBlockFailed _
  | .runEnded _ | .roomNotice _ | .hardwareErrorNotice _ | .runFailed _ | .writeBackDone _
  | .writeBackFailed _ | .moveDone _ | .moving _ _ | .movingAck _ | .carriedState _ _ _ _ _
  | .moved _ _ _ | .withdraw _ _ _ _ | .idleRetirement _ | .capacityRetirement _
  | .messageAnswer _ | .retryResend _ _ | .watchdogExpire _ | .sliceEnd _ | .switchIn _
  | .clockStepEffective _ | .stepDrift _ | .softError _ | .scrub _ | .pageResponse _ _
  | .walk _ _ _ _ | .xinvcmd _ _ | .migcmd _ _ | .migrationCopy _ | .poolcfgWrite _ _
  | .framecfgWrite _ _ | .eqcfgWrite _ _ | .classInstall _ _ | .installResume _ _
  | .classClear _ _ | .jobReset _ | .jobCancel _ | .debugLookup _ _ | .debugHalt _
  | .debugResume _ | .debugStep _ | .registerWrite _ _ _ | .msemAcquire _ _ | .msemRelease _
  | .leaseExpire | .batchrel _ _ | .packetSubmit _ _ _ | .completionEntry _ _ | .mrbaseWrite _ _
  | .createPartition _ | .destroyPartition _ | .writeRotation _ _ _ _ | .migratePartition _ _ _
  | .bindPort _ | .unbindPort _ | .bindInterface _ _ _ _ _ | .revoke _ _ | .writeRoute _ _ _
  | .firmwareImage _ _ _ _ | .attestationQuote _ _ | .readErrorRing _ | .flitReceive _ _
  | .flitResend _ | .linkDown _ | .flowStopGo _ _ _ | .cxlPostedWrite _ _ _ _ | .cxlRead _ _ _
  | .cxlMemAccess _ _ _ _ | .atsInvalidation _ | .coldReset _ | .warmReset | .powerSample _ _
  | .tplayDrained _ | .linkTrained _ => true

end Sys2Proof
end

