-- ==== Sys2Proof/Decode.lean ====
section
/-! DEFINITION. The 96-bit instruction word: its fields, the checks of R101 in their order, the decoder,
and the encoder written from the same tables. -/

namespace Sys2Proof

/-! ## The word -/

/-- The fields of a word (R90). C is X[51:44], MOD is X[43:32] and IMM32 is X[31:0] in formats R and I;
format M keeps size and kind, SC, ORD and the hint in MOD, format B its 20-bit MOD in C and MOD, and
format E its queue and guard slot in C (R95). -/
structure Fields where
  group : BitVec 6
  func  : BitVec 4
  gd    : BitVec 4
  hn    : BitVec 6
  d     : BitVec 8
  a     : BitVec 8
  b     : BitVec 8
  c     : BitVec 8
  mod   : BitVec 12
  imm   : BitVec 32
deriving DecidableEq, Repr

/-- R90: the places of the fields. -/
def Fields.ofWord (w : IWord) : Fields where
  group := w.extractLsb' 90 6
  func  := w.extractLsb' 86 4
  gd    := w.extractLsb' 82 4
  hn    := w.extractLsb' 76 6
  d     := w.extractLsb' 68 8
  a     := w.extractLsb' 60 8
  b     := w.extractLsb' 52 8
  c     := w.extractLsb' 44 8
  mod   := w.extractLsb' 32 12
  imm   := w.extractLsb' 0 32

/-- R90: the word with these fields. -/
def Fields.toWord (f : Fields) : IWord :=
  f.group ++ f.func ++ f.gd ++ f.hn ++ f.d ++ f.a ++ f.b ++ f.c ++ f.mod ++ f.imm

/-- R101: the check that a word fails; the sub-cause of the ILLEGAL trap is its number. -/
inductive DecodeError where
  /-- GROUP is unassigned. -/
  | badGroup
  /-- FUNC is unassigned in the group. -/
  | badFunc
  /-- GD = 0b1000. -/
  | badGuard
  /-- A must-be-zero bit is 1. -/
  | notZero
  /-- A field holds a reserved or unlisted value. -/
  | badCode
  /-- An operand position breaks R94. -/
  | badOperand
deriving DecidableEq, Repr

/-- The number of the failing check (R101). -/
def DecodeError.check : DecodeError → Nat
  | .badGroup => 1 | .badFunc => 2 | .badGuard => 3 | .notZero => 4 | .badCode => 5 | .badOperand => 6

/-- The number of functions of a group; they are numbered from 0 (R100). -/
def funcCount (g : BitVec 6) : Nat :=
  match g.toNat with
  | 0x00 => 10 | 0x02 => 11 | 0x03 => 12 | 0x04 => 10 | 0x05 => 7 | 0x06 => 10 | 0x07 => 10
  | 0x08 => 7 | 0x09 => 6 | 0x0A => 6 | 0x0B => 8 | 0x0C => 8 | 0x0D => 8 | 0x0E => 8
  | 0x0F => 1 | 0x10 => 9 | 0x11 => 2 | 0x12 => 6 | 0x13 => 8 | 0x14 => 6
  | _ => 0

/-! ## Guard and hints -/

/-- GD and HN (R92, R93). -/
def Hdr.ofFields (gd : BitVec 4) (hn : BitVec 6) : Hdr where
  gneg  := gd.getLsbD 3
  gp    := gd.extractLsb' 0 3
  yld   := hn.getLsbD 5
  ra    := hn.getLsbD 4
  rb    := hn.getLsbD 3
  stall := hn.extractLsb' 0 3

/-- GD of a header (R92). -/
def Hdr.gd (h : Hdr) : BitVec 4 := bit h.gneg ++ h.gp
/-- HN of a header (R93). -/
def Hdr.hn (h : Hdr) : BitVec 6 := bit h.yld ++ bit h.ra ++ bit h.rb ++ h.stall

/-! ## Operand specifiers (R15) -/

/-- The specifier of zr, which every unused position holds (R94). -/
def zrSpec : BitVec 8 := 0xE0

def sSpec : SOp → BitVec 8
  | .r n => (0 : BitVec 3) ++ n
  | .zr => zrSpec
def vSpec (n : BitVec 5) : BitVec 8 := (1 : BitVec 3) ++ n
def pSpec (n : BitVec 3) : BitVec 8 := (0x8 : BitVec 5) ++ n
def mSpec (n : BitVec 3) : BitVec 8 := (0xC : BitVec 5) ++ n
def tSpec (n : BitVec 4) : BitVec 8 := (0x8 : BitVec 4) ++ n
def aSpec (n : BitVec 3) : BitVec 8 := (0x14 : BitVec 5) ++ n
def cSpec (n : BitVec 5) : BitVec 8 := (6 : BitVec 3) ++ n

/-- The register of a specifier of letter S, V, P, M, T, AC or C; none outside that file. -/
def specS (x : BitVec 8) : Option SOp :=
  if x == zrSpec then some .zr
  else if x.extractLsb' 5 3 == 0 then some (.r (x.extractLsb' 0 5)) else none
def specV (x : BitVec 8) : Option (BitVec 5) :=
  if x.extractLsb' 5 3 == 1 then some (x.extractLsb' 0 5) else none
def specP (x : BitVec 8) : Option (BitVec 3) :=
  if x.extractLsb' 3 5 == 0x8 then some (x.extractLsb' 0 3) else none
def specM (x : BitVec 8) : Option (BitVec 3) :=
  if x.extractLsb' 3 5 == 0xC then some (x.extractLsb' 0 3) else none
def specT (x : BitVec 8) : Option (BitVec 4) :=
  if x.extractLsb' 4 4 == 0x8 then some (x.extractLsb' 0 4) else none
def specA (x : BitVec 8) : Option (BitVec 3) :=
  if x.extractLsb' 3 5 == 0x14 then some (x.extractLsb' 0 3) else none
def specC (x : BitVec 8) : Option (BitVec 5) :=
  if x.extractLsb' 5 3 == 6 then some (x.extractLsb' 0 5) else none

/-! ## Codes -/

def LT.code : LT → BitVec 3
  | .f32 => 0 | .bf16x2 => 1 | .f16x2 => 2 | .i32 => 3 | .i16x2 => 4 | .i8x4 => 5
def LT.ofCode (x : BitVec 3) : Option LT :=
  match x.toNat with
  | 0 => some .f32 | 1 => some .bf16x2 | 2 => some .f16x2
  | 3 => some .i32 | 4 => some .i16x2 | 5 => some .i8x4 | _ => none
def RM.code : RM → BitVec 2
  | .rne => 0 | .rtz => 1 | .rdn => 2 | .rup => 3
def RM.ofCode (x : BitVec 2) : RM :=
  match x.toNat with
  | 0 => .rne | 1 => .rtz | 2 => .rdn | _ => .rup
def Sat.code : Sat → BitVec 2
  | .wrap => 0 | .ss => 1 | .us => 2
def Sat.ofCode (x : BitVec 2) : Option Sat :=
  match x.toNat with
  | 0 => some .wrap | 1 => some .ss | 2 => some .us | _ => none
def CC.code : CC → BitVec 3
  | .eq => 0 | .ne => 1 | .lt => 2 | .ge => 3 | .le => 4 | .gt => 5
def CC.ofCode (x : BitVec 3) : Option CC :=
  match x.toNat with
  | 0 => some .eq | 1 => some .ne | 2 => some .lt | 3 => some .ge | 4 => some .le | 5 => some .gt
  | _ => none
def VCC.code : VCC → BitVec 3
  | .eq => 0 | .ne => 1 | .lt => 2 | .ge => 3 | .le => 4 | .gt => 5 | .un => 6
def VCC.ofCode (x : BitVec 3) : Option VCC :=
  match x.toNat with
  | 0 => some .eq | 1 => some .ne | 2 => some .lt | 3 => some .ge | 4 => some .le | 5 => some .gt
  | 6 => some .un | _ => none
def Comb.code : Comb → BitVec 2
  | .set => 0 | .and _ => 1 | .or _ => 2
def Space.code : Space → BitVec 2
  | .g => 0 | .sp => 1 | .cm => 2
def Space.ofCode (x : BitVec 2) : Option Space :=
  match x.toNat with
  | 0 => some .g | 1 => some .sp | 2 => some .cm | _ => none
def CSpace.code : CSpace → BitVec 2
  | .g => 0 | .sp => 1 | .cm => 2 | .arr => 3
def CSpace.ofCode (x : BitVec 2) : CSpace :=
  match x.toNat with
  | 0 => .g | 1 => .sp | 2 => .cm | _ => .arr
def Ord.code : Ord → BitVec 2
  | .pl => 0 | .acq => 1 | .rel => 2 | .ar => 3
def Ord.ofCode (x : BitVec 2) : Ord :=
  match x.toNat with
  | 0 => .pl | 1 => .acq | 2 => .rel | _ => .ar
def Size.code : Size → BitVec 2
  | .d => 0 | .w => 1 | .h => 2 | .b => 3
def Size.ofCode (x : BitVec 2) : Size :=
  match x.toNat with
  | 0 => .d | 1 => .w | 2 => .h | _ => .b
def ESize.code : ESize → BitVec 2
  | .w => 0 | .h => 1 | .b => 2
def ESize.ofCode (x : BitVec 2) : Option ESize :=
  match x.toNat with
  | 0 => some .w | 1 => some .h | 2 => some .b | _ => none
def RedOp.code : RedOp → BitVec 2
  | .add => 0 | .min => 1 | .max => 2
def RedOp.ofCode (x : BitVec 2) : Option RedOp :=
  match x.toNat with
  | 0 => some .add | 1 => some .min | 2 => some .max | _ => none
def AmoOp.code : AmoOp → BitVec 8
  | .add => 1 | .and => 2 | .or => 3 | .xor => 4 | .min => 5 | .max => 6 | .minu => 7 | .maxu => 8
  | .swap => 9
def AmoOp.ofCode (x : BitVec 8) : Option AmoOp :=
  match x.toNat with
  | 1 => some .add | 2 => some .and | 3 => some .or | 4 => some .xor | 5 => some .min | 6 => some .max
  | 7 => some .minu | 8 => some .maxu | 9 => some .swap | _ => none
def AmofOp.code : AmofOp → BitVec 8
  | .fadd => 1 | .fmin => 2 | .fmax => 3 | .fadd2 => 4
def AmofOp.ofCode (x : BitVec 8) : Option AmofOp :=
  match x.toNat with
  | 1 => some .fadd | 2 => some .fmin | 3 => some .fmax | 4 => some .fadd2 | _ => none
def CacheOp.code : CacheOp → BitVec 8
  | .pin => 1 | .unpin => 2 | .inv1 => 3 | .evict2 => 4
def CacheOp.ofCode (x : BitVec 8) : Option CacheOp :=
  match x.toNat with
  | 1 => some .pin | 2 => some .unpin | 3 => some .inv1 | 4 => some .evict2 | _ => none
def WaitCond.code : WaitCond → BitVec 8
  | .eq => 0 | .ne => 1 | .geu => 2 | .ltu => 3 | .any => 4
def WaitCond.ofCode (x : BitVec 8) : Option WaitCond :=
  match x.toNat with
  | 0 => some .eq | 1 => some .ne | 2 => some .geu | 3 => some .ltu | 4 => some .any | _ => none
def Eng.code : Eng → BitVec 2
  | .quill => 0 | .local => 1 | .brush => 2
def Eng.ofCode (x : BitVec 2) : Option Eng :=
  match x.toNat with
  | 0 => some .quill | 1 => some .local | 2 => some .brush | _ => none
def CK.code : CK → BitVec 3
  | .none => 0 | .cwsp => 1 | .cwcm => 2 | .barsp => 3 | .barcm => 4
def CK.ofCode (x : BitVec 3) : Option CK :=
  match x.toNat with
  | 0 => some .none | 1 => some .cwsp | 2 => some .cwcm | 3 => some .barsp | 4 => some .barcm
  | _ => Option.none
def SelfWhat.code : SelfWhat → BitVec 3
  | .key => 0 | .cls => 1 | .frame => 2 | .lines => 3 | .home => 4
def SelfWhat.ofCode (x : BitVec 3) : Option SelfWhat :=
  match x.toNat with
  | 0 => some .key | 1 => some .cls | 2 => some .frame | 3 => some .lines | 4 => some .home | _ => none
def CntWhat.code : CntWhat → BitVec 3
  | .lrem => 0 | .ldone => 1 | .lcan => 2 | .jout => 3 | .jdrop => 4
def CntWhat.ofCode (x : BitVec 3) : Option CntWhat :=
  match x.toNat with
  | 0 => some .lrem | 1 => some .ldone | 2 => some .lcan | 3 => some .jout | 4 => some .jdrop | _ => none
def PKind.code : PKind → BitVec 2
  | .pay => 0 | .frm => 1 | .key => 2 | .fbase => 3
def PKind.ofCode (x : BitVec 2) : PKind :=
  match x.toNat with
  | 0 => .pay | 1 => .frm | 2 => .key | _ => .fbase
/-- KIND and IX in MOD[1:0] and MOD[11:2] (R290). -/
def PSrc.code (p : PSrc) : BitVec 12 := p.ix ++ p.kind.code
def PSrc.ofCode (x : BitVec 12) : PSrc := ⟨PKind.ofCode (x.extractLsb' 0 2), x.extractLsb' 2 10⟩
/-- OP of GSET (R256). -/
def GsetOp.code : GsetOp → BitVec 2
  | .pred _ => 0 | .pass => 1 | .disc => 2 | .empty => 3

/-- Fields of the copy commands in MOD (R249). -/
def CpyMod.modBits (k : CpyMod) : BitVec 12 :=
  k.cs ++ k.eng.code ++ k.dsp.code ++ k.ssp.code ++ bit k.cadd ++ bit k.cfr ++ (0 : BitVec 1)
/-- Fields of the copy commands in IMM32 (R249). -/
def CpyMod.immBits (k : CpyMod) : BitVec 32 := k.ck.code ++ bit k.dir ++ k.coff ++ k.cval
/-- R249: MOD and IMM32 of a copy command; none where ENG or CK holds a reserved code. -/
def CpyMod.ofBits (m : BitVec 12) (i : BitVec 32) : Option CpyMod :=
  match Eng.ofCode (m.extractLsb' 7 2), CK.ofCode (i.extractLsb' 29 3) with
  | some eng, some ck => some {
      cs := m.extractLsb' 9 3, eng, dsp := CSpace.ofCode (m.extractLsb' 5 2),
      ssp := CSpace.ofCode (m.extractLsb' 3 2), cadd := m.getLsbD 2, cfr := m.getLsbD 1, ck,
      dir := i.getLsbD 28, coff := i.extractLsb' 8 20, cval := i.extractLsb' 0 8 }
  | _, _ => none

/-! ## The three kinds of failure -/

/-- Check 4. -/
def zero? (c : Bool) : Except DecodeError Unit := if c then .ok () else .error .notZero
/-- Check 5. -/
def code? (c : Bool) : Except DecodeError Unit := if c then .ok () else .error .badCode
/-- Check 5, for a field that a table decodes. -/
def code {α : Type} (o : Option α) : Except DecodeError α :=
  match o with
  | some a => .ok a
  | none => .error .badCode
/-- Check 6. -/
def operand {α : Type} (o : Option α) : Except DecodeError α :=
  match o with
  | some a => .ok a
  | none => .error .badOperand
/-- Check 6, for unused positions (R94). -/
def unused (x : BitVec 8) : Except DecodeError Unit :=
  if x == zrSpec then .ok () else .error .badOperand

/-- Check 4 of format R: MOD within the defined bits, IMM32 zero. -/
def zeroR (f : Fields) (defined : BitVec 12) : Except DecodeError Unit :=
  zero? (f.mod &&& ~~~defined == 0 && f.imm == 0)
/-- Check 4 of format I: MOD within the defined bits. -/
def zeroI (f : Fields) (defined : BitVec 12) : Except DecodeError Unit :=
  zero? (f.mod &&& ~~~defined == 0)
/-- Check 4 of format R/I: MOD[11] is IS, and with IS = 0 IMM32 is zero (R96). -/
def zeroRI (f : Fields) (defined : BitVec 12) : Except DecodeError Unit :=
  zero? (f.mod &&& ~~~(defined ||| 0x800) == 0 && (f.mod.getLsbD 11 || f.imm == 0))
/-- Check 4 of format B: the 20-bit MOD, C above MOD, within the defined bits (R98). -/
def zeroB (f : Fields) (defined : BitVec 20) : Except DecodeError Unit :=
  zero? ((f.c ++ f.mod) &&& ~~~defined == 0)

/-- Second source of a scalar R/I function (R96). -/
def srcOf (f : Fields) : Except DecodeError Src :=
  if f.mod.getLsbD 11 then do unused f.b; pure (.i f.imm)
  else do let b ← operand (specS f.b); pure (.r b)
/-- Second source of a vector R/I function (R96). -/
def vsrcOf (f : Fields) : Except DecodeError VSrc :=
  if f.mod.getLsbD 11 then do unused f.b; pure (.i f.imm)
  else do let b ← operand (specV f.b); pure (.r b)

def Src.spec : Src → BitVec 8
  | .r b => sSpec b
  | .i _ => zrSpec
def Src.is : Src → Bool
  | .r _ => false
  | .i _ => true
def Src.imm : Src → BitVec 32
  | .r _ => 0
  | .i x => x
def VSrc.spec : VSrc → BitVec 8
  | .r b => vSpec b
  | .i _ => zrSpec
def VSrc.is : VSrc → Bool
  | .r _ => false
  | .i _ => true
def VSrc.imm : VSrc → BitVec 32
  | .r _ => 0
  | .i x => x

/-- The memory operand of a format-M word whose SPACE has passed check 5; its base is check 6. -/
def memOf (f : Fields) (space : Space) : Except DecodeError MemOp := do
  let base ← operand (specS f.a)
  pure { base, off := f.imm, space, sc := f.mod.extractLsb' 5 3, hint := f.mod.extractLsb' 0 3 }

/-- SZ, X[41:40] (R174). -/
def Fields.sz (f : Fields) : BitVec 2 := f.mod.extractLsb' 8 2
/-- ORD, X[36:35] (R97). -/
def Fields.ord (f : Fields) : Ord := Ord.ofCode (f.mod.extractLsb' 3 2)
/-- SPACE, X[43:42] (R174). -/
def Fields.space (f : Fields) : Option Space := Space.ofCode (f.mod.extractLsb' 10 2)

/-- MOD of a format-M word (R95, R174). -/
def MemOp.bits (m : MemOp) (sz : BitVec 2) (ord : Ord) : BitVec 12 :=
  m.space.code ++ sz ++ m.sc ++ ord.code ++ m.hint

/-! ## The decoder, group by group -/

/-- Group 0x00 (R204, R302). -/
def dec00 (h : Hdr) (f : Fields) : Except DecodeError Instr :=
  let d := f.d; let a := f.a; let b := f.b; let c := f.c
  match f.func.toNat with
  | 0 => do zeroR f 0; unused d; unused a; unused b; unused c; pure (.nop h)
  | 1 => do zeroI f 0; unused d; unused a; unused b; unused c; pure (.brk h f.imm)
  | 2 => do zeroI f 0; unused d; unused a; unused b; unused c; pure (.trap h f.imm)
  | 3 => do
    zeroR f 0; unused d; let a ← operand (specS a); unused b; unused c; pure (.eret h a)
  | 4 => do zeroR f 0; unused d; unused a; unused b; unused c; pure (.halt h)
  | 5 => do
    zeroR f 0
    let d ← operand (specS d); let a ← operand (specC a); unused b; unused c; pure (.mfc h d a)
  | 6 => do
    zeroR f 0
    let d ← operand (specC d); let a ← operand (specS a); unused b; unused c; pure (.mtc h d a)
  | 7 => do zeroR f 0; unused d; unused a; unused b; unused c; pure (.synci h)
  | 8 => do
    zeroR f 0
    let d ← operand (specS d); let a ← operand (specS a); let b ← operand (specS b); unused c
    pure (.scopeof h d a b)
  | 9 => do zeroR f 0; let d ← operand (specS d); unused a; unused b; unused c; pure (.clkrd h d)
  | _ => .error .badFunc

/-- The operands of a three-operand scalar R/I word without C. -/
def opsRI (f : Fields) : Except DecodeError (SOp × SOp × Src) := do
  let d ← operand (specS f.d); let a ← operand (specS f.a); let b ← srcOf f; unused f.c
  pure (d, a, b)

/-- Group 0x02 (R147). -/
def dec02 (h : Hdr) (f : Fields) : Except DecodeError Instr :=
  match f.func.toNat with
  | 0 => do
    zeroRI f 0x600; let sm ← code (Sat.ofCode (f.mod.extractLsb' 9 2))
    let (d, a, b) ← opsRI f; pure (.add h d a b sm)
  | 1 => do
    zeroRI f 0x600; let sm ← code (Sat.ofCode (f.mod.extractLsb' 9 2))
    let (d, a, b) ← opsRI f; pure (.sub h d a b sm)
  | 2 => do zeroRI f 0; let (d, a, b) ← opsRI f; pure (.mul h d a b)
  | 3 => do zeroRI f 0; let (d, a, b) ← opsRI f; pure (.mulh h d a b)
  | 4 => do zeroRI f 0; let (d, a, b) ← opsRI f; pure (.mulhu h d a b)
  | 5 => do zeroRI f 0; let (d, a, b) ← opsRI f; pure (.div h d a b)
  | 6 => do zeroRI f 0; let (d, a, b) ← opsRI f; pure (.divu h d a b)
  | 7 => do zeroRI f 0; let (d, a, b) ← opsRI f; pure (.rem h d a b)
  | 8 => do zeroRI f 0; let (d, a, b) ← opsRI f; pure (.remu h d a b)
  | 9 => do
    zeroR f 0
    let d ← operand (specS f.d); let a ← operand (specS f.a); let b ← operand (specS f.b)
    let c ← operand (specS f.c); pure (.madd h d a b c)
  | 10 => do
    zeroRI f 0x400; code? (!f.mod.getLsbD 11 || f.imm.toNat ≤ 62)
    let (d, a, b) ← opsRI f; pure (.divl h d a b (f.mod.getLsbD 10))
  | _ => .error .badFunc

/-- Group 0x03 (R152, R153). -/
def dec03 (h : Hdr) (f : Fields) : Except DecodeError Instr :=
  match f.func.toNat with
  | 0 => do zeroRI f 0; let (d, a, b) ← opsRI f; pure (.and h d a b)
  | 1 => do zeroRI f 0; let (d, a, b) ← opsRI f; pure (.or h d a b)
  | 2 => do zeroRI f 0; let (d, a, b) ← opsRI f; pure (.xor h d a b)
  | 3 => do zeroRI f 0; let (d, a, b) ← opsRI f; pure (.andn h d a b)
  | 4 => do
    zeroRI f 0; code? (!f.mod.getLsbD 11 || f.imm.toNat ≤ 63)
    let (d, a, b) ← opsRI f; pure (.shl h d a b)
  | 5 => do
    zeroRI f 0; code? (!f.mod.getLsbD 11 || f.imm.toNat ≤ 63)
    let (d, a, b) ← opsRI f; pure (.shr h d a b)
  | 6 => do
    zeroRI f 0; code? (!f.mod.getLsbD 11 || f.imm.toNat ≤ 63)
    let (d, a, b) ← opsRI f; pure (.sar h d a b)
  | 7 => do
    zeroRI f 0; code? (!f.mod.getLsbD 11 || f.imm.toNat ≤ 63)
    let (d, a, b) ← opsRI f; pure (.rol h d a b)
  | 8 => do zeroRI f 0; let (d, a, b) ← opsRI f; pure (.min h d a b)
  | 9 => do zeroRI f 0; let (d, a, b) ← opsRI f; pure (.max h d a b)
  | 10 => do zeroRI f 0; let (d, a, b) ← opsRI f; pure (.minu h d a b)
  | 11 => do zeroRI f 0; let (d, a, b) ← opsRI f; pure (.maxu h d a b)
  | _ => .error .badFunc

/-- The operands of a two-operand scalar word: D and A are S, B and C unused. -/
def opsDA (f : Fields) : Except DecodeError (SOp × SOp) := do
  let d ← operand (specS f.d); let a ← operand (specS f.a); unused f.b; unused f.c; pure (d, a)

/-- LEN − 1 and AT (R154). -/
def Fields.len (f : Fields) : BitVec 6 := f.mod.extractLsb' 6 6
def Fields.at6 (f : Fields) : BitVec 6 := f.mod.extractLsb' 0 6

/-- Group 0x04 (R154, R156). -/
def dec04 (h : Hdr) (f : Fields) : Except DecodeError Instr :=
  match f.func.toNat with
  | 0 => do zeroR f 0; let (d, a) ← opsDA f; pure (.clz h d a)
  | 1 => do zeroR f 0; let (d, a) ← opsDA f; pure (.ctz h d a)
  | 2 => do zeroR f 0; let (d, a) ← opsDA f; pure (.popc h d a)
  | 3 => do zeroR f 0; let (d, a) ← opsDA f; pure (.brev h d a)
  | 4 => do
    zeroR f 0xFFF; code? (f.at6.toNat + f.len.toNat + 1 ≤ 64)
    let (d, a) ← opsDA f; pure (.bfx h d a f.len f.at6)
  | 5 => do
    zeroR f 0xFFF; code? (f.at6.toNat + f.len.toNat + 1 ≤ 64)
    let d ← operand (specS f.d); let a ← operand (specS f.a); let b ← operand (specS f.b); unused f.c
    pure (.bfi h d a b f.len f.at6)
  | 6 => do zeroR f 0xFC0; let (d, a) ← opsDA f; pure (.sext h d a f.len)
  | 7 => do zeroR f 0xFC0; let (d, a) ← opsDA f; pure (.zext h d a f.len)
  | 8 => do
    zeroI f 0x07F
    let d ← operand (specS f.d); let a ← operand (specS f.a); let b ← operand (specS f.b); unused f.c
    pure (.lea h d a b (f.mod.getLsbD 6) f.at6 f.imm)
  | 9 => do
    zeroR f 0
    let d ← operand (specS f.d); let a ← operand (specS f.a); let b ← operand (specS f.b)
    let c ← operand (specP f.c); pure (.sel h d a b c)
  | _ => .error .badFunc

/-- CB with its C operand (R161); CB has passed check 5. -/
def combOf (f : Fields) : Except DecodeError Comb :=
  match (f.mod.extractLsb' 3 2).toNat with
  | 0 => do unused f.c; pure .set
  | 1 => do let c ← operand (specP f.c); pure (.and c)
  | _ => do let c ← operand (specP f.c); pure (.or c)

/-- The operands of CMP and CMPU (R159, R161). -/
def cmpOf (f : Fields) : Except DecodeError (BitVec 3 × SOp × Src × CC × Comb) := do
  zeroRI f 0x01F
  let cc ← code (CC.ofCode (f.mod.extractLsb' 0 3))
  code? (f.mod.extractLsb' 3 2 != 3)
  let d ← operand (specP f.d); let a ← operand (specS f.a); let b ← srcOf f; let cb ← combOf f
  pure (d, a, b, cc, cb)

/-- The operands of PLOG: all predicates or all masks (R162). -/
def plogOps (f : Fields) : Option PlogOps :=
  match specP f.d, specP f.a, specP f.b with
  | some d, some a, some b => some (.p d a b)
  | _, _, _ =>
    match specM f.d, specM f.a, specM f.b with
    | some d, some a, some b => some (.m d a b)
    | _, _, _ => none

/-- PMOV's operand: predicate, mask or scalar (R163). -/
def pmsOf (x : BitVec 8) : Option PMS :=
  match specP x, specM x, specS x with
  | some p, _, _ => some (.p p)
  | none, some m, _ => some (.m m)
  | none, none, some s => some (.s s)
  | none, none, none => none

/-- PMOV from scalar to scalar is refused (R163). -/
def pmovOps (f : Fields) : Option (PMS × PMS) :=
  match pmsOf f.d, pmsOf f.a with
  | some (.s _), some (.s _) => none
  | some d, some a => some (d, a)
  | _, _ => none

/-- Group 0x05 (R159). -/
def dec05 (h : Hdr) (f : Fields) : Except DecodeError Instr :=
  match f.func.toNat with
  | 0 => do
    zeroI f 0x001
    let d ← operand (specS f.d); unused f.a; unused f.b; unused f.c
    pure (.movi h d (f.mod.getLsbD 0) f.imm)
  | 1 => do zeroI f 0; let (d, a) ← opsDA f; pure (.movhi h d a f.imm)
  | 2 => do zeroR f 0; let (d, a) ← opsDA f; pure (.mov h d a)
  | 3 => do let (d, a, b, cc, cb) ← cmpOf f; pure (.cmp h d a b cc cb)
  | 4 => do let (d, a, b, cc, cb) ← cmpOf f; pure (.cmpu h d a b cc cb)
  | 5 => do
    zeroR f 0x00F; let ops ← operand (plogOps f); unused f.c
    pure (.plog h ops (f.mod.extractLsb' 0 4))
  | 6 => do
    zeroR f 0; let (d, a) ← operand (pmovOps f); unused f.b; unused f.c; pure (.pmov h d a)
  | _ => .error .badFunc

/-- Group 0x06 (R164). -/
def dec06 (h : Hdr) (f : Fields) : Except DecodeError Instr :=
  match f.func.toNat with
  | 0 => do zeroB f 0; unused f.d; unused f.a; unused f.b; pure (.br h f.imm)
  | 1 => do
    zeroR f 0; unused f.d; let a ← operand (specS f.a); unused f.b; unused f.c; pure (.jmp h a)
  | 2 => do zeroB f 0; unused f.d; unused f.a; unused f.b; pure (.call h f.imm)
  | 3 => do
    zeroR f 0; unused f.d; let a ← operand (specS f.a); unused f.b; unused f.c; pure (.callr h a)
  | 4 => do
    zeroR f 0; unused f.d; let a ← operand (specS f.a); unused f.b; unused f.c; pure (.ret h a)
  | 5 => do
    zeroB f 0x7FFFF; unused f.d
    let a ← operand (specS f.a)
    unused f.b
    if f.mod.getLsbD 2 then unused f.a
    pure (.lsetup h a (f.mod.getLsbD 2) ((f.c ++ f.mod).extractLsb' 3 16) (f.mod.extractLsb' 0 2) f.imm)
  | 6 => do
    zeroR f 0x007; code? (!f.mod.getLsbD 2 || f.mod.extractLsb' 0 2 == 0)
    unused f.d; unused f.a; unused f.b; unused f.c
    pure (.lbrk h (f.mod.getLsbD 2) (f.mod.extractLsb' 0 2))
  | 7 => do zeroR f 0; unused f.d; unused f.a; unused f.b; unused f.c; pure (.yield h)
  | 8 => do
    zeroI f 0
    code? (limitOk (limit f.imm 0) && limitOk (limit f.imm 1) && limitOk (limit f.imm 2) &&
      limitOk (limit f.imm 3))
    unused f.d; unused f.a; unused f.b; unused f.c; pure (.waitc h f.imm)
  | 9 => do
    zeroI f 0; unused f.d; let a ← operand (specS f.a); unused f.b; unused f.c
    pure (.sleep h a f.imm)
  | _ => .error .badFunc

/-- SC and SPACE in MOD[4:2] and MOD[1:0] (R273), checked under check 5. -/
def scSpace (f : Fields) (onchip : Bool) : Except DecodeError (BitVec 3 × Space) := do
  zeroR f 0x01F
  let spc ← code (Space.ofCode (f.mod.extractLsb' 0 2))
  code? (f.mod.extractLsb' 2 3 != 0 && !(onchip && spc == .g))
  pure (f.mod.extractLsb' 2 3, spc)

/-- Group 0x07 (R273). -/
def dec07 (h : Hdr) (f : Fields) : Except DecodeError Instr :=
  match f.func.toNat with
  | 0 => do
    zeroB f 0x00001
    let d ← operand (specP f.d); let a ← operand (specS f.a); unused f.b
    pure (.fork h d a (f.mod.getLsbD 0) f.imm)
  | 1 => do
    zeroR f 0x001; unused f.d; let a ← operand (specS f.a); unused f.b; unused f.c
    pure (.join h a (f.mod.getLsbD 0))
  | 2 => do
    let (sc, spc) ← scSpace f false
    unused f.d; let a ← operand (specS f.a); unused f.b; unused f.c; pure (.finit h a sc spc)
  | 3 => do let (sc, spc) ← scSpace f false; let (d, a) ← opsDA f; pure (.frd h d a sc spc)
  | 4 => do
    let (sc, spc) ← scSpace f false
    let d ← operand (specP f.d); let a ← operand (specS f.a); let b ← operand (specS f.b); unused f.c
    pure (.fwr h d a b sc spc)
  | 5 => do
    let (sc, spc) ← scSpace f true
    let d ← operand (specP f.d); let a ← operand (specS f.a); let b ← operand (specS f.b); unused f.c
    pure (.qpush h d a b sc spc)
  | 6 => do
    let (sc, spc) ← scSpace f true
    let d ← operand (specS f.d); let a ← operand (specS f.a); unused f.b; let c ← operand (specP f.c)
    pure (.qpop h d a c sc spc)
  | 7 => do
    zeroR f 0x003; let spc ← code (Space.ofCode (f.mod.extractLsb' 0 2))
    let (d, a) ← opsDA f; pure (.launch h d a spc)
  | 8 => do
    zeroR f 0x001
    let d ← operand (specP f.d); let a ← operand (specS f.a); unused f.b; unused f.c
    pure (.cancel h d a (f.mod.getLsbD 0))
  | 9 => do
    zeroR f 0x007; let w ← code (CntWhat.ofCode (f.mod.extractLsb' 0 3))
    let (d, a) ← opsDA f; pure (.cntrd h d a w)
  | _ => .error .badFunc

/-- A format-M word of access kind `allowed`: SPACE listed, SZ accepted, ORD accepted (R97, R177). -/
def memCodes (f : Fields) (sz : BitVec 2 → Bool) (ord : Ord → Bool) (onchip : Bool) :
    Except DecodeError Space := do
  let spc ← code f.space
  code? (sz f.sz && ord f.ord && !(onchip && spc == .g))
  pure spc

def anySz (_ : BitVec 2) : Bool := true
def sz0 (s : BitVec 2) : Bool := s == 0
def szLe1 (s : BitVec 2) : Bool := s.toNat ≤ 1
def szLe2 (s : BitVec 2) : Bool := s.toNat ≤ 2
def sz1 (s : BitVec 2) : Bool := s == 1
def ordPl (o : Ord) : Bool := o == .pl
def ordAcq (o : Ord) : Bool := o == .pl || o == .acq
def ordRel (o : Ord) : Bool := o == .pl || o == .rel
def ordAny (_ : Ord) : Bool := true

/-- A destination of file 2 that also takes zr. -/
def specPZ (x : BitVec 8) : Option PZ :=
  if x == zrSpec then some .zr
  else match specP x with
    | some p => some (.p p)
    | none => none

/-- Group 0x08 (R177, R179). -/
def dec08 (h : Hdr) (f : Fields) : Except DecodeError Instr :=
  match f.func.toNat with
  | 0 => do
    let spc ← memCodes f anySz ordAcq false
    let d ← operand (specS f.d); let m ← memOf f spc; unused f.b; unused f.c
    pure (.ld h d m (Size.ofCode f.sz) (f.ord == .acq))
  | 1 => do
    let spc ← memCodes f anySz ordRel false
    unused f.d; let m ← memOf f spc; let b ← operand (specS f.b); unused f.c
    pure (.st h b m (Size.ofCode f.sz) (f.ord == .rel))
  | 2 => do
    let spc ← memCodes f szLe1 ordPl false; code? (spc == .g)
    unused f.d; let m ← memOf f spc; unused f.b; unused f.c
    pure (.pfetch h m (f.sz == 1))
  | 3 => do
    let spc ← memCodes f sz0 ordPl false; code? (spc == .g); let op ← code (CacheOp.ofCode f.c)
    let d ← operand (specPZ f.d); let m ← memOf f spc; unused f.b
    pure (.cache h d m op)
  | 4 => do
    let spc ← memCodes f szLe1 ordAny false; let op ← code (AmoOp.ofCode f.c)
    let d ← operand (specS f.d); let m ← memOf f spc; let b ← operand (specS f.b)
    pure (.amo h d b m (f.sz == 1) f.ord op)
  | 5 => do
    let spc ← memCodes f szLe1 ordAny false
    let d ← operand (specS f.d); let m ← memOf f spc; let b ← operand (specS f.b)
    let c ← operand (specS f.c)
    pure (.cas h d b c m (f.sz == 1) f.ord)
  | 6 => do
    let spc ← memCodes f sz1 ordAny false; let op ← code (AmofOp.ofCode f.c)
    let d ← operand (specS f.d); let m ← memOf f spc; let b ← operand (specS f.b)
    pure (.amof h d b m f.ord op)
  | _ => .error .badFunc

/-- The nibble-mask operand of VST: V where SZ = 1, unused where SZ = 0 (R179). -/
def nibOf (f : Fields) : Except DecodeError (Option (BitVec 5)) :=
  if f.sz == 1 then do let v ← operand (specV f.d); pure (some v)
  else do unused f.d; pure none

/-- Group 0x09 (R177, R179). -/
def dec09 (h : Hdr) (f : Fields) : Except DecodeError Instr :=
  match f.func.toNat with
  | 0 => do
    let spc ← memCodes f sz0 ordAcq false
    let d ← operand (specV f.d); let m ← memOf f spc; unused f.b; let c ← operand (specM f.c)
    pure (.vld h d m c (f.ord == .acq))
  | 1 => do
    let spc ← memCodes f szLe1 ordRel false
    let n ← nibOf f; let m ← memOf f spc; let b ← operand (specV f.b); let c ← operand (specM f.c)
    pure (.vst h n b m c (f.ord == .rel))
  | 2 => do
    let spc ← memCodes f sz0 ordAcq false
    let d ← operand (specV f.d); let m ← memOf f spc; let b ← operand (specS f.b)
    let c ← operand (specM f.c); pure (.vlds h d b m c (f.ord == .acq))
  | 3 => do
    let spc ← memCodes f sz0 ordRel false
    let d ← operand (specV f.d); let m ← memOf f spc; let b ← operand (specS f.b)
    let c ← operand (specM f.c); pure (.vsts h d b m c (f.ord == .rel))
  | 4 => do
    let spc ← memCodes f szLe2 ordAcq false; let e ← code (ESize.ofCode f.sz)
    let d ← operand (specV f.d); let m ← memOf f spc; let b ← operand (specV f.b)
    let c ← operand (specM f.c); pure (.vgath h d b m c e (f.ord == .acq))
  | 5 => do
    let spc ← memCodes f szLe2 ordRel false; let e ← code (ESize.ofCode f.sz)
    let d ← operand (specV f.d); let m ← memOf f spc; let b ← operand (specV f.b)
    let c ← operand (specM f.c); pure (.vscat h d b m c e (f.ord == .rel))
  | _ => .error .badFunc

/-- Group 0x0A (R177, R179, R203). -/
def dec0A (h : Hdr) (f : Fields) : Except DecodeError Instr :=
  match f.func.toNat with
  | 0 => do
    let spc ← memCodes f szLe1 ordAcq true; let cond ← code (WaitCond.ofCode f.c)
    let d ← operand (specS f.d); let m ← memOf f spc; let b ← operand (specS f.b)
    pure (.waita h d b m (f.sz == 1) (f.ord == .acq) cond)
  | 1 => do
    let spc ← memCodes f sz0 ordRel true
    unused f.d; let m ← memOf f spc; let b ← operand (specS f.b); unused f.c
    pure (.bari h b m (f.ord == .rel))
  | 2 => do
    let spc ← memCodes f sz0 (· == .rel) true
    let d ← operand (specS f.d); let m ← memOf f spc; unused f.b; unused f.c
    pure (.bara h d m)
  | 3 => do
    let spc ← memCodes f sz0 (· == .acq) true
    let d ← operand (specS f.d); let m ← memOf f spc; let b ← operand (specS f.b); unused f.c
    pure (.barw h d b m)
  | 4 => do
    let spc ← memCodes f sz0 (fun o => o == .rel || o == .ar) true; code? (f.c.toNat ≤ 1)
    let d ← operand (specS f.d); let m ← memOf f spc; unused f.b
    pure (.barx h d m (f.ord == .ar) (f.c == 1))
  | 5 => do
    zeroR f 0x001
    let d ← operand (specPZ f.d); unused f.a; unused f.b; unused f.c
    pure (.rfchk h d (f.mod.getLsbD 0))
  | _ => .error .badFunc

/-- LT in MOD[10:8] and RM in MOD[7:6] (R209, R220). -/
def Fields.lt (f : Fields) : Option LT := LT.ofCode (f.mod.extractLsb' 8 3)
def Fields.rm (f : Fields) : RM := RM.ofCode (f.mod.extractLsb' 6 2)

/-- D, A and C of a vector word: V, V and M, with the second source (R209). -/
def opsVRI (f : Fields) : Except DecodeError (BitVec 5 × BitVec 5 × VSrc × BitVec 3) := do
  let d ← operand (specV f.d); let a ← operand (specV f.a); let b ← vsrcOf f
  let c ← operand (specM f.c); pure (d, a, b, c)
/-- D, A and C of a vector word without B. -/
def opsVDA (f : Fields) : Except DecodeError (BitVec 5 × BitVec 5 × BitVec 3) := do
  let d ← operand (specV f.d); let a ← operand (specV f.a); unused f.b
  let c ← operand (specM f.c); pure (d, a, c)

/-- LT, RM, SS and UN of VADD, VSUB, VMUL and VFMA (R209). -/
def arithCodes (f : Fields) : Except DecodeError (LT × RM × Bool × Bool) := do
  zeroRI f 0x7F0
  let lt ← code f.lt
  code? (arithOk lt f.rm (f.mod.getLsbD 5) (f.mod.getLsbD 4))
  pure (lt, f.rm, f.mod.getLsbD 5, f.mod.getLsbD 4)

/-- Group 0x0B (R209). -/
def dec0B (h : Hdr) (f : Fields) : Except DecodeError Instr :=
  match f.func.toNat with
  | 0 => do
    let (lt, rm, ss, un) ← arithCodes f; let (d, a, b, c) ← opsVRI f
    pure (.vadd h d a b c lt rm ss un)
  | 1 => do
    let (lt, rm, ss, un) ← arithCodes f; let (d, a, b, c) ← opsVRI f
    pure (.vsub h d a b c lt rm ss un)
  | 2 => do
    let (lt, rm, ss, un) ← arithCodes f; let (d, a, b, c) ← opsVRI f
    pure (.vmul h d a b c lt rm ss un)
  | 3 => do
    let (lt, rm, ss, un) ← arithCodes f; let (d, a, b, c) ← opsVRI f
    pure (.vfma h d a b c lt rm ss un)
  | 4 => do
    zeroRI f 0x710; let lt ← code f.lt; code? (!lt.isFloat || !f.mod.getLsbD 4)
    let (d, a, b, c) ← opsVRI f; pure (.vmin h d a b c lt (f.mod.getLsbD 4))
  | 5 => do
    zeroRI f 0x710; let lt ← code f.lt; code? (!lt.isFloat || !f.mod.getLsbD 4)
    let (d, a, b, c) ← opsVRI f; pure (.vmax h d a b c lt (f.mod.getLsbD 4))
  | 6 => do
    zeroR f 0x720; let lt ← code f.lt; code? (!lt.isFloat || !f.mod.getLsbD 5)
    let (d, a, c) ← opsVDA f; pure (.vabs h d a c lt (f.mod.getLsbD 5))
  | 7 => do
    zeroR f 0x720; let lt ← code f.lt; code? (!lt.isFloat || !f.mod.getLsbD 5)
    let (d, a, c) ← opsVDA f; pure (.vneg h d a c lt (f.mod.getLsbD 5))
  | _ => .error .badFunc

/-- Group 0x0C (R212, R213). -/
def dec0C (h : Hdr) (f : Fields) : Except DecodeError Instr :=
  match f.func.toNat with
  | 0 => do zeroRI f 0; let (d, a, b, c) ← opsVRI f; pure (.vand h d a b c)
  | 1 => do zeroRI f 0; let (d, a, b, c) ← opsVRI f; pure (.vor h d a b c)
  | 2 => do zeroRI f 0; let (d, a, b, c) ← opsVRI f; pure (.vxor h d a b c)
  | 3 => do
    zeroRI f 0x700; let lt ← code f.lt; code? (!lt.isFloat)
    let (d, a, b, c) ← opsVRI f; pure (.vshl h d a b c lt)
  | 4 => do
    zeroRI f 0x700; let lt ← code f.lt; code? (!lt.isFloat)
    let (d, a, b, c) ← opsVRI f; pure (.vshr h d a b c lt)
  | 5 => do
    zeroRI f 0x700; let lt ← code f.lt; code? (!lt.isFloat)
    let (d, a, b, c) ← opsVRI f; pure (.vsar h d a b c lt)
  | 6 => do
    zeroRI f 0x777; let lt ← code f.lt; let cc ← code (VCC.ofCode (f.mod.extractLsb' 0 3))
    code? ((f.mod.extractLsb' 5 2).toNat < lt.count && (!lt.isFloat || !f.mod.getLsbD 4) &&
      (lt.isFloat || cc != .un))
    let d ← operand (specM f.d); let a ← operand (specV f.a); let b ← vsrcOf f
    let c ← operand (specM f.c)
    pure (.vcmp h d a b c lt (f.mod.extractLsb' 5 2) (f.mod.getLsbD 4) cc)
  | 7 => do
    zeroR f 0
    let d ← operand (specV f.d); let a ← operand (specV f.a); let b ← operand (specV f.b)
    let c ← operand (specM f.c); pure (.vsel h d a b c)
  | _ => .error .badFunc

/-- LT of the special functions, floats only (R215). -/
def fnCodes (f : Fields) : Except DecodeError LT := do
  zeroR f 0x700; let lt ← code f.lt; code? lt.isFloat; pure lt

/-- Group 0x0D (R215-R219). -/
def dec0D (h : Hdr) (f : Fields) : Except DecodeError Instr :=
  match f.func.toNat with
  | 0 => do let lt ← fnCodes f; let (d, a, c) ← opsVDA f; pure (.vrcp h d a c lt)
  | 1 => do let lt ← fnCodes f; let (d, a, c) ← opsVDA f; pure (.vrsq h d a c lt)
  | 2 => do let lt ← fnCodes f; let (d, a, c) ← opsVDA f; pure (.vexp2 h d a c lt)
  | 3 => do let lt ← fnCodes f; let (d, a, c) ← opsVDA f; pure (.vlog2 h d a c lt)
  | 4 => do let lt ← fnCodes f; let (d, a, c) ← opsVDA f; pure (.vtanh h d a c lt)
  | 5 => do
    zeroR f 0x7FF
    let dt ← code f.lt; let st ← code (LT.ofCode (f.mod.extractLsb' 5 3))
    code? (cvtOk dt st (f.mod.extractLsb' 3 2) (f.mod.getLsbD 0))
    let (d, a, c) ← opsVDA f
    pure (.vcvt h d a c dt st (f.mod.extractLsb' 3 2) (RM.ofCode (f.mod.extractLsb' 1 2))
      (f.mod.getLsbD 0))
  | 6 => do
    zeroR f 0xFFC
    let fmt ← code (Fmt.ofCode (f.mod.extractLsb' 8 4))
    code? (quantFmt fmt && elOk fmt (f.mod.extractLsb' 5 3) &&
      (!f.mod.getLsbD 2 || f.mod.extractLsb' 3 2 == 0))
    let d ← operand (specV f.d); let a ← operand (specV f.a); let b ← operand (specV f.b)
    let c ← operand (specM f.c)
    pure (.vquant h d a b c fmt (f.mod.extractLsb' 5 3) (RM.ofCode (f.mod.extractLsb' 3 2))
      (f.mod.getLsbD 2))
  | 7 => do
    zeroR f 0xFF8
    let fmt ← code (Fmt.ofCode (f.mod.extractLsb' 8 4))
    code? ((quantFmt fmt || fmt == .d2s8) && elOk fmt (f.mod.extractLsb' 5 3))
    let d ← operand (specV f.d); let a ← operand (specV f.a); let b ← operand (specV f.b)
    let c ← operand (specM f.c)
    pure (.vdeq h d a b c fmt (f.mod.extractLsb' 5 3) (RM.ofCode (f.mod.extractLsb' 3 2)))
  | _ => .error .badFunc

/-- LT, RM, OP and UN of VRED and VSCAN (R220, R221). -/
def redCodes (f : Fields) (defined : BitVec 12) : Except DecodeError (LT × RM × RedOp × Bool) := do
  zeroR f defined
  let lt ← code f.lt; let op ← code (RedOp.ofCode (f.mod.extractLsb' 4 2))
  code? (redOk lt f.rm op (f.mod.getLsbD 3))
  pure (lt, f.rm, op, f.mod.getLsbD 3)

/-- VBCAST's source (R220). -/
def svOf (x : BitVec 8) : Option SV :=
  match specS x, specV x with
  | some s, _ => some (.s s)
  | none, some v => some (.v v)
  | none, none => none

/-- VMASK's operand by OP (R223); OP has passed check 5. -/
def maskSrcOf (f : Fields) : Option MaskSrc :=
  match (f.mod.extractLsb' 0 2).toNat with
  | 0 => match specS f.a with
    | some a => some (.lt a)
    | none => none
  | 1 => match specV f.a with
    | some a => some (.nz a)
    | none => none
  | _ => match specM f.a with
    | some a => some (.first a)
    | none => none

/-- Group 0x0E (R220-R223). -/
def dec0E (h : Hdr) (f : Fields) : Except DecodeError Instr :=
  match f.func.toNat with
  | 0 => do
    let (lt, rm, op, un) ← redCodes f 0x7F8
    let d ← operand (specS f.d); let a ← operand (specV f.a); unused f.b; let c ← operand (specM f.c)
    pure (.vred h d a c lt rm op un)
  | 1 => do
    let (lt, rm, op, un) ← redCodes f 0x7FC
    let (d, a, c) ← opsVDA f; pure (.vscan h d a c lt rm op un (f.mod.getLsbD 2))
  | 2 => do
    zeroR f 0
    let d ← operand (specV f.d); let a ← operand (specV f.a); let b ← operand (specV f.b)
    let c ← operand (specM f.c); pure (.vperm h d a b c)
  | 3 => do
    zeroR f 0x03F
    code? (f.at6.toNat ≤ 47 && (f.at6 == 0 || (specS f.a).isNone))
    let d ← operand (specV f.d); let a ← operand (svOf f.a); unused f.b; let c ← operand (specM f.c)
    pure (.vbcast h d a c f.at6)
  | 4 => do
    zeroI f 0; code? (f.imm.toNat ≤ 47)
    let d ← operand (specV f.d); let a ← operand (specS f.a); unused f.b; unused f.c
    pure (.vins h d a (f.imm.extractLsb' 0 6))
  | 5 => do
    zeroI f 0; code? (f.imm.toNat ≤ 47)
    let d ← operand (specS f.d); let a ← operand (specV f.a); unused f.b; unused f.c
    pure (.vext h d a (f.imm.extractLsb' 0 6))
  | 6 => do
    zeroR f 0x003; code? (f.mod.extractLsb' 0 2 != 3)
    let d ← operand (specM f.d); let s ← operand (maskSrcOf f); unused f.b; unused f.c
    pure (.vmask h d s)
  | 7 => do
    zeroR f 0x001
    let d ← operand (specS f.d); let a ← operand (specM f.a); unused f.b; unused f.c
    pure (.vpopm h d a (f.mod.getLsbD 0))
  | _ => .error .badFunc

/-- Queue and guard slot of a format-E word (R99). -/
def Fields.queue (f : Fields) : BitVec 4 := f.c.extractLsb' 4 4
def Fields.slot (f : Fields) : BitVec 4 := f.c.extractLsb' 0 4

/-- RS, RB and ST of REPB (R224). -/
def repbOk (f : Fields) : Bool :=
  let rs := (f.imm.extractLsb' 21 6).toNat
  let rb := (f.imm.extractLsb' 16 5).toNat
  f.queue == 3 && f.mod.extractLsb' 5 3 != 0 && rs ≤ 32 && rb + rs ≤ 32 &&
    (rs != 0 || (rb == 0 && f.imm.extractLsb' 27 5 == 0))

/-- Group 0x0F (R224). -/
def dec0F (h : Hdr) (f : Fields) : Except DecodeError Instr :=
  match f.func.toNat with
  | 0 => do
    zeroI f 0xFE0; code? (repbOk f)
    unused f.d; let a ← operand (specS f.a); let b ← operand (specS f.b)
    pure (.repb h a b f.slot (f.mod.extractLsb' 8 4) (f.mod.extractLsb' 5 3) (f.imm.extractLsb' 27 5)
      (f.imm.extractLsb' 21 6) (f.imm.extractLsb' 16 5) (f.imm.extractLsb' 0 16))
  | _ => .error .badFunc

/-- A tile or an accumulator. -/
def taOf (x : BitVec 8) : Option TA :=
  match specT x, specA x with
  | some t, _ => some (.t t)
  | none, some a => some (.a a)
  | none, none => none

/-- TCFG's value (R236): check 5 on IMM32, check 6 on A. -/
def tcfgOf (f : Fields) : Except DecodeError TcfgSrc :=
  if f.mod.getLsbD 0 then do let a ← operand (specS f.a); pure (.r a)
  else do unused f.a; pure (.i f.imm)

/-- Group 0x10 (R235, R236, R238, R241). -/
def dec10 (h : Hdr) (f : Fields) : Except DecodeError Instr :=
  match f.func.toNat with
  | 0 => do
    zeroI f 0x001; code? (if f.mod.getLsbD 0 then f.imm == 0 else descOk f.imm)
    let d ← operand (specT f.d); let src ← tcfgOf f; unused f.b; unused f.c
    pure (.tcfg h d src)
  | 1 => do
    let spc ← memCodes f sz0 ordAcq false
    let d ← operand (specT f.d); let m ← memOf f spc; unused f.b; let c ← operand (specS f.c)
    pure (.tld h d c m (f.ord == .acq))
  | 2 => do
    let spc ← memCodes f sz0 ordRel false
    unused f.d; let m ← memOf f spc; let b ← operand (specT f.b); let c ← operand (specS f.c)
    pure (.tst h b c m (f.ord == .rel))
  | 3 => do
    zeroR f 0x001; code? (!f.mod.getLsbD 0 || (specT f.d).isNone)
    let d ← operand (taOf f.d); unused f.a; unused f.b; unused f.c
    pure (.tzero h d (f.mod.getLsbD 0))
  | 4 => do
    zeroR f 0
    let d ← operand (specT f.d); let a ← operand (specT f.a); unused f.b; unused f.c
    pure (.ttrn h d a)
  | 5 => do
    zeroR f 0x007
    let d ← operand (taOf f.d); let a ← operand (specA f.a); unused f.b; unused f.c
    pure (.acvt h d a (f.mod.getLsbD 2) (RM.ofCode (f.mod.extractLsb' 0 2)))
  | 6 => do
    let spc ← memCodes f sz0 ordRel false
    unused f.d; let m ← memOf f spc; let b ← operand (specA f.b); let c ← operand (specS f.c)
    pure (.ast h b c m (f.ord == .rel))
  | 7 => do
    zeroR f 0x07F; code? (f.at6.toNat ≤ 47)
    let d ← operand (specV f.d); let a ← operand (specA f.a); let b ← operand (specS f.b)
    let c ← operand (specM f.c); pure (.atov h d a b c (f.mod.getLsbD 6) f.at6)
  | 8 => do
    zeroR f 0x07F; code? (f.at6.toNat ≤ 47)
    let d ← operand (specA f.d); let a ← operand (specV f.a); let b ← operand (specS f.b)
    let c ← operand (specM f.c); pure (.vtoa h d a b c (f.mod.getLsbD 6) f.at6)
  | _ => .error .badFunc

/-- Group 0x11 (R243). -/
def dec11 (h : Hdr) (f : Fields) : Except DecodeError Instr :=
  match f.func.toNat with
  | 0 => do
    zeroI f 0x003; code? (f.queue == 0 && f.imm.extractLsb' 16 16 == 0)
    let d ← operand (specA f.d); let a ← operand (specT f.a); let b ← operand (specT f.b)
    pure (.tmma h d a b f.slot (f.mod.getLsbD 1) (f.mod.getLsbD 0) (f.imm.extractLsb' 8 8)
      (f.imm.extractLsb' 0 8))
  | 1 => do
    zeroI f 0x003; code? (f.queue == 0 && f.imm.extractLsb' 5 27 == 0)
    let d ← operand (specA f.d); let a ← operand (specA f.a); let b ← operand (specV f.b)
    pure (.tsca h d a b (f.imm.extractLsb' 0 5) f.slot (f.mod.getLsbD 1) (f.mod.getLsbD 0))
  | _ => .error .badFunc

/-- The fields of a copy command (R249): queue 1 or 2, the copy fields, and D, A, B. -/
def cpyOf (f : Fields) : Except DecodeError (SOp × SOp × SOp × Bool × BitVec 4 × CpyMod) := do
  zeroI f 0xFFE
  let k ← code (CpyMod.ofBits f.mod f.imm)
  code? ((f.queue == 1 || f.queue == 2) && k.wf)
  let d ← operand (specS f.d); let a ← operand (specS f.a); let b ← operand (specS f.b)
  pure (d, a, b, f.queue == 2, f.slot, k)

/-- GSET's operand by OP (R256). -/
def gsetOf (f : Fields) : Except DecodeError GsetOp :=
  match (f.mod.extractLsb' 4 2).toNat with
  | 0 => do let a ← operand (specP f.a); pure (.pred a)
  | 1 => do unused f.a; pure .pass
  | 2 => do unused f.a; pure .disc
  | _ => do unused f.a; pure .empty

/-- Group 0x12 (R249, R255, R256). -/
def dec12 (h : Hdr) (f : Fields) : Except DecodeError Instr :=
  match f.func.toNat with
  | 0 => do let (d, a, b, q2, slot, k) ← cpyOf f; pure (.cpy h d a b q2 slot k)
  | 1 => do let (d, a, b, q2, slot, k) ← cpyOf f; pure (.cpy2d h d a b q2 slot k)
  | 2 => do let (d, a, b, q2, slot, k) ← cpyOf f; pure (.cpyg h d a b q2 slot k)
  | 3 => do let (d, a, b, q2, slot, k) ← cpyOf f; pure (.cpys h d a b q2 slot k)
  | 4 => do
    zeroI f 0x00F; code? (f.queue.toNat ≤ 3 && f.mod.extractLsb' 0 4 != 0 && f.imm == 0)
    unused f.d; unused f.a; unused f.b
    pure (.qjoin h (f.queue.extractLsb' 0 2) f.slot (f.mod.extractLsb' 0 4))
  | 5 => do
    zeroR f 0x03F; code? (f.mod.extractLsb' 0 4 != 0)
    unused f.d; let op ← gsetOf f; unused f.b; unused f.c
    pure (.gset h (f.mod.extractLsb' 0 4) op)
  | _ => .error .badFunc

/-- Group 0x13 (R266, R269-R272). -/
def dec13 (h : Hdr) (f : Fields) : Except DecodeError Instr :=
  match f.func.toNat with
  | 0 => do
    zeroR f 0
    let d ← operand (specP f.d); let a ← operand (specS f.a); let b ← operand (specV f.b)
    let c ← operand (specS f.c); pure (.send h d a b c)
  | 1 => do
    zeroR f 0x003; let spc ← code (Space.ofCode (f.mod.extractLsb' 0 2))
    let d ← operand (specP f.d); let a ← operand (specS f.a); let b ← operand (specS f.b)
    let c ← operand (specS f.c); pure (.sendm h d a b c spc)
  | 2 => do
    zeroR f 0
    let d ← operand (specP f.d); unused f.a; let b ← operand (specV f.b)
    let c ← operand (specS f.c); pure (.reply h d b c)
  | 3 => do zeroR f 0; unused f.d; unused f.a; unused f.b; unused f.c; pure (.adone h)
  | 4 => do zeroR f 0; unused f.d; unused f.a; unused f.b; unused f.c; pure (.aretire h)
  | 5 => do
    zeroR f 0
    let d ← operand (specP f.d); let a ← operand (specS f.a); unused f.b; unused f.c
    pure (.aexport h d a)
  | 6 => do
    zeroR f 0x001
    let d ← operand (specP f.d); let a ← operand (specS f.a); let b ← operand (specS f.b); unused f.c
    pure (.aimport h d a b (f.mod.getLsbD 0))
  | 7 => do
    zeroR f 0x007; let w ← code (SelfWhat.ofCode (f.mod.extractLsb' 0 3))
    let d ← operand (specS f.d); unused f.a; unused f.b; unused f.c; pure (.aself h d w)
  | _ => .error .badFunc

/-- Group 0x14 (R290, R296). -/
def dec14 (h : Hdr) (f : Fields) : Except DecodeError Instr :=
  match f.func.toNat with
  | 0 => do
    zeroR f 0x00F; code? (f.mod.extractLsb' 0 4 != 0)
    unused f.d; unused f.a; unused f.b; unused f.c; pure (.trec h (f.mod.extractLsb' 0 4))
  | 1 => do
    zeroI f 0xFFF; code? (PSrc.ofCode f.mod).wf
    let (d, a) ← opsDA f; pure (.tpatch h d a (PSrc.ofCode f.mod) f.imm)
  | 2 => do
    zeroR f 0xFFF; code? (PSrc.ofCode f.mod).wf
    let d ← operand (specS f.d); unused f.a; let b ← operand (specS f.b); unused f.c
    pure (.tguard h d b (PSrc.ofCode f.mod))
  | 3 => do
    zeroR f 0; let d ← operand (specP f.d); unused f.a; unused f.b; unused f.c; pure (.tseal h d)
  | 4 => do
    zeroR f 0x00F; let d ← operand (specP f.d); unused f.a; unused f.b; unused f.c
    pure (.tplay h d (f.mod.extractLsb' 0 4))
  | 5 => do
    zeroR f 0x001; unused f.d
    let a ← operand (specS f.a); let b ← operand (specS f.b); unused f.c
    if f.mod.getLsbD 0 then unused f.b
    pure (.tinv h a b (f.mod.getLsbD 0))
  | _ => .error .badFunc

/-- The instruction of a group and function whose GD has passed check 3. -/
def decGroup (h : Hdr) (f : Fields) : Except DecodeError Instr :=
  match f.group.toNat with
  | 0x00 => dec00 h f | 0x02 => dec02 h f | 0x03 => dec03 h f | 0x04 => dec04 h f
  | 0x05 => dec05 h f | 0x06 => dec06 h f | 0x07 => dec07 h f | 0x08 => dec08 h f
  | 0x09 => dec09 h f | 0x0A => dec0A h f | 0x0B => dec0B h f | 0x0C => dec0C h f
  | 0x0D => dec0D h f | 0x0E => dec0E h f | 0x0F => dec0F h f | 0x10 => dec10 h f
  | 0x11 => dec11 h f | 0x12 => dec12 h f | 0x13 => dec13 h f | 0x14 => dec14 h f
  | _ => .error .badGroup

/-- R101: the six checks in their order. -/
def decodeFields (f : Fields) : Except DecodeError Instr :=
  if funcCount f.group = 0 then .error .badGroup
  else if funcCount f.group ≤ f.func.toNat then .error .badFunc
  else if f.gd == 8 then .error .badGuard
  else decGroup (Hdr.ofFields f.gd f.hn) f

/-- The instruction of a word, or the failing check (R101). -/
def decode (w : IWord) : Except DecodeError Instr := decodeFields (Fields.ofWord w)

/-- The little-endian word of 12 bytes (R91). -/
def wordOfBytes (bs : List Byte) : IWord :=
  (bs.zipIdx).foldl (fun (w : IWord) (p : Byte × Nat) => w ||| ((p.1.zeroExtend 96) <<< (8 * p.2))) 0

/-- The first instruction of a byte string and the bytes after it; fewer than 12 bytes hold none. -/
def decodeBytes (bs : List Byte) : Option (Except DecodeError Instr × List Byte) :=
  if bs.length < 12 then none else some (decode (wordOfBytes (bs.take 12)), bs.drop 12)

/-- The instruction whose bits, numbered from the least significant bit of the first byte, are w. -/
def decodeTableWord (_nbits w : Nat) : Option Instr :=
  match decode (BitVec.ofNat 96 w) with
  | .ok i => some i
  | .error _ => none

/-! ## The encoder -/

/-- A word in format R or I (R95). -/
def fR (g : BitVec 6) (fn : BitVec 4) (h : Hdr) (d a b c : BitVec 8) (mod : BitVec 12)
    (imm : BitVec 32) : Fields :=
  { group := g, func := fn, gd := h.gd, hn := h.hn, d, a, b, c, mod, imm }

/-- A word in format B: C and MOD hold the 20-bit MOD (R95). -/
def fB (g : BitVec 6) (fn : BitVec 4) (h : Hdr) (d a : BitVec 8) (mod20 : BitVec 20)
    (off : BitVec 32) : Fields :=
  { group := g, func := fn, gd := h.gd, hn := h.hn, d, a, b := zrSpec,
    c := mod20.extractLsb' 12 8, mod := mod20.extractLsb' 0 12, imm := off }

/-- A word in format M (R95, R97). -/
def fM (g : BitVec 6) (fn : BitVec 4) (h : Hdr) (d b c : BitVec 8) (m : MemOp) (sz : BitVec 2)
    (ord : Ord) : Fields :=
  { group := g, func := fn, gd := h.gd, hn := h.hn, d, a := sSpec m.base, b, c,
    mod := m.bits sz ord, imm := m.off }

/-- A word in format E (R95). -/
def fE (g : BitVec 6) (fn : BitVec 4) (h : Hdr) (d a b : BitVec 8) (q slot : BitVec 4)
    (mod : BitVec 12) (imm : BitVec 32) : Fields :=
  { group := g, func := fn, gd := h.gd, hn := h.hn, d, a, b, c := q ++ slot, mod, imm }

/-- MOD of a scalar R/I word with no other field. -/
def isMod (b : Src) : BitVec 12 := bit b.is ++ (0 : BitVec 11)
def visMod (b : VSrc) : BitVec 12 := bit b.is ++ (0 : BitVec 11)

def acqOrd (a : Bool) : Ord := if a then .acq else .pl
def relOrd (r : Bool) : Ord := if r then .rel else .pl

def PZ.spec : PZ → BitVec 8
  | .p n => pSpec n
  | .zr => zrSpec
def PMS.spec : PMS → BitVec 8
  | .p n => pSpec n
  | .m n => mSpec n
  | .s r => sSpec r
def SV.spec : SV → BitVec 8
  | .s r => sSpec r
  | .v n => vSpec n
def TA.spec : TA → BitVec 8
  | .t n => tSpec n
  | .a n => aSpec n
def Comb.spec : Comb → BitVec 8
  | .set => zrSpec
  | .and c => pSpec c
  | .or c => pSpec c

/-- Scalar word with D, A and a second source (R147, R152). -/
def fRI (g : BitVec 6) (fn : BitVec 4) (h : Hdr) (d a : SOp) (b : Src) (mod : BitVec 12) : Fields :=
  fR g fn h (sSpec d) (sSpec a) b.spec zrSpec mod b.imm
/-- Scalar word with D and A only. -/
def fDA (g : BitVec 6) (fn : BitVec 4) (h : Hdr) (d a : SOp) (mod : BitVec 12) : Fields :=
  fR g fn h (sSpec d) (sSpec a) zrSpec zrSpec mod 0
/-- Vector word with D, A, a second source and a mask (R209). -/
def fVRI (g : BitVec 6) (fn : BitVec 4) (h : Hdr) (d a : BitVec 5) (b : VSrc) (c : BitVec 3)
    (mod : BitVec 12) : Fields :=
  fR g fn h (vSpec d) (vSpec a) b.spec (mSpec c) mod b.imm
/-- Vector word with D, A and a mask. -/
def fVDA (g : BitVec 6) (fn : BitVec 4) (h : Hdr) (d a : BitVec 5) (c : BitVec 3)
    (mod : BitVec 12) : Fields :=
  fR g fn h (vSpec d) (vSpec a) zrSpec (mSpec c) mod 0
/-- A word that uses no operand position. -/
def f0 (g : BitVec 6) (fn : BitVec 4) (h : Hdr) (mod : BitVec 12) (imm : BitVec 32) : Fields :=
  fR g fn h zrSpec zrSpec zrSpec zrSpec mod imm

/-- MOD of VADD, VSUB, VMUL and VFMA (R209). -/
def arithMod (b : VSrc) (lt : LT) (rm : RM) (ss un : Bool) : BitVec 12 :=
  bit b.is ++ lt.code ++ rm.code ++ bit ss ++ bit un ++ (0 : BitVec 4)
/-- MOD of VMIN and VMAX (R209). -/
def mmMod (b : VSrc) (lt : LT) (un : Bool) : BitVec 12 :=
  bit b.is ++ lt.code ++ (0 : BitVec 3) ++ bit un ++ (0 : BitVec 4)
/-- MOD of VABS and VNEG (R209). -/
def absMod (lt : LT) (ss : Bool) : BitVec 12 :=
  (0 : BitVec 1) ++ lt.code ++ (0 : BitVec 2) ++ bit ss ++ (0 : BitVec 5)
/-- MOD of the lane shifts (R212). -/
def shMod (b : VSrc) (lt : LT) : BitVec 12 := bit b.is ++ lt.code ++ (0 : BitVec 8)
/-- MOD of VRED and VSCAN (R220). -/
def redMod (lt : LT) (rm : RM) (op : RedOp) (un ex : Bool) : BitVec 12 :=
  (0 : BitVec 1) ++ lt.code ++ rm.code ++ op.code ++ bit un ++ bit ex ++ (0 : BitVec 2)
/-- MOD of CMP and CMPU (R159). -/
def cmpMod (b : Src) (cc : CC) (cb : Comb) : BitVec 12 :=
  bit b.is ++ (0 : BitVec 6) ++ cb.code ++ cc.code
/-- MOD with SC and SPACE (R273). -/
def scMod (sc : BitVec 3) (spc : Space) : BitVec 12 := (0 : BitVec 7) ++ sc ++ spc.code
/-- A MOD whose only field is its lowest bit. -/
def bit0 (b : Bool) : BitVec 12 := (0 : BitVec 11) ++ bit b

/-- The fields of an instruction's word; a device step has none. -/
def encodeFields : Instr → Option Fields
  | .nop h => some (f0 0x00 0 h 0 0)
  | .brk h imm => some (f0 0x00 1 h 0 imm)
  | .trap h imm => some (f0 0x00 2 h 0 imm)
  | .eret h a => some (fR 0x00 3 h zrSpec (sSpec a) zrSpec zrSpec 0 0)
  | .halt h => some (f0 0x00 4 h 0 0)
  | .mfc h d c => some (fR 0x00 5 h (sSpec d) (cSpec c) zrSpec zrSpec 0 0)
  | .mtc h c a => some (fR 0x00 6 h (cSpec c) (sSpec a) zrSpec zrSpec 0 0)
  | .synci h => some (f0 0x00 7 h 0 0)
  | .scopeof h d a b => some (fR 0x00 8 h (sSpec d) (sSpec a) (sSpec b) zrSpec 0 0)
  | .clkrd h d => some (fR 0x00 9 h (sSpec d) zrSpec zrSpec zrSpec 0 0)
  | .add h d a b sm => some (fRI 0x02 0 h d a b (bit b.is ++ sm.code ++ (0 : BitVec 9)))
  | .sub h d a b sm => some (fRI 0x02 1 h d a b (bit b.is ++ sm.code ++ (0 : BitVec 9)))
  | .mul h d a b => some (fRI 0x02 2 h d a b (isMod b))
  | .mulh h d a b => some (fRI 0x02 3 h d a b (isMod b))
  | .mulhu h d a b => some (fRI 0x02 4 h d a b (isMod b))
  | .div h d a b => some (fRI 0x02 5 h d a b (isMod b))
  | .divu h d a b => some (fRI 0x02 6 h d a b (isMod b))
  | .rem h d a b => some (fRI 0x02 7 h d a b (isMod b))
  | .remu h d a b => some (fRI 0x02 8 h d a b (isMod b))
  | .madd h d a b c => some (fR 0x02 9 h (sSpec d) (sSpec a) (sSpec b) (sSpec c) 0 0)
  | .divl h d a b qr => some (fRI 0x02 10 h d a b (bit b.is ++ bit qr ++ (0 : BitVec 10)))
  | .and h d a b => some (fRI 0x03 0 h d a b (isMod b))
  | .or h d a b => some (fRI 0x03 1 h d a b (isMod b))
  | .xor h d a b => some (fRI 0x03 2 h d a b (isMod b))
  | .andn h d a b => some (fRI 0x03 3 h d a b (isMod b))
  | .shl h d a b => some (fRI 0x03 4 h d a b (isMod b))
  | .shr h d a b => some (fRI 0x03 5 h d a b (isMod b))
  | .sar h d a b => some (fRI 0x03 6 h d a b (isMod b))
  | .rol h d a b => some (fRI 0x03 7 h d a b (isMod b))
  | .min h d a b => some (fRI 0x03 8 h d a b (isMod b))
  | .max h d a b => some (fRI 0x03 9 h d a b (isMod b))
  | .minu h d a b => some (fRI 0x03 10 h d a b (isMod b))
  | .maxu h d a b => some (fRI 0x03 11 h d a b (isMod b))
  | .clz h d a => some (fDA 0x04 0 h d a 0)
  | .ctz h d a => some (fDA 0x04 1 h d a 0)
  | .popc h d a => some (fDA 0x04 2 h d a 0)
  | .brev h d a => some (fDA 0x04 3 h d a 0)
  | .bfx h d a len pos => some (fDA 0x04 4 h d a (len ++ pos))
  | .bfi h d a b len pos => some (fR 0x04 5 h (sSpec d) (sSpec a) (sSpec b) zrSpec (len ++ pos) 0)
  | .sext h d a len => some (fDA 0x04 6 h d a (len ++ (0 : BitVec 6)))
  | .zext h d a len => some (fDA 0x04 7 h d a (len ++ (0 : BitVec 6)))
  | .lea h d a b x3 k imm =>
    some (fR 0x04 8 h (sSpec d) (sSpec a) (sSpec b) zrSpec ((0 : BitVec 5) ++ bit x3 ++ k) imm)
  | .sel h d a b c => some (fR 0x04 9 h (sSpec d) (sSpec a) (sSpec b) (pSpec c) 0 0)
  | .movi h d zx imm => some (fR 0x05 0 h (sSpec d) zrSpec zrSpec zrSpec (bit0 zx) imm)
  | .movhi h d a imm => some (fR 0x05 1 h (sSpec d) (sSpec a) zrSpec zrSpec 0 imm)
  | .mov h d a => some (fDA 0x05 2 h d a 0)
  | .cmp h d a b cc cb => some (fR 0x05 3 h (pSpec d) (sSpec a) b.spec cb.spec (cmpMod b cc cb) b.imm)
  | .cmpu h d a b cc cb => some (fR 0x05 4 h (pSpec d) (sSpec a) b.spec cb.spec (cmpMod b cc cb) b.imm)
  | .plog h (.p d a b) tt => some (fR 0x05 5 h (pSpec d) (pSpec a) (pSpec b) zrSpec ((0 : BitVec 8) ++ tt) 0)
  | .plog h (.m d a b) tt => some (fR 0x05 5 h (mSpec d) (mSpec a) (mSpec b) zrSpec ((0 : BitVec 8) ++ tt) 0)
  | .pmov h d a => some (fR 0x05 6 h d.spec a.spec zrSpec zrSpec 0 0)
  | .br h off => some (fB 0x06 0 h zrSpec zrSpec 0 off)
  | .jmp h a => some (fR 0x06 1 h zrSpec (sSpec a) zrSpec zrSpec 0 0)
  | .call h off => some (fB 0x06 2 h zrSpec zrSpec 0 off)
  | .callr h a => some (fR 0x06 3 h zrSpec (sSpec a) zrSpec zrSpec 0 0)
  | .ret h a => some (fR 0x06 4 h zrSpec (sSpec a) zrSpec zrSpec 0 0)
  | .lsetup h a ic cnt l off => some (fB 0x06 5 h zrSpec (sSpec a) ((0 : BitVec 1) ++ cnt ++ bit ic ++ l) off)
  | .lbrk h all l => some (f0 0x06 6 h ((0 : BitVec 9) ++ bit all ++ l) 0)
  | .yield h => some (f0 0x06 7 h 0 0)
  | .waitc h lims => some (f0 0x06 8 h 0 lims)
  | .sleep h a imm => some (fR 0x06 9 h zrSpec (sSpec a) zrSpec zrSpec 0 imm)
  | .fork h d a cmc off => some (fB 0x07 0 h (pSpec d) (sSpec a) ((0 : BitVec 19) ++ bit cmc) off)
  | .join h a cmc => some (fR 0x07 1 h zrSpec (sSpec a) zrSpec zrSpec (bit0 cmc) 0)
  | .finit h a sc spc => some (fR 0x07 2 h zrSpec (sSpec a) zrSpec zrSpec (scMod sc spc) 0)
  | .frd h d a sc spc => some (fDA 0x07 3 h d a (scMod sc spc))
  | .fwr h d a b sc spc => some (fR 0x07 4 h (pSpec d) (sSpec a) (sSpec b) zrSpec (scMod sc spc) 0)
  | .qpush h d a b sc spc => some (fR 0x07 5 h (pSpec d) (sSpec a) (sSpec b) zrSpec (scMod sc spc) 0)
  | .qpop h d a c sc spc => some (fR 0x07 6 h (sSpec d) (sSpec a) zrSpec (pSpec c) (scMod sc spc) 0)
  | .launch h d a spc => some (fDA 0x07 7 h d a ((0 : BitVec 10) ++ spc.code))
  | .cancel h d a jb => some (fR 0x07 8 h (pSpec d) (sSpec a) zrSpec zrSpec (bit0 jb) 0)
  | .cntrd h d a w => some (fDA 0x07 9 h d a ((0 : BitVec 9) ++ w.code))
  | .ld h d m sz acq => some (fM 0x08 0 h (sSpec d) zrSpec zrSpec m sz.code (acqOrd acq))
  | .st h b m sz rel => some (fM 0x08 1 h zrSpec (sSpec b) zrSpec m sz.code (relOrd rel))
  | .pfetch h m l2 => some (fM 0x08 2 h zrSpec zrSpec zrSpec m ((0 : BitVec 1) ++ bit l2) .pl)
  | .cache h d m op => some (fM 0x08 3 h d.spec zrSpec op.code m 0 .pl)
  | .amo h d b m w4 ord op => some (fM 0x08 4 h (sSpec d) (sSpec b) op.code m ((0 : BitVec 1) ++ bit w4) ord)
  | .cas h d b c m w4 ord => some (fM 0x08 5 h (sSpec d) (sSpec b) (sSpec c) m ((0 : BitVec 1) ++ bit w4) ord)
  | .amof h d b m ord op => some (fM 0x08 6 h (sSpec d) (sSpec b) op.code m 1 ord)
  | .vld h d m c acq => some (fM 0x09 0 h (vSpec d) zrSpec (mSpec c) m 0 (acqOrd acq))
  | .vst h none b m c rel => some (fM 0x09 1 h zrSpec (vSpec b) (mSpec c) m 0 (relOrd rel))
  | .vst h (some n) b m c rel => some (fM 0x09 1 h (vSpec n) (vSpec b) (mSpec c) m 1 (relOrd rel))
  | .vlds h d b m c acq => some (fM 0x09 2 h (vSpec d) (sSpec b) (mSpec c) m 0 (acqOrd acq))
  | .vsts h d b m c rel => some (fM 0x09 3 h (vSpec d) (sSpec b) (mSpec c) m 0 (relOrd rel))
  | .vgath h d b m c e acq => some (fM 0x09 4 h (vSpec d) (vSpec b) (mSpec c) m e.code (acqOrd acq))
  | .vscat h d b m c e rel => some (fM 0x09 5 h (vSpec d) (vSpec b) (mSpec c) m e.code (relOrd rel))
  | .waita h d b m w4 acq cond =>
    some (fM 0x0A 0 h (sSpec d) (sSpec b) cond.code m ((0 : BitVec 1) ++ bit w4) (acqOrd acq))
  | .bari h b m rel => some (fM 0x0A 1 h zrSpec (sSpec b) zrSpec m 0 (relOrd rel))
  | .bara h d m => some (fM 0x0A 2 h (sSpec d) zrSpec zrSpec m 0 .rel)
  | .barw h d b m => some (fM 0x0A 3 h (sSpec d) (sSpec b) zrSpec m 0 .acq)
  | .barx h d m ar ab =>
    some (fM 0x0A 4 h (sSpec d) zrSpec ((0 : BitVec 7) ++ bit ab) m 0 (if ar then .ar else .rel))
  | .rfchk h d wt => some (fR 0x0A 5 h d.spec zrSpec zrSpec zrSpec (bit0 wt) 0)
  | .vadd h d a b c lt rm ss un => some (fVRI 0x0B 0 h d a b c (arithMod b lt rm ss un))
  | .vsub h d a b c lt rm ss un => some (fVRI 0x0B 1 h d a b c (arithMod b lt rm ss un))
  | .vmul h d a b c lt rm ss un => some (fVRI 0x0B 2 h d a b c (arithMod b lt rm ss un))
  | .vfma h d a b c lt rm ss un => some (fVRI 0x0B 3 h d a b c (arithMod b lt rm ss un))
  | .vmin h d a b c lt un => some (fVRI 0x0B 4 h d a b c (mmMod b lt un))
  | .vmax h d a b c lt un => some (fVRI 0x0B 5 h d a b c (mmMod b lt un))
  | .vabs h d a c lt ss => some (fVDA 0x0B 6 h d a c (absMod lt ss))
  | .vneg h d a c lt ss => some (fVDA 0x0B 7 h d a c (absMod lt ss))
  | .vand h d a b c => some (fVRI 0x0C 0 h d a b c (visMod b))
  | .vor h d a b c => some (fVRI 0x0C 1 h d a b c (visMod b))
  | .vxor h d a b c => some (fVRI 0x0C 2 h d a b c (visMod b))
  | .vshl h d a b c lt => some (fVRI 0x0C 3 h d a b c (shMod b lt))
  | .vshr h d a b c lt => some (fVRI 0x0C 4 h d a b c (shMod b lt))
  | .vsar h d a b c lt => some (fVRI 0x0C 5 h d a b c (shMod b lt))
  | .vcmp h d a b c lt el un cc =>
    some (fR 0x0C 6 h (mSpec d) (vSpec a) b.spec (mSpec c)
      (bit b.is ++ lt.code ++ (0 : BitVec 1) ++ el ++ bit un ++ (0 : BitVec 1) ++ cc.code) b.imm)
  | .vsel h d a b c => some (fR 0x0C 7 h (vSpec d) (vSpec a) (vSpec b) (mSpec c) 0 0)
  | .vrcp h d a c lt => some (fVDA 0x0D 0 h d a c ((0 : BitVec 1) ++ lt.code ++ (0 : BitVec 8)))
  | .vrsq h d a c lt => some (fVDA 0x0D 1 h d a c ((0 : BitVec 1) ++ lt.code ++ (0 : BitVec 8)))
  | .vexp2 h d a c lt => some (fVDA 0x0D 2 h d a c ((0 : BitVec 1) ++ lt.code ++ (0 : BitVec 8)))
  | .vlog2 h d a c lt => some (fVDA 0x0D 3 h d a c ((0 : BitVec 1) ++ lt.code ++ (0 : BitVec 8)))
  | .vtanh h d a c lt => some (fVDA 0x0D 4 h d a c ((0 : BitVec 1) ++ lt.code ++ (0 : BitVec 8)))
  | .vcvt h d a c dt st el rm ss =>
    some (fVDA 0x0D 5 h d a c ((0 : BitVec 1) ++ dt.code ++ st.code ++ el ++ rm.code ++ bit ss))
  | .vquant h d a b c fmt el rm sr =>
    some (fR 0x0D 6 h (vSpec d) (vSpec a) (vSpec b) (mSpec c)
      (fmt.code ++ el ++ rm.code ++ bit sr ++ (0 : BitVec 2)) 0)
  | .vdeq h d a b c fmt el rm =>
    some (fR 0x0D 7 h (vSpec d) (vSpec a) (vSpec b) (mSpec c)
      (fmt.code ++ el ++ rm.code ++ (0 : BitVec 3)) 0)
  | .vred h d a c lt rm op un =>
    some (fR 0x0E 0 h (sSpec d) (vSpec a) zrSpec (mSpec c) (redMod lt rm op un false) 0)
  | .vscan h d a c lt rm op un ex => some (fVDA 0x0E 1 h d a c (redMod lt rm op un ex))
  | .vperm h d a b c => some (fR 0x0E 2 h (vSpec d) (vSpec a) (vSpec b) (mSpec c) 0 0)
  | .vbcast h d a c lane =>
    some (fR 0x0E 3 h (vSpec d) a.spec zrSpec (mSpec c) ((0 : BitVec 6) ++ lane) 0)
  | .vins h d a lane => some (fR 0x0E 4 h (vSpec d) (sSpec a) zrSpec zrSpec 0 ((0 : BitVec 26) ++ lane))
  | .vext h d a lane => some (fR 0x0E 5 h (sSpec d) (vSpec a) zrSpec zrSpec 0 ((0 : BitVec 26) ++ lane))
  | .vmask h d (.lt a) => some (fR 0x0E 6 h (mSpec d) (sSpec a) zrSpec zrSpec 0 0)
  | .vmask h d (.nz a) => some (fR 0x0E 6 h (mSpec d) (vSpec a) zrSpec zrSpec 1 0)
  | .vmask h d (.first a) => some (fR 0x0E 6 h (mSpec d) (mSpec a) zrSpec zrSpec 2 0)
  | .vpopm h d a ff => some (fR 0x0E 7 h (sSpec d) (mSpec a) zrSpec zrSpec (bit0 ff) 0)
  | .repb h a b slot n cs st rs rb count =>
    some (fE 0x0F 0 h zrSpec (sSpec a) (sSpec b) 3 slot (n ++ cs ++ (0 : BitVec 5))
      (st ++ rs ++ rb ++ count))
  | .tcfg h d (.r a) => some (fR 0x10 0 h (tSpec d) (sSpec a) zrSpec zrSpec 1 0)
  | .tcfg h d (.i imm) => some (fR 0x10 0 h (tSpec d) zrSpec zrSpec zrSpec 0 imm)
  | .tld h d c m acq => some (fM 0x10 1 h (tSpec d) zrSpec (sSpec c) m 0 (acqOrd acq))
  | .tst h b c m rel => some (fM 0x10 2 h zrSpec (tSpec b) (sSpec c) m 0 (relOrd rel))
  | .tzero h d int => some (fR 0x10 3 h d.spec zrSpec zrSpec zrSpec (bit0 int) 0)
  | .ttrn h d a => some (fR 0x10 4 h (tSpec d) (tSpec a) zrSpec zrSpec 0 0)
  | .acvt h d a ss rm =>
    some (fR 0x10 5 h d.spec (aSpec a) zrSpec zrSpec ((0 : BitVec 9) ++ bit ss ++ rm.code) 0)
  | .ast h b c m rel => some (fM 0x10 6 h zrSpec (aSpec b) (sSpec c) m 0 (relOrd rel))
  | .atov h d a b c col row =>
    some (fR 0x10 7 h (vSpec d) (aSpec a) (sSpec b) (mSpec c) ((0 : BitVec 5) ++ bit col ++ row) 0)
  | .vtoa h d a b c col row =>
    some (fR 0x10 8 h (aSpec d) (vSpec a) (sSpec b) (mSpec c) ((0 : BitVec 5) ++ bit col ++ row) 0)
  | .tmma h d a b slot za sat ko kc =>
    some (fE 0x11 0 h (aSpec d) (tSpec a) (tSpec b) 0 slot ((0 : BitVec 10) ++ bit za ++ bit sat)
      ((0 : BitVec 16) ++ ko ++ kc))
  | .tsca h d a b cv slot za fs =>
    some (fE 0x11 1 h (aSpec d) (aSpec a) (vSpec b) 0 slot ((0 : BitVec 10) ++ bit za ++ bit fs)
      ((0 : BitVec 27) ++ cv))
  | .cpy h d a b q2 slot k =>
    some (fE 0x12 0 h (sSpec d) (sSpec a) (sSpec b) (if q2 then 2 else 1) slot k.modBits k.immBits)
  | .cpy2d h d a b q2 slot k =>
    some (fE 0x12 1 h (sSpec d) (sSpec a) (sSpec b) (if q2 then 2 else 1) slot k.modBits k.immBits)
  | .cpyg h d a b q2 slot k =>
    some (fE 0x12 2 h (sSpec d) (sSpec a) (sSpec b) (if q2 then 2 else 1) slot k.modBits k.immBits)
  | .cpys h d a b q2 slot k =>
    some (fE 0x12 3 h (sSpec d) (sSpec a) (sSpec b) (if q2 then 2 else 1) slot k.modBits k.immBits)
  | .qjoin h q slot set =>
    some (fE 0x12 4 h zrSpec zrSpec zrSpec ((0 : BitVec 2) ++ q) slot ((0 : BitVec 8) ++ set) 0)
  | .gset h k (.pred a) => some (fR 0x12 5 h zrSpec (pSpec a) zrSpec zrSpec ((0 : BitVec 8) ++ k) 0)
  | .gset h k .pass => some (f0 0x12 5 h ((1 : BitVec 8) ++ k) 0)
  | .gset h k .disc => some (f0 0x12 5 h ((2 : BitVec 8) ++ k) 0)
  | .gset h k .empty => some (f0 0x12 5 h ((3 : BitVec 8) ++ k) 0)
  | .send h d a b c => some (fR 0x13 0 h (pSpec d) (sSpec a) (vSpec b) (sSpec c) 0 0)
  | .sendm h d a b c spc =>
    some (fR 0x13 1 h (pSpec d) (sSpec a) (sSpec b) (sSpec c) ((0 : BitVec 10) ++ spc.code) 0)
  | .reply h d b c => some (fR 0x13 2 h (pSpec d) zrSpec (vSpec b) (sSpec c) 0 0)
  | .adone h => some (f0 0x13 3 h 0 0)
  | .aretire h => some (f0 0x13 4 h 0 0)
  | .aexport h d a => some (fR 0x13 5 h (pSpec d) (sSpec a) zrSpec zrSpec 0 0)
  | .aimport h d a b cn => some (fR 0x13 6 h (pSpec d) (sSpec a) (sSpec b) zrSpec (bit0 cn) 0)
  | .aself h d w => some (fR 0x13 7 h (sSpec d) zrSpec zrSpec zrSpec ((0 : BitVec 9) ++ w.code) 0)
  | .trec h var => some (f0 0x14 0 h ((0 : BitVec 8) ++ var) 0)
  | .tpatch h d a src imm => some (fR 0x14 1 h (sSpec d) (sSpec a) zrSpec zrSpec src.code imm)
  | .tguard h d b src => some (fR 0x14 2 h (sSpec d) zrSpec (sSpec b) zrSpec src.code 0)
  | .tseal h d => some (fR 0x14 3 h (pSpec d) zrSpec zrSpec zrSpec 0 0)
  | .tplay h d var => some (fR 0x14 4 h (pSpec d) zrSpec zrSpec zrSpec ((0 : BitVec 8) ++ var) 0)
  | .tinv h a b all => some (fR 0x14 5 h zrSpec (sSpec a) (sSpec b) zrSpec (bit0 all) 0)
  | .performLoad _ _ | .issueStore _ _ | .storeLeaveBuffer _ _ | .storeClimb _ _
  | .discardSettled _ _ _ | .waitcReturn _ | .waitaWake _ | .barwWake _ | .joinWake _
  | .frdRetry _ | .sleepExpire _ | .adoneDrained _ | .rfchkWaitEnd _ | .exportAnswer _ _
  | .commandAtHead _ _ | .commandBegin _ _ | .copyUnit _ _ _ | .repeatIteration _ _
  | .commandComplete _ _ | .peerAnswer _ _ | .answerTimeout _ | .unitDispatch _ | .replayTake _
  | .replayIssue _ | .replayDrained _ | .messageArrival _ | .importRecord _ | .importCancel _
  | .exportOffer _ _ | .activationDone _ | .statePageNotResident _ | .stateBlockFailed _
  | .runEnded _ | .roomNotice _ | .hardwareErrorNotice _ | .runFailed _ | .writeBackDone _
  | .writeBackFailed _ | .moveDone _ | .moving _ _ | .movingAck _ | .carriedState _ _ _ _ _
  | .moved _ _ _ | .withdraw _ _ _ _ | .idleRetirement _ | .capacityRetirement _
  | .messageAnswer _ | .retryResend _ _ | .watchdogExpire _ | .sliceEnd _ | .switchIn _
  | .clockStepEffective _ | .stepDrift _ | .softError _ | .scrub _ | .pageResponse _ _
  | .walk _ _ _ _ | .xinvcmd _ _ | .migcmd _ _ | .migrationCopy _ | .poolcfgWrite _ _
  | .framecfgWrite _ _ | .eqcfgWrite _ _ | .classInstall _ _ | .installResume _ _
  | .classClear _ _ | .jobReset _ | .jobCancel _ | .debugLookup _ _ | .debugHalt _
  | .debugResume _ | .debugStep _ | .registerWrite _ _ _ | .msemAcquire _ _ | .msemRelease _
  | .leaseExpire | .batchrel _ _ | .packetSubmit _ _ _ | .completionEntry _ _ | .mrbaseWrite _ _
  | .createPartition _ | .destroyPartition _ | .writeRotation _ _ _ _ | .migratePartition _ _ _
  | .bindPort _ | .unbindPort _ | .bindInterface _ _ _ _ _ | .revoke _ _ | .writeRoute _ _ _
  | .firmwareImage _ _ _ _ | .attestationQuote _ _ | .readErrorRing _ | .flitReceive _ _
  | .flitResend _ | .linkDown _ | .flowStopGo _ _ _ | .cxlPostedWrite _ _ _ _ | .cxlRead _ _ _
  | .cxlMemAccess _ _ _ _ | .atsInvalidation _ | .coldReset _ | .warmReset | .powerSample _ _
  | .tplayDrained _ | .linkTrained _ => none

/-- The word of an instruction (R90); a device step has none. -/
def encode (i : Instr) : Option IWord := (encodeFields i).map Fields.toWord

end Sys2Proof
end

