-- ==== Sys2Proof/Machine/Num.lean ====
section
/-! DEFINITION. Numbers: the element formats, exact values, rounding and the arithmetic of R47-R68. A finite
value is exact, an integer times a power of two; every result is rounded once (R57). -/

namespace Sys2Proof.Machine

/-! ## Flags (R28, R62) -/

/-- The sticky flags c1[8:3]: SAT, NV, DZ, OF, UF, NX from the highest bit down. -/
abbrev Flags := BitVec 6

def nxF : Flags := 0x01
def ufF : Flags := 0x02
def ofF : Flags := 0x04
def dzF : Flags := 0x08
def nvF : Flags := 0x10
def satF : Flags := 0x20

/-- The flag if the condition holds. -/
def flagIf (c : Bool) (f : Flags) : Flags := if c then f else 0

/-! ## Formats (R50) -/

/-- The formats differ in what their highest exponent means. -/
inductive FKind where
  | ieee | e4m3 | e2m1
deriving DecidableEq, Repr

/-- A floating-point format: exponent and mantissa widths. -/
structure FF where
  eb   : Nat
  mb   : Nat
  kind : FKind
deriving DecidableEq, Repr

def FF.f32 : FF := ⟨8, 23, .ieee⟩
def FF.f16 : FF := ⟨5, 10, .ieee⟩
def FF.bf16 : FF := ⟨8, 7, .ieee⟩
def FF.e4m3 : FF := ⟨4, 3, .e4m3⟩
def FF.e5m2 : FF := ⟨5, 2, .ieee⟩
def FF.e2m1 : FF := ⟨2, 1, .e2m1⟩

def FF.bias (f : FF) : Nat := 2 ^ (f.eb - 1) - 1
def FF.width (f : FF) : Nat := 1 + f.eb + f.mb
/-- Exponent of the smallest normal value. -/
def FF.emin (f : FF) : Int := 1 - (f.bias : Int)
/-- The sign bit in place. -/
def FF.sign (f : FF) (neg : Bool) : Nat := if neg then 2 ^ (f.eb + f.mb) else 0
/-- The largest finite magnitude (R50). -/
def FF.maxBits (f : FF) : Nat :=
  match f.kind with
  | .ieee => (2 ^ f.eb - 1) * 2 ^ f.mb - 1
  | .e4m3 => 2 ^ (f.eb + f.mb) - 2
  | .e2m1 => 2 ^ (f.eb + f.mb) - 1
/-- Infinity's magnitude in an IEEE format. -/
def FF.infBits (f : FF) : Nat := (2 ^ f.eb - 1) * 2 ^ f.mb
/-- The canonical NaN (R50); FP4 has none, and takes +0 (R58). -/
def FF.nanBits (f : FF) : Nat :=
  match f.kind with
  | .ieee => f.infBits + 2 ^ (f.mb - 1)
  | .e4m3 => 2 ^ (f.eb + f.mb) - 1
  | .e2m1 => 0

/-! ## Exact values -/

/-- An exact value: (−1)^neg × m × 2^e, an infinity, or a NaN (quiet or signalling). -/
inductive Val where
  | nan (sig : Bool)
  | inf (neg : Bool)
  | fin (neg : Bool) (m : Nat) (e : Int)
deriving DecidableEq, Repr, Inhabited

def Val.isNan : Val → Bool
  | .nan _ => true
  | _ => false
def Val.isSig : Val → Bool
  | .nan s => s
  | _ => false
def Val.isZero : Val → Bool
  | .fin _ 0 _ => true
  | _ => false
def Val.isInf : Val → Bool
  | .inf _ => true
  | _ => false
def Val.neg : Val → Bool
  | .fin n _ _ => n
  | .inf n => n
  | .nan _ => false
def Val.zero : Val := .fin false 0 0

/-- The value of an integer. -/
def Val.ofInt (i : Int) : Val := .fin (i < 0) i.natAbs 0

/-- The value of the low bits of x in format f (R50). -/
def FF.decode (f : FF) (x : Nat) : Val :=
  let m := x % 2 ^ f.mb
  let e := x / 2 ^ f.mb % 2 ^ f.eb
  let n := x / 2 ^ (f.mb + f.eb) % 2 == 1
  if f.kind == .ieee && e == 2 ^ f.eb - 1 then
    if m == 0 then .inf n else .nan (m < 2 ^ (f.mb - 1))
  else if f.kind == .e4m3 && e == 2 ^ f.eb - 1 && m == 2 ^ f.mb - 1 then .nan false
  else if e == 0 then .fin n m (f.emin - f.mb)
  else .fin n (m + 2 ^ f.mb) ((e : Int) - f.bias - f.mb)

/-- Does rounding go up in magnitude, for a quotient q with remainder r of 2^k? -/
def roundUp (rm : RM) (neg : Bool) (q r k : Nat) : Bool :=
  match rm with
  | .rne => 2 * r > 2 ^ k || (2 * r == 2 ^ k && q % 2 == 1)
  | .rtz => false
  | .rdn => neg && r != 0
  | .rup => !neg && r != 0

/-- m × 2^(−s) rounded to an integer, and whether that is inexact. -/
def roundShift (rm : RM) (neg : Bool) (m : Nat) (s : Int) : Nat × Bool :=
  if s ≤ 0 then (m * 2 ^ (-s).toNat, false)
  else
    let k := s.toNat
    let q := m / 2 ^ k
    let r := m % 2 ^ k
    (if roundUp rm neg q r k then q + 1 else q, r != 0)

/-- The bits of a finite overflow (R58). -/
def FF.overflow (f : FF) (rm : RM) (neg : Bool) : Nat :=
  match f.kind with
  | .ieee =>
    f.sign neg + (match rm with
      | .rne => f.infBits
      | .rtz => f.maxBits
      | .rdn => if neg then f.infBits else f.maxBits
      | .rup => if neg then f.maxBits else f.infBits)
  | .e4m3 | .e2m1 => f.sign neg + f.maxBits

/-- The magnitude bits of n × 2^q, where n has at most mb + 1 bits or is 2^(mb + 1). -/
def FF.pack (f : FF) (n : Nat) (q : Int) : Nat :=
  if n < 2 ^ f.mb then n
  else if n = 2 ^ (f.mb + 1) then ((q + 1 + f.mb + f.bias).toNat) * 2 ^ f.mb
  else (q + f.mb + f.bias).toNat * 2 ^ f.mb + (n - 2 ^ f.mb)

/-- R57, R58, R60: a nonzero finite value rounded to format f, with its flags. -/
def FF.round (f : FF) (rm : RM) (neg : Bool) (m : Nat) (e : Int) : Nat × Flags :=
  let ex := e + Nat.log2 m
  let q := max ex f.emin - f.mb
  let (n, inexact) := roundShift rm neg m (q - e)
  let bits := f.pack n q
  if n != 0 && f.maxBits < bits then (f.overflow rm neg, ofF ||| nxF)
  else
    let tiny := decide (bits < 2 ^ f.mb)
    (f.sign neg + bits, flagIf inexact nxF ||| flagIf (inexact && tiny) ufF)

/-- A value in format f (R57, R58, R61). -/
def FF.ofVal (f : FF) (rm : RM) (v : Val) : Nat × Flags :=
  match v with
  | .nan s => (f.nanBits, flagIf (s || f.kind == .e2m1) nvF)
  | .inf n =>
    match f.kind with
    | .ieee => (f.sign n + f.infBits, 0)
    | .e4m3 | .e2m1 => (f.sign n + f.maxBits, ofF)
  | .fin n m e => if m = 0 then (f.sign n, 0) else f.round rm n m e

/-! ## Exact arithmetic -/

/-- The signed mantissa of a finite value at exponent e0 ≤ e. -/
def Val.at (v : Val) (e0 : Int) : Int :=
  match v with
  | .fin n m e =>
    let k : Int := (m * 2 ^ (e - e0).toNat : Nat)
    if n then -k else k
  | _ => 0

def Val.exp : Val → Int
  | .fin _ _ e => e
  | _ => 0

/-- Sum; an exact zero from two operands that are not both −0 is −0 under RDN and +0 otherwise. -/
def Val.add (rm : RM) (a b : Val) : Val × Flags :=
  match a, b with
  | .nan s, y => (.nan false, flagIf (s || y.isSig) nvF)
  | x, .nan s => (.nan false, flagIf (s || x.isSig) nvF)
  | .inf n, .inf k => if n == k then (.inf n, 0) else (.nan false, nvF)
  | .inf n, .fin .. => (.inf n, 0)
  | .fin .., .inf k => (.inf k, 0)
  | .fin n m e, .fin k l g =>
    let e0 := min e g
    let t := (Val.fin n m e).at e0 + (Val.fin k l g).at e0
    if t = 0 then
      (.fin (if m = 0 && l = 0 && n == k then n else rm == .rdn) 0 0, 0)
    else (.fin (t < 0) t.natAbs e0, 0)

/-- Product. -/
def Val.mul (a b : Val) : Val × Flags :=
  match a, b with
  | .nan s, y => (.nan false, flagIf (s || y.isSig) nvF)
  | x, .nan s => (.nan false, flagIf (s || x.isSig) nvF)
  | .inf n, .inf k => (.inf (n != k), 0)
  | .inf n, .fin k m _ => if m = 0 then (.nan false, nvF) else (.inf (n != k), 0)
  | .fin n m _, .inf k => if m = 0 then (.nan false, nvF) else (.inf (n != k), 0)
  | .fin n m e, .fin k l g => (.fin (n != k) (m * l) (e + g), 0)

def Val.negate : Val → Val
  | .fin n m e => .fin (!n) m e
  | .inf n => .inf (!n)
  | v => v
def Val.abs : Val → Val
  | .fin _ m e => .fin false m e
  | .inf _ => .inf false
  | v => v

/-- a < b for values that are not NaN; −0 equals +0. -/
def Val.lt (a b : Val) : Bool :=
  match a, b with
  | .inf true, .inf true => false
  | .inf true, _ => true
  | .inf false, _ => false
  | _, .inf true => false
  | _, .inf false => true
  | .fin n m e, .fin k l g =>
    let e0 := min e g
    decide ((Val.fin n m e).at e0 < (Val.fin k l g).at e0)
  | _, _ => false

/-- a < b with −0 below +0 (R188, R210). -/
def Val.ltz (a b : Val) : Bool := a.lt b || (a.isZero && b.isZero && a.neg && !b.neg)

/-- Lesser or greater of two values; NaN when either is (R210). -/
def Val.minmax (gt : Bool) (a b : Val) : Val × Flags :=
  if a.isNan || b.isNan then (.nan false, flagIf (a.isSig || b.isSig) nvF)
  else if gt then (if a.ltz b then b else a, 0)
  else (if b.ltz a then b else a, 0)

/-- A sum or a product rounded to format f, with every flag. -/
def FF.fin (f : FF) (rm : RM) (r : Val × Flags) : Nat × Flags :=
  let (bits, fl) := f.ofVal rm r.1
  (bits, fl ||| r.2)

def FF.add (f : FF) (rm : RM) (a b : Nat) : Nat × Flags :=
  f.fin rm (Val.add rm (f.decode a) (f.decode b))
def FF.sub (f : FF) (rm : RM) (a b : Nat) : Nat × Flags :=
  f.fin rm (Val.add rm (f.decode a) (f.decode b).negate)
def FF.mul (f : FF) (rm : RM) (a b : Nat) : Nat × Flags :=
  f.fin rm (Val.mul (f.decode a) (f.decode b))

/-- a × b + d with one rounding; NV for 0 × ∞ even when d is a quiet NaN (R210). -/
def Val.fma (rm : RM) (a b d : Val) : Val × Flags :=
  let (p, f1) := Val.mul a b
  let (r, f2) := Val.add rm p d
  (r, f1 ||| f2)
def FF.fma (f : FF) (rm : RM) (a b d : Nat) : Nat × Flags :=
  f.fin rm (Val.fma rm (f.decode a) (f.decode b) (f.decode d))

def FF.minmax (f : FF) (gt : Bool) (a b : Nat) : Nat × Flags :=
  f.fin .rne (Val.minmax gt (f.decode a) (f.decode b))
/-- A without its sign, or with it inverted; NaN gives the canonical NaN (R210). -/
def FF.abs (f : FF) (a : Nat) : Nat × Flags := f.ofVal .rne (f.decode a).abs
def FF.neg (f : FF) (a : Nat) : Nat × Flags := f.ofVal .rne (f.decode a).negate

/-! ## Integers (R47, R58, R211) -/

/-- The low w bits as an integer, signed or unsigned. -/
def toI (signed : Bool) (w x : Nat) : Int :=
  let y := x % 2 ^ w
  if signed && 2 ^ (w - 1) ≤ y then (y : Int) - 2 ^ w else y
/-- An integer modulo 2^w. -/
def ofI (w : Nat) (i : Int) : Nat := (i % (2 ^ w : Nat)).toNat
def iMin (signed : Bool) (w : Nat) : Int := if signed then -(2 ^ (w - 1) : Nat) else 0
def iMax (signed : Bool) (w : Nat) : Int := if signed then (2 ^ (w - 1) : Nat) - 1 else (2 ^ w : Nat) - 1
/-- The nearest integer of the range, and whether that clamps. -/
def clampI (signed : Bool) (w : Nat) (i : Int) : Int × Bool :=
  if i < iMin signed w then (iMin signed w, true)
  else if iMax signed w < i then (iMax signed w, true) else (i, false)
/-- An exact integer as an element: wrapped, or clamped with SAT (R47). -/
def intElem (ss signed : Bool) (w : Nat) (i : Int) : Nat × Flags :=
  if ss then
    let (c, k) := clampI signed w i
    (ofI w c, flagIf k satF)
  else (ofI w i, 0)

/-- A value rounded to an integer of w bits: clamped with NV when out of range, 0 with NV for NaN (R58). -/
def valToInt (rm : RM) (signed : Bool) (w : Nat) (v : Val) : Nat × Flags :=
  match v with
  | .nan _ => (0, nvF)
  | .inf n => (ofI w (if n then iMin signed w else iMax signed w), nvF)
  | .fin n m e =>
    let (q, inexact) := roundShift rm n m (-e)
    let i : Int := if n then -(q : Int) else q
    let (c, k) := clampI signed w i
    (ofI w c, if k then nvF else flagIf inexact nxF)

/-! ## Stochastic rounding (R59) -/

/-- R59 with the drawn word: the value rounded to format f. -/
def FF.stoch (f : FF) (v : Val) (rnd : BitVec 32) : Nat × Flags :=
  match v with
  | .fin n m e =>
    if m = 0 then (f.sign n, 0)
    else
      let ex := e + Nat.log2 m
      let q := max ex f.emin - f.mb
      let s := q - e
      if s ≤ 0 then
        let bits := f.pack (m * 2 ^ (-s).toNat) q
        if f.maxBits < bits then (f.overflow (if n then .rdn else .rup) n, ofF ||| nxF)
        else (f.sign n + bits, 0)
      else
        let k := s.toNat
        let lo := m / 2 ^ k
        let r := m % 2 ^ k
        if r = 0 then
          let bits := f.pack lo q
          if f.maxBits < bits then
            (f.overflow (if n then .rdn else .rup) n, ofF ||| nxF) else (f.sign n + bits, 0)
        else
          let t := r * 2 ^ 24 / 2 ^ k
          let y := if (rnd.extractLsb' 0 24).toNat < t then lo + 1 else lo
          let bits := f.pack y q
          if f.maxBits < bits then (f.overflow (if n then .rdn else .rup) n, ofF ||| nxF)
          else (f.sign n + bits, nxF ||| flagIf (bits < 2 ^ f.mb) ufF)
  | v => f.ofVal .rne v

/-- R59 for an integer of w bits. -/
def stochInt (signed : Bool) (w : Nat) (v : Val) (rnd : BitVec 32) : Nat × Flags :=
  match v with
  | .fin n m e =>
    let (y, inexact) : Nat × Bool :=
      if 0 ≤ e then (m * 2 ^ e.toNat, false)
      else
        let k := (-e).toNat
        let lo := m / 2 ^ k
        let r := m % 2 ^ k
        if r = 0 then (lo, false)
        else (if (rnd.extractLsb' 0 24).toNat < r * 2 ^ 24 / 2 ^ k then lo + 1 else lo, true)
    let i : Int := if n then -(y : Int) else y
    let (c, k) := clampI signed w i
    (ofI w c, if k then nvF else flagIf inexact nxF)
  | v => valToInt .rne signed w v

/-! ## The functions of R215, correctly rounded -/

/-- floor(√n), found bit by bit from bit k down. -/
def isqrt (n : Nat) : Nat → Nat → Nat
  | 0, r => if (r + 1) * (r + 1) ≤ n then r + 1 else r
  | k + 1, r => isqrt n k (if (r + 2 ^ (k + 1)) * (r + 2 ^ (k + 1)) ≤ n then r + 2 ^ (k + 1) else r)

/-- Fractional bits of the fixed-point arithmetic of the transcendental functions. -/
def fxP : Nat := 256
/-- ln 2 with 256 fractional bits, rounded down. -/
def ln2Fx : Nat := 0xB17217F7D1CF79ABC9E3B39803F2F6AF40F343267298B62D8A0D175B8BAAFA2B

/-- Σ x^k / k! from term t = x^j / j!, for n more terms, with 256 fractional bits. -/
def expSum (x : Nat) : Nat → Nat → Nat → Nat
  | 0, _, _ => 0
  | n + 1, j, t => t + expSum x n (j + 1) (t * x / 2 ^ fxP / (j + 1))

/-- 2^f for 0 ≤ f < 1, both with 256 fractional bits. -/
def exp2Fx (f : Nat) : Nat :=
  let x := f * ln2Fx / 2 ^ fxP
  expSum x 80 0 (2 ^ fxP)

/-- Σ z^(2k+1) / (2k+1) from power p = z^(2j+1), for n more terms. -/
def atanhSum (z2 : Nat) : Nat → Nat → Nat → Nat
  | 0, _, _ => 0
  | n + 1, j, p => p / (2 * j + 1) + atanhSum z2 n (j + 1) (p * z2 / 2 ^ fxP)

/-- log2 of a value of [1, 2) with 256 fractional bits. -/
def log2Fx (x : Nat) : Nat :=
  let one := 2 ^ fxP
  let z := (x - one) * one / (x + one)
  2 * atanhSum (z * z / one) 90 0 z * one / ln2Fx

/-- An inexact value: n × 2^e and a little more. -/
def sticky (neg : Bool) (n : Nat) (e : Int) : Val := .fin neg (4 * n + 1) (e - 2)

/-- 2^v for a finite value. -/
def exp2Val (neg : Bool) (m : Nat) (e : Int) : Val :=
  if m = 0 then .fin false 1 0
  else if 20 ≤ e + Nat.log2 m then (if neg then sticky false 1 (-1000000) else sticky false 1 1000000)
  else
    let v := (Val.fin neg m e).at (min e (-(fxP : Int)))
    let sh := (min e (-(fxP : Int)) + fxP)
    let x : Int := v * 2 ^ sh.toNat / 2 ^ (-sh).toNat
    let i := x / (2 ^ fxP : Nat)
    let f := (x % (2 ^ fxP : Nat)).toNat
    if f = 0 then .fin false 1 i else sticky false (exp2Fx f) (i - fxP)

/-- log2 of a positive finite value. -/
def log2Val (m : Nat) (e : Int) : Val :=
  let k := Nat.log2 m
  let x := m * 2 ^ fxP / 2 ^ k
  let i := e + k
  if m = 2 ^ k then Val.ofInt i
  else
    let t : Int := i * (2 ^ fxP : Nat) + log2Fx x
    if t < 0 then
      -- the true value lies just above t, so its magnitude just below |t|
      sticky true (t.natAbs - 1) (-(fxP : Int))
    else sticky false t.natAbs (-(fxP : Int))

/-- tanh of a positive finite value's magnitude, nonzero. -/
def tanhVal (neg : Bool) (m : Nat) (e : Int) : Val :=
  let ex := e + Nat.log2 m
  if ex < -40 then sticky neg (m * 2 ^ 60 - 1) (e - 60)
  else if 5 ≤ ex then sticky neg (2 ^ 60 - 1) (-60)
  else
    let x := (m * 2 ^ (e + fxP).toNat) / 2 ^ (-(e + fxP)).toNat
    let y := 2 * x * 2 ^ fxP / ln2Fx
    let i := y / 2 ^ fxP
    let big := exp2Fx (y % 2 ^ fxP) * 2 ^ i
    let one := 2 ^ fxP
    sticky neg ((big - one) * 2 ^ fxP / (big + one)) (-(fxP : Int))

/-- Which function of group 0x0D. -/
inductive Fn where
  | rcp | rsq | exp2 | log2 | tanh
deriving DecidableEq, Repr

/-- R215: the exact result, a little more than which is marked by `sticky`, with NV and DZ. -/
def fnVal (fn : Fn) (v : Val) : Val × Flags :=
  match v with
  | .nan s => (.nan false, flagIf s nvF)
  | .inf n =>
    match fn with
    | .rcp => (.fin n 0 0, 0)
    | .rsq => if n then (.nan false, nvF) else (.fin false 0 0, 0)
    | .exp2 => if n then (.fin false 0 0, 0) else (.inf false, 0)
    | .log2 => if n then (.nan false, nvF) else (.inf false, 0)
    | .tanh => (.fin n 1 0, 0)
  | .fin n m e =>
    match fn with
    | .rcp =>
      if m = 0 then (.inf n, dzF)
      else
        let q := 2 ^ 200 / m
        (if 2 ^ 200 % m = 0 then .fin n q (-200 - e) else sticky n q (-200 - e), 0)
    | .rsq =>
      if m = 0 then (.inf n, dzF)
      else if n then (.nan false, nvF)
      else
        let (m2, e2) := if e % 2 = 0 then (m, e) else (2 * m, e - 1)
        let r := isqrt (2 ^ 400 / m2) 200 0
        (if r * r * m2 = 2 ^ 400 then .fin false r (-200 - e2 / 2) else sticky false r (-200 - e2 / 2), 0)
    | .exp2 => (exp2Val n m e, 0)
    | .log2 =>
      if m = 0 then (.inf true, dzF) else if n then (.nan false, nvF) else (log2Val m e, 0)
    | .tanh => if m = 0 then (.fin n 0 0, 0) else (tanhVal n m e, 0)

/-- R215: a function of an element, rounded to nearest even. -/
def FF.fn (f : FF) (fn : Fn) (a : Nat) : Nat × Flags := f.fin .rne (fnVal fn (f.decode a))

/-! ## Formats of tiles and of VQUANT (R24, R55) -/

/-- 64 × W of a D2S8 weight (R55). -/
def d2s8 (x : Nat) : Int :=
  let term (t : Nat) : Int :=
    let e := t % 8
    let v : Int := if e = 7 then 0 else (2 ^ (6 - e) : Nat)
    if t / 8 % 2 = 1 then -v else v
  term (x % 16) + term (x / 16 % 16)

/-- The floating-point format of a code, if it is one. -/
def Fmt.ff : Fmt → Option FF
  | .bf16 => some .bf16 | .fp16 => some .f16 | .fp32 => some .f32 | .e4m3 => some .e4m3
  | .e5m2 => some .e5m2 | .fp4 => some .e2m1
  | .int8 | .uint8 | .d2s8 | .int32 => none

/-- The exact value of an element of a format; a D2S8 byte is W (R219). -/
def fmtVal (f : Fmt) (x : Nat) : Val :=
  match f with
  | .bf16 => FF.bf16.decode x | .fp16 => FF.f16.decode x | .fp32 => FF.f32.decode x
  | .e4m3 => FF.e4m3.decode x | .e5m2 => FF.e5m2.decode x | .fp4 => FF.e2m1.decode x
  | .int8 => Val.ofInt (toI true 8 x)
  | .uint8 => Val.ofInt (toI false 8 x)
  | .int32 => Val.ofInt (toI true 32 x)
  | .d2s8 =>
    let w := d2s8 x
    .fin (w < 0) w.natAbs (-6)

/-- A value converted to an element of a format (R58); no conversion to D2S8 exists. -/
def fmtOf (f : Fmt) (rm : RM) (v : Val) : Nat × Flags :=
  match f with
  | .bf16 => FF.bf16.ofVal rm v | .fp16 => FF.f16.ofVal rm v | .fp32 => FF.f32.ofVal rm v
  | .e4m3 => FF.e4m3.ofVal rm v | .e5m2 => FF.e5m2.ofVal rm v | .fp4 => FF.e2m1.ofVal rm v
  | .int8 => valToInt rm true 8 v
  | .uint8 => valToInt rm false 8 v
  | .int32 => valToInt rm true 32 v
  | .d2s8 => (0, 0)

/-- Stochastic rounding to a format of VQUANT (R59). -/
def fmtStoch (f : Fmt) (v : Val) (rnd : BitVec 32) : Nat × Flags :=
  match f with
  | .e4m3 => FF.e4m3.stoch v rnd | .e5m2 => FF.e5m2.stoch v rnd | .fp4 => FF.e2m1.stoch v rnd
  | .int8 => stochInt true 8 v rnd
  | .uint8 => stochInt false 8 v rnd
  | f => fmtOf f .rne v

/-! ## Sums of the matrix unit (R64, R66) -/

/-- Exact sum of one block of floating-point products (R64). A block that holds a quiet NaN beside infinities of both
signs gives NaN, and NV only where a product raises it: its sum is not taken as ∞ − ∞ (log 53). -/
def blockSum (ps : List (Val × Flags)) : Val × Flags :=
  let fl := ps.foldl (fun a p => a ||| p.2) 0
  let vs := ps.map Prod.fst
  if vs.any Val.isNan then (.nan false, fl)
  else if vs.any (fun v => v == .inf false) && vs.any (fun v => v == .inf true) then (.nan false, fl ||| nvF)
  else if vs.any Val.isInf then ((vs.find? Val.isInf).getD .zero, fl)
  else
    let e0 := vs.foldl (fun (a : Int) v => min a v.exp) 0
    let t : Int := vs.foldl (fun (a : Int) v => a + v.at e0) 0
    if t = 0 then (.fin (vs.all Val.neg) 0 0, fl) else (.fin (t < 0) t.natAbs e0, fl)

/-- x + RoundRNE(s) in binary32 (R64). -/
def accumulate (x : Nat) (s : Val × Flags) : Nat × Flags :=
  let (r, f1) := FF.f32.fin .rne s
  let (y, f2) := FF.f32.add .rne x r
  (y, f1 ||| f2)

end Sys2Proof.Machine
end

