-- ==== Sys2Proof/Machine/Table.lean ====
section
/-! DEFINITION. Sparse tables: sorted lists of numbered values, where an unlisted number holds a default. -/

namespace Sys2Proof.Machine

/-- A sorted list of numbered values. -/
abbrev Tbl (α : Type) := List (Nat × α)

/-- The value of number k: the default d where none is listed. -/
def tget {α : Type} (d : α) : Tbl α → Nat → α
  | [], _ => d
  | (j, v) :: t, k => if j = k then v else if k < j then d else tget d t k

/-- List v under number k, in place of what was listed. -/
def tset {α : Type} : Tbl α → Nat → α → Tbl α
  | [], k, v => [(k, v)]
  | (j, w) :: t, k, v =>
    if j = k then (k, v) :: t else if k < j then (k, v) :: (j, w) :: t else (j, w) :: tset t k v

/-- Remove number k from the list. -/
def tdel {α : Type} : Tbl α → Nat → Tbl α
  | [], _ => []
  | (j, w) :: t, k => if j = k then t else if k < j then (j, w) :: t else (j, w) :: tdel t k

/-- Write v under number k in a table whose default is d: a value equal to d is not listed. -/
def tput {α : Type} [DecidableEq α] (d : α) (t : Tbl α) (k : Nat) (v : α) : Tbl α :=
  if v = d then tdel t k else tset t k v

/-- The numbers rise strictly. -/
def tsorted {α : Type} : Tbl α → Bool
  | [] => true
  | [_] => true
  | (j, _) :: (k, w) :: t => decide (j < k) && tsorted ((k, w) :: t)

/-- The canonical form: strictly rising numbers, no value equal to the default. -/
def tcanon {α : Type} [DecidableEq α] (d : α) (t : Tbl α) : Bool :=
  tsorted t && t.all (fun p => decide (p.2 ≠ d))

/-- Replace the element at position n of a list. -/
def lset {α : Type} : List α → Nat → α → List α
  | [], _, _ => []
  | _ :: t, 0, v => v :: t
  | a :: t, n + 1, v => a :: lset t n v

/-- Remove the element at position n of a list. -/
def ldel {α : Type} : List α → Nat → List α
  | [], _ => []
  | _ :: t, 0 => t
  | a :: t, n + 1 => a :: ldel t n

end Sys2Proof.Machine
end

