-- ==== Sys2Proof/Machine/State.lean ====
section
/-! DEFINITION. The state of one package: every piece of state that the spec gives the machine, as plain
data, and the state after reset (R46, R419). -/

namespace Sys2Proof.Machine

/-- Why a step stops the model. -/
inductive Fault where
  /-- Raised by a device step that names a thread, core, cluster, chiplet, link or port that the build
  does not have (R2). Safe: no such step is a step of the machine. -/
  | noSuchPart
deriving DecidableEq, Repr

/-- Why an instruction has no meaning. -/
inductive Refusal where
  /-- Raised by the arm of an instruction that is not modelled yet. Safe: nothing is claimed of it. -/
  | notModelled (mnemonic : String)
deriving DecidableEq, Repr

/-! ## Ordering machine (R110, R111) -/

/-- Where a load unit puts its bytes, or an atomic its result: of FWR a predicate (R278). -/
inductive LDst where
  | s (r : SOp) (byte : Nat)
  | v (n : BitVec 5) (lane : Nat)
  | p (n : BitVec 3)
  | port (tag : Nat)
deriving DecidableEq, Repr, Inhabited

/-- A location and its value: location 2a + n is nibble n of the byte at physical address a. -/
abbrev Nibs := List (Nat × BitVec 4)

/-- The engine command that an access belongs to: its queue, the unit that issued it, its place in the program order,
and c5 of the record that a refusal of the access makes, without the reason (R229, R258). -/
structure CmdRef where
  own   : QOwner
  q     : Nat
  uid   : Nat
  order : Nat
  c5    : Word
deriving DecidableEq, Repr, Inhabited

/-- Whose an access is: its partition and ASID, and the engine command it belongs to. -/
structure Whose where
  part : Nat
  asid : BitVec 16
  cmd  : Option CmdRef
deriving DecidableEq, Repr, Inhabited
/-- The order number of the command, or 0. -/
def Whose.order (x : Whose) : Nat := match x.cmd with
  | some c => c.order
  | none => 0

/-- The virtual tag of an access to device memory that L1 and L2 may hold (R340, R343): address va of a
partition and an ASID lies at physical address pa; with the access's hint (R180). -/
structure CTag where
  part : Nat
  asid : BitVec 16
  va   : Nat
  pa   : Nat
  hint : BitVec 3
deriving DecidableEq, Repr, Inhabited

/-- An atomic operation with its operands (R186-R188), and those of FRD and FWR on a future (R278). -/
inductive AtomOp where
  | amo (op : AmoOp) (b : Word)
  | cas (b c : Word)
  | amof (op : AmofOp) (b : Word)
  | futRead
  | futWrite (v : Word)
deriving DecidableEq, Repr

/-- What a store carries: its number in program order, the access that its byte belongs to (R183), the
instruction that writes its whole sector (R348), its address, its release scope (R119) and whose it is. -/
structure StoreTag where
  id   : Nat
  grp  : Nat
  wipe : Nat
  va   : Word
  rel  : Option Nat
  of   : Whose
deriving DecidableEq, Repr, Inhabited

/-- A store in a store buffer (R110). -/
structure SbStore where
  tag  : StoreTag
  nibs : Nibs
deriving DecidableEq, Repr, Inhabited
abbrev SbStore.id (x : SbStore) : Nat := x.tag.id

/-- An access in an issue queue that has not been performed (R110, R114, R115), with its number in program
order. The bytes of an unaligned access share the number `grp` of the first, and go in order (R183). -/
inductive IqEntry where
  | load (no grp : Nat) (dst : LDst) (va : Word) (pa len : Nat) (tag : Option CTag)
  | store (st : SbStore)
  | atom (no : Nat) (d : LDst) (va : Word) (pa n : Nat) (rel : Option Nat) (op : AtomOp)
  /-- A load or an atomic whose request was sent to a peer under this tag, and its answer (R133). -/
  | peer (va : Word) (pa len tag : Nat)
  | got (va : Word) (pa len : Nat) (ans : PeerAns)
deriving DecidableEq, Repr, Inhabited

/-- A pending entry of a holding point below the root (R111), with the store it came from and the stores that
it has replaced there (R119). Settled entries are the copies that L1 and L2 keep (R339-R343). -/
structure HEntry where
  lvl  : Nat
  inst : Nat
  loc  : Nat
  val  : BitVec 4
  ag   : BitVec 32
  tag  : StoreTag
  past : List (BitVec 32 × Nat)
deriving DecidableEq, Repr, Inhabited
abbrev HEntry.id (e : HEntry) : Nat := e.tag.id

/-- A line of L1 or of an L2 slice (R340, R343): its tag, the address of its physical line, and the sectors it
has. -/
structure CLine where
  part  : Nat
  asid  : BitVec 16
  vline : Nat
  pline : Nat
  secs  : List (Nat × List Byte)
deriving DecidableEq, Repr, Inhabited

/-- A line of an LLC die (R345): a valid and a dirty bit for each sector, and the presence vector. -/
structure LLine where
  line  : Nat
  valid : BitVec 4
  dirty : BitVec 4
  pres  : BitVec 16
deriving DecidableEq, Repr, Inhabited

/-- Refused peer stores and messages not yet reported (R131, R132, R268); a count of 0 is none. -/
structure RefRec where
  count  : Nat
  addr   : Word
  pkg    : BitVec 9
  reason : BitVec 8
deriving DecidableEq, Repr, Inhabited

/-- What the ordering machine keeps for one agent. -/
structure AgentMem where
  iq    : List IqEntry
  sb    : List SbStore
  /-- The stamp of the newest region, and those of the commands that an engine has begun and not completed
  (R136). -/
  stamp : BitVec 16
  opened : List (BitVec 16)
  ref   : RefRec
deriving DecidableEq, Repr, Inhabited

/-- A record of a watched sector (R137). -/
structure Watch where
  sector : Nat
  ag     : BitVec 32
  stamp  : BitVec 16
  write  : Bool
deriving DecidableEq, Repr, Inhabited

/-- A request to another package that awaits its answer (R131, R133, R402); `no` numbers a store. It was made in mesh
cycle `sent`, and its flit left in `left`, if it has. -/
structure Outst where
  tag   : Nat
  no    : Nat
  ag    : BitVec 32
  va    : Word
  pa    : Nat
  dpkg  : Nat
  vl    : BitVec 2
  store : Bool
  nibs  : Nibs
  sent  : Nat
  left  : Option Nat
  of    : Whose
deriving DecidableEq, Repr, Inhabited

/-! ## Engine queues (R38, R39) -/

/-- Value of a guard slot (R37). -/
inductive GSlot where
  | empty | pass | discard
deriving DecidableEq, Repr, Inhabited

/-- The record of a faulting or conflicting command, as c4 and c5 will show it (R229, R258, R138). -/
structure EngRec where
  order    : Nat
  sub      : BitVec 8
  c4       : Word
  c5       : Word
  conflict : Bool
deriving DecidableEq, Repr, Inhabited

/-- A unit of a copy: its kind (0 a load of the source, 1 a store, 2 a load of the index list), its row and
which of the row's sectors it is (R251). -/
structure CUnit where
  kind : Nat
  row  : Nat
  j    : Nat
deriving DecidableEq, Repr, Inhabited

/-- A command in an engine queue. -/
structure Cmd where
  i       : Instr
  opd     : Word
  opa     : Word
  opb     : Word
  /-- Row and column scales of a TSCA, read at issue (R246). -/
  rows    : VReg
  cols    : VReg
  /-- The body of a REPB and its snapshot of scalar registers, by specifier (R225). -/
  body    : List Instr
  snap    : Tbl Word
  /-- Generation and completion target of a copy (R197, R253). -/
  gen     : BitVec 4
  tgt     : Word
  /-- Place in the thread's program order. -/
  order   : Nat
  /-- Its guard slot has passed (R257). -/
  decided : Bool
  begun   : Bool
  /-- The stamp of its region while it runs (R136). -/
  stamp   : BitVec 16
  /-- Units of a copy not yet performed (R251), and the bytes loaded so far by their number in it. -/
  todo    : List CUnit
  buf     : List (Nat × Byte)
  idx     : List (Nat × Lane)
  /-- Virtual pages of a copy on which it has translated an address (R357). -/
  seen    : List Nat
  /-- Iterations of a REPB performed. -/
  iter    : Nat
  /-- Flags to raise when it completes (R63). -/
  fl      : BitVec 6
  /-- The unit that issued it: its number, its partition (none for firmware), ASID and privilege. -/
  uid     : Nat
  part    : Option Nat
  asid    : BitVec 16
  priv    : BitVec 2
deriving DecidableEq, Repr

/-- One engine queue: its commands, oldest first, and the fault that stopped it. -/
structure Queue where
  cmds    : List Cmd
  stopped : Option EngRec
deriving DecidableEq, Repr

/-- An empty queue. -/
def Queue.init : Queue := ⟨[], none⟩

/-! ## Tapes (R285-R299) -/

/-- Tag of a register while recording (R287). -/
inductive Tag where
  | none
  | tag (k : PKind) (ix : BitVec 10)
  | derived
deriving DecidableEq, Repr, Inhabited

/-- A command record (R299). -/
structure Rec where
  i     : Instr
  hn    : Hdr
  thr   : Bool
  queue : BitVec 2
  opd   : Word
  opa   : Word
  opb   : Word
  pd    : Option (BitVec 4)
  pa    : Option (BitVec 4)
  pb    : Option (BitVec 4)
deriving DecidableEq, Repr

/-- A slot entry (R298). -/
structure PSlot where
  src    : PSrc
  recval : Word
  span   : Word
deriving DecidableEq, Repr

/-- A guard entry (R298). -/
structure GuardRec where
  src   : PSrc
  mask  : Word
  value : Word
deriving DecidableEq, Repr

/-- A tape image (R297): NREC, NSLOT, NGRD and QMASK are read off its lists. -/
structure Tape where
  cls   : BitVec 16
  sel   : BitVec 8
  var   : BitVec 4
  cver  : BitVec 16
  epoch : BitVec 32
  slots : List PSlot
  grds  : List GuardRec
  recs  : List Rec
deriving DecidableEq, Repr

/-- A sealed image (R297) in a partition's tape store in device memory, or a copy of it in a cluster's tape cache. -/
structure TapeImg where
  part  : Nat
  cls   : BitVec 16
  sel   : BitVec 8
  var   : BitVec 4
  bytes : List Byte
deriving DecidableEq, Repr, Inhabited

/-- A recording in progress (R286-R292): `pairs` holds the pairs fixed so far (R291), `tags` the register
tags by specifier, `outer` the tags of the frames of outer depths. -/
structure Recording where
  var   : BitVec 4
  recs  : List Rec
  slots : List PSlot
  grds  : List GuardRec
  pairs : List PSlot
  tags  : Tbl Tag
  outer : List (Tbl Tag)
deriving DecidableEq, Repr

/-! ## Units of work -/

/-- Kind of a unit of work (R263); firmware is what the boot thread runs (R46). -/
inductive UKind where
  | handler | launch | task | firmware
deriving DecidableEq, Repr, Inhabited

/-- Where a translated byte lies: memory at a location with the leaf's attributes, a register of the
control window at an offset (R432), or a core's register partition (R333). -/
inductive Tgt where
  | mem (pa : Nat) (pte : Word)
  | ctl (off : Nat)
  | regp (core off : Nat)
deriving DecidableEq, Repr, Inhabited

/-- One unit of a store: where, what, and the nibbles written (R192). -/
structure SUnit where
  va    : Nat
  tgt   : Tgt
  bytes : List Byte
  mask  : BitVec 32
deriving DecidableEq, Repr, Inhabited

/-- A held store of a dual run (R392): its unit, the physical address where it starts, a register's too, and the
instruction that writes its whole sector, as in its tag. -/
structure HeldStore where
  unit : SUnit
  pa   : Nat
  wipe : Nat
deriving DecidableEq, Repr, Inhabited

/-- A dual run (R392): the other run's thread, which of the two this is, and whether it has reached
ADONE step 3. -/
structure Dual where
  other  : Nat
  shadow : Bool
  held   : List HeldStore
  arrived : Bool
deriving DecidableEq, Repr, Inhabited

/-- The unit of work that a thread runs; `uid` numbers the units that the package has dispatched. -/
structure UnitInfo where
  kind    : UKind
  uid     : Nat
  part    : Nat
  asid    : BitVec 16
  prio    : Nat
  /-- The message and the entry of a handler run. -/
  msg     : Msg
  ekey    : AKey
  /-- First line and length of the frame of a handler run. -/
  fline   : Nat
  flen    : Nat
  /-- The join counter of a forked task, as a physical address (R274). -/
  counter : Nat
  /-- Hidden time of the first issue (R372), cycles spent halted since, and when a halt that lasts began. -/
  start   : Option Nat
  halted  : Nat
  since   : Option Nat
  retire  : Bool
  export_ : Option Nat
  /-- ADONE has entered step 3 (R372, R381). -/
  step3   : Bool
  /-- The run of a message redelivered after a failed replay (R301). -/
  plain   : Bool
  dual    : Option Dual
deriving DecidableEq, Repr, Inhabited

/-- What a waiting thread waits for, with its operands read (R171-R173, R195, R200, R203, R269, R271,
R276, R278, R295). -/
inductive Wait where
  | waitc (lims : BitVec 32)
  | waita (d : SOp) (ea : Word) (space : Space) (w4 acq : Bool) (sc : BitVec 3) (cond : WaitCond)
      (b : Word)
  | barw (d : SOp) (ea : Word) (space : Space) (sc : BitVec 3) (b : BitVec 4)
  | join (ea : Word) (pa : Nat)
  | frd (d a : SOp) (sc : BitVec 3) (space : Space)
  | sleep (until_ : Nat)
  | adone
  | rfchk (d : PZ)
  | aexport (d : BitVec 3) (dst : BitVec 9)
  | tplay (d : BitVec 3) (var : BitVec 4)
deriving DecidableEq, Repr, Inhabited

/-- State of a message in an outbound queue (R267, R321). -/
inductive OutState where
  /-- In the queue of a RESTARTABLE or dual run, not sent before ADONE (R269, R392). -/
  | held
  | waiting
  | sent
  | parked (at_ : Nat)
deriving DecidableEq, Repr, Inhabited

/-- A message in an outbound queue with its home package and slice (R308). -/
structure OutMsg where
  msg   : Msg
  pkg   : BitVec 9
  slice : Nat
  st    : OutState
deriving DecidableEq, Repr, Inhabited

/-- A forked task in a deque (R274). -/
structure Task where
  entry   : Word
  pass    : Vector Word 8
  c26     : Word
  c27     : BitVec 16
  counter : Nat
  part    : Nat
  prio    : Nat
  ready   : Nat
  /-- The parent's accesses before FORK are numbered below this (R123). -/
  no      : Nat
deriving DecidableEq, Repr

/-! ## Threads -/

/-- A hardware thread (R14). -/
structure Thread where
  pc       : Word
  /-- s0-s7, s8-s23 of the current depth, s24-s31 (R17). -/
  globals  : Vector Word 8
  frame    : Vector Word 16
  pass     : Vector Word 8
  /-- Hidden resident frames, newest first, at most 7 (R17-R19). -/
  outer    : List (Vector Word 16)
  /-- Spill depth (R19). -/
  sd       : Nat
  v        : Vector VReg 32
  /-- Bit i is predicate i; bit 0 is not used (R22). -/
  p        : BitVec 8
  /-- m1-m7 and an unused place 0 (R22). -/
  m        : Vector Mask 8
  /-- c1-c7 (R27-R29). -/
  status   : Word
  tcause   : Word
  tpc      : Word
  taddr    : Word
  tinfo    : Word
  hdr0     : Word
  hdr1     : Word
  ls       : Vector Word 4
  le       : Vector Word 4
  lc       : Vector (BitVec 32) 4
  spbase   : Word
  splim    : Word
  cframe   : Word
  clsel    : Word
  key      : Word
  tapest   : Word
  launch   : Word
  job      : BitVec 16
  /-- w0-w15 (R37); with `slotsClosed` an EMPTY slot acts as DISCARD. -/
  slots    : Vector GSlot 16
  slotsClosed : Bool
  q        : Vector Queue 4
  /-- Commands that WAITC's acquire still has to cover (R128): home level of the performing agent of
  every command placed in each queue since the last WAITC that covered it. -/
  waitCov  : Vector (List Nat) 4
  lfsr     : Vector (BitVec 32) 48
  /-- Instruction buffer: lines by their number, newest first, at most 4 (R104). -/
  ibuf     : List (Nat × List Byte)
  unit     : Option UnitInfo
  waiting  : Option Wait
  recording : Option Recording
  outq     : List OutMsg
  seq      : BitVec 32
  deque    : List Task
  /-- When a SLEEP that a halt has abandoned ends (R173). -/
  slept    : Option Nat
  /-- Until when the selector does not choose the thread, for a stall count or a dispatch, and when it became free
  (R93, R365, R366), in hidden time. -/
  notBefore : Nat
  freed    : Nat
  /-- DBGCTL and DBGPC (R381). -/
  halted   : Bool
  brken    : Bool
  haltReq  : Bool
  stepReq  : Bool
  dbgpc    : Word
deriving DecidableEq, Repr

/-- L_i after seeding (R218). -/
def seedLane (seed : BitVec 32) (i : Nat) : BitVec 32 :=
  let x := seed ^^^ (BitVec.ofNat 32 (i + 1) * 0x9E3779B9#32)
  if x = 0 then 1 else x

/-- A thread at device reset (R46). -/
def Thread.init : Thread where
  pc := 0
  globals := Vector.replicate 8 0
  frame := Vector.replicate 16 0
  pass := Vector.replicate 8 0
  outer := []
  sd := 0
  v := Vector.replicate 32 (Vector.replicate 48 0)
  p := 0
  m := Vector.replicate 8 0
  status := 0x0000000100000002
  tcause := 0
  tpc := 0
  taddr := 0
  tinfo := 0
  hdr0 := 0
  hdr1 := 0
  ls := Vector.replicate 4 0
  le := Vector.replicate 4 0
  lc := Vector.replicate 4 0
  spbase := 0
  splim := 0
  cframe := 0
  clsel := 0
  key := 0
  tapest := 0
  launch := 0
  job := 0
  slots := Vector.replicate 16 .empty
  slotsClosed := false
  q := Vector.replicate 4 Queue.init
  waitCov := Vector.replicate 4 []
  lfsr := Vector.ofFn (fun i => seedLane 1 i.val)
  ibuf := []
  unit := none
  waiting := none
  recording := none
  outq := []
  seq := 0
  deque := []
  slept := none
  notBefore := 0
  freed := 0
  halted := false
  brken := false
  haltReq := false
  stepReq := false
  dbgpc := 0

/-! ## Cores and clusters -/

/-- A live frame: first scratchpad line, length, owner, the sectors written since the last commit, and those that
commits have written since the activation (R44, R269, R319). -/
structure Frame where
  line  : Nat
  len   : Nat
  owner : AKey
  dirty : List Nat
  saved : List Nat
deriving DecidableEq, Repr, Inhabited

/-- A cached leaf (R341, R342): page base and size, and the entry. -/
structure Leaf where
  part : Nat
  asid : BitVec 16
  base : Nat
  size : Nat
  pte  : Word
deriving DecidableEq, Repr, Inhabited

/-- A delivery in a core's delivery places (R362, R363). -/
structure Item where
  msg    : Msg
  ekey   : AKey
  ready  : Nat
  replay : Bool
  /-- It seeks the right to record at its dispatch (R285). -/
  record : Bool
  outc   : BitVec 3
  /-- Its run does not replay (R301). -/
  plain  : Bool
  /-- How often the tape had been sealed when the delivery reached its core (R285). -/
  seals  : Nat
deriving DecidableEq, Repr, Inhabited

/-- A replay that the tape sequencer holds (R300, R367). One that TPLAY started has what the run asked for
before (R270, R271), and the thread whose outbound queue holds the run's messages. -/
structure Replay where
  uid    : Nat
  msg    : Msg
  ekey   : AKey
  part   : Nat
  asid   : BitVec 16
  fline  : Nat
  flen   : Nat
  tape   : Tape
  next   : Nat
  retire : Bool
  export_ : Option Nat
  thr    : Option Nat
  /-- The agent whose accesses numbered below `since` come before the replay's (R123, R130). -/
  src    : BitVec 32
  since  : Nat
  /-- The source values of its tape's slots, fixed when it begins to issue (R425). -/
  vals   : List Word
deriving DecidableEq, Repr

/-- A core. -/
structure Core where
  desc    : Vector (BitVec 32) 16
  /-- Accumulator tags: true is INT32 (R25). -/
  accInt  : Vector Bool 8
  poisonT : List Nat
  poisonA : List Nat
  /-- Cycles of this core's own that have passed, and what MTC to c28 added (R33). -/
  ticks   : Nat
  cycOff  : Word
  poolcfg : Word
  framecfg : Word
  frames  : List Frame
  rights  : List Leaf
  /-- L1, the most recently used line first (R340). -/
  l1      : List CLine
  places  : List Item
  /-- Entries whose delivery was refused for want of a place, in order (R363). -/
  refused : List AKey
  /-- Activations waiting for room, in order (R317, R424). -/
  wantRoom : List AKey
  replay  : Option Replay
  seqq    : Vector Queue 4
  /-- The issue selector's order of the core's threads, and how often its first has issued in a row (R368). -/
  order   : List Nat
  consec  : Nat
  cerrcnt : Word
  /-- The mesh cycle of its last capacity retirement (R424). -/
  capAt   : Option Nat
deriving DecidableEq, Repr

/-- POOLCFG at reset (R41). -/
def poolcfgReset : Word := (256 : Word) ||| ((2560 : Word) <<< 16) ||| ((3584 : Word) <<< 32)
/-- FRAMECFG at reset (R316). -/
def framecfgReset : Word := (2304 : Word) <<< 16

/-- A core at device reset (R46). -/
def Core.init : Core where
  desc := Vector.replicate 16 0
  accInt := Vector.replicate 8 false
  poisonT := []
  poisonA := []
  ticks := 0
  cycOff := 0
  poolcfg := poolcfgReset
  framecfg := framecfgReset
  frames := []
  rights := []
  l1 := []
  places := []
  refused := []
  wantRoom := []
  replay := none
  seqq := Vector.replicate 4 Queue.init
  order := [0, 1, 2, 3]
  consec := 0
  cerrcnt := 0
  capAt := none

/-- A barrier object's first and last arrival of the phase, by cluster (R384). -/
structure Arrive where
  pa    : Nat
  first : Option Nat
  last  : Option Nat
deriving DecidableEq, Repr, Inhabited

/-- A cluster (R374-R385). -/
structure Cluster where
  rot      : Vector Word 4
  /-- ROTn as the running rotation sees it: writes take effect at the next switch (R374). -/
  rotEff   : Vector Word 4
  cur      : Nat
  switching : Bool
  /-- When the slice began, how long it lasts, and when it ended, in core cycles. -/
  sliceBeg : Nat
  sliceLen : Nat
  switchAt : Nat
  debt     : Vector Word 4
  /-- The step of its clock, in force since mesh cycle `tickAt`, and the core cycles before that in
  thirty-sixths (R383). -/
  clkstep  : Nat
  tickAt   : Nat
  tickBase : Nat
  eqstep   : Nat
  /-- Steps that its clock has yet to take, each with its mesh cycle (R384). -/
  eqNext   : List (Nat × Nat)
  eqSince  : Nat
  /-- The mesh cycle of its last switch-in (R394). -/
  inAt     : Option Nat
  perm     : Vector Word 5
  /-- The tape cache, the image used last first (R294). -/
  tapeCache : List TapeImg
deriving DecidableEq, Repr

/-- A cluster at device reset (R374, R375). -/
def Cluster.init : Cluster where
  rot := Vector.replicate 4 0
  rotEff := Vector.replicate 4 0
  cur := 0
  switching := false
  sliceBeg := 0
  sliceLen := 0
  switchAt := 0
  debt := Vector.replicate 4 0
  clkstep := 24
  tickAt := 0
  tickBase := 0
  eqstep := 24
  eqNext := []
  eqSince := 0
  inAt := none
  perm := #v[0xFFFFFFFFFFFFFFFF, 0xFFFFFFFFFFFFFFFF, 0xFFFFFFFFFFFFFFFF, 0xFFFFFFFFFFFFFFFF,
    0xC0000000FFFFFFFF]
  tapeCache := []

/-! ## Partitions -/

/-- An entry of the launch table (R281, R282). -/
structure Launch where
  gen     : BitVec 20
  live    : Bool
  entry   : Word
  args    : Word
  cnt     : Word
  units   : Nat
  prio    : Nat
  clFirst : Nat
  clCount : Nat
  job     : BitVec 16
  asid    : BitVec 16
  /-- The launcher, and the number that its accesses before LAUNCH are below (R123). -/
  ag      : BitVec 32
  no      : Nat
  next    : Nat
  ended   : Nat
  canc    : Nat
  /-- When it joined the list of each named cluster (R362). -/
  ready   : Tbl Nat
deriving DecidableEq, Repr, Inhabited

/-- An entry of the job table (R370, R284). -/
structure Job where
  canc : Bool
  out  : Nat
  drop : Nat
deriving DecidableEq, Repr, Inhabited

/-- An install in progress (R325): the step, the staged descriptor and the hold queue, each message with
the slice that holds it. -/
structure Freeze where
  step : Nat
  desc : BitVec 768
  hold : List (Nat × Msg)
deriving DecidableEq, Repr, Inhabited

/-- Failure count and suppression of a tape, who holds the right to record it, and how often it has been sealed (R285,
R294). -/
structure TapeCtl where
  cls   : BitVec 16
  sel   : BitVec 8
  var   : BitVec 4
  fails : Nat
  supp  : Bool
  right : Option Nat
  seals : Nat
deriving DecidableEq, Repr, Inhabited

/-- A migration in progress (R357). -/
structure Migration where
  asid : BitVec 16
  base : Nat
  size : Nat
  pte  : Word
  pteAt : Nat
  dst  : Nat
deriving DecidableEq, Repr, Inhabited

/-- A partition (R334, R335). -/
structure Part where
  trapvec  : Word
  clsbase  : Word
  clsarg   : Word
  clscmd   : Word
  asidtab  : Word
  asidlim  : Word
  asidcur  : Word
  pgen     : Word
  prdrop   : Word
  pinlost  : Word
  xinvva   : Word
  xinvcmd  : Word
  /-- An invalidation in progress waits for accesses before this store number and this mesh cycle (R353). -/
  xinvAt   : Option (Nat × Nat)
  migva    : Word
  migdst   : Word
  migcmd   : Word
  pexp     : Vector (Word × Word) 8
  physw    : Vector (Word × Word) 8
  unitbudget : Word
  unitage  : Word
  jobsel   : Word
  errbase  : Word
  errslots : Word
  errhead  : Word
  errtail  : Word
  errlost  : Word
  eqcfg    : Word
  pstate   : Word
  hostbind : Word
  jobs     : Tbl Job
  epoch    : BitVec 32
  classes  : Tbl (BitVec 768)
  frozen   : Tbl Freeze
  launches : Tbl Launch
  tapes    : List Tape
  tapeCtl  : List TapeCtl
  /-- The images in the partition's tape store, and how many bytes it holds (R294). -/
  tapeStore : List TapeImg
  tapeRoom : Nat
  migration : Option Migration
  /-- The clusters that a migration of the partition moves it to (R380), whether it is being destroyed
  (R430), and whether a new binding waits, page requests with it (R431). -/
  moveTo   : List Nat
  dying    : Bool
  binding  : Bool
deriving DecidableEq, Repr

/-- A partition's registers at reset (R335, R370, R383). -/
def Part.init : Part where
  trapvec := 0
  clsbase := 0
  clsarg := 0
  clscmd := 0
  asidtab := 0
  asidlim := 0
  asidcur := 0
  pgen := 0
  prdrop := 0
  pinlost := 0
  xinvva := 0
  xinvcmd := 0
  xinvAt := none
  migva := 0
  migdst := 0
  migcmd := 0
  pexp := Vector.replicate 8 (0, 0)
  physw := Vector.replicate 8 (0, 0)
  unitbudget := 4000000
  unitage := 0
  jobsel := 0
  errbase := 0
  errslots := 0
  errhead := 0
  errtail := 0
  errlost := 0
  eqcfg := 0x1818
  pstate := 0
  hostbind := 0
  jobs := []
  epoch := 0
  classes := []
  frozen := []
  launches := []
  tapes := []
  tapeCtl := []
  tapeStore := []
  tapeRoom := 0
  migration := none
  moveTo := []
  dying := false
  binding := false

/-! ## The directory (R309-R322) -/

/-- STATE of a directory entry (R309). -/
inductive EState where
  | absent | activating | live | retiring | forward | failed
deriving DecidableEq, Repr, Inhabited

/-- What an ACTIVATING entry waits for (R317, R319, R320, R326, R376). -/
inductive ActWait where
  | room | fetch | page | carried
  /-- The chosen core's cluster is not running the partition (R376). -/
  | switch
  /-- The policy names no core of the partition (R315). -/
  | noCore
deriving DecidableEq, Repr, Inhabited

/-- A directory entry (R309); PCNT and PHEAD are read off `pend`, the pending queue. `wait`, `fresh`,
`excl`, `dest` and `src` say what its activation, restart or move is doing. -/
structure Entry where
  key   : AKey
  st    : EState
  busy  : Bool
  imp   : Bool
  rdc   : Nat
  prov  : Bool
  core  : Nat
  frame : Nat
  fpkg  : BitVec 9
  pend  : List Msg
  /-- In the overflow table (R310). -/
  spilled : Bool
  touch : Nat
  wait  : ActWait
  /-- A core that the next activation excludes (R315, R328). -/
  excl  : Option Nat
  /-- RETIRING without write-back (R329). -/
  noWb  : Bool
  /-- RETIRING towards another package (R326). -/
  dest  : Option Nat
  /-- The package that the actor moves from (R326). -/
  src   : Option Nat
  /-- The MOVING-ACK has arrived, and the state and the queue have been sent (R326). -/
  acked : Bool
  sent  : Bool
  /-- When the last run ended: hidden time of the core (R318), and the mesh cycle (R424). -/
  idle  : Nat
  ended : Nat
  /-- The next delivery does not replay (R301). -/
  noReplay : Bool
  /-- The message handed to the core for the run in progress. -/
  cur   : Option Msg
  /-- ASID of the state block (R349). -/
  asid  : BitVec 16
  /-- Messages forwarded and not answered, how many at the head of the queue were answered RETRY, and
  when the last RETRY came (R433). -/
  fwd   : List Msg
  /-- The package whose slice is home for the key (R326). -/
  home  : BitVec 9
  parked : Nat
  since : Nat
  /-- The head has been forwarded again and awaits its answer (R433). -/
  resent : Bool
  /-- Sectors carried from another package, not yet in the state block, and messages, not yet in the queue (R326). -/
  carry : List (Nat × List Byte)
  came  : List Msg
  /-- The class descriptor under which its frame was taken (R325 step 4). -/
  desc  : BitVec 768
deriving DecidableEq, Repr, Inhabited

/-- A notice from a core on its way to a slice (R311). -/
inductive NKind where
  /-- A run ended at ADONE, with retirement requested or a move accepted by a package. -/
  | runEnded (retire : Bool) (export_ : Option Nat)
  /-- A hardware error of a run, and the core that failed (R328); `dual` where the two runs of a dual run differ
  (R393). -/
  | hwError (dual : Bool) (core : Nat)
  /-- A commit failed at an address (R319). -/
  | commitFailed (addr : Word)
  /-- A run failed; the first flag is R301's redelivery of a failed replay, the others as for a run that ended
  (R329). -/
  | runFailed (redeliver retire : Bool) (export_ : Option Nat)
deriving DecidableEq, Repr, Inhabited

/-- A notice and the entry it concerns. -/
structure Notice where
  kind : NKind
  key  : AKey
deriving DecidableEq, Repr, Inhabited

/-- A retry marker (R320). -/
structure Marker where
  sender : BitVec 32
  ifn    : BitVec 6
  key    : AKey
  seq    : BitVec 32
deriving DecidableEq, Repr, Inhabited

/-- An addition to a launch's completion counter that waits for its page (R282), or the decrement of a join counter at
the physical address `addr` (R275); either waits for the accesses of the unit before it, numbered below `no` (R123).
`key` is the KEY of its record (R388). -/
structure CntAdd where
  ag     : BitVec 32
  core   : Nat
  part   : Nat
  asid   : BitVec 16
  addr   : Word
  launch : Word
  key    : Word
  job    : BitVec 16
  amount : Nat
  no     : Nat
  join   : Bool
deriving DecidableEq, Repr, Inhabited

/-- A message on its way to a slice (R311); those that one release of packets has sent share a number (R410). -/
structure Flight where
  msg   : Msg
  slice : Nat
  batch : Nat
deriving DecidableEq, Repr, Inhabited

/-- What a slice answers (R433). -/
inductive Answer where
  | accept | retry
  | refuse (reason : BitVec 8)
deriving DecidableEq, Repr, Inhabited

/-- An answer on its way to the sender, and the package that is home for its key. -/
structure AnsFlight where
  msg  : Msg
  ans  : Answer
  home : BitVec 9
deriving DecidableEq, Repr, Inhabited

/-- Sticky record (R315). -/
structure Sticky where
  key  : AKey
  core : Nat
deriving DecidableEq, Repr, Inhabited

/-- A directory slice's debug registers, its sticky cache, and the mesh cycle and the place in the cycle's order of
the event that it took last (R391, R315, R311). -/
structure Slice where
  dkey   : Word
  dctl   : Word
  dent   : Vector Word 3
  sticky : List Sticky
  at_    : Nat
  rank   : Nat
deriving DecidableEq, Repr

def Slice.init : Slice := ⟨0, 0, Vector.replicate 3 0, [], 0, 0⟩

/-! ## Translation and memory side structures -/

/-- An access that has joined a page request: its agent, and, of a command's, the command and the virtual address
(R354). -/
structure Joiner where
  ag  : BitVec 32
  cmd : Nat
  va  : Nat
deriving DecidableEq, Repr, Inhabited

/-- A page request (R354): key and generation, and the port that carries it. -/
structure PageReq where
  part : Nat
  asid : BitVec 16
  page : Nat
  gen  : BitVec 16
  port : Nat
  /-- 0 outstanding, 1 answered with success, 2 with failure; the last two stand until every access that
  joined has seen the answer. -/
  ans  : Nat
  joined : List Joiner
deriving DecidableEq, Repr, Inhabited

/-- A pinned line (R344): chiplet, partition, ASID, virtual line, the base and the size of its page, and the cores that
pinned it. -/
structure Pin where
  chip : Nat
  part : Nat
  asid : BitVec 16
  line : Nat
  base : Nat
  size : Nat
  cores : List Nat
deriving DecidableEq, Repr, Inhabited

/-- A leaf in a slice's translation cache (R342): chiplet and slice. -/
structure SliceLeaf where
  chip  : Nat
  slice : Nat
  leaf  : Leaf
deriving DecidableEq, Repr, Inhabited

/-! ## Fabric, ports and module -/

/-- A Flilon link (R396-R403): the counters of LSTAT, the lanes that the far side has stopped, flits that wait
on a stopped lane, the replay buffer of 128 flits, consecutive resends of its oldest flit, and the flits
that have left on it, newest last; the receive buffers of its lanes, and the lanes that this side has stopped. -/
structure Link where
  up     : Bool
  late   : Nat
  bad    : Nat
  replayed : Nat
  stop   : Vector Bool 4
  queue  : List Flit
  replay : List Flit
  fails  : Nat
  sent   : List Flit
  buf    : Vector (List Flit) 4
  stopped : Vector Bool 4
deriving DecidableEq, Repr

def Link.init : Link :=
  ⟨false, 0, 0, 0, Vector.replicate 4 false, [], [], 0, [], Vector.replicate 4 [], Vector.replicate 4 false⟩

/-- New flits for a package on a lane wait, after a write of its route, for those sent before, until a mesh cycle at
the latest (R400): requests by their tags, messages by SENDER, IFN and SEQ, notices by their type and key. -/
structure RouteHold where
  dst  : Nat
  vl   : BitVec 2
  tags : List Nat
  msgs : List (BitVec 32 × BitVec 6 × BitVec 32)
  keys : List (Nat × AKey)
  till : Nat
deriving DecidableEq, Repr, Inhabited

/-- A packet in an interface's buffer (R409): held, or a message with its sending state; `known` once its home package
has been read (R308). -/
structure BufPkt where
  msg   : Msg
  irq   : Bool
  known : Bool
  pkg   : BitVec 9
  slice : Nat
  st    : OutState
deriving DecidableEq, Repr, Inhabited

/-- A 4 KiB request of a page request group (R354): its PRG index, PASID, host page and whether it asks for write
access. -/
structure PriReq where
  prg   : Nat
  pasid : BitVec 20
  page  : Nat
  write : Bool
deriving DecidableEq, Repr, Inhabited

/-- A queue interface (R406, R412). -/
structure Iface where
  cfg   : Word
  next  : Word
  drop  : Word
  crb   : Word
  csl   : Word
  chd   : Word
  ctr   : Word
  clost : Word
  acc   : Word
  buf   : List BufPkt
deriving DecidableEq, Repr, Inhabited

def Iface.init : Iface := ⟨0, 0, 0, 0, 0, 0, 0, 0, 0, []⟩

/-- What a port returns to a host's read: data, an unsupported-request completion (R405), or a completer abort
(R415). -/
inductive HostAns where
  | data (bs : List Byte)
  | unsupported
  | abort
deriving DecidableEq, Repr, Inhabited

/-- A CXL.mem request that waits for a new range (R406); the data of a read gives its length. -/
structure MemReq where
  wr   : Bool
  off  : Nat
  data : List Byte
deriving DecidableEq, Repr, Inhabited

/-- A host port (R404-R417). -/
structure Port where
  hdmbase  : Word
  hdmsize  : Word
  batchcnt : Word
  ifs      : Tbl Iface
  frozen   : Bool
  xlat     : List (Nat × Nat)
  ceq      : List (Nat × Word)
  /-- Vectors of MSI-X sent, newest last (R411). -/
  msix     : List Nat
  /-- Completions of host reads, by tag, newest last (R134). -/
  replies  : List (Nat × HostAns)
  /-- A CXL.mem range written and not yet in effect, the CXL.mem requests outstanding (a read's tag or a write's
  store), and those that wait for the range (R406). -/
  hdmNew   : Option (Word × Word)
  memOut   : List (Bool × Nat)
  memWait  : List MemReq
  /-- Page requests sent on CXL.io, newest last (R354). -/
  pri      : List PriReq
  mrbase   : Word
  mrslots  : Word
  mrtail   : Word
  mrdone   : Word
  mrrbase  : Word
  mrstop   : Word
deriving DecidableEq, Repr

def Port.init : Port := ⟨0, 0, 0, [], false, [], [], [], [], none, [], [], [], 0, 0, 0, 0, 0, 0⟩

/-- MSEM and the module registers (R414, R415), the firmware slots and fuses (R420-R422), the bring-up step last done
(R420), and the PASIDs revoked (R413). -/
structure Module where
  lease   : BitVec 32
  held    : Bool
  owner   : Nat
  /-- The mesh cycles of the holder's last REQ = 1, and of its taking the semaphore. -/
  reqAt   : Nat
  takenAt : Nat
  frzcnt  : Word
  slots   : Vector (List Byte) 2
  fused   : Nat
  image   : List Byte
  ring    : List (BitVec 768)
  ringSeq : Nat
  boot    : Nat
  /-- The highest clock step allowed, and how many further steps power has taken (R423). -/
  caps    : Nat
  extra   : Nat
  revoked : List (BitVec 20)
deriving DecidableEq, Repr

def Module.init : Module :=
  ⟨0x0001B800, false, 0, 0, 0, 0, Vector.replicate 2 [], 0, [], [], 0, 0, 36, 0, []⟩

/-! ## The whole -/

/-- Which step of the machine is next: an instruction or device step, the issue of a thread's next
instruction (with its plain loads and stores left in the issue queue if `late`), or mesh cycles passing. -/
inductive Turn where
  | event (i : Instr)
  | issue (t : Nat) (late : Bool)
  | tick (n : Nat)
deriving DecidableEq, Repr

/-- One package. -/
structure State where
  /-- Package number, from the PKGID straps (R419). -/
  pkg      : BitVec 9
  threads  : Tbl Thread
  cores    : Tbl Core
  clusters : Tbl Cluster
  parts    : Tbl Part
  /-- The root of R111: bytes by address in one canonical form. -/
  mem      : List Host.Cell
  /-- Boot ROM and firmware code by PC. -/
  rom      : List Host.Cell
  agents   : Tbl AgentMem
  hold     : List HEntry
  watch    : List Watch
  poison   : List Nat
  outst    : List Outst
  /-- The L2 slices of each chiplet, the most recently used line first (R342, R343), and the LLC dies by HBM
  stack (R345, R347). -/
  l2       : Tbl (List CLine)
  llc      : Tbl (List LLine)
  /-- The side tables of the LLC dies and the overflow tables of the directory slices as firmware has set them:
  base and entries (R310, R346). -/
  sideTab  : Tbl (Nat × Nat)
  overTab  : Tbl (Nat × Nat)
  /-- The build table (R140): 48 words. -/
  build    : List Word
  /-- Whose turn was last at a unit that serves several queues (R247, R250, R369). -/
  turns    : Tbl Nat
  tcache   : List SliceLeaf
  pins     : List Pin
  pagereq  : Tbl PageReq
  scrub    : Tbl Nat
  arrive   : List Arrive
  adds     : List CntAdd
  dir      : List Entry
  notices  : List Notice
  markers  : List Marker
  flights  : List Flight
  answers  : List AnsFlight
  slices   : Tbl Slice
  links    : Tbl Link
  route    : Tbl Word
  /-- Lanes to packages whose new flits wait, and those flits, oldest first (R400). -/
  rhold    : List RouteHold
  rwait    : List Flit
  ports    : Tbl Port
  module   : Module
  /-- Mesh cycles since package reset (R302). -/
  mesh     : Nat
  /-- The model's own: which step comes next, the thread that issues, late issue, a thread that could not
  issue, the steps that no agenda named, and the counters of serial numbers and of tags. -/
  agenda   : List Turn
  cur      : Nat
  late     : Bool
  stalled  : Bool
  fair     : Nat
  serial   : Nat
  tags     : Nat
deriving DecidableEq, Repr

/-- The firmware unit that thread 0 of core 0 runs after reset (R46, R420). -/
def bootUnit : UnitInfo :=
  { (default : UnitInfo) with kind := .firmware, part := 0 }

/-- The boot thread (R46). -/
def Thread.boot : Thread := { Thread.init with unit := some bootUnit }

/-- The package after a cold reset with package number 0 (R46, R419). -/
def State.reset : State where
  pkg := 0
  threads := [(0, Thread.boot)]
  cores := []
  clusters := []
  parts := []
  mem := []
  rom := []
  agents := []
  hold := []
  watch := []
  poison := []
  outst := []
  l2 := []
  llc := []
  sideTab := []
  overTab := []
  build := []
  turns := []
  tcache := []
  pins := []
  pagereq := []
  scrub := []
  arrive := []
  adds := []
  dir := []
  notices := []
  markers := []
  flights := []
  answers := []
  slices := []
  links := []
  route := []
  rhold := []
  rwait := []
  ports := []
  module := Module.init
  mesh := 0
  agenda := []
  cur := 0
  late := false
  stalled := false
  fair := 0
  serial := 0
  tags := 0

end Sys2Proof.Machine
end

