-- ==== Sys2Proof/Machine/Place.lean ====
section
/-! DEFINITION. Places: the numbers of threads, cores, clusters and chiplets (R2, R332), agent IDs and
their scopes (R11-R13), and the physical address map (R331-R334). -/

namespace Sys2Proof.Machine

/-! ## Numbers (R2, R332) -/

def nThreads : Nat := 9216
def nCores : Nat := 2304
def nClusters : Nat := 288
def nChips : Nat := 16

/-- Thread t is thread t mod 4 of core t / 4. -/
def coreOf (t : Nat) : Nat := t / 4
def clusOfCore (c : Nat) : Nat := c / 8
def clusOf (t : Nat) : Nat := clusOfCore (coreOf t)
/-- Chiplet 2 × TILE + CHIP of a cluster. -/
def chipOfClus (j : Nat) : Nat := j / 18

/-! ## Agent IDs (R11, R12) -/

/-- An agent ID from its fields. -/
def mkId (pkg : BitVec 9) (tile chip layr clus core thrd kind qnum : Nat) : BitVec 32 :=
  pkg ++ BitVec.ofNat 3 tile ++ BitVec.ofNat 1 chip ++ BitVec.ofNat 1 layr ++ BitVec.ofNat 4 clus ++
    BitVec.ofNat 3 core ++ BitVec.ofNat 2 thrd ++ BitVec.ofNat 3 kind ++ BitVec.ofNat 6 qnum

/-- The ID of a core's sub-agent: thread and queue numbers as given. -/
def coreId (pkg : BitVec 9) (c thrd kind qnum : Nat) : BitVec 32 :=
  let j := clusOfCore c
  mkId pkg (j / 36) (j / 18 % 2) (j / 9 % 2) (j % 9) (c % 8) thrd kind qnum

/-- R11, R12: the agent ID. -/
def agentId (pkg : BitVec 9) : Agent → BitVec 32
  | .thread t => coreId pkg (coreOf t) (t % 4) 0 0
  | .seqr c => coreId pkg c 0 1 0
  | .queue t q => coreId pkg (coreOf t) (t % 4) 2 q
  | .quill j => mkId pkg (j / 36) (j / 18 % 2) (j / 9 % 2) (j % 9) 0 0 3 0
  | .brush k => mkId pkg (k / 2) (k % 2) 0 0 0 0 4 0
  | .port p => mkId pkg 0 0 0 0 0 0 5 p

def idPkg (x : BitVec 32) : BitVec 9 := x.extractLsb' 23 9
def idKind (x : BitVec 32) : Nat := (x.extractLsb' 6 3).toNat
/-- The cluster of R332 that an ID's fields name. -/
def idCluster (x : BitVec 32) : Nat :=
  36 * (x.extractLsb' 20 3).toNat + 18 * (x.extractLsb' 19 1).toNat + 9 * (x.extractLsb' 18 1).toNat +
    (x.extractLsb' 14 4).toNat
def idCore (x : BitVec 32) : Nat := 8 * idCluster x + (x.extractLsb' 11 3).toNat
def idThread (x : BitVec 32) : Nat := 4 * idCore x + (x.extractLsb' 9 2).toNat

/-- Home level of a KIND (R12); 6 and 7 are taken as level 6 (R204). -/
def homeLevel (kind : Nat) : Nat :=
  match kind with
  | 0 | 1 | 2 => 1
  | 3 => 2
  | 4 => 4
  | _ => 6

/-- The lowest bit of the field of a level (R13). -/
def levelShift (l : Nat) : Nat :=
  match l with
  | 1 => 11 | 2 => 14 | 3 => 18 | 4 => 19 | 5 => 20 | 6 => 23
  | _ => 32

/-- The fields from PKG down to the field of level l. -/
def idAt (x : BitVec 32) (l : Nat) : Nat := x.toNat / 2 ^ levelShift l

/-- The lowest level from s to 6 at which two IDs agree, or 7. -/
def firstAgree (x y : BitVec 32) : Nat → Nat → Nat
  | 0, _ => 7
  | n + 1, s => if idAt x s = idAt y s then s else firstAgree x y n (s + 1)

/-- R13: the scope of two agents. -/
def scopeOf (x y : BitVec 32) : Nat :=
  let h := max (homeLevel (idKind x)) (homeLevel (idKind y))
  if x = y ∧ idKind x = 0 then 0 else firstAgree x y (7 - h) h

/-! ## Physical addresses (R331-R334) -/

/-- Package and local part of a physical address (R331). -/
def paPkg (pa : Nat) : Nat := pa / 2 ^ 43
def paLocal (pa : Nat) : Nat := pa % 2 ^ 43
def mkPa (pkg : BitVec 9) (l : Nat) : Nat := pkg.toNat * 2 ^ 43 + l
/-- The first byte of the sector, and of the line, that holds a physical address: a package's own bytes
count from its address 0 (R331). -/
def secBase (pa : Nat) : Nat := pa - paLocal pa % 48
def lineBase (pa : Nat) : Nat := pa - paLocal pa % 192

/-- The end of the virtual space, 3 × 2^50 (R5). -/
def vaEnd : Nat := 3 * 2 ^ 50
/-- The end of local HBM (R331). -/
def hbmEnd : Nat := 0x0129C0000000
def coreWin : Nat := 0x030000000000
def clusWin : Nat := 0x0301B0000000
def winEnd : Nat := 0x0301E6000000
def ctlWin : Nat := 0x03C000000000
def ctlEnd : Nat := 0x03C0C0000000
def hostWin : Nat := 0x060000000000
def hostEnd : Nat := 0x078000000000

/-- Regions of the local space (R331). -/
inductive Region where
  | hbm | core | cluster | control | host | reserved
deriving DecidableEq, Repr

def regionOf (l : Nat) : Region :=
  if l < hbmEnd then .hbm
  else if coreWin ≤ l ∧ l < clusWin then .core
  else if clusWin ≤ l ∧ l < winEnd then .cluster
  else if ctlWin ≤ l ∧ l < ctlEnd then .control
  else if hostWin ≤ l ∧ l < hostEnd then .host
  else .reserved

/-- Bytes of cluster memory that a program can address (R174, R333). -/
def clusBytes : Nat := 1474560
/-- Bytes of an array window (R250). -/
def arrBytes : Nat := 221184

/-! ### HBM (R347) -/

/-- The HBM stack of a local address. -/
def stackOf (l : Nat) : Nat := l / 49152 % 16
/-- The reticle tile that a stack lies in. -/
def tileOfStack (st : Nat) : Nat := st / 2
/-- The channel of its stack that a local address lies in. -/
def channelOf (l : Nat) : Nat := (l % 49152 / 192 + l / 49152 / 16) % 32
/-- Where a line stands among the lines of its stack. -/
def stackLine (l : Nat) : Nat := l / 49152 / 16 * 256 + l % 49152 / 192

/-- The start of a core's window, register partition, array window, and of a cluster's window (R333). -/
def coreBase (c : Nat) : Nat := coreWin + c * 0x300000
def regBase (c : Nat) : Nat := coreBase c + 0xC0000
def arrBase (c : Nat) : Nat := coreBase c + 0x180000
def clusBase (j : Nat) : Nat := clusWin + j * 0x300000

/-- POOLB0 and POOLB1 of POOLCFG (R41). -/
def poolB0 (w : Word) : Nat := (w.extractLsb' 0 13).toNat
def poolB1 (w : Word) : Nat := (w.extractLsb' 16 13).toNat
def poolB2 (w : Word) : Nat := (w.extractLsb' 32 13).toNat

/-- R43: the scratchpad partition's bytes. -/
def scratchBytes (c : Core) : Nat := 192 * (poolB1 c.poolcfg - poolB0 c.poolcfg)

/-- A location of host memory under a PASID (R405): offset o of the host window. -/
def hostKey (pasid : Nat) (o : Nat) : Nat := 2 ^ 52 + pasid * 2 ^ 44 + o
/-- A location of host memory by bus address, without a PASID (R417). -/
def busKey (b : Nat) : Nat := 2 ^ 80 + b

/-! ## Parts of the state by number -/

def State.thr (s : State) (t : Nat) : Thread := tget Thread.init s.threads t
def State.setThr (s : State) (t : Nat) (th : Thread) : State := { s with threads := tset s.threads t th }
def State.core (s : State) (c : Nat) : Core := tget Core.init s.cores c
def State.setCore (s : State) (c : Nat) (k : Core) : State := { s with cores := tset s.cores c k }
def State.clus (s : State) (j : Nat) : Cluster := tget Cluster.init s.clusters j
def State.setClus (s : State) (j : Nat) (k : Cluster) : State := { s with clusters := tset s.clusters j k }
def State.part (s : State) (p : Nat) : Part := tget Part.init s.parts p
def State.setPart (s : State) (p : Nat) (k : Part) : State := { s with parts := tset s.parts p k }
def State.slice (s : State) (n : Nat) : Slice := tget Slice.init s.slices n
def State.setSlice (s : State) (n : Nat) (k : Slice) : State := { s with slices := tset s.slices n k }
def State.link (s : State) (n : Nat) : Link := tget Link.init s.links n
def State.setLink (s : State) (n : Nat) (k : Link) : State := { s with links := tset s.links n k }
def State.port (s : State) (n : Nat) : Port := tget Port.init s.ports n
def State.setPort (s : State) (n : Nat) (k : Port) : State := { s with ports := tset s.ports n k }
def State.agent (s : State) (id : BitVec 32) : AgentMem := tget default s.agents id.toNat
def State.setAgent (s : State) (id : BitVec 32) (a : AgentMem) : State :=
  { s with agents := tset s.agents id.toNat a }
/-- Change thread t. -/
def State.updThr (s : State) (t : Nat) (f : Thread → Thread) : State := s.setThr t (f (s.thr t))
def State.updCore (s : State) (c : Nat) (f : Core → Core) : State := s.setCore c (f (s.core c))
def State.updPart (s : State) (p : Nat) (f : Part → Part) : State := s.setPart p (f (s.part p))

/-! ### Engine queues (R38, R300) -/

def ownerCore : QOwner → Nat
  | .thread t => coreOf t
  | .seqr c => c
/-- The queue agent of a queue; a core's sequencer is one agent. -/
def ownerAgent (o : QOwner) (q : Nat) : Agent :=
  match o with
  | .thread t => .queue t q
  | .seqr c => .seqr c
/-- One queue replaced. -/
def Thread.setQ (th : Thread) (q : Nat) (x : Queue) : Thread :=
  { th with q := Vector.ofFn (fun i => if i.val = q then x else th.q[i]) }
def State.queue (s : State) (o : QOwner) (q : Nat) : Queue :=
  match o with
  | .thread t => (s.thr t).q.toList.getD q Queue.init
  | .seqr c => (s.core c).seqq.toList.getD q Queue.init
def State.setQueue (s : State) (o : QOwner) (q : Nat) (x : Queue) : State :=
  match o with
  | .thread t => s.updThr t (fun h => h.setQ q x)
  | .seqr c => s.updCore c (fun k => { k with
      seqq := Vector.ofFn (fun i => if i.val = q then x else k.seqq[i]) })
/-- The unit, or the replay, that owns the queues of a thread or of a sequencer. -/
def State.ownerUid (s : State) (o : QOwner) : Option Nat :=
  match o with
  | .thread t => (s.thr t).unit.map UnitInfo.uid
  | .seqr c => (s.core c).replay.map Replay.uid

/-- The MOD and IMM32 fields of a copy, and whether it is in Q2 (R249). -/
def copyMod (i : Instr) : Option (CpyMod × Bool) :=
  match i with
  | .cpy _ _ _ _ q2 _ k | .cpy2d _ _ _ _ q2 _ k | .cpyg _ _ _ _ q2 _ k | .cpys _ _ _ _ q2 _ k => some (k, q2)
  | _ => none
/-- The agent that performs a command (R250, R229). -/
def cmdAgent (o : QOwner) (q : Nat) (i : Instr) : Agent :=
  match copyMod i with
  | some (k, _) =>
    match k.eng with
    | .quill => .quill (clusOfCore (ownerCore o))
    | .brush => .brush (chipOfClus (clusOfCore (ownerCore o)))
    | .local => ownerAgent o q
  | none => ownerAgent o q

/-! ### Clocks and rotation -/

/-- Core cycles of a cluster's clock since package reset: (48 + n) / 36 for each mesh cycle at step n (R6, R383). -/
def State.clusTime (s : State) (j : Nat) : Nat :=
  let k := s.clus j
  (k.tickBase + (s.mesh - k.tickAt) * (48 + k.clkstep)) / 36
/-- A cluster's clock takes a step now. -/
def State.setClock (s : State) (j n : Nat) : State :=
  let k := s.clus j
  s.setClus j { k with
    clkstep := n, tickAt := s.mesh, tickBase := k.tickBase + (s.mesh - k.tickAt) * (48 + k.clkstep) }
/-- Hidden time of a core, in its cycles. -/
def State.time (s : State) (c : Nat) : Nat := (s.core c).ticks + s.clusTime (clusOfCore c)
/-- CYCLE (R33). -/
def State.cycle (s : State) (c : Nat) : Word := BitVec.ofNat 64 (s.time c) + (s.core c).cycOff
/-- One cycle of core c passes. -/
def State.tickCore (s : State) (c : Nat) : State := s.updCore c (fun k => { k with ticks := k.ticks + 1 })
/-- R368: the i-th thread of a core moves to the back of the selector's order. -/
def Core.toBack (k : Core) (i : Nat) : Core :=
  { k with order := k.order.filter (fun x => x != i) ++ [i], consec := 0 }
/-- R368: the i-th thread of a core has issued. -/
def Core.issued (k : Core) (i : Nat) : Core :=
  if k.order.head? ≠ some i then { k with order := i :: k.order.filter (fun x => x != i), consec := 1 }
  else if k.consec + 1 < 8 then { k with consec := k.consec + 1 }
  else k.toBack i
/-- R172: thread t yields. -/
def State.yieldThr (s : State) (t : Nat) : State := s.updCore (coreOf t) (fun k => k.toBack (t % 4))
/-- The package timebase (R302). -/
def State.timebase (s : State) : Word := BitVec.ofNat 64 s.mesh

/-- The partition that a cluster runs: the enabled entry that is current (R374). -/
def State.runs (s : State) (j : Nat) : Option Nat :=
  let k := s.clus j
  let r := (k.rotEff.toList.getD k.cur 0)
  if r.getLsbD 63 then some (r.extractLsb' 32 7).toNat else none

/-- Does some enabled rotation entry of cluster j name partition p (R374)? -/
def Cluster.has (k : Cluster) (p : Nat) : Bool :=
  k.rotEff.toList.any (fun r => r.getLsbD 63 && (r.extractLsb' 32 7).toNat == p)

/-- The clusters of a partition in ascending index (R380). -/
def State.partClusters (s : State) (p : Nat) : List Nat :=
  (s.clusters.filter (fun e => e.2.has p)).map Prod.fst

/-- The cores of a partition in ascending number (R315). -/
def State.partCores (s : State) (p : Nat) : List Nat :=
  (s.partClusters p).flatMap (fun j => (List.range 8).map (fun c => 8 * j + c))

/-- The partition whose rights a thread has: its unit's. -/
def State.partOf (s : State) (t : Nat) : Nat :=
  match (s.thr t).unit with
  | some u => u.part
  | none => 0

end Sys2Proof.Machine
end

