-- ==== Sys2Proof/Machine/Flags.lean ====
section
/-! DEFINITION. The status register c1 (R28): its fields, the sticky flags and the seed. -/

namespace Sys2Proof.Machine

/-- Privilege levels (R40). -/
def privU : BitVec 2 := 0
def privS : BitVec 2 := 1
def privM : BitVec 2 := 2

def stPriv (w : Word) : BitVec 2 := w.extractLsb' 0 2
def stTh (w : Word) : Bool := w.getLsbD 2
def stFlags (w : Word) : Flags := w.extractLsb' 3 6
def stCp (w : Word) : Bool := w.getLsbD 9
def stRfp (w : Word) : Bool := w.getLsbD 10
def stEfp (w : Word) : Bool := w.getLsbD 11
def stPpriv (w : Word) : BitVec 2 := w.extractLsb' 12 2
def stSeed (w : Word) : BitVec 32 := w.extractLsb' 32 32

/-- c1 from its fields; the reserved bits read zero (R28). -/
def mkStatus (seed : BitVec 32) (ppriv : BitVec 2) (efp rfp cp : Bool) (fl : Flags) (th : Bool)
    (priv : BitVec 2) : Word :=
  seed ++ (0 : BitVec 18) ++ ppriv ++ bit efp ++ bit rfp ++ bit cp ++ fl ++ bit th ++ priv

/-- Sticky flags accumulate (R62). -/
def orFlags (w : Word) (f : Flags) : Word := w ||| ((0 : BitVec 55) ++ f ++ (0 : BitVec 3) : BitVec 64)
/-- Software sets SEED and bits [8:3]; an MTC leaves the HW fields (R28). -/
def mtcStatus (w x : Word) : Word :=
  mkStatus (stSeed x) (stPpriv w) (stEfp w) (stRfp w) (stCp w) (stFlags x) (stTh w) (stPriv w)
/-- The pending bits EFP and CP (R39). -/
def withEfp (w : Word) (b : Bool) : Word :=
  mkStatus (stSeed w) (stPpriv w) b (stRfp w) (stCp w) (stFlags w) (stTh w) (stPriv w)
def withCp (w : Word) (b : Bool) : Word :=
  mkStatus (stSeed w) (stPpriv w) (stEfp w) (stRfp w) b (stFlags w) (stTh w) (stPriv w)
/-- RFP (R131). -/
def withRfp (w : Word) (b : Bool) : Word :=
  mkStatus (stSeed w) (stPpriv w) (stEfp w) b (stCp w) (stFlags w) (stTh w) (stPriv w)
def withSeed (w : Word) (x : BitVec 32) : Word :=
  mkStatus x (stPpriv w) (stEfp w) (stRfp w) (stCp w) (stFlags w) (stTh w) (stPriv w)
/-- Trap entry (R306): PPRIV := PRIV, TH := 1, and U rises to S. -/
def trapStatus (w : Word) : Word :=
  mkStatus (stSeed w) (stPriv w) (stEfp w) (stRfp w) (stCp w) (stFlags w) true
    (if stPriv w = privU then privS else stPriv w)
/-- ERET (R307): TH := 0 and PRIV := PPRIV. -/
def eretStatus (w : Word) : Word :=
  mkStatus (stSeed w) (stPpriv w) (stEfp w) (stRfp w) (stCp w) (stFlags w) false (stPpriv w)
/-- Dispatch (R45): PRIV U, TH 0, flags and pending bits zero, SEED kept. -/
def unitStatus (w : Word) : Word := mkStatus (stSeed w) 0 false false false 0 false 0

/-- A seed of zero is used as 1 (R28). -/
def seedOr1 (x : BitVec 32) : BitVec 32 := if x = 0 then 1 else x
/-- The lane LFSRs after seeding (R218). -/
def seeded (seed : BitVec 32) : Vector (BitVec 32) 48 := Vector.ofFn (fun i => seedLane (seedOr1 seed) i.val)
/-- The seed that a unit leaves (R218). -/
def endSeed (l : Vector (BitVec 32) 48) : BitVec 32 := seedOr1 (l[0] ^^^ 0x9E3779B9#32)
/-- One step of a lane LFSR (R218). -/
def lfsrStep (x : BitVec 32) : BitVec 32 :=
  if x.getLsbD 0 then (x >>> 1) ^^^ 0x80200003#32 else x >>> 1

def Thread.orFlags (h : Thread) (f : Flags) : Thread := { h with status := Machine.orFlags h.status f }
def Thread.priv (h : Thread) : BitVec 2 := stPriv h.status

end Sys2Proof.Machine
end

