-- ==== Sys2Proof/Machine/Mem.lean ====
section
/-! DEFINITION. Memory and the ordering machine: the root, holding points, store buffers, climbing,
acquires, releases and atomics (R110-R122, R338, R339). -/

namespace Sys2Proof.Machine

/-! ## The root: bytes by address -/

/-- What an unlisted byte reads as (log 7). -/
def memDefault : Byte := 0

/-- Memory is in its canonical form. -/
def Memory.wf (m : List Host.Cell) : Bool := tcanon memDefault m

def memGet (m : List Host.Cell) (a : Nat) : Byte := tget memDefault m a
def memSet (m : List Host.Cell) (a : Nat) (b : Byte) : List Host.Cell := tput memDefault m a b

/-- Read one byte at the root. -/
def State.rd (s : State) (a : Nat) : Byte := memGet s.mem a
/-- Write one byte at the root. -/
def State.wr (s : State) (a : Nat) (b : Byte) : State := { s with mem := memSet s.mem a b }

/-- n bytes of a memory from address a. -/
def memRun (m : List Host.Cell) (a : Nat) : Nat → List Byte
  | 0 => []
  | n + 1 => memGet m a :: memRun m (a + 1) n
/-- The cells of bytes at consecutive addresses, in canonical form. -/
def cellsOf (a : Nat) : List Byte → List Host.Cell
  | [] => []
  | b :: bs => if b = memDefault then cellsOf (a + 1) bs else (a, b) :: cellsOf (a + 1) bs
/-- Bytes put into a memory from address a. -/
def memPut (m : List Host.Cell) (a : Nat) (bs : List Byte) : List Host.Cell :=
  m.filter (fun c => decide (c.1 < a)) ++ cellsOf a bs ++ m.filter (fun c => decide (a + bs.length ≤ c.1))

/-- n bytes at the root from address a. -/
def State.rdBytes (s : State) (a n : Nat) : List Byte :=
  memRun (s.mem.filter (fun c => decide (a ≤ c.1) && decide (c.1 < a + n))) a n
/-- Bytes written at the root from address a. -/
def State.wrBytes (s : State) (a : Nat) (bs : List Byte) : State := { s with mem := memPut s.mem a bs }

/-- The number that little-endian bytes hold (R4). -/
def natOfBytes : List Byte → Nat
  | [] => 0
  | b :: bs => b.toNat + 256 * natOfBytes bs
/-- n little-endian bytes of a number (R4). -/
def bytesOfNat : Nat → Nat → List Byte
  | 0, _ => []
  | n + 1, x => BitVec.ofNat 8 x :: bytesOfNat n (x / 256)

/-- An n-byte word at the root. -/
def State.rdNat (s : State) (a n : Nat) : Nat := natOfBytes (s.rdBytes a n)
def State.rdW (s : State) (a : Nat) : Word := BitVec.ofNat 64 (s.rdNat a 8)
def State.wrNat (s : State) (a n x : Nat) : State := s.wrBytes a (bytesOfNat n x)

/-! ## Nibbles (R110) -/

/-- The nibble at location 2a + k. -/
def State.rdNib (s : State) (loc : Nat) : BitVec 4 :=
  if loc % 2 = 0 then (s.rd (loc / 2)).extractLsb' 0 4 else (s.rd (loc / 2)).extractLsb' 4 4
/-- Write the nibble at location 2a + k; the other nibble of the byte stays (R113). -/
def State.wrNib (s : State) (loc : Nat) (x : BitVec 4) : State :=
  let b := s.rd (loc / 2)
  s.wr (loc / 2) (if loc % 2 = 0 then b.extractLsb' 4 4 ++ x else x ++ b.extractLsb' 0 4)

/-- The nibbles of bytes at consecutive addresses. -/
def nibsOf (a : Nat) : List Byte → Nibs
  | [] => []
  | b :: bs => (2 * a, b.extractLsb' 0 4) :: (2 * a + 1, b.extractLsb' 4 4) :: nibsOf (a + 1) bs

/-- The value that a list of nibbles gives a location, if it holds it. -/
def nibFind (ns : Nibs) (loc : Nat) : Option (BitVec 4) :=
  match ns with
  | [] => none
  | (l, x) :: t => if l = loc then some x else nibFind t loc

/-- Put a number into a rising list, once. -/
def insertN (n : Nat) : List Nat → List Nat
  | [] => [n]
  | k :: t => if n = k then k :: t else if n < k then n :: k :: t else k :: insertN n t
/-- The numbers of a list, rising, each once. -/
def rising (l : List Nat) : List Nat := l.foldr insertN []

/-- The lowest and the highest location of a store. -/
def nibSpan (ns : Nibs) : Nat × Nat :=
  ns.foldl (fun r x => (min r.1 x.1, max r.2 x.1)) ((ns.headD (0, 0)).1, 0)
/-- Do two stores share a location? Their spans are compared first. -/
def nibOverlap (a b : Nibs) : Bool :=
  let x := nibSpan a
  let y := nibSpan b
  decide (x.1 ≤ y.2) && decide (y.1 ≤ x.2) && a.any (fun x => b.any (fun y => x.1 == y.1))

/-! ## Where a location is held -/

/-- Is a location outside this package and outside the host (R131)? -/
def State.isPeer (s : State) (pa : Nat) : Bool := decide (pa < 2 ^ 52) && paPkg pa != s.pkg.toNat

/-- The level that is the root for stores of agent id to address pa: the scratchpad and array windows are
their own holding points from level 1, cluster memory from level 2 (R338), windows of another core or
cluster are performed at the target (R333); HBM and host memory have their root at the package, peer memory at
the pod (R339). -/
def State.topLevel (s : State) (id : BitVec 32) (pa : Nat) : Nat :=
  if s.isPeer pa then 7
  else if 2 ^ 52 ≤ pa then 6
  else
    match regionOf (paLocal pa) with
    | .core => 1
    | .cluster =>
      if homeLevel (idKind id) ≤ 1 && (paLocal pa - clusWin) / 0x300000 == idCluster id then 2 else 1
    | _ => 6

/-- The core and the scratchpad sector that an address names, if it lies in a scratchpad window. -/
def scratchSector (pa : Nat) : Option (Nat × Nat) :=
  let l := paLocal pa
  if coreWin ≤ l ∧ l < clusWin ∧ (l - coreWin) % 0x300000 < 0xC0000 then
    some ((l - coreWin) / 0x300000, (l - coreWin) % 0x300000 / 48)
  else none

/-- Mark a scratchpad sector written in the frame that holds it (R269, R319). -/
def State.markDirty (s : State) (pa : Nat) : State :=
  match scratchSector pa with
  | none => s
  | some (c, sec) =>
    if (s.core c).frames.isEmpty then s
    else s.updCore c (fun k => { k with frames := k.frames.map (fun f =>
      if f.line ≤ sec / 4 ∧ sec / 4 < f.line + f.len ∧ !(f.dirty.contains (sec - 4 * f.line)) then
        { f with dirty := (sec - 4 * f.line) :: f.dirty } else f) })

/-- Write nibbles at the root, marking frames. -/
def State.rootWrite (s : State) : Nibs → State
  | [] => s
  | (l, x) :: ns => ((s.wrNib l x).markDirty (l / 2)).rootWrite ns

/-- A store that writes all 48 bytes of a poisoned sector clears its poison (R348). -/
def State.unpoison (s : State) (ns : Nibs) : State :=
  if s.poison.isEmpty then s
  else { s with poison := s.poison.filter (fun a =>
    !((List.range 96).all (fun i => (nibFind ns (2 * a + i)).isSome))) }

/-! ## L1, L2 and the LLC (R339-R345) -/

/-- The line of a tag that holds a physical byte, and the byte's sector in it. -/
def CTag.line (g : CTag) (a : Nat) : Nat := (g.va + a - g.pa) / 192
def secOf (a : Nat) : Nat := paLocal a % 192 / 48
/-- Is a cached line the one of a tag for a physical byte? -/
def CTag.tags (g : CTag) (a : Nat) (l : CLine) : Bool :=
  l.part == g.part && l.asid == g.asid && l.vline == g.line a

/-- The nibble of a location that a cache holds under a tag. -/
def lineNib (ls : List CLine) (g : CTag) (loc : Nat) : Option (BitVec 4) :=
  let a := loc / 2
  match ls.find? (g.tags a) with
  | none => none
  | some l =>
    match l.secs.find? (fun x => x.1 == secOf a) with
    | none => none
    | some (_, bs) =>
      let b := bs.getD (paLocal a % 48) 0
      some (if loc % 2 = 0 then b.extractLsb' 0 4 else b.extractLsb' 4 4)

/-- A line with one sector more, or a sector replaced. -/
def CLine.put (l : CLine) (sec : Nat) (bs : List Byte) : CLine :=
  { l with secs := (sec, bs) :: l.secs.filter (fun x => x.1 != sec) }

/-- The bytes of a sector after a store of nibbles to it. -/
def sectorWith (base : Nat) (bs : List Byte) (ns : Nibs) : List Byte :=
  bs.zipIdx.map (fun x =>
    (nibFind ns (2 * (base + x.2) + 1)).getD (x.1.extractLsb' 4 4) ++
      (nibFind ns (2 * (base + x.2))).getD (x.1.extractLsb' 0 4))

/-- A store updates the copies that a cache holds of its physical line, under whatever tag, and never allocates
(R339, R340, R343). -/
def copiesWith (ls : List CLine) (st : SbStore) : List CLine :=
  match st.nibs with
  | [] => ls
  | (loc, _) :: _ =>
    let a := loc / 2
    ls.map (fun l =>
      if l.pline = lineBase a then { l with secs := l.secs.map (fun x =>
        if x.1 = secOf a then (x.1, sectorWith (secBase a) x.2 st.nibs) else x) }
      else l)

/-- The lines of the slices of a chiplet (R342). -/
def State.l2Of (s : State) (k : Nat) : List CLine := tget [] s.l2 k
def State.setL2 (s : State) (k : Nat) (ls : List CLine) : State :=
  if ls.isEmpty && (s.l2Of k).isEmpty then s else { s with l2 := tset s.l2 k ls }
/-- The chiplet of an agent's path. -/
def chipOfId (id : BitVec 32) : Nat := chipOfClus (idCluster id)

/-- Invalidations from the LLC or a router queue name a physical line: chiplets drop every copy of it in L2
(R339, R343, R345). -/
def State.invalL2 (s : State) (chips : Nat → Bool) (pline : Nat) : State :=
  { s with l2 := s.l2.map (fun e =>
    if chips e.1 then (e.1, e.2.filter (fun l => l.pline != pline)) else e) }

/-- Is a physical address in this package's HBM? -/
def State.isHbm (s : State) (pa : Nat) : Bool :=
  decide (pa < 2 ^ 52) && paPkg pa == s.pkg.toNat && regionOf (paLocal pa) == .hbm

/-- The first byte of a line of a stack. -/
def stackAddr (pkg : BitVec 9) (st n : Nat) : Nat :=
  mkPa pkg ((n / 256 * 16 + st) * 49152 + n % 256 * 192)

/-- The LLC line of an HBM address changes, and is allocated where it is absent: the least recently used line of
a full set is evicted, the copies of the chiplets in its presence vector first (R345). -/
def State.llcLine (s : State) (a : Nat) (f : LLine → LLine) : State :=
  let l := paLocal a
  let st := stackOf l
  let n := stackLine l
  let ls := tget [] s.llc st
  let same (x : LLine) : Bool := x.line % 65536 == n % 65536
  match ls.find? (fun x => x.line == n) with
  | some x => { s with llc := tset s.llc st (f x :: ls.filter (fun y => y.line != n)) }
  | none =>
    let new := f ⟨n, 0, 0, 0⟩
    if (ls.filter same).length < 16 then { s with llc := tset s.llc st (new :: ls) }
    else
      match ls.reverse.find? same with
      | none => s
      | some v =>
        let s := s.invalL2 (fun k => v.pres.getLsbD k) (stackAddr s.pkg st v.line)
        { s with llc := tset s.llc st (new :: ls.filter (fun y => y.line != v.line)) }

/-- R345: the LLC applies a store to HBM from a chiplet, or from a peer, a host port or the device itself: the
other chiplets in the presence vector lose their copies. -/
def State.llcStore (s : State) (from_ : Option Nat) (a : Nat) : State :=
  let keep (k : Nat) : Bool := from_ == some k
  let b : BitVec 4 := 1#4 <<< secOf a
  let l := paLocal a
  let pres : BitVec 16 := match (tget [] s.llc (stackOf l)).find? (fun x => x.line == stackLine l) with
    | some x => x.pres
    | none => 0
  let s := s.invalL2 (fun k => pres.getLsbD k && !keep k) (lineBase a)
  s.llcLine a (fun x => { x with
    valid := x.valid ||| b, dirty := x.dirty ||| b
    pres := match from_ with
      | some k => x.pres &&& (1#16 <<< k)
      | none => 0 })

/-- Nibbles are written at the root by a chiplet's agent or by another writer: the LLC takes those of HBM (R345),
and sectors written whole lose their poison (R348). -/
def State.land (s : State) (from_ : Option Nat) (ns : Nibs) : State :=
  let s := (rising (ns.map (fun p => secBase (p.1 / 2)))).foldl (fun (s : State) a =>
    if s.isHbm a then s.llcStore from_ a else s) s
  (s.rootWrite ns).unpoison ns

/-! ## Requests to peers (R131, R360, R400) -/

/-- One more refusal in a record: the first keeps its address, package and reason (R132). -/
def RefRec.add (r : RefRec) (addr : Word) (pkg : BitVec 9) (reason : BitVec 8) : RefRec :=
  if r.count = 0 then ⟨1, addr, pkg, reason⟩ else { r with count := min 255 (r.count + 1) }

/-- R136: a command's region ends. -/
def State.closeRegion (s : State) (ag : BitVec 32) (stamp : BitVec 16) : State :=
  let a := s.agent ag
  s.setAgent ag { a with opened := a.opened.filter (fun x => x != stamp) }
/-- The head of a queue stops: if it had begun, its region ends. -/
def State.closeHead (s : State) (o : QOwner) (q : Nat) : State :=
  match (s.queue o q).cmds with
  | c :: _ => if c.begun then s.closeRegion (agentId s.pkg (cmdAgent o q c.i)) c.stamp else s
  | [] => s

/-- EFP and CP as the queues leave them. -/
def Thread.pendingBits (th : Thread) : Thread :=
  let any (c : Bool) : Bool := th.q.toList.any (fun q => match q.stopped with
    | some r => r.conflict == c
    | none => false)
  { th with status := withCp (withEfp th.status (any false)) (any true) }

/-- R39, R258: a fault of a command of unit `uid` stops its queue with a record and sets EFP, or CP for a conflict, in
the thread's c1. In a queue that has stopped, the record of the older command stands: a store of a command that had
completed may be refused last (R133). A command that has lost its unit is dropped without a report (R373). -/
def State.stopQueue (s : State) (o : QOwner) (q uid : Nat) (r : EngRec) : State :=
  let x := s.queue o q
  if s.ownerUid o ≠ some uid then
    match x.cmds with
    | c :: cs => if c.order = r.order then (s.closeHead o q).setQueue o q { x with cmds := cs } else s
    | [] => s
  else
    match x.stopped with
    | some y =>
      if r.order < y.order then
        let s := s.setQueue o q { x with stopped := some r }
        match o with
        | .thread t => s.updThr t Thread.pendingBits
        | .seqr _ => s
      else s
    | none =>
      let s := (s.closeHead o q).setQueue o q { x with stopped := some r }
      match o with
      | .thread t => s.updThr t (fun h => { h with
          status := if r.conflict then withCp h.status true else withEfp h.status true })
      | .seqr _ => s

/-- c5 of the record of a refused access of a command: the reason of R132 has its place in R258's record only. -/
def CmdRef.info (c : CmdRef) (reason : BitVec 8) : Word :=
  if c.q = 3 then c.c5 else c.c5 ||| ((0 : BitVec 24) ++ reason ++ (0 : BitVec 32) : BitVec 64)

/-- R131: a refusal is recorded against the agent, and sets RFP where the agent is a thread; one met by a
command, complete or not, stops its queue (R133). -/
def State.refuse (s : State) (id : BitVec 32) (cmd : Option CmdRef) (addr : Word) (pkg : BitVec 9)
    (reason : BitVec 8) : State :=
  match cmd with
  | some c => s.stopQueue c.own c.q c.uid ⟨c.order, if c.q = 3 then 1 else 0, addr, c.info reason, false⟩
  | none =>
    let a := s.agent id
    let s := s.setAgent id { a with ref := a.ref.add addr pkg reason }
    if idKind id = 0 then s.updThr (idThread id) (fun h => { h with status := withRfp h.status true })
    else s

/-- The link that the route table gives a package, when it is up (R400). -/
def State.routeTo (s : State) (dst : Nat) : Option Nat :=
  let e := tget (0 : Word) s.route dst
  let l := (e.extractLsb' 0 6).toNat
  if e.getLsbD 63 && (s.link l).up then some l else none

/-- A flit leaves on a link, and stays in the replay buffer of 128 flits (R399). -/
def Link.send (k : Link) (f : Flit) : Link :=
  { k with sent := k.sent ++ [f], fails := if k.replay.length < 128 then k.fails else 0
           replay := (k.replay ++ [f]).drop (k.replay.length + 1 - 128) }
/-- A lane of a link has flits that wait, or may carry none (R398, R399). -/
def Link.held (k : Link) (vl : BitVec 2) : Bool :=
  !k.up || k.stop.toList.getD vl.toNat false || k.queue.any (fun g => g.vl == vl)
/-- A flit leaves, or waits behind others of its lane while that is stopped (R398). -/
def Link.put (k : Link) (f : Flit) : Link :=
  if k.held f.vl then { k with queue := k.queue ++ [f] } else k.send f

/-- A list in groups of three; `fuel` bounds them. -/
def byThree {α : Type} (l : List α) : Nat → List (List α)
  | 0 => []
  | n + 1 => if l.isEmpty then [] else l.take 3 :: byThree (l.drop 3) n
/-- The flits of a carried state: three sectors each, the messages with 96 bytes of payload a flit, and one that ends it
(R326, R395, log 51). The first byte of the data says which: 0, 1 with 2 for the rest of a message, 3. -/
def carryParts (f : Flit) : List Flit :=
  (byThree f.secs f.secs.length).map (fun l => { f with secs := l, msgs := [], data := [0] }) ++
  f.msgs.flatMap (fun m =>
    { f with secs := [], msgs := [{ m with payload := m.payload.take 96 }], data := [1] } ::
      (if m.len.toNat ≤ 96 then [] else [{ f with secs := [], msgs := [], data := 2 :: m.payload.drop 96 }])) ++
  [{ f with secs := [], msgs := [], data := [3] }]
/-- The flits of what one flit cannot carry: of a message two, back to back, where LEN > 144, and of a carried state
(R395). -/
def flitParts (f : Flit) : List Flit :=
  if f.typ = 0x15 then carryParts f
  else
    match f.msgs with
    | [m] =>
      if f.typ = 8 ∧ 144 < m.len.toNat then
        [{ f with msgs := [{ m with payload := m.payload.take 144 }] },
         { f with msgs := [], data := m.payload.drop 144 }]
      else [f]
    | _ => [f]
/-- How many payload sectors a flit has (R395, R396): the header sector of a message and those of its payload, the
data of a reply, the operands of a store or an atomic, the key of a notice, and of a carried state what it carries
beside that (log 51). -/
def flitSectors (f : Flit) : Nat :=
  match f.typ.toNat, f.msgs with
  | 0x08, [m] => 1 + (min 144 m.len.toNat + 47) / 48
  | 0x08, _ => (f.data.length + 47) / 48
  | 0x15, [m] => 2 + (min 96 m.len.toNat + 47) / 48
  | 0x15, _ => 1 + f.secs.length + (f.data.length - 1 + 47) / 48
  | 0x04, _ => (f.data.length + 47) / 48
  | 0x02, _ | 0x05, _ | 0x06, _ | 0x09, _ | 0x0A, _ => 0
  | _, _ => 1
/-- A flit with its SMASK: the first sectors of the payload are present (R396). -/
def withMask (f : Flit) : Flit := { f with smask := BitVec.ofNat 4 (2 ^ min 4 (flitSectors f) - 1) }

/-- Do new flits for a package wait on a lane for those sent before a write of its route (R400)? -/
def State.routeHeld (s : State) (dst : Nat) (vl : BitVec 2) : Bool :=
  s.rhold.any (fun h => h.dst == dst && h.vl == vl)

/-- A flit for another package leaves as it is, or waits for its lane; false where there is no path (R400). -/
def State.pass (s : State) (f : Flit) : State × Bool :=
  if s.routeHeld f.dpkg.toNat f.vl then ({ s with rwait := s.rwait ++ [f] }, true)
  else
    match s.routeTo f.dpkg.toNat with
    | some l => (s.setLink l ((s.link l).put f), true)
    | none => (s, false)
/-- Send a flit of this package, a long message as two; false where there is no path (R400). -/
def State.emit (s : State) (f : Flit) : State × Bool :=
  (flitParts f).foldl (fun (r : State × Bool) g =>
    let (s, b) := r.1.pass (withMask g)
    (s, r.2 && b)) (s, true)

/-- Is there room reserved for the answer to a request to a package (R398)? The receive buffer of lane 1 on its link
holds 96 flits. -/
def State.answerRoom (s : State) (dst : Nat) : Bool :=
  decide ((s.outst.filter (fun o => s.routeTo o.dpkg == s.routeTo dst)).length < 96)

/-- A request of this package waits to leave, for its lane or behind a write of its route (R398, R400). -/
def State.requestWaits (s : State) (tag : Nat) : Bool :=
  let is (f : Flit) : Bool := decide (f.typ.toNat ≤ 3) && idPkg f.sagent == s.pkg && f.tag.toNat == tag
  s.rwait.any is || s.links.any (fun l => l.2.queue.any is)
/-- Requests that have left now count their time from now (R402). -/
def State.markLeft (s : State) : State :=
  if s.outst.all (fun o => o.left.isSome) then s
  else { s with outst := s.outst.map (fun (o : Outst) =>
    if o.left.isSome || s.requestWaits o.tag then o else { o with left := some s.mesh }) }

/-- A store, load or atomic leaves for the package that owns its address, and is remembered until it is
answered; with no path the store is refused at once with reason 4. False when there is no path. Tags are given out in
turn, modulo 4096, one that is still outstanding too; of the requests of one tag the oldest takes an answer (log 51). -/
def State.sendPeer (s : State) (id : BitVec 32) (no : Nat) (va : Word) (pa : Nat) (typ : Nat) (ns : Nibs)
    (data : List Byte) (of : Whose) : State × Bool :=
  let tag := s.tags % 4096
  let dst := paPkg pa
  let fl : Flit := { (default : Flit) with
    sagent := id, dpkg := BitVec.ofNat 9 dst, part := BitVec.ofNat 7 of.part, typ := BitVec.ofNat 6 typ,
    tag := BitVec.ofNat 12 tag, addr := BitVec.ofNat 52 pa, data }
  match s.emit fl with
  | (s, true) =>
    (({ s with
      tags := s.tags + 1
      outst := s.outst ++ [⟨tag, no, id, va, pa, dst, 0, typ == 1, ns, s.mesh, none, of⟩] } : State).markLeft, true)
  | (s, false) =>
    (if typ = 1 then s.refuse id of.cmd va (BitVec.ofNat 9 dst) 4 else s, false)

/-- A store as the payload of a flit: each location's number within the access, and its nibble. -/
def nibData (base : Nat) (ns : Nibs) : List Byte :=
  ns.flatMap (fun p => [BitVec.ofNat 8 (p.1 - base), (0 : BitVec 4) ++ p.2])

/-! ## Holding points (R111, R116) -/

/-- Put pending entries into a holding point, in place of what it held there; L1 and L2 update the copy that they
hold, and a router queue invalidates the line in the L2 of the tile's other chiplet (R339). -/
def State.enter (s : State) (lvl : Nat) (id : BitVec 32) (st : SbStore) (past : List (BitVec 32 × Nat)) : State :=
  let inst := idAt id lvl
  let gone (e : HEntry) : Bool := e.lvl == lvl && e.inst == inst && (nibFind st.nibs e.loc).isSome
  let mine (loc : Nat) : List (BitVec 32 × Nat) :=
    (s.hold.filter (fun e => gone e && e.loc == loc)).flatMap (fun e => (e.ag, e.id) :: e.past)
  let s := { s with hold := s.hold.filter (fun e => !gone e) ++ st.nibs.map (fun p =>
    { lvl, inst, loc := p.1, val := p.2, ag := id, tag := st.tag, past := past ++ mine p.1 }) }
  match lvl with
  | 1 =>
    if (s.core (idCore id)).l1.isEmpty then s
    else s.updCore (idCore id) (fun k => { k with l1 := copiesWith k.l1 st })
  | 4 => s.setL2 (chipOfId id) (copiesWith (s.l2Of (chipOfId id)) st)
  | 5 =>
    match st.nibs with
    | [] => s
    | (l, _) :: _ => s.invalL2 (fun k => k / 2 == chipOfId id / 2 && k != chipOfId id) (lineBase (l / 2))
  | _ => s

/-- Other units of the instruction that writes a store's whole sector, which are below the root still. -/
def State.wipeLeft (s : State) (id : BitVec 32) (st : SbStore) : Bool :=
  let same (x : StoreTag) (ns : Nibs) : Bool := x.wipe == st.tag.wipe && x.id != st.id &&
    (match ns, st.nibs with
     | (a, _) :: _, (b, _) :: _ => secBase (a / 2) == secBase (b / 2)
     | _, _ => false)
  (s.agent id).sb.any (fun x => same x.tag x.nibs) ||
    (s.agent id).iq.any (fun e => match e with
      | .store x => same x.tag x.nibs
      | .load .. | .atom .. | .peer .. | .got .. => false) ||
    s.hold.any (fun e => e.ag == id && same e.tag [(e.loc, e.val)])

/-- A store reaches the root: memory takes it, or it goes to the package that owns the address (R131). An
instruction that writes a whole sector clears its poison with its last unit (R348). -/
def State.toRoot (s : State) (id : BitVec 32) (st : SbStore) : State :=
  match st.nibs with
  | [] => s
  | (l, _) :: _ =>
    if s.isPeer (l / 2) then
      (s.sendPeer id st.id st.tag.va (l / 2) 1 st.nibs (nibData (l / 2 * 2) st.nibs) st.tag.of).1
    else
      let s := s.land (if homeLevel (idKind id) ≤ 4 then some (chipOfId id) else none) st.nibs
      if st.tag.wipe ≠ 0 ∧ !s.wipeLeft id st then
        { s with poison := s.poison.filter (fun a => a != secBase (l / 2)) }
      else s

/-- A store enters level lvl, or the root where that is the root for its address. -/
def State.enterAt (s : State) (lvl : Nat) (id : BitVec 32) (st : SbStore) (past : List (BitVec 32 × Nat)) : State :=
  match st.nibs with
  | [] => s
  | (l, _) :: _ => if s.topLevel id (l / 2) ≤ lvl then s.toRoot id st else s.enter lvl id st past

/-- The level that a store has reached once it has entered level lvl: the root stands for every level above. -/
def State.reached (s : State) (id : BitVec 32) (st : SbStore) (lvl : Nat) : Nat :=
  match st.nibs with
  | [] => 7
  | (l, _) :: _ => if s.topLevel id (l / 2) ≤ lvl then 7 else lvl

/-- Levels at which a store of the agent still is: 0 in its issue queue or its buffer, else the level of a pending
entry, its own or the one that has replaced it (R119). -/
def State.storeLevels (s : State) (id : BitVec 32) : List (Nat × Nat) :=
  (s.agent id).iq.filterMap (fun e => match e with
    | .store st => some (st.id, 0)
    | .load .. | .atom .. | .peer .. | .got .. => none) ++
    (s.agent id).sb.map (fun st => (st.id, 0)) ++
    s.hold.flatMap (fun e =>
      (if e.ag = id then [(e.id, e.lvl)] else []) ++
        (e.past.filter (fun x => x.1 == id)).map (fun x => (x.2, e.lvl)))

/-- Has every store of the agent before number n reached level l, in the issue queue, the buffer and the holding points
but for the entries of store `but`? What that one has replaced goes up with it, just before it (R117). -/
def State.storesAbove (s : State) (id : BitVec 32) (but : Option Nat) (n l : Nat) : Bool :=
  (({ s with hold := s.hold.filter (fun e => some e.id != but) } : State).storeLevels id).all
    (fun p => decide (n ≤ p.1) || decide (l ≤ p.2))

/-- Stores by their number and their agent, oldest first, each once. -/
def oldestFirst (l : List (Nat × BitVec 32)) : List (Nat × BitVec 32) :=
  (rising (l.map Prod.fst)).filterMap (fun n => l.find? (fun x => x.1 == n))

/-- The loads and atomics of an agent's issue queue before number n. -/
def State.olderLoads (s : State) (id : BitVec 32) (n : Nat) : Bool :=
  (s.agent id).iq.any (fun e => match e with
    | .load no _ _ _ _ _ _ | .atom no _ _ _ _ _ _ => decide (no < n)
    | .store .. | .peer .. | .got .. => false)

/-- R119: every access of the agent older than number n, which store `but` may be, has been performed up to level l, and
at pod its peer stores are answered (R131). -/
def State.olderAbove (s : State) (id : BitVec 32) (but : Option Nat) (n l : Nat) : Bool :=
  !s.olderLoads id n && s.storesAbove id but n l &&
    (l < 7 || !(s.outst.any (fun o => o.store && o.ag == id && decide (o.no < n))))

/-- Would a store that enters level lvl replace there, or push on, stores of its own agent only? -/
def State.ownOnly (s : State) (id : BitVec 32) (st : SbStore) (lvl : Nat) : Bool :=
  s.hold.all (fun e => !(e.lvl == lvl && e.inst == idAt id lvl && (nibFind st.nibs e.loc).isSome) ||
    (e.ag == id && e.past.all (fun x => x.1 == id)))

/-- R119: may a store with a release scope enter level lvl from level `from_`? One that waits for older stores goes no
nearer to its scope over stores of other agents, which may wait for it in turn (log 53). -/
def State.releaseOk (s : State) (id : BitVec 32) (st : SbStore) (from_ lvl : Nat) : Bool :=
  match st.tag.rel with
  | none => true
  | some r => r ≤ from_ || s.olderAbove id (some st.id) st.id r || (s.reached id st lvl < r && s.ownOnly id st lvl)

/-- R398: a store that enters the root as a request to a peer waits for room for its answer. -/
def State.rootRoom (s : State) (id : BitVec 32) (st : SbStore) (lvl : Nat) : Bool :=
  match st.nibs with
  | [] => true
  | (l, _) :: _ => !s.isPeer (l / 2) || lvl < s.topLevel id (l / 2) || s.answerRoom (paPkg (l / 2))

/-- R116, R183: may a store leave its buffer? -/
def State.mayLeave (s : State) (id : BitVec 32) (st : SbStore) : Bool :=
  s.rootRoom id st (homeLevel (idKind id)) &&
  !((s.agent id).sb.any (fun x => decide (x.id < st.id) &&
    (nibOverlap x.nibs st.nibs || (st.tag.grp != 0 && x.tag.grp == st.tag.grp)))) &&
  s.releaseOk id st 0 (homeLevel (idKind id))

/-- R116: store n leaves the buffer of agent id for its home holding point. -/
def State.leave (s : State) (id : BitVec 32) (n : Nat) : State :=
  match (s.agent id).sb.find? (fun st => st.id == n) with
  | none => s
  | some st =>
    if s.mayLeave id st then
      let a := s.agent id
      (s.setAgent id { a with sb := a.sb.filter (fun x => x.id != n) }).enterAt
        (homeLevel (idKind id)) id st []
    else s

/-- The entries of store n that are at level lvl. -/
def State.pendingAt (s : State) (n lvl : Nat) : List HEntry :=
  s.hold.filter (fun e => e.id == n && e.lvl == lvl)

/-- R116: the pending entries of store n climb from level lvl, those of an unaligned access in order (R183). -/
def State.climb (s : State) (n lvl : Nat) : State :=
  match s.pendingAt n lvl with
  | [] => s
  | e :: es =>
    let st : SbStore := ⟨e.tag, (e :: es).map (fun x => (x.loc, x.val))⟩
    let first := e.tag.grp = 0 || !(s.hold.any (fun x =>
      x.tag.grp == e.tag.grp && decide (x.id < n) && decide (x.lvl ≤ lvl)))
    if first && s.rootRoom e.ag st (lvl + 1) && s.releaseOk e.ag st lvl (lvl + 1) then
      { s with hold := s.hold.filter (fun x => !(x.id == n && x.lvl == lvl)) }.enterAt (lvl + 1) e.ag st
        ((e :: es).flatMap HEntry.past)
    else s

/-- R117: a settled copy of a location's sector is discarded from L1 (level 1) or from an L2 slice (level 4). -/
def State.discard (s : State) (lvl inst loc : Nat) : State :=
  let a := loc / 2
  let out (l : CLine) : CLine :=
    if l.pline = lineBase a then { l with secs := l.secs.filter (fun x => x.1 != secOf a) } else l
  match lvl with
  | 1 =>
    let c := idCore (BitVec.ofNat 32 (inst * 2 ^ levelShift 1))
    if (s.core c).l1.isEmpty then s else s.updCore c (fun k => { k with l1 := k.l1.map out })
  | 4 =>
    let k := chipOfId (BitVec.ofNat 32 (inst * 2 ^ levelShift 4))
    s.setL2 k ((s.l2Of k).map out)
  | _ => s

/-- The core's L1 loses everything. -/
def State.flashL1 (s : State) (c : Nat) : State :=
  if (s.core c).l1.isEmpty then s else s.updCore c (fun k => { k with l1 := [] })

/-- R118, R339: an acquire at scope clus or wider flash-invalidates the L1 of the agent's core; no other structure
keeps a copy older than a store that has climbed past it. -/
def State.acquire (s : State) (id : BitVec 32) (sc : Nat) : State :=
  if 2 ≤ sc ∧ homeLevel (idKind id) ≤ 1 then s.flashL1 (idCore id) else s

/-! ## Bringing stores up (R119, R124, R125): compositions of the steps above -/

/-- Bring store n of agent id up to level l: leave the buffer, then climb. -/
def State.raise (s : State) (id : BitVec 32) (n l : Nat) : Nat → Nat → State
  | 0, _ => s
  | k + 1, lvl =>
    if l ≤ lvl then s
    else if lvl = 0 then (s.leave id n).raise id n l k (homeLevel (idKind id))
    else (s.climb n lvl).raise id n l k (lvl + 1)

/-- Bring the listed stores up to level l, oldest first: each store by its number and its agent. -/
def State.raiseAll (s : State) (l : Nat) : List (Nat × BitVec 32) → State
  | [] => s
  | (n, id) :: ns =>
    let s := s.raise id n l 8 0
    let s := (List.range l).foldl (fun s k => if k = 0 then s else s.climb n k) s
    s.raiseAll l ns

/-- The stores that stand below level l for those of an agent that a test of their numbers and nibbles names, by number
and agent, oldest first. -/
def State.belowIf (s : State) (id : BitVec 32) (l : Nat) (p : Nat → Nibs → Bool) : List (Nat × BitVec 32) :=
  oldestFirst (((s.agent id).sb.filter (fun st => p st.id st.nibs)).map (fun st => (st.id, id)) ++
    (s.hold.filter (fun e => decide (e.lvl < l) &&
      ((e.ag == id && p e.id [(e.loc, e.val)]) || e.past.any (fun x => x.1 == id && p x.2 [(e.loc, e.val)])))).map
      (fun e => (e.id, e.ag)))
/-- The same by number alone. -/
def State.below (s : State) (id : BitVec 32) (l : Nat) (p : Nat → Bool) : List (Nat × BitVec 32) :=
  s.belowIf id l (fun n _ => p n)

/-- Bring every store of the agent up to level l, oldest first. -/
def State.drain (s : State) (id : BitVec 32) (l : Nat) : State := s.raiseAll l (s.below id l (fun _ => true))

/-- The agent's stores below level l that overlap the locations, and those that have replaced one there. -/
def State.overlapping (s : State) (id : BitVec 32) (l : Nat) (locs : Nibs) : List (Nat × BitVec 32) :=
  s.belowIf id l (fun _ ns => nibOverlap ns locs)

/-- Bring the agent's stores that overlap the locations up to level l. -/
def State.drainOver (s : State) (id : BitVec 32) (l : Nat) (locs : Nibs) : State :=
  s.raiseAll l (s.overlapping id l locs)
/-- The same, and whether all have come: a release store, or one that a release store has replaced, may wait for older
ones. -/
def State.cleared (s : State) (id : BitVec 32) (l : Nat) (locs : Nibs) : State × Bool :=
  let s := s.drainOver id l locs
  (s, (s.overlapping id l locs).isEmpty)

/-- The accesses of an agent before number n are brought up to a level: have its loads been performed, and its stores
come there, those to peers answered where the level is pod (R119, R123, R131)? -/
def State.upTo (s : State) (id : BitVec 32) (n l : Nat) : State × Bool :=
  let s := s.raiseAll l (s.below id l (fun k => decide (k < n)))
  (s, s.olderAbove id none n l)

/-- R119, R131: are all the agent's peer stores answered? -/
def State.peersDone (s : State) (id : BitVec 32) : Bool :=
  !(s.outst.any (fun o => o.store && o.ag == id))

/-! ## Loads (R114) -/

/-- The copy of a location that the structure of a level keeps under a tag: L1 at the core, a slice of L2 at the
chiplet (R339). -/
def State.copyNib (s : State) (id : BitVec 32) (g : Option CTag) (l loc : Nat) : Option (BitVec 4) :=
  match g with
  | none => none
  | some g =>
    match l with
    | 1 => lineNib (s.core (idCore id)).l1 g loc
    | 4 => lineNib (s.l2Of (chipOfId id)) g loc
    | _ => none

/-- The nearest entry from level l upwards on the agent's path: a pending one, a copy, or the root's. -/
def State.above (s : State) (id : BitVec 32) (g : Option CTag) (loc : Nat) : Nat → Nat → BitVec 4
  | 0, _ => s.rdNib loc
  | k + 1, l =>
    match s.hold.find? (fun e => e.lvl == l && e.loc == loc && e.inst == idAt id l) with
    | some e => e.val
    | none =>
      match s.copyNib id g l loc with
      | some x => x
      | none => s.above id g loc k (l + 1)

/-- The value of a location for a load of agent id: its own youngest store, else the nearest entry. -/
def State.loadNib (s : State) (id : BitVec 32) (g : Option CTag) (loc : Nat) : BitVec 4 :=
  match (s.agent id).sb.reverse.findSome? (fun st => nibFind st.nibs loc) with
  | some x => x
  | none =>
    let h := homeLevel (idKind id)
    s.above id g loc (7 - h) h

/-- The byte at physical address a for a load of agent id. -/
def State.loadByte (s : State) (id : BitVec 32) (g : Option CTag) (a : Nat) : Byte :=
  s.loadNib id g (2 * a + 1) ++ s.loadNib id g (2 * a)

/-- n bytes from physical address a for a load of agent id. -/
def State.loadBytes (s : State) (id : BitVec 32) (g : Option CTag) (a : Nat) : Nat → List Byte
  | 0 => []
  | n + 1 => s.loadByte id g a :: s.loadBytes id g (a + 1) n

/-! ## Fills (R340, R343, R180, R184) -/

/-- The set of a slice that a virtual line falls in (R342). -/
def lineSet (line : Nat) : Nat := (line % 512) ^^^ (line / 512 % 512)

/-- The slice of a chiplet that holds virtual line v (R342). -/
def sliceOf (p : Nat) (asid : BitVec 16) (va : Nat) : Nat :=
  let v := va / 192
  let x := (v % 65536) ^^^ (v / 65536 % 65536) ^^^ (v / 2 ^ 32 % 65536) ^^^ asid.toNat ^^^ (p * 512)
  x % 24

/-- A full set loses its least recently used line that is not kept. -/
def makeSet (ls : List CLine) (inSet keep : CLine → Bool) (ways : Nat) : List CLine :=
  if (ls.filter inSet).length < ways then ls
  else (ls.reverse.eraseP (fun l => inSet l && !keep l)).reverse

/-- A line that is used comes first, or, with `last`, where the next victim is sought. -/
def useLine (ls : List CLine) (p : CLine → Bool) (l : CLine) (last : Bool) : List CLine :=
  let rest := ls.filter (fun x => !p x)
  if last then rest ++ [l] else l :: rest

/-- The 48 bytes of a sector as an agent's path gives them from level l. -/
def State.sectorAt (s : State) (id : BitVec 32) (g : CTag) (base l : Nat) : List Byte :=
  (List.range 48).map (fun i =>
    s.above id (some g) (2 * (base + i) + 1) (7 - l) l ++ s.above id (some g) (2 * (base + i)) (7 - l) l)

/-- The chiplet's slice takes the sector of a byte from the LLC, unless it has it; a line placed first in line for
eviction stands last (R180, R342-R345). -/
def State.fillL2 (s : State) (id : BitVec 32) (g : CTag) (a : Nat) : State :=
  let k := chipOfId id
  let ls := s.l2Of k
  let is := g.tags a
  let old := (ls.find? is).getD ⟨g.part, g.asid, g.line a, lineBase a, []⟩
  let evf := g.hint == 2
  if old.secs.any (fun x => x.1 == secOf a) then s.setL2 k (useLine ls is old evf)
  else
    let bs := s.sectorAt id g (secBase a) 4
    let b : BitVec 4 := 1#4 <<< secOf a
    let s := s.llcLine a (fun x => { x with valid := x.valid ||| b, pres := x.pres ||| (1#16 <<< k) })
    let ls := s.l2Of k
    let at_ (l : CLine) : Nat × Nat := (sliceOf l.part l.asid (192 * l.vline), lineSet l.vline)
    let inSet (l : CLine) : Bool := at_ l == at_ old
    let pinned (l : CLine) : Bool := s.pins.any (fun x =>
      x.chip == k && x.part == l.part && x.asid == l.asid && x.line == l.vline)
    let ls := if ls.any is then ls else makeSet ls inSet pinned 20
    s.setL2 k (useLine ls is (old.put (secOf a) bs) evf)

/-- L1 takes the sector of a byte on a miss (R340). -/
def State.fillL1 (s : State) (id : BitVec 32) (g : CTag) (a : Nat) : State :=
  let c := idCore id
  let k := s.core c
  let sets := (poolB2 k.poolcfg - poolB1 k.poolcfg) / 8
  let is := g.tags a
  let old := (k.l1.find? is).getD ⟨g.part, g.asid, g.line a, lineBase a, []⟩
  if old.secs.any (fun x => x.1 == secOf a) then s.updCore c (fun k => { k with l1 := useLine k.l1 is old false })
  else
    let s := s.fillL2 id g a
    if sets = 0 ∨ g.hint = 1 then s
    else
      let bs := s.sectorAt id g (secBase a) 1
      s.updCore c (fun k =>
        let ls := if k.l1.any is then k.l1
          else makeSet k.l1 (fun l => l.vline % sets == old.vline % sets) (fun _ => false) 8
        { k with l1 := useLine ls is (old.put (secOf a) bs) false })

/-- The first bytes of the sectors of a run. -/
def sectorsOf (pa n : Nat) : List Nat :=
  if n = 0 then [] else (List.range ((pa + n - 1 - secBase pa) / 48 + 1)).map (fun i => secBase pa + 48 * i)

/-- The loads of a thread fill the caches, sector by sector; a poisoned sector fills nothing. -/
def State.fillRun (s : State) (id : BitVec 32) (g : Option CTag) (pa n : Nat) : State :=
  match g with
  | none => s
  | some g => (sectorsOf pa n).foldl (fun (s : State) a =>
      if s.poison.contains a then s else s.fillL1 id g a) s

/-- Does a cache on the agent's path hold the sector of a byte? -/
def State.cached (s : State) (id : BitVec 32) (g : Option CTag) (a : Nat) : Bool :=
  (homeLevel (idKind id) ≤ 1 && (s.copyNib id g 1 (2 * a)).isSome) ||
    (homeLevel (idKind id) ≤ 4 && (s.copyNib id g 4 (2 * a)).isSome)

/-! ## Stores (R115) -/

/-- The store buffer of a thread has 16 entries of one sector each (R339): the oldest stores leave until there is
room for a sector. -/
def State.sbRoom (s : State) (id : BitVec 32) (sec : Nat) : Nat → State
  | 0 => s
  | k + 1 =>
    let secs := rising ((s.agent id).sb.map (fun st => secBase ((st.nibs.headD (0, 0)).1 / 2)))
    if idKind id ≠ 0 ∨ secs.length < 16 ∨ secs.contains sec then s
    else
      match (s.agent id).sb with
      | [] => s
      | st :: _ =>
        let s := match st.tag.rel with
          | some r => s.raiseAll r (s.below id r (fun n => decide (n < st.id)))
          | none => s
        (s.leave id st.id).sbRoom id sec k

/-- R115: a store enters its agent's buffer. -/
def State.bufferSt (s : State) (id : BitVec 32) (st : SbStore) : State :=
  let s := s.sbRoom id (secBase ((st.nibs.headD (0, 0)).1 / 2)) 64
  let a := s.agent id
  s.setAgent id { a with sb := a.sb ++ [st] }

/-- A store that is next in program order enters its agent's buffer; `wipe` as in its tag. -/
def State.buffer (s : State) (id : BitVec 32) (va : Word) (ns : Nibs) (wipe : Nat) (rel : Option Nat) (of : Whose) :
    State :=
  { s.bufferSt id ⟨⟨s.serial, 0, wipe, va, rel, of⟩, ns⟩ with serial := s.serial + 1 }

/-! ## Atomics (R120, R339) -/

/-- The level at which an atomic on address pa is performed: at the memory itself for on-chip memory
(R189, R338), and at the LLC, whatever its scope, for other memory (R339). -/
def State.atomLevel (s : State) (id : BitVec 32) (pa : Nat) : Nat := min 6 (s.topLevel id pa)

/-- The bytes an atomic reads, at the root of its address. -/
def State.atomRead (s : State) (a n : Nat) : List Byte := s.rdBytes a n

/-- The agent's own copies of the locations of nibbles are discarded. -/
def State.dropOwn (s : State) (id : BitVec 32) (ns : Nibs) : State :=
  match ns with
  | [] => s
  | (l, _) :: _ =>
    if s.isHbm (l / 2) && homeLevel (idKind id) ≤ 1 then
      (s.discard 1 (idAt id 1) l).invalL2 (fun k => k == chipOfId id) (lineBase (l / 2))
    else s

/-- The step of an atomic that writes the listed nibbles, at the root; the agent's own copies are discarded. -/
def State.atomWriteN (s : State) (id : BitVec 32) (ns : Nibs) : State := (s.dropOwn id ns).land none ns
/-- The same for whole bytes at address a. -/
def State.atomWrite (s : State) (id : BitVec 32) (a : Nat) (bs : List Byte) : State :=
  s.atomWriteN id (nibsOf a bs)

/-! ## Accesses of the device itself -/

/-- A physical little-endian word read through the LLC (R350). -/
def State.llcBytes (s : State) (a n : Nat) : List Byte := s.rdBytes a n
def State.llcNat (s : State) (a n : Nat) : Nat := natOfBytes (s.llcBytes a n)
def State.llcW (s : State) (a : Nat) : Word := BitVec.ofNat 64 (s.llcNat a 8)

/-- A store of the device at scope pkg, performed at the package holding point. -/
def State.devWrite (s : State) (a : Nat) (bs : List Byte) : State := s.land none (nibsOf a bs)

/-! ## Poison (R348) -/

/-- Does any byte of the range lie in a poisoned sector? -/
def State.poisoned (s : State) (a n : Nat) : Bool :=
  s.poison.any (fun x => decide (x < a + n) && decide (a < x + 48))
/-- Sectors that an instruction has written whole lose their poison. -/
def State.heal (s : State) (secs : List Nat) : State :=
  if s.poison.isEmpty then s else { s with poison := s.poison.filter (fun a => !secs.contains a) }

end Sys2Proof.Machine
end

