-- ==== Sys2Proof/Machine/Errors.lean ====
section
/-! DEFINITION. Error records and the rings they go to (R388-R390). -/

namespace Sys2Proof.Machine

/-- An error record (R388), without its sequence number and time. -/
structure ERec where
  cause : Nat
  sub   : Nat
  rd    : Bool
  ukind : Nat
  part  : Nat
  agent : BitVec 32
  pc    : Word
  info0 : Word
  info1 : Word
  key   : Word
  job   : BitVec 16
  sel   : BitVec 8
  cls   : BitVec 16
  d0    : Word
  d1    : Word
deriving DecidableEq, Repr, Inhabited

/-- The 96 bytes of a record (R388). -/
def ERec.bits (r : ERec) (seq : BitVec 32) (time : Word) : BitVec 768 :=
  let head : BitVec 64 := r.agent ++ BitVec.ofNat 7 r.part ++ BitVec.ofNat 2 r.ukind ++ bit r.rd ++
    (0 : BitVec 6) ++ BitVec.ofNat 8 r.sub ++ BitVec.ofNat 8 r.cause
  let w5 : BitVec 64 := r.cls ++ r.sel ++ r.job ++ (0 : BitVec 24)
  let w7 : BitVec 64 := seq ++ (0 : BitVec 32)
  ((0 : BitVec 128) ++ r.d1 ++ r.d0 ++ w7 ++ time ++ w5 ++ r.key ++ r.info1 ++ r.info0 ++ r.pc ++
    head : BitVec 768)

/-- n + 1, held at 2^32 − 1. -/
def satInc32 (w : Word) : Word := if w.toNat < 0xFFFFFFFF then w + 1 else w

/-- A record of the partition p goes to its ring; with no partition, to the firmware's (R390). -/
def State.putRecord (s : State) (p : Option Nat) (r : ERec) : State :=
  match p with
  | none =>
    let m := s.module
    { s with module := { m with
        ring := m.ring ++ [r.bits (BitVec.ofNat 32 m.ringSeq) s.timebase], ringSeq := m.ringSeq + 1 } }
  | some p =>
    let k := s.part p
    let slots := k.errslots.toNat % 2 ^ 32
    let used := (k.errhead - k.errtail).toNat % 2 ^ 32
    if slots = 0 ∨ used = slots then s.setPart p { k with errlost := satInc32 k.errlost }
    else
      let a := k.errbase.toNat % 2 ^ 52 + 96 * (k.errhead.toNat % 2 ^ 32 % slots)
      let seq := BitVec.ofNat 32 k.errhead.toNat
      let s := s.devWrite a (bytesOfNat 96 (r.bits seq s.timebase).toNat)
      s.setPart p { k with errhead := BitVec.ofNat 64 ((k.errhead.toNat + 1) % 2 ^ 32) }

/-- UKIND of a unit (R388). -/
def UKind.code : UKind → Nat
  | .handler => 0
  | .launch => 1
  | .task => 2
  | .firmware => 0

/-- What R388 takes from the thread that runs a unit. -/
def State.threadRec (s : State) (t : Nat) (cause sub : Nat) : ERec :=
  let h := s.thr t
  match h.unit with
  | none => { (default : ERec) with cause, sub, agent := agentId s.pkg (.thread t), pc := h.pc }
  | some u =>
    let hd := u.kind == .handler
    { cause, sub, rd := false, ukind := u.kind.code, part := u.part, agent := agentId s.pkg (.thread t),
      pc := h.pc, info0 := 0, info1 := 0, key := if hd then h.key else h.launch, job := h.job,
      sel := if hd then u.msg.sel else 0, cls := if hd then u.msg.cls else 0, d0 := 0, d1 := 0 }

/-- What R388 takes from a replay. -/
def State.replayRec (s : State) (c : Nat) (r : Replay) (cause sub : Nat) : ERec :=
  { cause, sub, rd := false, ukind := 3, part := r.part, agent := agentId s.pkg (.seqr c), pc := 0,
    info0 := 0, info1 := 0, key := r.ekey.key, job := r.msg.job, sel := r.msg.sel, cls := r.msg.cls,
    d0 := 0, d1 := 0 }

/-- The record of something that an access of an agent meets: what the unit behind it gives, a thread's or a
replay's, under the agent's own ID. -/
def State.accessRec (s : State) (ag : BitVec 32) (thr : Option Nat) (core cause sub : Nat) : ERec :=
  match thr with
  | some t => { s.threadRec t cause sub with agent := ag, pc := if idKind ag = 0 then (s.thr t).pc else 0 }
  | none =>
    match (if idKind ag ≤ 4 then (s.core core).replay else none) with
    | some r => { s.replayRec core r cause sub with agent := ag }
    | none => { (default : ERec) with cause, sub, agent := ag }

/-- The partition whose ring takes a unit's record: firmware belongs to none. -/
def UnitInfo.ring (u : UnitInfo) : Option Nat := if u.kind = .firmware then none else some u.part

/-- The header of a message as 384 bits (R262). -/
def headerOf (m : Msg) : BitVec 384 :=
  let flags : BitVec 8 := (0 : BitVec 3) ++ bit m.fwd ++ bit m.host ++ bit m.rt ++ bit m.rd ++ bit m.rv
  let w4 : BitVec 64 := (0 : BitVec 40) ++ m.rsel ++ m.rcls
  let w0 : BitVec 64 := (0 : BitVec 2) ++ m.ifn ++ flags ++ m.job ++ m.len ++ m.sel ++ m.cls
  ((0 : BitVec 64) ++ w4 ++ m.rkey ++ (m.seq ++ m.sender) ++ m.key ++ w0 : BitVec 384)

end Sys2Proof.Machine
end

