-- ==== Sys2Proof/Machine/Translate.lean ====
section
/-! DEFINITION. Translation: page-table walks, the caches of leaves, page requests, and the checks of R175
that every access passes (R174-R176, R333, R334, R341, R342, R349-R354, R135-R138). -/

namespace Sys2Proof

/-- Space of a memory operand as a space of a copy. -/
def Space.toC : Space → CSpace
  | .g => .g | .sp => .sp | .cm => .cm

namespace Machine

/-! ## Page-table entries (R351) -/

def pteV (e : Word) : Bool := e.getLsbD 63
def pteLeaf (e : Word) : Bool := e.getLsbD 62
def pteR (e : Word) : Bool := e.getLsbD 61
def pteW (e : Word) : Bool := e.getLsbD 60
def pteX (e : Word) : Bool := e.getLsbD 59
def pteS (e : Word) : Bool := e.getLsbD 58
def pteWatch (e : Word) : Bool := e.getLsbD 57
def pteByp (e : Word) : Bool := e.getLsbD 56
def pteHost (e : Word) : Bool := e.getLsbD 55
def pteRes (e : Word) : Bool := e.getLsbD 54
def pteAddr (e : Word) : Nat := (e.extractLsb' 0 52).toNat
/-- A host-backed leaf whose page is not resident (R354). -/
def pteAway (e : Word) : Bool := pteHost e && !pteRes e

/-- Page size of a leaf by level (R350). -/
def pageSize (lvl : Nat) : Nat :=
  match lvl with
  | 0 => 49152
  | 1 => 3 * 2 ^ 20
  | _ => 3 * 2 ^ 26

/-- A window of two words covers the bytes lo to hi − 1 (R352, R361). -/
def winCovers (w : Word × Word) (lo hi : Nat) : Bool :=
  decide ((w.1.extractLsb' 0 43).toNat ≤ lo) && decide (hi ≤ (w.2.extractLsb' 0 43).toNat)

/-- The clusters and cores of a partition own their windows: is core c the partition's? -/
def State.ownsCore (s : State) (p c : Nat) : Bool := decide (c < nCores) && (s.clus (clusOfCore c)).has p

/-- May a leaf map the 48 KiB block of the control window at an offset (R334)? -/
def State.ctlOk (s : State) (p : Nat) (e : Word) (o : Nat) : Bool :=
  if o = 0 then pteR e && !pteW e
  else if 0x300000 ≤ o ∧ o < 0x300000 + 96 * 0xC000 then pteS e && o == 0x300000 + p * 0xC000
  else if 0x0C000000 ≤ o ∧ o < 0x0C000000 + nCores * 0xC000 then
    pteS e && s.ownsCore p ((o - 0x0C000000) / 0xC000)
  else false

/-- R331, R334, R352: may a leaf of partition p name the local range of `size` bytes at l? -/
def State.rangeOk (s : State) (p : Nat) (e : Word) (l size : Nat) : Bool :=
  match regionOf l with
  | .hbm =>
    let ws := (s.part p).physw.toList.filter (fun w => w.2.getLsbD 62 && winCovers w l (l + size))
    !ws.isEmpty && (!pteW e || ws.any (fun w => w.2.getLsbD 63))
  | .core => (List.range (max 1 (size / 0x300000))).all (fun i =>
      s.ownsCore p ((l - coreWin) / 0x300000 + i))
  | .cluster => (List.range (max 1 (size / 0x300000))).all (fun i =>
      (s.clus ((l - clusWin) / 0x300000 + i)).has p)
  | .control => (List.range (size / 0xC000)).all (fun i => s.ctlOk p e (l - ctlWin + i * 0xC000))
  | .host => true
  | .reserved => false

/-- Do the bytes of a local range lie in named regions: HBM, the windows of cores and clusters, the control window or the
host window (R331)? -/
def namedRange (l size : Nat) : Bool :=
  decide (l + size ≤ hbmEnd) || (decide (coreWin ≤ l) && decide (l + size ≤ winEnd)) ||
    (decide (ctlWin ≤ l) && decide (l + size ≤ ctlEnd)) || (decide (hostWin ≤ l) && decide (l + size ≤ hostEnd))

/-- R352: an entry with V = 1 found at a level is malformed. -/
def State.malformed (s : State) (p : Nat) (e : Word) (lvl : Nat) : Bool :=
  let a := pteAddr e
  let size := pageSize lvl
  if pteLeaf e then
    lvl == 3 || (pteW e && !pteR e) || e.extractLsb' 52 2 != 0 || (pteHost e && lvl != 0) ||
    (!pteAway e &&
      (paLocal a % size != 0 ||
       (pteWatch e && !(paPkg a == s.pkg.toNat && regionOf (paLocal a) == .hbm)) ||
       !namedRange (paLocal a) size ||
       (if paPkg a = s.pkg.toNat then !s.rangeOk p e (paLocal a) size
        else regionOf (paLocal a) == .control)))
  else lvl == 0 || e.extractLsb' 52 10 != 0 || a % 8 != 0

/-! ## The walk (R350) -/

/-- What a walk ends in: a leaf with the address of its entry, its page's base and its size. -/
inductive WalkR where
  | unmapped
  | malformed (e : Word)
  | leaf (pte : Word) (at_ base size : Nat)
deriving DecidableEq, Repr

/-- The index of a virtual page number at a level (R350). -/
def walkIx (vpn lvl : Nat) : Nat :=
  match lvl with
  | 3 => vpn / 2 ^ 24 % 4096
  | 2 => vpn / 2 ^ 12 % 4096
  | 1 => vpn / 2 ^ 6 % 64
  | _ => vpn % 64

/-- The walk from the table t of a level. -/
def State.walkFrom (s : State) (p va : Nat) : Nat → Nat → WalkR
  | 0, t =>
    let a := t + 8 * walkIx (va / 49152) 0
    let e := s.llcW a
    if !pteV e then .unmapped
    else if s.malformed p e 0 then .malformed e
    else .leaf e a (va - va % 49152) 49152
  | l + 1, t =>
    let a := t + 8 * walkIx (va / 49152) (l + 1)
    let e := s.llcW a
    if !pteV e then .unmapped
    else if s.malformed p e (l + 1) then .malformed e
    else if pteLeaf e then .leaf e a (va - va % pageSize (l + 1)) (pageSize (l + 1))
    else s.walkFrom p va l (pteAddr e)

/-- R350: the walk of a virtual address for a partition and an ASID. -/
def State.walkVa (s : State) (p : Nat) (asid : BitVec 16) (va : Nat) : WalkR :=
  let k := s.part p
  if (k.asidlim.extractLsb' 0 17).toNat ≤ asid.toNat then .unmapped
  else
    let e := s.llcW (k.asidtab.toNat % 2 ^ 52 + 8 * asid.toNat)
    if e.getLsbD 63 then s.walkFrom p va 3 (pteAddr e) else .unmapped

/-! ## Caches of leaves (R341, R342) -/

/-- The leaf of a list that covers an address. -/
def leafFind (ls : List Leaf) (p : Nat) (asid : BitVec 16) (va : Nat) : Option Leaf :=
  ls.find? (fun f => f.part == p && f.asid == asid && decide (f.base ≤ va) && decide (va < f.base + f.size))

/-- The leaf that a slice's translation cache holds for an address. -/
def State.tcFind (s : State) (chip slice p : Nat) (asid : BitVec 16) (va : Nat) : Option Leaf :=
  leafFind ((s.tcache.filter (fun x => x.chip == chip && x.slice == slice)).map SliceLeaf.leaf) p asid va

/-- A slice caches a leaf: 4096 of them, the oldest leaving first. -/
def State.tcFill (s : State) (chip slice : Nat) (f : Leaf) : State :=
  let mine := (s.tcache.filter (fun x => x.chip == chip && x.slice == slice)).take 4095
  let others := s.tcache.filter (fun x => !(x.chip == chip && x.slice == slice))
  { s with tcache := ⟨chip, slice, f⟩ :: mine ++ others }

/-- A core's rights cache takes a leaf: 64 of them, the oldest leaving first. -/
def State.rcFill (s : State) (c : Nat) (f : Leaf) : State :=
  s.updCore c (fun k => { k with rights := f :: k.rights.take 63 })

/-- The page that holds an address is being migrated (R357). -/
def State.migrating (s : State) (p : Nat) (asid : BitVec 16) (va : Nat) : Bool :=
  match (s.part p).migration with
  | some m => m.asid == asid && decide (m.base ≤ va) && decide (va < m.base + m.size)
  | none => false

/-! ## Page requests (R354, R355) -/

/-- Where an answered request is kept until the accesses that joined it have seen the answer. -/
def answered : Nat := 512

/-- The lowest free index of the page-request table. -/
def pageFree (t : Tbl PageReq) : Option Nat :=
  (List.range 512).find? (fun i => !(t.any (fun e => e.1 == i)))

/-- A request without the accesses that have joined it and a test names. -/
def PageReq.without (q : PageReq) (p : Joiner → Bool) : PageReq :=
  { q with joined := q.joined.filter (fun x => !p x) }
def PageReq.with_ (q : PageReq) (x : Joiner) : PageReq := { q with joined := x :: q.joined }

/-- A new entry of the table sends one page request group of twelve 4 KiB requests under the partition's PASID, its
index the PRG index; it asks for write access where the leaf is writable (R354). -/
def State.sendGroup (s : State) (i : Nat) (q : PageReq) (w : Bool) : State :=
  let k := s.port q.port
  let pasid := ((s.part q.part).hostbind).extractLsb' 0 20
  { s.setPort q.port { k with pri := k.pri ++ (List.range 12).map (fun n => ⟨i, pasid, 12 * q.page + n, w⟩) } with
    pagereq := tset s.pagereq i q }

/-- Was a page request that an access joined answered with a failure (R354)? -/
def State.pageFailed (s : State) (x : Joiner) (p : Nat) (asid : BitVec 16) (va : Nat) : Bool :=
  s.pagereq.any (fun e => decide (answered ≤ e.1) && e.2.ans == 2 && e.2.part == p && e.2.asid == asid &&
    e.2.page == va / 49152 && e.2.joined.contains x)

/-- An access to a page that is not resident: it sees a failed or stale answer, joins a request, makes one, or waits for
room or for a new binding of the partition (R431). True when the page request was answered; the access keeps seeing the
answer until its instruction, or its part of a command, ends. -/
def State.pageWait (s : State) (x : Joiner) (p : Nat) (asid : BitVec 16) (va : Nat) (w : Bool) :
    State × Bool :=
  let page := va / 49152
  let gen := (s.part p).pgen.extractLsb' 0 16
  let same (q : PageReq) : Bool := q.part == p && q.asid == asid && q.page == page
  if s.pagereq.any (fun e => answered ≤ e.1 && same e.2 && e.2.joined.contains x) then (s, true)
  else
    match s.pagereq.find? (fun e => decide (e.1 < answered) && same e.2 && e.2.gen == gen) with
    | some (i, q) =>
      if q.joined.contains x then (s, false)
      else ({ s with pagereq := tset s.pagereq i (q.with_ x) }, false)
    | none =>
      match (if (s.part p).binding then none else pageFree s.pagereq) with
      | none => (s, false)
      | some i => (s.sendGroup i ⟨p, asid, page, gen, if (s.part p).hostbind.getLsbD 48 then 1 else 0, 0, [x]⟩ w, false)

/-- Accesses that have gone on forget the answers they joined. -/
def State.forget (s : State) (p : Joiner → Bool) : State :=
  if s.pagereq.isEmpty then s
  else
    let l := s.pagereq.map (fun (e : Nat × PageReq) => if answered ≤ e.1 then (e.1, e.2.without p) else e)
    { s with pagereq := l.filter (fun e => !(decide (answered ≤ e.1) && e.2.joined.isEmpty)) }
/-- An agent's instruction has ended. -/
def State.pageSeen (s : State) (ag : BitVec 32) : State := s.forget (fun x => x.ag == ag && x.cmd == 0)

/-! ## Translation of one address -/

/-- What an access does (R352). -/
inductive Acc where
  | read | write | atomic | fetch
deriving DecidableEq, Repr

/-- Sub-cause with which a valid leaf refuses an access at a privilege, or 0 (R352). -/
def pteRefuses (e : Word) (acc : Acc) (priv : BitVec 2) : Nat :=
  if acc = .fetch then (if !pteX e then 4 else if !pteR e then 1 else if priv = 0 && pteS e then 3 else 0)
  else if (acc = .read || acc = .atomic) && !pteR e then 1
  else if (acc = .write || acc = .atomic) && !pteW e then 2
  else if priv = 0 && pteS e then 3 else 0

/-- The answer of a translation. -/
inductive Xl where
  | ok (t : Tgt)
  | unmapped
  | prot (sub : Nat)
  | wait
deriving DecidableEq, Repr

/-- The byte at a physical address: which bytes of the windows exist (R333), and the host window under
the partition's PASID (R405, R407). -/
def State.target (s : State) (p : Option Nat) (priv : BitVec 2) (pa : Nat) (pte : Word) : Xl :=
  if paPkg pa ≠ s.pkg.toNat then .ok (.mem pa pte)
  else
    let l := paLocal pa
    match regionOf l with
    | .hbm => .ok (.mem pa pte)
    | .core =>
      let c := (l - coreWin) / 0x300000
      let o := (l - coreWin) % 0x300000
      let k := s.core c
      if o < 0xC0000 then (if o < scratchBytes k then .ok (.mem pa pte) else .unmapped)
      else if o < 0x180000 then
        if priv = 2 ∧ o - 0xC0000 < 192 * poolB0 k.poolcfg then .ok (.regp c (o - 0xC0000)) else .unmapped
      else if o - 0x180000 < arrBytes then .ok (.mem pa pte) else .unmapped
    | .cluster => if (l - clusWin) % 0x300000 < clusBytes then .ok (.mem pa pte) else .unmapped
    | .control => .ok (.ctl (l - ctlWin))
    | .host =>
      match p with
      | none => .unmapped
      | some p =>
        let b := (s.part p).hostbind
        if b.getLsbD 63 then .ok (.mem (hostKey (b.extractLsb' 0 20).toNat (l - hostWin)) pte) else .unmapped
    | .reserved => .unmapped

/-- How many bytes lie together from a translated byte on, before a part of a window or the memory ends. -/
def State.extent (s : State) : Tgt → Nat
  | .mem pa _ =>
    let l := paLocal pa
    if paPkg pa ≠ s.pkg.toNat then 2 ^ 43
    else
      match regionOf l with
      | .hbm => hbmEnd - l
      | .core =>
        let o := (l - coreWin) % 0x300000
        if o < 0xC0000 then scratchBytes (s.core ((l - coreWin) / 0x300000)) - o else 0x180000 + arrBytes - o
      | .cluster => clusBytes - (l - clusWin) % 0x300000
      | .control | .host | .reserved => 2 ^ 43
  | .ctl off => ctlEnd - ctlWin - off
  | .regp c o => 192 * poolB0 (s.core c).poolcfg - o

/-- The partition and ASID whose tables an access uses; firmware addresses local physical memory (log 5). -/
structure Ctx where
  ag   : BitVec 32
  core : Nat
  part : Option Nat
  asid : BitVec 16
  priv : BitVec 2
  /-- The thread whose unit makes the access, and the virtual pages on which a copy has translated addresses. -/
  thr  : Option Nat
  seen : List Nat
  /-- The order number of the command that makes it, 0 where none does. -/
  cmd  : Nat
deriving DecidableEq, Repr
/-- An access as one that joins a page request. -/
def Ctx.joiner (x : Ctx) (va : Nat) : Joiner := ⟨x.ag, x.cmd, if x.cmd = 0 then 0 else va⟩

/-- The leaf for an address from the slice: its translation cache, else a walk (R342, R350). -/
def State.leafOf (s : State) (x : Ctx) (p va : Nat) : State × Option Leaf :=
  let chip := chipOfClus (clusOfCore x.core)
  let sl := sliceOf p x.asid va
  match s.tcFind chip sl p x.asid va with
  | some f => (s, some f)
  | none =>
    match s.walkVa p x.asid va with
    | .unmapped => (s, none)
    | .malformed e =>
      (s.putRecord (some p) { s.accessRec x.ag x.thr x.core 0x27 0 with
        part := p, info0 := BitVec.ofNat 64 va, info1 := e }, none)
    | .leaf e _ base size =>
      let f : Leaf := ⟨p, x.asid, base, size, e⟩
      (if pteAway e then s else s.tcFill chip sl f, some f)

/-- A translation of an I/O virtual address enters the port's cache of 4096 (R405). -/
def State.ats (s : State) (p pasid a : Nat) : State :=
  let q := s.port p
  let x := (pasid, a / 4096)
  if q.xlat.contains x then s else s.setPort p { q with xlat := (x :: q.xlat).take 4096 }
/-- A byte of the host window is translated at the partition's port (R405). -/
def State.hostXlate (s : State) (p : Nat) : Xl → State
  | .ok (.mem pa _) =>
    let b := (s.part p).hostbind
    if 2 ^ 52 ≤ pa then
      s.ats (if b.getLsbD 48 then 1 else 0) (b.extractLsb' 0 20).toNat (pa - hostKey (b.extractLsb' 0 20).toNat 0)
    else s
  | _ => s

/-- A page that is not resident: its request is answered, or awaited; without a binding it gives UNMAPPED (R354, R407). -/
def State.pageAsk (s : State) (x : Ctx) (p va : Nat) (pte : Word) : State × Xl :=
  if (s.part p).hostbind.getLsbD 63 then
    let (s, ans) := s.pageWait (x.joiner va) p x.asid va (pteW pte)
    (s, if ans then .unmapped else .wait)
  else (s, .unmapped)

/-- R175 checks 3 and 4 for one address, in that order, and its translation. -/
def State.xlate (s : State) (x : Ctx) (acc : Acc) (va : Nat) : State × Xl :=
  match x.part with
  | none => (s, if va < 2 ^ 43 then s.target none x.priv (mkPa s.pkg va) 0 else .unmapped)
  | some p =>
    -- a copy that has translated an address on the page before the stop goes on at the old address (R357 step 3)
    if s.migrating p x.asid va && !(x.seen.any (fun n => s.migrating p x.asid (49152 * n))) then (s, .wait)
    else if s.pageFailed (x.joiner va) p x.asid va then (s, .unmapped)
    else
      let (s, r) : State × Option Leaf :=
        match leafFind (s.core x.core).rights p x.asid va with
        | some f => (s, some f)
        | none =>
          match s.leafOf x p va with
          | (s, some f) => (if pteAway f.pte then s else s.rcFill x.core f, some f)
          | (s, none) => (s, none)
      match r with
      | none => (s, .unmapped)
      | some f =>
        match s.leafOf x p va with
        | (s, none) => (s, .unmapped)
        | (s, some g) =>
          let sub := pteRefuses f.pte acc x.priv
          if pteAway g.pte then s.pageAsk x p va g.pte
          else if sub ≠ 0 then (s, .prot sub)
          else
            let r := s.target (some p) x.priv (pteAddr g.pte + (va - g.base)) g.pte
            (s.hostXlate p r, r)

/-! ## Ranges -/

/-- A run of bytes that lie together: its first virtual address, target and length. -/
structure Seg where
  va  : Nat
  tgt : Tgt
  len : Nat
deriving DecidableEq, Repr, Inhabited

/-- The answer of a check: the runs of bytes, a cause with the address that fails, or a page to wait for. -/
inductive Chk where
  | ok (segs : List Seg)
  | fail (cause sub : Nat) (c4 : Nat)
  | wait
deriving DecidableEq, Repr

/-- The answers of two parts of a range, the lower first: a part that waits for its page is resolved before either
decides; then the lower of the failures of check 3 decides, then the lower of check 4 (R175, R183). That a page to wait
for comes before a failing one, of a state block too (R428), is the model's choice (log 53). -/
def Chk.then_ : Chk → Chk → Chk
  | .ok l, .ok m => .ok (l ++ m)
  | .wait, _ | _, .wait => .wait
  | .fail c b a, .fail c' b' a' => if c' = 0x09 ∧ c ≠ 0x09 then .fail c' b' a' else .fail c b a
  | .fail c b a, .ok _ | .ok _, .fail c b a => .fail c b a

/-- Check and translate n bytes from va, page by page; `fuel` bounds the pages. -/
def State.xrange (s : State) (x : Ctx) (acc : Acc) : Nat → Nat → Nat → State × Chk
  | 0, _, _ => (s, .ok [])
  | k + 1, va, n =>
    if n = 0 then (s, .ok [])
    else
      let here := min n (49152 - va % 49152)
      let (s, r) := s.xlate x acc va
      let r : Chk := match r with
        | .unmapped => .fail 0x09 0 va
        | .prot sub => .fail 0x0A sub va
        | .wait => .wait
        | .ok t => if s.extent t < here then .fail 0x09 0 (va + s.extent t) else .ok [⟨va, t, here⟩]
      let (s, rest) := s.xrange x acc k (va + here) (n - here)
      (s, r.then_ rest)

/-- The bytes of a space and the address of its first byte, for a thread of core c (R174). -/
def State.spaceBase (s : State) (c : Nat) : CSpace → Nat × Nat
  | .g => (vaEnd, 0)
  | .sp => (scratchBytes (s.core c), mkPa s.pkg (coreBase c))
  | .cm => (clusBytes, mkPa s.pkg (clusBase (clusOfCore c)))
  | .arr => (arrBytes, mkPa s.pkg (arrBase c))

/-- c4 holds ea where one page fails (R176), and the lowest address that fails where there are two (R183). -/
def Chk.at_ (r : Chk) (ea n : Nat) : Chk :=
  match r with
  | .fail c b a => .fail c b (if ea / 49152 = (ea + n - 1) / 49152 then ea else a)
  | r => r

/-- R175, checks 2 to 4: n bytes from ea in a space. -/
def State.check (s : State) (x : Ctx) (acc : Acc) (sp_ : CSpace) (ea : Word) (n : Nat) : State × Chk :=
  let (lim, base) := s.spaceBase x.core sp_
  if lim < ea.toNat + n then (s, .fail (if sp_ = .g then 0x07 else 0x08) 0 ea.toNat)
  else if sp_ = .g then
    let (s, r) := s.xrange x acc (n / 49152 + 2) ea.toNat n
    (s, r.at_ ea.toNat n)
  else (s, .ok [⟨ea.toNat, .mem (base + ea.toNat) 0, n⟩])

/-- The physical bytes of the runs, in order, when all lie in memory. -/
def segBytes : List Seg → List Nat
  | [] => []
  | g :: gs =>
    match g.tgt with
    | .mem pa _ => (List.range g.len).map (fun i => pa + i) ++ segBytes gs
    | _ => segBytes gs

/-! ## Watched pages (R135-R138) -/

/-- Is the region of a record open (R136, R137)? -/
def State.isOpen (s : State) (w : Watch) : Bool :=
  let a := s.agent w.ag
  if 1 ≤ idKind w.ag ∧ idKind w.ag ≤ 4 then a.opened.contains w.stamp else w.stamp == a.stamp

/-- A record of another agent whose region is open and with which an access conflicts (R138). -/
def State.conflict (s : State) (ag : BitVec 32) (store : Bool) (sec : Nat) : Option Watch :=
  s.watch.find? (fun w => w.sector == sec && w.ag != ag && s.isOpen w && (store || w.write))

/-- Record an access to a sector, once (R137). -/
def State.watchAdd (s : State) (ag : BitVec 32) (stamp : BitVec 16) (store : Bool) (sec : Nat) : State :=
  let w : Watch := ⟨sec, ag, stamp, store⟩
  if s.watch.contains w then s else { s with watch := w :: s.watch.filter s.isOpen }

/-- Records of open regions that the LLC itself keeps of a sector: two readers and one writer (R137); the others are
in its die's side table (R346). -/
def spilled (ws : List Watch) : Nat :=
  ((ws.filter (fun w => !w.write)).length - 2) + ((ws.filter (fun w => w.write)).length - 1)

/-- The sectors of the records of a die, each once. -/
def dieSectors (ws : List Watch) (st : Nat) : List Nat :=
  rising ((ws.filter (fun w => stackOf (paLocal w.sector) == st)).map Watch.sector)

/-- R346: is there room for the record of an access, in the LLC die or its side table? -/
def State.watchRoom (s : State) (ag : BitVec 32) (stamp : BitVec 16) (store : Bool) (sec : Nat) : Bool :=
  let ws := s.watch.filter s.isOpen
  let new := ⟨sec, ag, stamp, store⟩ :: ws
  let st := stackOf (paLocal sec)
  ws.contains ⟨sec, ag, stamp, store⟩ ||
    spilled (new.filter (fun w => w.sector == sec)) == spilled (ws.filter (fun w => w.sector == sec)) ||
    decide (((dieSectors ws st).map (fun a => spilled (ws.filter (fun w => w.sector == a)))).foldl (· + ·) 0 <
      (tget (0, 0) s.sideTab st).2)

/-- R136: before the stamp of an agent wraps, its records are purged, but those of commands that still run. -/
def State.purge (s : State) (ag : BitVec 32) : State :=
  if (s.agent ag).stamp = 0xFFFF then
    { s with watch := s.watch.filter (fun w => w.ag != ag || (s.agent ag).opened.contains w.stamp) }
  else s
/-- R136: a region of an agent ends and the next begins. -/
def State.newRegion (s : State) (ag : BitVec 32) : State :=
  let s := s.purge ag
  let a := s.agent ag
  s.setAgent ag { a with stamp := a.stamp + 1 }
/-- R136: a command begins, and with it a region of its performing agent. -/
def State.openRegion (s : State) (ag : BitVec 32) : State × BitVec 16 :=
  let s := s.newRegion ag
  let a := s.agent ag
  (s.setAgent ag { a with opened := a.stamp :: a.opened }, a.stamp)

/-- Is a run on a watched page of this package? -/
def Seg.watched (g : Seg) : Bool :=
  match g.tgt with
  | .mem _ pte => pteWatch pte
  | _ => false
def Seg.pa (g : Seg) : Nat :=
  match g.tgt with
  | .mem pa _ => pa
  | _ => 0

/-- The virtual tag of a run that L1 and L2 may hold: HBM of this package on a page without BYP and WATCH (R340,
R343). -/
def State.cacheTag (s : State) (x : Ctx) (hint : BitVec 3) (g : Seg) : Option CTag :=
  match x.part, g.tgt with
  | some p, .mem pa pte =>
    if s.isHbm pa && !pteByp pte && !pteWatch pte && pteV pte then some ⟨p, x.asid, g.va, pa, hint⟩ else none
  | _, _ => none

/-- The first conflict of a plain access over runs: the record it conflicts with. -/
def State.conflicts (s : State) (ag : BitVec 32) (store : Bool) (segs : List Seg) : Option Watch :=
  (segs.filter Seg.watched).findSome? (fun g =>
    (sectorsOf g.pa g.len).findSome? (fun sec => s.conflict ag store sec))

/-- Record a plain access over runs, in a region. -/
def State.watchAs (s : State) (ag : BitVec 32) (stamp : BitVec 16) (store : Bool) (segs : List Seg) : State :=
  (segs.filter Seg.watched).foldl (fun (s : State) g =>
    (sectorsOf g.pa g.len).foldl (fun (s : State) sec => s.watchAdd ag stamp store sec) s) s
/-- The same in the agent's newest region. -/
def State.watchAll (s : State) (ag : BitVec 32) (store : Bool) (segs : List Seg) : State :=
  s.watchAs ag (s.agent ag).stamp store segs
/-- Is there room for the records of a plain access over runs (R346)? -/
def State.watchFits (s : State) (ag : BitVec 32) (stamp : BitVec 16) (store : Bool) (segs : List Seg) : Bool :=
  (segs.filter Seg.watched).all (fun g => (sectorsOf g.pa g.len).all (fun sec => s.watchRoom ag stamp store sec))

/-- c5 of a CONFLICT (R138). -/
def conflictInfo (store : Bool) (w : Watch) : Word :=
  let hi : BitVec 32 := (0 : BitVec 30) ++ bit store ++ bit w.write
  hi ++ w.ag

/-- c5 of a trap of R176: lane, write, and X[43:40]. -/
def accInfo (lane : Nat) (wr : Bool) (kind : BitVec 4) : Word :=
  let lo : BitVec 16 := BitVec.ofNat 8 lane ++ bit wr ++ (0 : BitVec 3) ++ kind
  (0 : BitVec 48) ++ lo

end Machine

end Sys2Proof
end

