-- ==== Sys2Proof/Machine/Peers.lean ====
section
/-! DEFINITION. Loads, stores and atomics of an agent on memory of other packages (R131, R133), and what a load
reads as poison (R348). -/

namespace Sys2Proof.Machine

/-- A target n bytes further. -/
def Tgt.plus (t : Tgt) (n : Nat) : Tgt :=
  match t with
  | .mem pa pte => .mem (pa + n) pte
  | .ctl off => .ctl (off + n)
  | .regp c off => .regp c (off + n)
def Tgt.off : Tgt → Nat
  | .mem pa _ => pa
  | .ctl off | .regp _ off => off
def Tgt.isReg : Tgt → Bool
  | .mem .. => false
  | _ => true

/-- Bring the stores that a request to a peer must follow to the root: the agent's own, and those pending
on its path. -/
def State.clearPath (s : State) (id : BitVec 32) (locs : Nibs) : State :=
  let s := s.drainOver id 7 locs
  let es := s.hold.filter (fun e => e.inst == idAt id e.lvl && (nibFind locs e.loc).isSome)
  es.foldl (fun (s : State) e => s.raiseAll 7 [(e.id, e.ag)]) s
/-- A store pending on the agent's path still covers a location. -/
def State.pathBusy (s : State) (id : BitVec 32) (locs : Nibs) : Bool :=
  s.hold.any (fun e => e.inst == idAt id e.lvl && (nibFind locs e.loc).isSome)

/-- The locations of a run. -/
def Seg.locs (g : Seg) : Nibs := nibsOf g.pa (List.replicate g.len 0)

/-- What an issue queue says of a request for a run: not made, made, or answered. -/
def peerState (q : List IqEntry) (g : Seg) : Option (Option PeerAns) :=
  q.findSome? (fun e => match e with
    | .peer va pa n _ => if va.toNat = g.va ∧ pa = g.pa ∧ n = g.len then some none else none
    | .got va pa n a => if va.toNat = g.va ∧ pa = g.pa ∧ n = g.len then some (some a) else none
    | .load .. | .store .. | .atom .. => none)

/-- Ask for a run, if it has not been asked for; with no path the answer is a refusal with reason 4. -/
def State.peerAsk (s : State) (id : BitVec 32) (of : Whose) (typ : Nat) (data : List Byte) (g : Seg) :
    State :=
  if (peerState (s.agent id).iq g).isSome then s
  else
    let s := s.clearPath id g.locs
    if s.pathBusy id g.locs || !s.answerRoom (paPkg g.pa) then s
    else
      let va := BitVec.ofNat 64 g.va
      let tag := s.tags % 4096
      match s.sendPeer id 0 va g.pa typ [] data of with
      | (s, true) =>
        let a := s.agent id
        s.setAgent id { a with iq := a.iq ++ [.peer va g.pa g.len tag] }
      | (s, false) =>
        let a := s.agent id
        s.setAgent id { a with iq := a.iq ++ [.got va g.pa g.len (.refuse 4)] }

/-- The answers to requests for runs, once all have come; they leave the issue queue then. -/
def State.peerAll (s : State) (id : BitVec 32) (of : Whose) (typ : Nat) (data : Seg → List Byte)
    (gs : List Seg) : State × Option (List PeerAns) :=
  if gs.isEmpty then (s, some [])
  else
    let s := gs.foldl (fun (s : State) g => s.peerAsk id of typ (data g) g) s
    let a := s.agent id
    let r := gs.filterMap (fun g => (peerState a.iq g).join)
    if r.length = gs.length then
      (s.setAgent id { a with iq := a.iq.filter (fun e => match e with
        | .got va pa n _ => !(gs.any (fun g => va.toNat == g.va && pa == g.pa && n == g.len))
        | .peer .. | .load .. | .store .. | .atom .. => true) }, some r)
    else (s, none)

/-- The runs of a list that lie in other packages. -/
def State.peerSegs (s : State) (gs : List Seg) : List Seg :=
  gs.filter (fun g => !g.tgt.isReg && s.isPeer g.pa)

/-- The first refusal among the answers to requests. -/
def refusal (gs : List Seg) (ans : List PeerAns) : Option (Seg × BitVec 8) :=
  (gs.zip ans).findSome? (fun p => match p.2 with
    | .refuse r => some (p.1, r)
    | .ack | .reply _ => none)

/-- Does a load of an agent read poison in a run: a poisoned sector of which no cache on its path has a copy
(R348)? -/
def State.poisonSeg (s : State) (x : Ctx) (g : Seg) : Bool :=
  !g.tgt.isReg && s.poison.any (fun a => decide (a < g.pa + g.len) && decide (g.pa < a + 48) &&
    !s.cached x.ag (s.cacheTag x 0 g) (max a g.pa))

end Sys2Proof.Machine
end

