-- ==== Sys2Proof/Machine/Operands.lean ====
section
/-! DEFINITION. Operands: reading and writing the registers that an instruction names (R15, R17, R21, R22,
R96), and which specifiers an instruction reads and writes (R288, R228). -/

namespace Sys2Proof.Machine

/-! ## Scalars (R15, R17) -/

/-- Scalar register n: globals s0-s7, frame registers s8-s23, pass registers s24-s31. -/
def Thread.sreg (h : Thread) (n : BitVec 5) : Word :=
  if g : n.toNat < 8 then h.globals[n.toNat]
  else if f : n.toNat < 24 then h.frame[n.toNat - 8]
  else h.pass[n.toNat - 24]

/-- Write scalar register n. -/
def Thread.setSreg (h : Thread) (n : BitVec 5) (x : Word) : Thread :=
  if g : n.toNat < 8 then { h with globals := h.globals.set n.toNat x }
  else if f : n.toNat < 24 then { h with frame := h.frame.set (n.toNat - 8) x }
  else { h with pass := h.pass.set (n.toNat - 24) x }

/-- A scalar operand: zr reads zero. -/
def Thread.rs (h : Thread) : SOp → Word
  | .zr => 0
  | .r n => h.sreg n
/-- A scalar destination: a result for zr is discarded. -/
def Thread.ws (h : Thread) (d : SOp) (x : Word) : Thread :=
  match d with
  | .zr => h
  | .r n => h.setSreg n x

/-- The second source, IMM32 sign-extended (R96). -/
def Thread.srcS (h : Thread) : Src → Word
  | .r b => h.rs b
  | .i imm => imm.signExtend 64
/-- The second source, IMM32 zero-extended. -/
def Thread.srcU (h : Thread) : Src → Word
  | .r b => h.rs b
  | .i imm => imm.setWidth 64

/-! ## Vectors, predicates and masks (R15, R21, R22) -/

def Thread.rv (h : Thread) (n : BitVec 5) : VReg := h.v[n.toNat]
/-- The B operand of groups 0x0B and 0x0C: IMM32 in every lane (R96). -/
def Thread.rvs (h : Thread) : VSrc → VReg
  | .r b => h.rv b
  | .i imm => Vector.replicate 48 imm
/-- Write every lane. -/
def Thread.wv (h : Thread) (n : BitVec 5) (x : VReg) : Thread := { h with v := h.v.set n.toNat x }
/-- The lanes of x where the mask is 1, those of old elsewhere (R22). -/
def merge (m : Mask) (x old : VReg) : VReg := Vector.ofFn (fun i => if m.getLsbD i.val then x[i] else old[i])
/-- Write under a mask. -/
def Thread.wvm (h : Thread) (n : BitVec 5) (m : Mask) (x : VReg) : Thread := h.wv n (merge m x (h.rv n))

/-- A predicate; p0 reads true. -/
def Thread.rp (h : Thread) (n : BitVec 3) : Bool := n == 0 || h.p.getLsbD n.toNat
/-- Write a predicate; a write of p0 is discarded. -/
def Thread.wp (h : Thread) (n : BitVec 3) (b : Bool) : Thread :=
  if n = 0 then h
  else { h with p := if b then h.p ||| (1#8 <<< n.toNat) else h.p &&& ~~~(1#8 <<< n.toNat) }
/-- A lane mask; m0 reads all ones. -/
def Thread.rm (h : Thread) (n : BitVec 3) : Mask := if n = 0 then BitVec.allOnes 48 else h.m[n.toNat]
/-- Write a lane mask; a write of m0 is discarded. -/
def Thread.wm (h : Thread) (n : BitVec 3) (x : Mask) : Thread :=
  if n = 0 then h else { h with m := h.m.set n.toNat x }
/-- Write a predicate or discard. -/
def Thread.wpz (h : Thread) (d : PZ) (b : Bool) : Thread :=
  match d with
  | .zr => h
  | .p n => h.wp n b

/-- A scalar operand by its specifier, for engine commands and tapes; other specifiers give 0 (R299). -/
def Thread.rspec (h : Thread) (x : BitVec 8) : Word :=
  match specS x with
  | some o => h.rs o
  | none => 0

/-! ## The guard (R92) -/

def hdrOf (i : Instr) : Hdr :=
  match encodeFields i with
  | some f => Hdr.ofFields f.gd f.hn
  | none => Hdr.plain

/-- Does the guard let an instruction take effect? -/
def Thread.guard (h : Thread) (x : Hdr) : Bool := if x.gneg then !h.rp x.gp else h.rp x.gp

/-! ## Which registers an instruction names -/

/-- Group, function and the specifier fields of an instruction. -/
structure Named where
  group : Nat
  func  : Nat
  d     : Nat
  a     : Nat
  b     : Nat
  c     : Nat
deriving DecidableEq, Repr

/-- Is C an operand specifier in this function? -/
def cIsOperand (g f : Nat) : Bool :=
  match g with
  | 0x02 | 0x04 | 0x05 => true
  | 0x07 => f == 6
  | 0x08 => f == 5
  | 0x09 | 0x0B | 0x0C | 0x0D | 0x0E => true
  | 0x10 => f == 1 || f == 2 || 6 ≤ f
  | 0x11 => f == 1
  | 0x13 => f ≤ 2
  | _ => false

/-- The specifiers that an instruction's word holds; 0xE0 where a position is unused. -/
def named (i : Instr) : Named :=
  match encodeFields i with
  | some f =>
    let g := f.group.toNat
    let n := f.func.toNat
    -- BARX, AMO and their like hold a code in C; TSCA names its column scales there
    let c := if cIsOperand g n then f.c.toNat else 0xE0
    let c := match i with
      | .tsca _ _ _ _ cv _ _ _ => (vSpec cv).toNat
      | _ => c
    ⟨g, n, f.d.toNat, f.a.toNat, f.b.toNat, c⟩
  | none => ⟨0x3F, 0, 0xE0, 0xE0, 0xE0, 0xE0⟩

/-- Does the D position hold a source (ST's kin in D, commands, barriers of tile stores)? -/
def dIsSource (g f : Nat) : Bool :=
  match g with
  | 0x09 => f == 1 || f == 3 || f == 5
  | 0x11 | 0x12 => true
  | _ => false

/-- Does the instruction also read the register that it writes: a masked write keeps lanes, VFMA adds to D, a VQUANT and
a VCVT to fewer bits keep other elements of D (R216, R217)? -/
def dIsAlsoSource (i : Instr) (n : Named) : Bool :=
  match i with
  | .vsel .. | .vred .. => false
  | .vquant .. => true
  | .vcvt _ _ _ c dt st _ _ _ => decide (st.count < dt.count) || c != 0
  | _ => (n.group == 0x0B && n.func == 3) || (n.group == 0x0E && n.func == 4) ||
    ((n.group == 0x09 || (0x0B ≤ n.group && n.group ≤ 0x0E)) && 0x61 ≤ n.c && n.c ≤ 0x67)

/-- The specifiers that an instruction reads. -/
def reads (i : Instr) : List Nat :=
  let n := named i
  let d := if dIsSource n.group n.func || dIsAlsoSource i n then [n.d] else []
  let c := if n.group == 0x07 && n.func == 6 then [] else [n.c]
  (d ++ [n.a, n.b] ++ c).filter (fun x => x != 0xE0)

/-- The specifiers that an instruction writes: what it gives p0 or m0 is discarded (R22). -/
def writes (i : Instr) : List Nat :=
  let n := named i
  let d := if dIsSource n.group n.func then [] else [n.d]
  let c := if n.group == 0x07 && n.func == 6 then [n.c] else []
  (d ++ c).filter (fun x => x != 0xE0 && x != 0x40 && x != 0x60)

end Sys2Proof.Machine
end

