-- ==== Sys2Proof/Machine/Lanes.lean ====
section
/-! DEFINITION. What the vector instructions compute: groups 0x0B to 0x0E on a thread's registers, as the
thread itself and the repeat sequencer perform them (R48, R205-R223). -/

namespace Sys2Proof.Machine

/-! ## Elements of a lane (R48) -/

/-- Element k of width w of a lane. -/
def elemOf (w : Nat) (x : Lane) (k : Nat) : Nat := x.toNat / 2 ^ (w * k) % 2 ^ w
/-- A lane with element k of width w replaced. -/
def setElem (w : Nat) (x : Lane) (k v : Nat) : Lane :=
  BitVec.ofNat 32 (x.toNat - elemOf w x k * 2 ^ (w * k) + v % 2 ^ w * 2 ^ (w * k))
/-- A lane whose n elements of width w are given, and the flags they raise. -/
def buildLane (w : Nat) (f : Nat → Nat × Flags) : Nat → Lane × Flags
  | 0 => (0, 0)
  | n + 1 =>
    let (x, fl) := buildLane w f n
    let (y, g) := f n
    (x ||| BitVec.ofNat 32 (y % 2 ^ w * 2 ^ (w * n)), fl ||| g)
/-- Every element of a lane type. -/
def mapLane (lt : LT) (f : Nat → Nat × Flags) : Lane × Flags := buildLane lt.width f lt.count

/-- The format of a float lane type. -/
def floatOf (lt : LT) : Option FF :=
  match lt with
  | .f32 => some .f32
  | .bf16x2 => some .bf16
  | .f16x2 => some .f16
  | .i32 | .i16x2 | .i8x4 => none

/-! ## Writing lanes under a mask (R205) -/

/-- The flags that the active lanes raise. -/
def laneFlags (m : Mask) (f : Fin 48 → Lane × Flags) : Flags :=
  (List.finRange 48).foldl (fun (a : Flags) i => if m.getLsbD i.val then a ||| (f i).2 else a) 0
/-- Active lanes of D are computed, and raise flags; the others stay. -/
def Thread.lanes (th : Thread) (d : BitVec 5) (m : Mask) (f : Fin 48 → Lane × Flags) : Thread :=
  (th.wvm d m (Vector.ofFn (fun i => (f i).1))).orFlags (laneFlags m f)

/-! ## Group 0x0B (R210, R211) -/

/-- The operations of R210 and R211 on two or three operands. -/
inductive Arith where
  | add | sub | mul | fma | min | max
deriving DecidableEq, Repr

/-- R210: an element of a float lane type. -/
def floatElem (op : Arith) (f : FF) (rm : RM) (a b d : Nat) : Nat × Flags :=
  match op with
  | .add => f.add rm a b
  | .sub => f.sub rm a b
  | .mul => f.mul rm a b
  | .fma => f.fma rm a b d
  | .min => f.minmax false a b
  | .max => f.minmax true a b

/-- R211: an element of an integer lane type of width w. -/
def intArith (op : Arith) (w : Nat) (ss un : Bool) (a b d : Nat) : Nat × Flags :=
  let x := toI (!un) w a
  let y := toI (!un) w b
  match op with
  | .add => intElem ss (!un) w (x + y)
  | .sub => intElem ss (!un) w (x - y)
  | .mul => intElem ss (!un) w (x * y)
  | .fma => intElem ss (!un) w (x * y + toI (!un) w d)
  | .min => (if x < y then a else b, 0)
  | .max => (if x < y then b else a, 0)

/-- One lane of R210 and R211. -/
def arithLane (op : Arith) (lt : LT) (rm : RM) (ss un : Bool) (a b d : Lane) : Lane × Flags :=
  let w := lt.width
  mapLane lt (fun k =>
    match floatOf lt with
    | some f => floatElem op f rm (elemOf w a k) (elemOf w b k) (elemOf w d k)
    | none => intArith op w ss un (elemOf w a k) (elemOf w b k) (elemOf w d k))

/-- VADD, VSUB, VMUL, VFMA, VMIN and VMAX. -/
def Thread.varith (th : Thread) (op : Arith) (d a : BitVec 5) (b : VSrc) (c : BitVec 3) (lt : LT) (rm : RM)
    (ss un : Bool) : Thread :=
  let x := th.rv a
  let y := th.rvs b
  let z := th.rv d
  th.lanes d (th.rm c) (fun i => arithLane op lt rm ss un x[i] y[i] z[i])

/-- One lane of VABS or VNEG; integers are signed. -/
def absNegLane (neg : Bool) (lt : LT) (ss : Bool) (a : Lane) : Lane × Flags :=
  let w := lt.width
  mapLane lt (fun k =>
    let x := elemOf w a k
    match floatOf lt with
    | some f => if neg then f.neg x else f.abs x
    | none =>
      let i := toI true w x
      intElem ss true w (if neg then -i else (i.natAbs : Int)))
/-- VABS and VNEG. -/
def Thread.vabsneg (th : Thread) (neg : Bool) (d a : BitVec 5) (c : BitVec 3) (lt : LT) (ss : Bool) : Thread :=
  let x := th.rv a
  th.lanes d (th.rm c) (fun i => absNegLane neg lt ss x[i])

/-! ## Group 0x0C (R212-R214) -/

/-- VAND, VOR and VXOR. -/
def Thread.vlogic (th : Thread) (f : Lane → Lane → Lane) (d a : BitVec 5) (b : VSrc) (c : BitVec 3) : Thread :=
  let x := th.rv a
  let y := th.rvs b
  th.lanes d (th.rm c) (fun i => (f x[i] y[i], 0))

/-- The shifts of R212. -/
inductive VShift where
  | shl | shr | sar
deriving DecidableEq, Repr

/-- One lane of a shift. -/
def shiftLane (op : VShift) (lt : LT) (a b : Lane) : Lane × Flags :=
  let w := lt.width
  mapLane lt (fun k =>
    let x := elemOf w a k
    let n := elemOf w b k % w
    (match op with
      | .shl => x * 2 ^ n % 2 ^ w
      | .shr => x / 2 ^ n
      | .sar => ofI w (toI true w x / (2 ^ n : Nat)), 0))
/-- VSHL, VSHR and VSAR. -/
def Thread.vshift (th : Thread) (op : VShift) (d a : BitVec 5) (b : VSrc) (c : BitVec 3) (lt : LT) : Thread :=
  let x := th.rv a
  let y := th.rvs b
  th.lanes d (th.rm c) (fun i => shiftLane op lt x[i] y[i])

/-- R213: a comparison of integer elements. -/
def vccInt (cc : VCC) (a b : Int) : Bool :=
  match cc with
  | .eq => a == b | .ne => a != b | .lt => decide (a < b) | .ge => decide (b ≤ a)
  | .le => decide (a ≤ b) | .gt => decide (b < a) | .un => false
/-- R213: a comparison of float elements. -/
def vccFloat (cc : VCC) (a b : Val) : Bool :=
  if a.isNan || b.isNan then cc == .ne || cc == .un
  else
    match cc with
    | .eq => !a.lt b && !b.lt a | .ne => a.lt b || b.lt a | .lt => a.lt b | .ge => !a.lt b
    | .le => !b.lt a | .gt => b.lt a | .un => false
/-- The comparison of one lane, with its flags. -/
def cmpLane (lt : LT) (el : Nat) (un : Bool) (cc : VCC) (a b : Lane) : Bool × Flags :=
  let w := lt.width
  let x := elemOf w a el
  let y := elemOf w b el
  match floatOf lt with
  | some f =>
    let u := f.decode x
    let v := f.decode y
    (vccFloat cc u v, flagIf (u.isSig || v.isSig) nvF)
  | none => (vccInt cc (toI (!un) w x) (toI (!un) w y), 0)
/-- A mask from its bits. -/
def maskOf (f : Nat → Bool) : Mask :=
  (List.range 48).foldl (fun (m : Mask) i => if f i then m ||| (1#48 <<< i) else m) 0
/-- VCMP. -/
def Thread.vcmp (th : Thread) (d : BitVec 3) (a : BitVec 5) (b : VSrc) (c : BitVec 3) (lt : LT)
    (el : BitVec 2) (un : Bool) (cc : VCC) : Thread :=
  let m := th.rm c
  let x := th.rv a
  let y := th.rvs b
  let r (i : Nat) : Bool × Flags := cmpLane lt el.toNat un cc (x.toList.getD i 0) (y.toList.getD i 0)
  let old := th.rm d
  let fl := (List.range 48).foldl (fun (a : Flags) i => if m.getLsbD i then a ||| (r i).2 else a) 0
  (th.wm d (maskOf (fun i => if m.getLsbD i then (r i).1 else old.getLsbD i))).orFlags fl
/-- VSEL: C selects, and every lane is written. -/
def Thread.vsel (th : Thread) (d a b : BitVec 5) (c : BitVec 3) : Thread :=
  th.wv d (merge (th.rm c) (th.rv a) (th.rv b))

/-! ## Group 0x0D (R215-R219) -/

/-- VRCP, VRSQ, VEXP2, VLOG2 and VTANH. -/
def Thread.vfn (th : Thread) (fn : Fn) (d a : BitVec 5) (c : BitVec 3) (lt : LT) : Thread :=
  let x := th.rv a
  let f := (floatOf lt).getD .f32
  th.lanes d (th.rm c) (fun i => mapLane lt (fun k => f.fn fn (elemOf lt.width x[i] k)))

/-- R216: an element converted between lane types. -/
def convElem (dt st : LT) (rm : RM) (ss : Bool) (x : Nat) : Nat × Flags :=
  match floatOf st, floatOf dt with
  | some f, some g => g.ofVal rm (f.decode x)
  | some f, none => valToInt rm true dt.width (f.decode x)
  | none, some g => g.ofVal rm (Val.ofInt (toI true st.width x))
  | none, none => intElem ss true dt.width (toI true st.width x)
/-- One lane of VCVT, over the old lane of D. -/
def cvtLane (dt st : LT) (el : Nat) (rm : RM) (ss : Bool) (a old : Lane) : Lane × Flags :=
  let es := st.count
  let ed := dt.count
  if ed ≤ es then mapLane dt (fun k => convElem dt st rm ss (elemOf st.width a (el * ed + k)))
  else
    (List.range es).foldl (fun (acc : Lane × Flags) k =>
      let (y, fl) := convElem dt st rm ss (elemOf st.width a k)
      (setElem dt.width acc.1 (el * es + k) y, acc.2 ||| fl)) (old, 0)
/-- VCVT. -/
def Thread.vcvt (th : Thread) (d a : BitVec 5) (c : BitVec 3) (dt st : LT) (el : BitVec 2) (rm : RM)
    (ss : Bool) : Thread :=
  let x := th.rv a
  let z := th.rv d
  th.lanes d (th.rm c) (fun i => cvtLane dt st el.toNat rm ss x[i] z[i])

/-- The lane states after the active lanes have drawn (R218). -/
def drawLfsr (l : Vector (BitVec 32) 48) (m : Mask) : Vector (BitVec 32) 48 :=
  Vector.ofFn (fun i => if m.getLsbD i.val then lfsrStep l[i] else l[i])
/-- One lane of VQUANT with its drawn word. -/
def quantLane (fmt : Fmt) (el : Nat) (rm : RM) (sr : Bool) (a b old : Lane) (rnd : BitVec 32) : Lane × Flags :=
  let (x, f1) := Val.mul (FF.f32.decode a.toNat) (FF.f32.decode b.toNat)
  let (y, f2) := if sr then fmtStoch fmt x rnd else fmtOf fmt rm x
  (setElem fmt.width old el y, f1 ||| f2)
/-- VQUANT. -/
def Thread.vquant (th : Thread) (d a b : BitVec 5) (c : BitVec 3) (fmt : Fmt) (el : BitVec 3) (rm : RM)
    (sr : Bool) : Thread :=
  let m := th.rm c
  let x := th.rv a
  let y := th.rv b
  let z := th.rv d
  let l := if sr then drawLfsr th.lfsr m else th.lfsr
  { th.lanes d m (fun i => quantLane fmt el.toNat rm sr x[i] y[i] z[i] l[i]) with lfsr := l }

/-- One lane of VDEQ. -/
def deqLane (fmt : Fmt) (el : Nat) (rm : RM) (a b : Lane) : Lane × Flags :=
  let (x, fl) := FF.f32.fin rm (Val.mul (fmtVal fmt (elemOf fmt.width a el)) (FF.f32.decode b.toNat))
  (BitVec.ofNat 32 x, fl)
/-- VDEQ. -/
def Thread.vdeq (th : Thread) (d a b : BitVec 5) (c : BitVec 3) (fmt : Fmt) (el : BitVec 3) (rm : RM) :
    Thread :=
  let x := th.rv a
  let y := th.rv b
  th.lanes d (th.rm c) (fun i => deqLane fmt el.toNat rm x[i] y[i])

/-! ## Group 0x0E (R220-R223) -/

/-- The operation of VRED and VSCAN as one of R210 and R211. -/
def RedOp.arith : RedOp → Arith
  | .add => .add
  | .min => .min
  | .max => .max
/-- R221: the identity of an operation in each element. -/
def identLane (op : RedOp) (lt : LT) (un : Bool) : Lane :=
  let w := lt.width
  let e : Nat :=
    match floatOf lt with
    | some f =>
      (match op with
        | .add => f.sign true
        | .min => f.infBits
        | .max => f.sign true + f.infBits)
    | none =>
      (match op with
        | .add => 0
        | .min => ofI w (iMax (!un) w)
        | .max => ofI w (iMin (!un) w))
  (mapLane lt (fun _ => (e, 0))).1
/-- Combine two lanes, keeping the flags so far. -/
def redPair (op : RedOp) (lt : LT) (rm : RM) (un : Bool) (a b : Lane × Flags) : Lane × Flags :=
  let (x, fl) := arithLane (RedOp.arith op) lt rm false un a.1 b.1 0
  (x, a.2 ||| b.2 ||| fl)
/-- Neighbours combined in pairs. -/
def pairUp (f : Lane × Flags → Lane × Flags → Lane × Flags) : List (Lane × Flags) → List (Lane × Flags)
  | a :: b :: t => f a b :: pairUp f t
  | l => l
/-- The fixed tree of R221 over 48 lanes. -/
def redTree (f : Lane × Flags → Lane × Flags → Lane × Flags) (l : List (Lane × Flags)) : Lane × Flags :=
  match pairUp f (pairUp f (pairUp f (pairUp f l))) with
  | [a, b, c] => f (f a b) c
  | _ => (0, 0)
/-- The lane that VRED gives, with its flags. -/
def vredLane (v : VReg) (m : Mask) (lt : LT) (rm : RM) (op : RedOp) (un : Bool) : Lane × Flags :=
  redTree (redPair op lt rm un)
    ((List.range 48).map (fun i => (if m.getLsbD i then v.toList.getD i 0 else identLane op lt un, 0)))
/-- VRED. -/
def Thread.vred (th : Thread) (d : SOp) (a : BitVec 5) (c : BitVec 3) (lt : LT) (rm : RM) (op : RedOp)
    (un : Bool) : Thread :=
  let (r, fl) := vredLane (th.rv a) (th.rm c) lt rm op un
  (th.ws d (r.setWidth 64)).orFlags fl

/-- The running values of VSCAN: the lanes in order, the value so far, and the flags. -/
def scanGo (f : Lane × Flags → Lane × Flags → Lane × Flags) (m : Mask) (ex : Bool) :
    List (Lane × Lane) → Nat → Lane × Flags → List Lane × Flags
  | [], _, s => ([], s.2)
  | (a, old) :: t, i, s =>
    if m.getLsbD i then
      let s' := f s (a, 0)
      let (l, fl) := scanGo f m ex t (i + 1) s'
      ((if ex then s.1 else s'.1) :: l, fl)
    else
      let (l, fl) := scanGo f m ex t (i + 1) s
      (old :: l, fl)
/-- VSCAN. -/
def Thread.vscan (th : Thread) (d a : BitVec 5) (c : BitVec 3) (lt : LT) (rm : RM) (op : RedOp)
    (un ex : Bool) : Thread :=
  let (l, fl) := scanGo (redPair op lt rm un) (th.rm c) ex ((th.rv a).toList.zip (th.rv d).toList) 0
    (identLane op lt un, 0)
  (th.wv d (Vector.ofFn (fun i => l.getD i.val 0))).orFlags fl

/-- VPERM. -/
def Thread.vperm (th : Thread) (d a b : BitVec 5) (c : BitVec 3) : Thread :=
  let x := th.rv a
  let y := th.rv b
  th.lanes d (th.rm c) (fun i => (x.toList.getD (y[i]).toNat 0, 0))
/-- VBCAST. -/
def Thread.vbcast (th : Thread) (d : BitVec 5) (a : SV) (c : BitVec 3) (lane : BitVec 6) : Thread :=
  let x : Lane := match a with
    | .s r => (th.rs r).extractLsb' 0 32
    | .v n => (th.rv n).toList.getD lane.toNat 0
  th.lanes d (th.rm c) (fun _ => (x, 0))
/-- VINS. -/
def Thread.vins (th : Thread) (d : BitVec 5) (a : SOp) (lane : BitVec 6) : Thread :=
  let old := th.rv d
  let x := (th.rs a).extractLsb' 0 32
  th.wv d (Vector.ofFn (fun i => if i.val = lane.toNat then x else old[i]))
/-- VEXT. -/
def Thread.vext (th : Thread) (d : SOp) (a : BitVec 5) (lane : BitVec 6) : Thread :=
  th.ws d (((th.rv a).toList.getD lane.toNat 0).setWidth 64)
/-- The lowest 1 of a mask, or 48. -/
def firstOne (m : Mask) : Nat := ((List.range 48).find? (fun i => m.getLsbD i)).getD 48
/-- VMASK (R223). -/
def Thread.vmask (th : Thread) (d : BitVec 3) (src : MaskSrc) : Thread :=
  th.wm d (match src with
    | .lt a => maskOf (fun i => decide (i < (th.rs a).toNat))
    | .nz a => maskOf (fun i => (th.rv a).toList.getD i 0 != 0)
    | .first a => maskOf (fun i => i == firstOne (th.rm a)))
/-- VPOPM (R223). -/
def Thread.vpopm (th : Thread) (d : SOp) (a : BitVec 3) (ff : Bool) : Thread :=
  let m := th.rm a
  th.ws d (BitVec.ofNat 64 (if ff then firstOne m
    else ((List.range 48).filter (fun i => m.getLsbD i)).length))

/-! ## The instructions of groups 0x0B to 0x0E, for the repeat sequencer (R226, R227) -/

/-- What a vector instruction does to a thread; other instructions do nothing. -/
def Thread.vector (th : Thread) (i : Instr) : Thread :=
  match i with
  | .vadd _ d a b c lt rm ss un => th.varith .add d a b c lt rm ss un
  | .vsub _ d a b c lt rm ss un => th.varith .sub d a b c lt rm ss un
  | .vmul _ d a b c lt rm ss un => th.varith .mul d a b c lt rm ss un
  | .vfma _ d a b c lt rm ss un => th.varith .fma d a b c lt rm ss un
  | .vmin _ d a b c lt un => th.varith .min d a b c lt .rne false un
  | .vmax _ d a b c lt un => th.varith .max d a b c lt .rne false un
  | .vabs _ d a c lt ss => th.vabsneg false d a c lt ss
  | .vneg _ d a c lt ss => th.vabsneg true d a c lt ss
  | .vand _ d a b c => th.vlogic (fun x y => x &&& y) d a b c
  | .vor _ d a b c => th.vlogic (fun x y => x ||| y) d a b c
  | .vxor _ d a b c => th.vlogic (fun x y => x ^^^ y) d a b c
  | .vshl _ d a b c lt => th.vshift .shl d a b c lt
  | .vshr _ d a b c lt => th.vshift .shr d a b c lt
  | .vsar _ d a b c lt => th.vshift .sar d a b c lt
  | .vcmp _ d a b c lt el un cc => th.vcmp d a b c lt el un cc
  | .vsel _ d a b c => th.vsel d a b c
  | .vrcp _ d a c lt => th.vfn .rcp d a c lt
  | .vrsq _ d a c lt => th.vfn .rsq d a c lt
  | .vexp2 _ d a c lt => th.vfn .exp2 d a c lt
  | .vlog2 _ d a c lt => th.vfn .log2 d a c lt
  | .vtanh _ d a c lt => th.vfn .tanh d a c lt
  | .vcvt _ d a c dt st el rm ss => th.vcvt d a c dt st el rm ss
  | .vquant _ d a b c fmt el rm sr => th.vquant d a b c fmt el rm sr
  | .vdeq _ d a b c fmt el rm => th.vdeq d a b c fmt el rm
  | .vscan _ d a c lt rm op un ex => th.vscan d a c lt rm op un ex
  | .vperm _ d a b c => th.vperm d a b c
  | .vbcast _ d a c lane => th.vbcast d a c lane
  | .vins _ d a lane => th.vins d a lane
  | .vmask _ d src => th.vmask d src
  | _ => th

end Sys2Proof.Machine
end

