-- ==== Sys2Proof/Config.lean ====
section
/-! DEFINITION. What an implementation fixes, and the free values: constants without a body, of which
nothing can be proved. -/

namespace Sys2Proof.Config

/-- The firmware vector of R306, which the spec names without giving it (log 6). -/
opaque firmwareVector : BitVec 64

/-- SHA-256 (R421, R422), uninterpreted (log 12). -/
opaque sha256 : List (BitVec 8) → BitVec 256

/-- Does an SLH-DSA signature over a header verify under the fused key (R421)? Uninterpreted (log 12). -/
opaque signatureOk : List (BitVec 8) → List (BitVec 8) → Bool

/-- The SLH-DSA-SHA2-128f signature of a quote (R422), 17,088 bytes, uninterpreted (log 12). -/
opaque quoteSignature : List (BitVec 8) → Vector (BitVec 8) 17088

/-- The start value of the dual-run CRC-64 (R393), which the spec does not give (log 13). -/
opaque crcInit : BitVec 64

/-- The slot number of an index in a work queue of no slots, which R279 and R280 give no value (log 10). -/
opaque modZero : Nat → Nat

/-- Base and entries of the overflow table of each directory slice, and base and entries of the side table of each
LLC die, as firmware sets them at bring-up (R310, R346, log 48). -/
opaque overflowTable : Nat → Nat × Nat
opaque sideTable : Nat → Nat × Nat

/-- The bytes that each partition's tape store holds, of which the spec gives no size (R294, log 26). -/
opaque tapeRoom : Nat → Nat

/-- The cause byte of the error record of a thermal trip (R423), which R389 does not list (log 33). -/
opaque thermalCause : BitVec 8

end Sys2Proof.Config
end

