-- ==== Sys2Proof/Machine/Units.lean ====
section
/-! DEFINITION. What units of work share: class descriptors, job and launch counters, and recordings that end
(R264, R282-R286, R294). -/

namespace Sys2Proof.Machine

/-! ## Class descriptors (R264) -/

def cdEntry (d : BitVec 768) (k : Nat) : BitVec 24 := d.extractLsb' (24 * k) 24
def cdCbase (d : BitVec 768) : Word := d.extractLsb' 384 64
def cdSmap (d : BitVec 768) : Word := d.extractLsb' 448 64
def cdHmap (d : BitVec 768) : Word := d.extractLsb' 512 64
def cdRetire (d : BitVec 768) : Nat := (d.extractLsb' 576 32).toNat
def cdBudget (d : BitVec 768) : Nat := (d.extractLsb' 608 32).toNat
def cdLines (d : BitVec 768) : Nat := (d.extractLsb' 640 8).toNat + 1
def cdHbits (d : BitVec 768) : Nat := (d.extractLsb' 648 8).toNat
def cdPol (d : BitVec 768) : Nat := (d.extractLsb' 656 2).toNat
def cdPrio (d : BitVec 768) : Nat := (d.extractLsb' 664 4).toNat
def cdRestartable (d : BitVec 768) : Bool := d.getLsbD 672
def cdTapeable (d : BitVec 768) : Bool := d.getLsbD 673
def cdDual (d : BitVec 768) : Bool := d.getLsbD 674
def cdTlim (d : BitVec 768) : Nat := (d.extractLsb' 680 8).toNat
def cdAge (d : BitVec 768) : Nat := (d.extractLsb' 688 16).toNat
def cdBackoff (d : BitVec 768) : Nat := (d.extractLsb' 704 16).toNat
def cdParg (d : BitVec 768) : BitVec 32 := d.extractLsb' 720 32
def cdVer (d : BitVec 768) : BitVec 16 := d.extractLsb' 752 16

/-- The installed descriptor of a class of partition p. -/
def State.cls? (s : State) (p : Nat) (c : BitVec 16) : Option (BitVec 768) :=
  ((s.part p).classes.find? (fun e => e.1 == c.toNat)).map Prod.snd

/-! ## Jobs (R283, R284, R370) -/

def Part.job (k : Part) (j : BitVec 16) : Job := tget default k.jobs j.toNat
def State.updJob (s : State) (p : Nat) (j : BitVec 16) (f : Job → Job) : State :=
  s.updPart p (fun k => { k with jobs := tset k.jobs j.toNat (f (k.job j)) })
/-- Does a job ID name something live: a live launch, or messages outstanding (R283, R284)? -/
def Part.jobLive (k : Part) (j : BitVec 16) : Bool :=
  k.launches.any (fun e => e.2.live && e.2.job == j) || decide (0 < (k.job j).out)
/-- One unit or message more, or one less, is outstanding. -/
def State.jobIn (s : State) (p : Nat) (j : BitVec 16) (n : Nat) : State :=
  s.updJob p j (fun x => { x with out := x.out + n })
def State.jobOut (s : State) (p : Nat) (j : BitVec 16) (n : Nat) : State :=
  s.updJob p j (fun x => { x with out := x.out - n })
/-- A message of the job is dropped (R283). -/
def State.jobDrop (s : State) (p : Nat) (j : BitVec 16) : State :=
  s.updJob p j (fun x => { x with out := x.out - 1, drop := x.drop + 1 })

/-! ## Launches (R281-R283) -/

/-- The live launch that an ID names: slot in bits [11:0], generation in bits [31:12]. -/
def Part.launch? (k : Part) (id : BitVec 32) : Option Launch :=
  match k.launches.find? (fun e => e.1 == id.toNat % 4096) with
  | some (_, l) => if l.live && l.gen == id.extractLsb' 12 20 then some l else none
  | none => none
def State.setLaunch (s : State) (p : Nat) (slot : Nat) (l : Launch) : State :=
  s.updPart p (fun k => { k with launches := tset k.launches slot l })

/-- The record of what an addition at a counter meets: of the unit that ended (R388). -/
def CntAdd.record (x : CntAdd) (cause sub : Nat) (info0 : Word) : ERec :=
  { (default : ERec) with
    cause, sub, ukind := if x.join then 2 else 1, part := x.part, agent := x.ag, info0, key := x.key, job := x.job }

/-- The offset of a byte of on-chip memory in its window. -/
def winOff (pa : Nat) : Word :=
  let l := paLocal pa
  BitVec.ofNat 64 ((if clusWin ≤ l then l - clusWin else l - coreWin) % 0x300000)

/-- R275: a join counter is decremented in one step, once the task's accesses stand at clus. Poison there is a hardware
error of the task (R386), and nothing is written. -/
def State.joinAdd (s : State) (x : CntAdd) : State :=
  let pa := x.addr.toNat
  if s.poisoned pa 4 then s.putRecord (some x.part) (x.record 0x23 0 (winOff pa))
  else
    match s.cleared x.ag 7 (nibsOf pa (List.replicate 4 0)) with
    | (s, false) => { s with adds := s.adds ++ [x] }
    | (s, true) => s.atomWrite x.ag pa (bytesOfNat 4 (natOfBytes (s.atomRead pa 4) + (2 ^ 32 - 1)))

/-- R282: an addition at a launch's completion counter, an atomic release at pkg, once the accesses before it stand
there (R123). One that fails a check is not made and leaves an error record; one whose page is not resident waits for
it, and one at a peer for room for its answer (R398). -/
def State.launchAdd (s : State) (x : CntAdd) : State :=
  let later (s : State) : State := { s with adds := s.adds ++ [x] }
  let seen (s : State) : State := s.forget (fun j => j.ag == x.ag && j.cmd == x.no + 1)
  match s.check ⟨x.ag, x.core, some x.part, x.asid, privU, none, [], x.no + 1⟩ .atomic .g x.addr 8 with
  | (s, .wait) => later s
  | (s, .fail cause _ _) =>
    let sub := if cause = 0x07 then 2 else if cause = 0x09 then 3 else 4
    (seen s).putRecord (some x.part)
      { x.record 0x28 sub x.addr with info1 := x.launch, d0 := BitVec.ofNat 64 x.amount }
  | (s, .ok segs) =>
    match segs with
    | ⟨_, .mem pa _, _⟩ :: _ =>
      if s.isPeer pa then
        if s.answerRoom (paPkg pa) then
          (seen s).sendPeer x.ag 0 x.addr pa 3 [] (1 :: 8 :: bytesOfNat 8 x.amount) ⟨x.part, x.asid, none⟩ |>.1
        else later s
      else if s.poisoned pa 8 then (seen s).putRecord (some x.part) { x.record 0x23 0 x.addr with info1 := x.launch }
      else
        match s.cleared x.ag 6 (nibsOf pa (List.replicate 8 0)) with
        | (s, false) => later s
        | (s, true) => (seen s).atomWrite x.ag pa (bytesOfNat 8 (natOfBytes (s.atomRead pa 8) + x.amount))
    | _ => seen s

/-- The update of a counter at the end of a unit, after the unit's accesses: at clus for a task's, at pkg for a launch's
(R123). -/
def State.counterAdd (s : State) (x : CntAdd) : State :=
  if x.addr = 0 ∨ x.amount = 0 then s
  else
    match s.upTo x.ag x.no (if x.join then 2 else 6) with
    | (s, false) => { s with adds := s.adds ++ [x] }
    | (s, true) => if x.join then s.joinAdd x else s.launchAdd x
/-- Updates of counters that wait are made again. -/
def State.retryAdds (s : State) : State :=
  if s.adds.isEmpty then s else s.adds.foldl (fun (s : State) x => s.counterAdd x) { s with adds := [] }

/-- A unit of a launch has ended (R282), or n units are cancelled (R283); `key` is the KEY of a record of it. -/
def State.launchCount (s : State) (p : Nat) (id : BitVec 32) (ag : BitVec 32) (core : Nat) (key : Word)
    (ended canc : Nat) : State :=
  match (s.part p).launch? id with
  | none => s
  | some l =>
    let l := { l with ended := l.ended + ended, canc := l.canc + canc }
    let l := { l with live := l.ended + l.canc < l.units }
    let s := s.setLaunch p (id.toNat % 4096) l
    let s := s.jobOut p l.job (ended + canc)
    s.counterAdd ⟨ag, core, p, l.asid, l.cnt, id.setWidth 64, key, l.job, ended + canc, s.serial, false⟩

/-! ## Recordings that end (R285, R286, R294) -/

/-- c25 (R31). -/
def mkTapest (grds pslot recs outc mode : Nat) : Word :=
  BitVec.ofNat 64 (grds % 16 * 2 ^ 21 + pslot % 32 * 2 ^ 16 + recs % 2048 * 32 + outc % 8 * 4 + mode % 4)
/-- c25 with another outcome and mode. -/
def tapestEnd (w : Word) (outc : Nat) : Word := BitVec.ofNat 64 (w.toNat / 32 * 32 + outc % 8 * 4)
/-- What c25 reads: the counts of a recording in progress (R31). -/
def Thread.tapestNow (h : Thread) : Word :=
  match h.recording with
  | some r => mkTapest r.grds.length r.slots.length r.recs.length 0 1
  | none => h.tapest
/-- A recording ends with an outcome. -/
def Thread.endRec (h : Thread) (outc : Nat) : Thread :=
  { h with recording := none, tapest := tapestEnd h.tapestNow outc }

/-- The control record of a tape: its failures, suppression and right (R285, R294). -/
def Part.tapeCtl? (k : Part) (c : BitVec 16) (sel : BitVec 8) (v : BitVec 4) : TapeCtl :=
  (k.tapeCtl.find? (fun x => x.cls == c && x.sel == sel && x.var == v)).getD ⟨c, sel, v, 0, false, none, 0⟩
def Part.setTapeCtl (k : Part) (x : TapeCtl) : Part :=
  { k with tapeCtl := x :: k.tapeCtl.filter (fun y => !(y.cls == x.cls && y.sel == x.sel && y.var == x.var)) }
def Part.tape? (k : Part) (c : BitVec 16) (sel : BitVec 8) (v : BitVec 4) : Option Tape :=
  k.tapes.find? (fun x => x.cls == c && x.sel == sel && x.var == v)
def Part.dropTape (k : Part) (c : BitVec 16) (sel : BitVec 8) (v : BitVec 4) : Part :=
  { k with
    tapes := k.tapes.filter (fun x => !(x.cls == c && x.sel == sel && x.var == v))
    tapeStore := k.tapeStore.filter (fun x => !(x.cls == c && x.sel == sel && x.var == v)) }

/-- R294: a failure of a tape; at TLIM the tape is retired, or its recording suppressed. -/
def State.tapeFail (s : State) (p : Nat) (c : BitVec 16) (sel : BitVec 8) (v : BitVec 4) : State :=
  let lim := match s.cls? p c with
    | some d => cdTlim d
    | none => 4
  s.updPart p (fun k =>
    let x := k.tapeCtl? c sel v
    if x.fails + 1 < lim then k.setTapeCtl { x with fails := x.fails + 1 }
    else if (k.tape? c sel v).isSome then (k.setTapeCtl { x with fails := 0 }).dropTape c sel v
    else k.setTapeCtl { x with fails := x.fails + 1, supp := true })

/-- The right to record is given back (R285). -/
def State.freeRight (s : State) (p : Nat) (c : BitVec 16) (sel : BitVec 8) (v : BitVec 4) : State :=
  s.updPart p (fun k => k.setTapeCtl { k.tapeCtl? c sel v with right := none })

/-- R286: an abort ends the recording with an outcome; it counts as a failure (R294). -/
def State.abortRec (s : State) (t outc : Nat) : State :=
  let h := s.thr t
  match h.recording, h.unit with
  | some r, some u =>
    let s := s.setThr t (h.endRec outc)
    (s.freeRight u.part u.msg.cls u.msg.sel r.var).tapeFail u.part u.msg.cls u.msg.sel r.var
  | _, _ => s

/-! ## The directory -/

/-- The entry of the directory with a key. -/
def State.entry? (s : State) (k : AKey) : Option Entry := s.dir.find? (fun e => e.key == k)

end Sys2Proof.Machine
end

