-- ==== Sys2Proof/Machine/Directory.lean ====
section
/-! DEFINITION. The activation directory: where a key lives, the entries of the slices and their state
machine, placement, frames, activation, write-back, forwarding and moves (R308-R330, R424, R428, R433). -/

namespace Sys2Proof

/-! ## Where a key lives (R308) -/

def homeHash (p : Nat) (c : BitVec 16) (k : Word) : Word :=
  let h : Word := k ^^^ (c.setWidth 64 <<< 48) ^^^ (BitVec.ofNat 64 p <<< 41)
  let h := h * 0x9E3779B97F4A7C15#64
  h ^^^ (h >>> 29)
def homeSlice (h : Word) : Nat := (h.extractLsb' 60 4).toNat
def homeSet (h : Word) : Nat := (h.extractLsb' 48 12).toNat
/-- Index into a home map of 2^n entries. -/
def homeIx (h : Word) (n : Nat) : Nat := (h.extractLsb' 0 48).toNat / 2 ^ (48 - n)

def AKey.hash (k : AKey) : Word := homeHash k.part k.cls k.key
def AKey.slice (k : AKey) : Nat := homeSlice k.hash
def Msg.akey (m : Msg) : AKey := ⟨m.part, m.cls, m.key⟩

namespace Machine

/-! ## Entries (R309, R310) -/

/-- The 192 bits of an entry. -/
def Entry.bits (e : Entry) : BitVec 192 :=
  let st : BitVec 3 := match e.st with
    | .absent => 0 | .activating => 1 | .live => 2 | .retiring => 3 | .forward => 4 | .failed => 5
  e.key.key ++ e.key.cls ++ BitVec.ofNat 7 e.key.part ++ (1 : BitVec 1) ++ st ++ bit e.busy ++ bit e.imp ++
    BitVec.ofNat 2 e.rdc ++ bit e.prov ++ BitVec.ofNat 12 e.core ++ BitVec.ofNat 13 e.frame ++ e.fpkg ++
    (0 : BitVec 6) ++ BitVec.ofNat 16 e.pend.length ++ BitVec.ofNat 13 (match e.pend with
      | m :: _ => m.slot
      | [] => 0) ++ (0 : BitVec 27)

def State.setEntry (s : State) (e : Entry) : State :=
  { s with dir := if s.dir.any (fun x => x.key == e.key) then
      s.dir.map (fun x => if x.key = e.key then e else x) else s.dir ++ [e] }
def State.delEntry (s : State) (k : AKey) : State := { s with dir := s.dir.filter (fun x => x.key != k) }
def State.updEntry (s : State) (k : AKey) (f : Entry → Entry) : State :=
  match s.entry? k with
  | some e => s.setEntry (f e)
  | none => s

/-- An entry that may go to the overflow table (R310). -/
def Entry.movable (e : Entry) : Bool :=
  match e.st with
  | .live | .forward => !e.busy
  | .failed | .absent => true
  | .activating | .retiring => false

/-- The on-chip entries of the set that holds a key. -/
def State.setOf (s : State) (k : AKey) : List Entry :=
  s.dir.filter (fun e => !e.spilled && e.key.slice == k.slice && homeSet e.key.hash == homeSet k.hash)
/-- The least recently touched of a list. -/
def oldest (l : List Entry) : Option Entry :=
  l.foldl (fun (a : Option Entry) e => match a with
    | none => some e
    | some b => if e.touch < b.touch then some e else some b) none

/-- Free a way in the set of a key, moving an entry to the overflow table of the slice while that has room for
`extra` more (R310). -/
def State.makeWay (s : State) (k : AKey) (extra : Nat) : Option State :=
  if (s.setOf k).length < 8 then some s
  else
    let spilt := (s.dir.filter (fun e => e.spilled && e.key.slice == k.slice)).length
    match oldest ((s.setOf k).filter Entry.movable) with
    | some v =>
      if spilt < (tget (0, 0) s.overTab k.slice).2 + extra then some (s.setEntry { v with spilled := true }) else none
    | none => none

/-- A lookup touches the entry, and brings it back into its set, in exchange for another when that is full (R310);
where every way is unmovable the entry is used in the overflow table (log 48). -/
def State.touch (s : State) (k : AKey) : State :=
  match s.entry? k with
  | none => s
  | some e =>
    let s := { s with serial := s.serial + 1 }
    if e.spilled then
      match s.makeWay k 1 with
      | some s => s.setEntry { e with spilled := false, touch := s.serial }
      | none => s.setEntry { e with touch := s.serial }
    else s.setEntry { e with touch := s.serial }

/-- A fresh entry for a key, where one is available. -/
def State.alloc (s : State) (k : AKey) (st : EState) : Option State :=
  match s.makeWay k 0 with
  | none => none
  | some s =>
    let s := { s with serial := s.serial + 1 }
    some (s.setEntry { (default : Entry) with key := k, st, touch := s.serial, home := s.pkg })

/-- The messages that hold a slot of a slice's pending store, or may need one again (R312, log 48): those of its queues;
one that has been forwarded, which a RETRY brings back (R433); and that of a run of a RESTARTABLE class, which stays at
the head of its queue (R328). -/
def State.slotMsgs (s : State) (slice : Nat) : List Msg :=
  (s.dir.filter (fun e => e.key.slice == slice)).flatMap (fun e => e.pend ++ e.fwd ++ e.came ++
      (if (s.cls? e.key.part e.key.cls).any cdRestartable then e.cur.toList else [])) ++
    s.parts.flatMap (fun p => p.2.frozen.flatMap (fun f =>
      (f.2.hold.filter (fun m => m.1 == slice)).map Prod.snd))
/-- How many they are. -/
def State.pendCount (s : State) (slice : Nat) : Nat := (s.slotMsgs slice).length
def State.slotFree (s : State) (slice : Nat) : Bool := decide (s.pendCount slice < 8192)

/-- The lowest number from n on that a rising list does not hold. -/
def firstGap (n : Nat) : List Nat → Nat
  | [] => n
  | k :: t => if k = n then firstGap (n + 1) t else if k < n then firstGap n t else n
/-- The slots of a slice's pending store that are in use. -/
def State.slotsUsed (s : State) (slice : Nat) : List Nat := (s.slotMsgs slice).map Msg.slot
/-- A message takes a slot of the pending store: the lowest free one, of 8192; a higher number is none (R309, R312,
log 48). -/
def State.slotted (s : State) (slice : Nat) (m : Msg) : Msg :=
  { m with slot := firstGap 0 (rising (s.slotsUsed slice)) }
/-- Can the message of an entry's run be put back at the head of its queue: does it hold a slot, or is one free? -/
def State.slotFor (s : State) (e : Entry) : Bool :=
  e.cur.all (fun m => decide (m.slot < 8192)) ||
    decide (((s.slotsUsed e.key.slice).filter (fun n => decide (n < 8192))).length < 8192)

/-! ## The order of a mesh cycle (R311) -/

/-- The place of an event in the order in which a slice applies those of one mesh cycle: notices by kind and by
reporting agent, then timer decisions, then messages by SENDER, IFN and SEQ. -/
inductive SliceEv where
  | notice (kind : Nat) (agent : BitVec 32)
  | timer (capacity : Bool)
  | message (m : Msg)
def SliceEv.rank : SliceEv → Nat
  | .notice k a => k * 2 ^ 72 + a.toNat
  | .timer c => 8 * 2 ^ 72 + (if c then 1 else 0)
  | .message m => 9 * 2 ^ 72 + (m.sender.toNat * 64 + m.ifn.toNat) * 2 ^ 32 + m.seq.toNat

/-- R311: a slice takes an event, unless it has already taken one in this mesh cycle that comes after it. -/
def State.takes (s : State) (n : Nat) (e : SliceEv) : Option State :=
  let k := s.slice n
  if k.at_ = s.mesh ∧ e.rank < k.rank then none
  else some (s.setSlice n { k with at_ := s.mesh, rank := e.rank })
/-- The state after an event that a slice takes; without it while the slice may not take it. -/
def State.sliceDo (s : State) (n : Nat) (e : SliceEv) (f : State → State) : State :=
  match s.takes n e with
  | some s' => let r := f s'
    if r = s' then s else r
  | none => s

/-! ## Answers (R433) -/

/-- An answer for a message goes to a package, and names the home package of its key (R268). -/
def State.answerTo (s : State) (dst home : BitVec 9) (m : Msg) (a : Answer) : State :=
  if dst = s.pkg then { s with answers := s.answers ++ [⟨m, a, home⟩] }
  else
    let typ : BitVec 6 := match a with
      | .accept => 0x05 | .retry => 0x09 | .refuse _ => 0x0A
    let rs : BitVec 4 := match a with
      | .refuse r => r.setWidth 4
      | _ => 0
    (s.emit { (default : Flit) with
      sagent := (s.pkg : BitVec 9) ++ (0 : BitVec 23), dpkg := dst, part := BitVec.ofNat 7 m.part,
      vl := 1, typ, reason := rs, msgs := [m], home }).1
/-- The answer to a message, to whoever handed it over: its sender here, or a slice of another package. -/
def State.answer (s : State) (m : Msg) (a : Answer) : State :=
  s.answerTo m.via (if m.fwd then m.via else s.pkg) m a

/-- A refusal after acceptance goes to the sender named in the header (R268). -/
def State.lateRefuse (s : State) (home : BitVec 9) (m : Msg) (reason : BitVec 8) : State :=
  (s.jobOut m.part m.job 1).answerTo (idPkg m.sender) home m (.refuse reason)

/-- R320: answer RETRY and set a marker for the first message of the sender and interface. -/
def State.retryMsg (s : State) (m : Msg) : State :=
  let s := s.answer m .retry
  -- a message of another package is counted here only from its acceptance on
  let s := if m.via == s.pkg then s else s.jobOut m.part m.job 1
  if s.markers.any (fun x => x.sender == m.sender && x.ifn == m.ifn && x.key == m.akey) then s
  else { s with markers := s.markers ++ [⟨m.sender, m.ifn, m.akey, m.seq⟩] }

/-- Entries that an interface's completion ring can take; one of no slots takes all, and writes none (R411, R412). -/
def Iface.ringFree (f : Iface) : Nat :=
  if f.csl = 0 then 2 ^ 32 else f.csl.toNat - (f.ctr.toNat + 2 ^ 32 - f.chd.toNat) % 2 ^ 32
/-- Does an entry of interface n find its ring full, and the port's queue of 1024 for such entries too (R411)? -/
def Port.ceqFull (q : Port) (n : Nat) : Bool :=
  let count (i : Nat) : Nat := (q.ceq.filter (fun e => e.1 == i)).length
  let free (i : Nat) : Nat := (tget Iface.init q.ifs i).ringFree
  decide (free n ≤ count n) &&
    decide (1024 ≤ (rising (q.ceq.map Prod.fst)).foldl (fun (a : Nat) i => a + (count i - free i)) 0)

/-- The entry of a completion ring for a host message with IRQ (R411). -/
def State.hostDone (s : State) (m : Msg) (status : Nat) (reason : BitVec 8) : State :=
  if m.host && m.irq && idPkg m.sender == s.pkg then
    let n := (m.sender.extractLsb' 0 6).toNat
    let p := s.port n
    let w : Word := (0 : BitVec 16) ++ reason ++ BitVec.ofNat 8 status ++ m.seq
    if !p.ceqFull m.ifn.toNat then s.setPort n { p with ceq := p.ceq ++ [(m.ifn.toNat, w)] }
    else
      let f := tget Iface.init p.ifs m.ifn.toNat
      s.setPort n { p with ifs := tset p.ifs m.ifn.toNat { f with clost := satInc32 f.clost } }
  else s

/-- Every pending message of an entry is refused with reason 9: provisional ones as their answer, the
others after acceptance. -/
def State.refuseAll (s : State) (k : AKey) : State :=
  match s.entry? k with
  | none => s
  | some e =>
    let s := s.setEntry { e with pend := [], prov := false }
    e.pend.foldl (fun (s : State) m =>
      if e.prov then (s.jobOut m.part m.job 1).answer m (.refuse 9) else s.lateRefuse e.home m 9) s

/-! ## Frames (R44, R316, R317) -/

/-- FRLO and the end of the region in effect (R316). -/
def Core.frLo (c : Core) : Nat := (c.framecfg.extractLsb' 0 13).toNat
def Core.frHi (c : Core) : Nat :=
  min (c.framecfg.extractLsb' 16 13).toNat (poolB1 c.poolcfg - poolB0 c.poolcfg)

/-- The lowest line of the region that starts a free run of len lines, while fewer than 64 frames are live. -/
def Core.firstFit (c : Core) (len : Nat) : Option Nat :=
  if 64 ≤ c.frames.length then none
  else
    let cand := c.frLo :: c.frames.map (fun f => f.line + f.len)
    let fits (a : Nat) : Bool := decide (c.frLo ≤ a) && decide (a + len ≤ c.frHi) &&
      c.frames.all (fun f => decide (a + len ≤ f.line) || decide (f.line + f.len ≤ a))
    (rising (cand.filter fits)).head?

/-! ## Placement (R315) -/

/-- Index of an element of a list. -/
def indexIn (l : List Nat) (x : Nat) : Option Nat :=
  (List.range l.length).find? (fun i => l.getD i 0 == x)

/-- The core after the excluded one in ascending number, wrapping. -/
def coreAfter (l : List Nat) (x : Nat) : Option Nat :=
  match indexIn l x with
  | some i => l[(i + 1) % l.length]?
  | none => l.head?

/-- The core with the fewest live frames, the lowest of several. -/
def State.fewest (s : State) (l : List Nat) : Option Nat :=
  l.foldl (fun (a : Option Nat) c => match a with
    | none => some c
    | some b => if (s.core c).frames.length < (s.core b).frames.length then some c else some b) none

/-- The core that the class's policy chooses for a key, excluding a failed core. -/
def State.chooseCore (s : State) (k : AKey) (d : BitVec 768) (excl : Option Nat) : Option Nat :=
  let cores := s.partCores k.part
  let hash : Option Nat :=
    if cores.isEmpty then none else cores[(k.hash.extractLsb' 0 28).toNat % cores.length]?
  let avoid (c : Option Nat) : Option Nat :=
    if c.isSome && c == excl then (excl.bind (coreAfter cores)) else c
  match cdPol d with
  | 0 => avoid hash
  | 1 =>
    let clus := s.partClusters k.part
    let sel := (List.range clus.length).filter (fun i => (cdParg d).getLsbD (i % 32))
    let mine := (sel.flatMap (fun i => (List.range 8).map (fun c => 8 * clus.getD i 0 + c))).filter
      (fun c => some c != excl)
    match s.fewest (mine.filter (fun c => ((s.core c).firstFit (cdLines d)).isSome)) with
    | some c => some c
    | none => s.fewest mine
  | 2 =>
    let c := cores[(cdParg d).toNat]?
    if c.isSome && c == excl then
      (cores.filter (fun x => some (clusOfCore x) == c.map clusOfCore && some x != excl)).head?
    else c
  | _ =>
    match (s.slice k.slice).sticky.find? (fun x => x.key == k) with
    | some x => if cores.contains x.core then avoid (some x.core) else avoid hash
    | none => avoid hash

/-- A lookup in the sticky cache uses the record (R315). -/
def State.stickyUse (s : State) (k : AKey) : State :=
  let sl := s.slice k.slice
  match sl.sticky.find? (fun x => x.key == k) with
  | some x => s.setSlice k.slice { sl with sticky := x :: sl.sticky.filter (fun x => x.key != k) }
  | none => s

/-- Every retirement records its core in the slice's sticky cache of 4096 entries (R315). -/
def State.stickyPut (s : State) (k : AKey) (core : Nat) : State :=
  let sl := s.slice k.slice
  s.setSlice k.slice { sl with
    sticky := (⟨k, core⟩ :: sl.sticky.filter (fun x => x.key != k)).take 4096 }

/-! ## Activation (R317, R319, R376, R424) -/

/-- Is a core's cluster running the partition, and not switching it out? -/
def State.runsCore (s : State) (p core : Nat) : Bool :=
  s.runs (clusOfCore core) == some p && !(s.clus (clusOfCore core)).switching

/-- Place the frame of an activation on its chosen core, or wait for room there. -/
def State.tryPlace (s : State) (k : AKey) : State :=
  match s.entry? k, s.cls? k.part k.cls with
  | some e, some d =>
    let c := s.core e.core
    match c.firstFit (cdLines d) with
    | some line =>
      let s := s.setCore e.core { c with
        frames := c.frames ++ [⟨line, cdLines d, k, [], []⟩], wantRoom := c.wantRoom.filter (fun x => x != k) }
      s.setEntry { e with frame := line, wait := .fetch, desc := d }
    | none =>
      let s := s.setEntry { e with wait := .room }
      if c.wantRoom.contains k then s else s.setCore e.core { c with wantRoom := c.wantRoom ++ [k] }
  | _, _ => s

/-- Begin the activation on the chosen core once its cluster runs the partition. -/
def State.place (s : State) (k : AKey) : State :=
  match s.entry? k with
  | none => s
  | some e => if s.runsCore k.part e.core then s.tryPlace k else s.setEntry { e with wait := .switch }

/-- R313, activate: choose a core and a frame. A core that a restart excludes stays excluded until the activation
is done (R315, R328). -/
def State.activate (s : State) (k : AKey) : State :=
  match s.entry? k, s.cls? k.part k.cls with
  | some e, some d =>
    let s := if cdPol d = 3 then s.stickyUse k else s
    let e := { e with st := .activating, busy := false, cur := none, noWb := false, dest := none,
                      acked := false, sent := false,
                      asid := match e.pend with
                        | m :: _ => m.asid
                        | [] => e.asid }
    match s.chooseCore k d e.excl with
    | some c => (s.setEntry { e with core := c }).place k
    | none => s.setEntry { e with wait := .noCore }
  | _, _ => s

/-- Activations of a partition that waited for a cluster or a core look again (R376). -/
def State.replace_ (s : State) (p : Nat) : State :=
  s.dir.foldl (fun (s : State) e =>
    if e.key.part = p ∧ e.st = .activating then
      match e.wait with
      | .switch => s.place e.key
      | .noCore => s.activate e.key
      | .room | .fetch | .page | .carried => s
    else s) s

/-- Free the frame of a key; each frame freed goes to the oldest waiting activations that fit (R424). -/
def State.freeFrame (s : State) (core : Nat) (k : AKey) : State :=
  let c := s.core core
  let s := s.setCore core { c with
    frames := c.frames.filter (fun f => f.owner != k), wantRoom := c.wantRoom.filter (fun x => x != k) }
  c.wantRoom.foldl (fun (s : State) x =>
    match s.entry? x with
    | some e => if e.st = .activating ∧ e.wait = .room ∧ e.core = core then s.tryPlace x else s
    | none => s) s

/-- The address of a state block (R319). -/
def blockAddr (d : BitVec 768) (k : Word) : Word :=
  cdSmap d + k * BitVec.ofNat 64 (192 * cdLines d)

/-- What the check of a state block finds. -/
inductive Block where
  | ok (segs : List Seg)
  | away
  | bad (addr : Word)
  /-- Sectors that go to another package wait for room for their answers (R398). -/
  | room
deriving DecidableEq, Repr

/-- The agent of an entry's fetch and write-back: the quill of the core's cluster. -/
def State.blockAgent (s : State) (e : Entry) : BitVec 32 := agentId s.pkg (.quill (clusOfCore e.core))

/-- The context of the accesses to an entry's state block: for the partition, at privilege S (R319). -/
def State.blockCtx (s : State) (e : Entry) : Ctx :=
  ⟨s.blockAgent e, e.core, some e.key.part, e.asid, privS, none, [], 0⟩

/-- Check the state block of an entry for reading or writing. A block that lies in a core's or in the device's
registers is not taken (log 20). -/
def State.blockCheck (s : State) (e : Entry) (d : BitVec 768) (acc : Acc) : State × Block :=
  let a := blockAddr d e.key.key
  let x := s.blockCtx e
  match s.check x acc .g a (192 * cdLines d) with
  | (s, .ok segs) =>
    if segs.all (fun g => !g.tgt.isReg && (acc != .read || s.isPeer g.pa || !s.poisonSeg x g)) then (s, .ok segs)
    else (s, .bad a)
  | (s, .wait) => (s, .away)
  | (s, .fail _ _ x) => (s, .bad (BitVec.ofNat 64 x))

/-- First byte of a frame in the physical space. -/
def State.framePa (s : State) (core line : Nat) : Nat := mkPa s.pkg (coreBase core + 192 * line)

/-- A run cut into its sectors. -/
def Seg.cut (g : Seg) : List Seg :=
  (sectorsOf g.pa g.len).map (fun a =>
    let lo := max a g.pa
    let hi := min (a + 48) (g.pa + g.len)
    ⟨g.va + (lo - g.pa), g.tgt.plus (lo - g.pa), hi - lo⟩)

/-- The parts of a state block that lie in another package are loaded from there, sector by sector: their answers once
all have come (R133, R360). -/
def State.blockPeers (s : State) (e : Entry) (segs : List Seg) : State × Option (List PeerAns) :=
  let x := s.blockCtx e
  s.peerAll x.ag ⟨e.key.part, e.asid, none⟩ 2 (fun g => [BitVec.ofNat 8 g.len]) ((s.peerSegs segs).flatMap Seg.cut)

/-- The bytes of a state block, those of peers from their answers. -/
def State.blockBytes (s : State) (x : Ctx) : List Seg → List PeerAns → List Byte
  | [], _ => []
  | g :: gs, ans =>
    if s.isPeer g.pa then
      let n := g.cut.length
      (g.cut.zip ans).flatMap (fun p => (List.range p.1.len).map (fun i => (match p.2 with
        | .reply d => d.getD i 0
        | .ack | .refuse _ => 0))) ++ s.blockBytes x gs (ans.drop n)
    else s.loadBytes x.ag (s.cacheTag x 0 g) g.pa g.len ++ s.blockBytes x gs ans

/-- R319: the state block's bytes go into the frame; the loads form an acquire at pkg, at pod where the actor
comes from another package (R326). -/
def State.fetchBlock (s : State) (e : Entry) (segs : List Seg) (ans : List PeerAns) : State :=
  let x := s.blockCtx e
  let s := s.acquire x.ag (if e.src.isSome then 7 else 6)
  let bytes := s.blockBytes x segs ans
  let a := s.framePa e.core e.frame
  let s := s.wrBytes a bytes
  { s with poison := s.poison.filter (fun x => decide (x < a) || decide (a + bytes.length ≤ x)) }

/-- The frame of a key on a core. -/
def Core.frameOf (c : Core) (k : AKey) : Option Frame := c.frames.find? (fun f => f.owner == k)

/-- The byte of the runs at an offset. -/
def segAt : List Seg → Nat → Nat
  | [], _ => 0
  | g :: gs, o => if o < g.len then g.pa + o else segAt gs (o - g.len)

/-- A sector of a state block is written, at its owner where another package owns it (R360); false while there is no
room for the answer (R398). -/
def State.blockPut (s : State) (e : Entry) (segs : List Seg) (sec : Nat) (bs : List Byte) : State × Bool :=
  let a := segAt segs (48 * sec)
  if s.isPeer a then
    if s.answerRoom (paPkg a) then
      ((s.sendPeer (s.blockAgent e) 0 (BitVec.ofNat 64 a) a 1 (nibsOf a bs) (nibData (2 * a) (nibsOf a bs))
        ⟨e.key.part, e.asid, none⟩).1, true)
    else (s, false)
  else (s.devWrite a bs, true)
/-- Sectors are written, in order, as far as there is room; those that are left. -/
def State.putSectors (s : State) (e : Entry) (segs : List Seg) :
    List (Nat × List Byte) → State × List (Nat × List Byte)
  | [] => (s, [])
  | x :: rest =>
    match s.blockPut e segs x.1 x.2 with
    | (s', true) => s'.putSectors e segs rest
    | (_, false) => (s, x :: rest)

/-- The sectors of a frame that have been written since the last commit, or, with `all`, since the activation. -/
def Frame.written (f : Frame) (all : Bool) : List Nat := rising (if all then f.dirty ++ f.saved else f.dirty)
/-- The marks of a frame once the sectors but those left have been written: they pass to those that commits have
written. -/
def Frame.wrote (f : Frame) (all : Bool) (left : List Nat) : Frame :=
  { f with dirty := left, saved := if all then [] else rising ((f.dirty ++ f.saved).filter (fun n => !left.contains n)) }

/-- Write those sectors of the frame to the block, as a release at pkg (R319, R269); false while some are left. -/
def State.writeBlock (s : State) (e : Entry) (segs : List Seg) (all : Bool) : State × Bool :=
  match (s.core e.core).frameOf e.key with
  | none => (s, true)
  | some f =>
    let base := s.framePa e.core f.line
    let (s, left) := s.putSectors e segs ((f.written all).map (fun n => (n, s.rdBytes (base + 48 * n) 48)))
    (s.updCore e.core (fun c => { c with
      frames := c.frames.map (fun (g : Frame) =>
        if g.owner = e.key then g.wrote all (left.map Prod.fst) else g) }), left.isEmpty)

/-! ## Failure of an entry (R313, R389) -/

/-- The agent ID with which a core reports (R311). -/
def State.coreAgent (s : State) (core : Nat) : BitVec 32 := coreId s.pkg core 0 0 0

/-- The entry becomes FAILED: its frame is freed, its pending messages are refused, and a record is
written with cause ACTOR_FAILED. -/
def State.failEntry (s : State) (k : AKey) (sub : Nat) (addr : Word) : State :=
  match s.entry? k with
  | none => s
  | some e =>
    let s := (s.freeFrame e.core k).refuseAll k
    let s := s.setEntry { e with st := .failed, busy := false, pend := [], prov := false, cur := none }
    s.putRecord (some k.part) { (default : ERec) with
      cause := 0x25, sub, part := k.part, agent := s.coreAgent e.core, key := k.key, cls := k.cls,
      info0 := BitVec.ofNat 64 (e.core % 4096 * 2 ^ 32 + e.frame % 8192), info1 := addr,
      job := match e.cur with
        | some m => m.job
        | none => 0,
      sel := match e.cur with
        | some m => m.sel
        | none => 0 }

/-! ## Delivery (R285, R313, R363, R375) -/

/-- PERM lets a message run on cluster j (R375). -/
def State.permits (s : State) (m : Msg) (j : Nat) : Bool :=
  let rx := (s.clus j).perm[4]
  let here := idPkg m.sender == s.pkg
  (!m.host || rx.getLsbD 62) && (here || rx.getLsbD 63) &&
    (m.host || !here ||
      ((s.clus (idCluster m.sender)).perm.toList.getD (j / 64) 0).getLsbD (j % 64))

/-- Is a class frozen (R325)? -/
def State.isFrozen (s : State) (p : Nat) (c : BitVec 16) : Bool :=
  (s.part p).frozen.any (fun f => f.1 == c.toNat)

/-- A tape is current: its epoch and class version are (R300). -/
def State.tapeCurrent (s : State) (p : Nat) (d : BitVec 768) (x : Tape) : Bool :=
  x.epoch == (s.part p).epoch && x.cver == cdVer d

/-- The item that a delivery makes, after the tape lookup of R285. One that follows a failed replay does not replay
(R301); it is looked up as the others are. -/
def State.makeItem (s : State) (k : AKey) (d : BitVec 768) (m : Msg) (noReplay : Bool) (core : Nat) :
    State × Item :=
  let it : Item := ⟨m, k, (s.cycle core).toNat, false, false, 0, noReplay,
    ((s.part k.part).tapeCtl? k.cls m.sel 0).seals⟩
  if !cdTapeable d || cdDual d then (s, it)
  else
    match (s.part k.part).tape? k.cls m.sel 0 with
    | none => (s, { it with record := true })
    | some x =>
      if s.tapeCurrent k.part d x then (s, { it with replay := !noReplay })
      else (s.updPart k.part (fun p => p.dropTape k.cls m.sel 0), { it with outc := 5 })

/-- Can a message for a LIVE entry be passed to its core at once, or refused there (R312, R313, R363)? -/
def State.canDeliver (s : State) (e : Entry) (m : Msg) : Bool :=
  !s.isFrozen e.key.part e.key.cls &&
    (!s.permits m (clusOfCore e.core) || decide ((s.core e.core).places.length < 64))

/-- Deliver the head of an entry's pending queue, for as long as heads are refused. -/
def State.deliver (s : State) (k : AKey) : Nat → State
  | 0 => s
  | n + 1 =>
    match s.entry? k, s.cls? k.part k.cls with
    | some e, some d =>
      if e.st ≠ .live ∨ e.busy ∨ s.isFrozen k.part k.cls then s
      else
        match e.pend with
        | [] => s
        | m :: rest =>
          if !s.permits m (clusOfCore e.core) then
            ((s.setEntry { e with pend := rest, rdc := 0 }).lateRefuse e.home m 8).deliver k n
          else
            let c := s.core e.core
            if 64 ≤ c.places.length then
              if c.refused.contains k then s else s.setCore e.core { c with refused := c.refused ++ [k] }
            else
              let (s, it) := s.makeItem k d m e.noReplay e.core
              let s := s.setEntry { e with pend := rest, busy := true, cur := some m, noReplay := false }
              s.updCore e.core (fun c => { c with places := c.places ++ [it] })
    | _, _ => s
/-- Deliver what an entry holds. -/
def State.deliverAll (s : State) (k : AKey) : State :=
  match s.entry? k with
  | some e => s.deliver k (e.pend.length + 1)
  | none => s

/-! ## Forwarding (R313, R327, R433) -/

/-- Forward one message to a package, once its sender's accesses before it stand at the pod (R123); false while they do
not. With no path it is refused with reason 4. -/
def State.forward (s : State) (k : AKey) (m : Msg) : State × Bool :=
  match s.entry? k with
  | none => (s, true)
  | some e =>
    match s.upTo m.sender m.no 7 with
    | (s, false) => (s, false)
    | (s, true) =>
      let f : Flit := { (default : Flit) with
        sagent := (s.pkg : BitVec 9) ++ (0 : BitVec 23), dpkg := e.fpkg, part := BitVec.ofNat 7 k.part,
        vl := 2, typ := 0x08, msgs := [{ m with fwd := true, via := s.pkg }] }
      match s.emit f with
      | (s, true) => (s.setEntry { e with fwd := e.fwd ++ [m] }, true)
      | (s, false) => (s.lateRefuse s.pkg m 4, true)
/-- Forward messages in order, as far as they can go; the others stay in the queue. -/
def State.forwardList (s : State) (k : AKey) : List Msg → State
  | [] => s
  | m :: rest =>
    match s.forward k m with
    | (s, true) => s.forwardList k rest
    | (s, false) => s.updEntry k (fun e => { e with pend := m :: rest })
/-- Drain a FORWARD entry's queue, unless it is moving or its head waits for a resend. -/
def State.forwardAll (s : State) (k : AKey) : State :=
  match s.entry? k with
  | some e =>
    if e.st ≠ .forward ∨ e.busy ∨ 0 < e.parked ∨ e.resent ∨ s.isFrozen k.part k.cls then s
    else (s.setEntry { e with pend := [] }).forwardList k e.pend
  | none => s

/-! ## The source of a move (R326) -/

/-- Messages of a key that its home has forwarded here and that have not reached the slice. -/
def State.comingFor (s : State) (k : AKey) : Bool :=
  s.flights.any (fun f => f.msg.akey == k) ||
    s.links.any (fun l => l.2.buf.toList.flatten.any (fun f => f.msgs.any (fun m => m.akey == k)))

/-- The accesses before each message, of its sender, stand at the pod (R123). -/
def State.upToAll (s : State) (l : List Msg) : State × Bool :=
  l.foldl (fun (r : State × Bool) m =>
    let (s, b) := r.1.upTo m.sender m.no 7
    (s, r.2 && b)) (s, true)
/-- R326 step 4: the sectors written since the activation and the pending queue go to the destination, once the
MOVING-ACK and every message before it have come, and the accesses before each message are performed; a source that is
home waits for neither of the first two. -/
def State.trySend (s : State) (k : AKey) : State :=
  match s.entry? k with
  | none => s
  | some e =>
    match e.dest, (s.core e.core).frameOf k with
    | some dst, some f =>
      if e.st ≠ .retiring ∨ !e.acked ∨ e.sent ∨ (e.home ≠ s.pkg ∧ s.comingFor k) then s
      else
        match s.upToAll e.pend with
        | (s, false) => s
        | (s, true) =>
          let base := s.framePa e.core f.line
          let secs := (f.written true).map (fun n => (n, s.rdBytes (base + 48 * n) 48))
          match s.emit { (default : Flit) with
              sagent := (s.pkg : BitVec 9) ++ (0 : BitVec 23), dpkg := BitVec.ofNat 9 dst,
              part := BitVec.ofNat 7 k.part, vl := 3, typ := 0x15, key := k, home := e.home, secs,
              msgs := e.pend } with
          | (s, true) =>
            e.pend.foldl (fun (s : State) m => s.jobOut m.part m.job 1) (s.setEntry { e with sent := true, pend := [] })
          | (_, false) => s
    | _, _ => s

/-! ## A message at its slice (R313, R433) -/

/-- Does a partition exist, and is it not frozen (R308, R379)? -/
def State.partLive (s : State) (p : Nat) : Bool :=
  let st := ((s.part p).pstate.extractLsb' 0 3).toNat
  st == 1 || st == 2 || st == 3

/-- A message joins the pending queue of an entry, where `now` says that it leaves it at once without the need of a
slot (R312), or if a slot is free. -/
def State.enqueue (s : State) (e : Entry) (m : Msg) (now : Bool) : State :=
  if !now && !s.slotFree e.key.slice then s.retryMsg m
  else
    let s := s.setEntry { e with pend := e.pend ++ [s.slotted e.key.slice m] }
    if e.prov then s else s.answer m .accept

/-- A message for an entry that starts an activation: PROV := 1. -/
def State.startFor (s : State) (k : AKey) (m : Msg) : State :=
  match s.entry? k with
  | none => s
  | some e =>
    (s.setEntry { e with imp := false, prov := true, pend := [s.slotted k.slice m], excl := none,
                         home := if m.fwd then m.via else s.pkg }).activate k

/-- R313's rows for a message. -/
def State.dirMessage (s : State) (m : Msg) : State :=
  let k := m.akey
  let s := s.touch k
  match s.entry? k with
  | none =>
    if !s.slotFree k.slice then s.retryMsg m
    else
      match s.alloc k .absent with
      | none => s.retryMsg m
      | some s => s.startFor k m
  | some e =>
    let ready := !e.busy && e.pend.isEmpty
    match e.st with
    | .absent => if s.slotFree k.slice then s.startFor k m else s.retryMsg m
    | .activating | .retiring => s.enqueue e m false
    | .live =>
      let s := s.enqueue e m (ready && s.canDeliver e m)
      if ready then s.deliverAll k else s
    | .forward =>
      let s := s.enqueue e m false
      if ready then s.forwardAll k else s
    | .failed => (s.jobOut m.part m.job 1).answer m (.refuse 9)

/-- The marker that stands for a message's sender, interface and key (R320). -/
def State.marker? (s : State) (m : Msg) : Option Marker :=
  s.markers.find? (fun x => x.sender == m.sender && x.ifn == m.ifn && x.key == m.akey)
def State.dropMarker (s : State) (x : Marker) : State :=
  { s with markers := s.markers.filter (fun y => y != x) }

/-- A message joins the hold queue of its class (R325). -/
def State.holdMsg (s : State) (slice : Nat) (m : Msg) : State :=
  match (s.part m.part).frozen.find? (fun f => f.1 == m.cls.toNat) with
  | some (c, f) =>
    if s.slotFree slice then
      let h := s.slotted slice m
      (s.updPart m.part (fun p => { p with
        frozen := tset p.frozen c { f with hold := f.hold ++ [(slice, h)] } })).answer m .accept
    else s.retryMsg m
  | none => s

/-- A message whose marker has been seen to: its class must be installed and have the handler (R265, R268). -/
def State.classMsg (s : State) (m : Msg) : State :=
  match s.cls? m.part m.cls with
  | none => (s.jobOut m.part m.job 1).answer m (.refuse 7)
  | some d =>
    if 16 ≤ m.sel.toNat ∨ cdEntry d m.sel.toNat = 0xFFFFFF then (s.jobOut m.part m.job 1).answer m (.refuse 6)
    else s.dirMessage m

/-- A message reaches its slice (R265, R268, R283, R308, R320, R325). The message that a marker names clears it,
whatever becomes of it; while a marker stands for another, the message is answered RETRY. An absent or frozen partition
refuses it first: which of the two comes first is the model's choice (log 53). -/
def State.arrive_ (s : State) (slice : Nat) (m : Msg) : State :=
  let x := s.marker? m
  let other := match x with
    | some x => x.seq != m.seq
    | none => false
  let s := match x with
    | some x => if x.seq = m.seq then s.dropMarker x else s
    | none => s
  if !s.partLive m.part then
    -- a message of another package is not counted here (R284)
    (if m.via == s.pkg then s.jobOut m.part m.job 1 else s).answer m (.refuse 3)
  else if other then s.retryMsg m
  else if ((s.part m.part).job m.job).canc then
    ((s.jobDrop m.part m.job).answer m .accept).hostDone m 1 0
  else if s.isFrozen m.part m.cls then s.holdMsg slice m
  else s.classMsg m

end Machine

end Sys2Proof
end

