-- ==== Sys2Proof/Machine/UnitEnd.lean ====
section
/-! DEFINITION. How a unit of work ends or fails (R275, R282, R328, R329, R371, R373, R386-R388, R392). -/

namespace Sys2Proof.Machine

/-- The commands of a queue that has lost its unit: one that has begun goes on, the rest are discarded
(R259, R373). -/
def Queue.orphan (q : Queue) : Queue :=
  match q.stopped with
  | some _ => Queue.init
  | none => { q with cmds := (q.cmds.take 1).filter Cmd.begun }

/-- Messages of a run that were held until ADONE are discarded (R269, R373). -/
def State.dropHeld (s : State) (t uid : Nat) : State :=
  let mine (o : OutMsg) : Bool := o.st == .held && o.msg.uid == uid
  let l := (s.thr t).outq
  let s := (l.filter mine).foldl (fun (s : State) o => s.jobOut o.msg.part o.msg.job 1) s
  if l.any mine then s.updThr t (fun h => { h with outq := l.filter (fun o => !mine o) }) else s

/-- The thread becomes free: guard slots EMPTY (R37), the seed of R218; of its accesses in flight only its
stores and what its atomics store remain. -/
def State.freeThread (s : State) (t : Nat) : State :=
  -- the frame of a shadow run goes with it (R392)
  let s := match (s.thr t).unit with
    | some u => (match u.dual with
      | some d => if d.shadow then s.freeFrame (coreOf t) u.ekey else s
      | none => s)
    | none => s
  let s := s.updThr t (fun h => { h with
    unit := none, waiting := none, recording := none, freed := s.time (coreOf t), slots := Vector.replicate 16 .empty,
    slotsClosed := false, status := withSeed h.status (endSeed h.lfsr) })
  let id := agentId s.pkg (.thread t)
  let a := s.agent id
  if a.iq.isEmpty then s
  else s.setAgent id { a with iq := a.iq.filterMap (fun e => match e with
    | .store st => some (.store st)
    | .atom no _ va pa n rel op => some (.atom no (.s .zr 0) va pa n rel op)
    | .load .. | .peer .. | .got .. => none) }

/-- What the end of a launch unit or a forked task does to its counters (R275, R282). -/
def State.unitCounters (s : State) (t : Nat) (u : UnitInfo) : State :=
  let id := agentId s.pkg (.thread t)
  match u.kind with
  | .launch => s.launchCount u.part ((s.thr t).launch.setWidth 32) id (coreOf t) (s.thr t).launch 1 0
  | .task =>
    s.counterAdd ⟨id, coreOf t, u.part, u.asid, BitVec.ofNat 64 u.counter, 0, (s.thr t).launch, (s.thr t).job, 1,
      s.serial, true⟩
  | .handler | .firmware => s

/-- Commands that have not begun are discarded, and held messages (R371, R373). -/
def State.orphanThread (s : State) (t : Nat) : State :=
  let s := match (s.thr t).unit with
    | some u => s.dropHeld t u.uid
    | none => s
  s.updThr t (fun h => { h with
    q := Vector.ofFn (fun i => (h.q[i]).orphan),
    status := withEfp (withCp h.status false) false })

/-- Does a redelivery follow the failure of a run of a RESTARTABLE class (R328, R388)? -/
def State.redelivers (s : State) (k : AKey) : Bool :=
  (match s.cls? k.part k.cls with | some d => cdRestartable d | none => false) &&
  (match s.entry? k with | some e => decide (e.rdc < 3) | none => false)

/-! ## The watchdog (R372) -/

/-- The budget of a unit; 0 is none. -/
def State.budget (s : State) (u : UnitInfo) : Nat :=
  let ub := (s.part u.part).unitbudget.toNat % 2 ^ 32
  match u.kind with
  | .handler =>
    match s.cls? u.ekey.part u.ekey.cls with
    | some d => if cdBudget d = 0 then ub else cdBudget d
    | none => ub
  | .launch | .task => ub
  | .firmware => 0

/-- Cycles that a unit's watchdog has counted at a time of its core. -/
def UnitInfo.counted (u : UnitInfo) (now : Nat) : Nat :=
  match u.start with
  | none => 0
  | some x => now - x - u.halted - (match u.since with
      | some y => now - y
      | none => 0)
/-- Has the watchdog of a unit expired at a time of its core: has it counted its budget (log 49)? A budget of 0 disables
it (R372). -/
def State.expired (s : State) (u : UnitInfo) (now : Nat) : Bool :=
  s.budget u != 0 && decide (s.budget u ≤ u.counted now)

/-- Has the watchdog of thread t's unit expired, and has its ADONE not entered step 3 (R372, R373)? Such a thread does
nothing more than fail. -/
def State.overdue (s : State) (t : Nat) : Bool :=
  match (s.thr t).unit with
  | some u => !u.step3 && s.expired u (s.time (coreOf t))
  | none => false

/-- R371, R329, R328: the unit of thread t fails; `hw` marks a hardware error of a run. -/
def State.failUnit (s : State) (t : Nat) (r : ERec) (hw : Bool) : State :=
  match (s.thr t).unit with
  | none => s
  | some u =>
    let s := s.putRecord u.ring { r with rd := hw && u.kind == .handler && s.redelivers u.ekey }
    let s := ((s.abortRec t 3).orphanThread t).unitCounters t u
    let s := if u.kind = .handler then
        { s with notices := s.notices ++ [⟨if hw then (.hwError false (coreOf t)) else .runFailed false u.retire u.export_, u.ekey⟩] } else s
    let s := match u.dual with
      | some d => (s.orphanThread d.other).freeThread d.other
      | none => s
    s.freeThread t

/-- A hardware error of the unit of thread t: HWERR by sub-cause, or POISON at an address (R348, R386). -/
def State.hwErr (s : State) (t cause sub : Nat) (info0 : Word) : State :=
  s.failUnit t { s.threadRec t cause sub with info0 } true

end Sys2Proof.Machine
end

