-- ==== Sys2Proof/Machine/Control.lean ====
section
/-! DEFINITION. Commands that registers start: cancellation, translation invalidation, migration, pool and
frame regions, debug halts, balancing, debug lookups, the module semaphore, outbound queues and packet release
(R42, R267, R283, R316, R321, R322, R353, R356, R357, R381, R383, R391, R410, R414, R415). -/

namespace Sys2Proof.Machine

/-! ## Cancellation (R283) -/

/-- Cancel the units of a launch that are not dispatched. -/
def State.cancelLaunch (s : State) (p : Nat) (id : BitVec 32) : State :=
  match (s.part p).launch? id with
  | none => s
  | some l =>
    let n := l.units - l.next
    let s := s.setLaunch p (id.toNat % 4096) { l with next := l.units }
    if n = 0 then s else s.launchCount p id l.ag (idCore l.ag) (id.setWidth 64) 0 n

/-- A message that carries a job of a partition. -/
def Msg.isJob (m : Msg) (p : Nat) (j : BitVec 16) : Bool := m.part == p && m.job == j

/-- A withdraw notice for a dropped parked message goes to its home slice, with its IFN and SEQ (R321, R322). -/
def State.withdraw_ (s : State) (home : BitVec 9) (k : AKey) (sender : BitVec 32) (ifn : BitVec 6)
    (seq : BitVec 32) : State :=
  if home = s.pkg then s.dropMarker ⟨sender, ifn, k, seq⟩
  else (s.emit { (default : Flit) with
    sagent := sender, dpkg := home, part := BitVec.ofNat 7 k.part, vl := 3, typ := 0x18, key := k,
    data := ifn.setWidth 8 :: bytesOfNat 4 seq.toNat }).1

/-- Drop the messages of a job that have not left, or are parked, from an outbound queue. -/
def State.dropOut (s : State) (p : Nat) (j : BitVec 16) (l : List OutMsg) : State × List OutMsg :=
  l.foldl (fun (a : State × List OutMsg) o =>
    if !(Msg.isJob o.msg p j) then (a.1, a.2 ++ [o])
    else
      match o.st with
      | .sent => (a.1, a.2 ++ [o])
      | .parked _ =>
        ((a.1.withdraw_ o.pkg o.msg.akey o.msg.sender o.msg.ifn o.msg.seq).jobDrop p j, a.2)
      | .held | .waiting => (a.1.jobDrop p j, a.2)) (s, [])

/-- Drop the messages of a job from the outbound queues of threads. -/
def State.dropOuts (s : State) (p : Nat) (j : BitVec 16) : State :=
  s.threads.foldl (fun (s : State) (e : Nat × Thread) =>
    if e.2.outq.isEmpty then s
    else
      let (s, l) := s.dropOut p j e.2.outq
      s.updThr e.1 (fun h => { h with outq := l })) s

/-- Drop the messages of a job from an interface's buffer. -/
def State.dropBuf (s : State) (p : Nat) (j : BitVec 16) (l : List BufPkt) : State × List BufPkt :=
  l.foldl (fun (a : State × List BufPkt) o =>
    if !(Msg.isJob o.msg p j) then (a.1, a.2 ++ [o])
    else
      match o.st with
      | .sent => (a.1, a.2 ++ [o])
      | .parked _ =>
        (((a.1.withdraw_ o.pkg o.msg.akey o.msg.sender o.msg.ifn o.msg.seq).jobDrop p j).hostDone o.msg 1 0,
          a.2)
      | .held | .waiting => ((a.1.jobDrop p j).hostDone o.msg 1 0, a.2)) (s, [])

/-- Drop the messages of a job from the packet buffers. -/
def State.dropBufs (s : State) (p : Nat) (j : BitVec 16) : State :=
  s.ports.foldl (fun (s : State) (e : Nat × Port) =>
    e.2.ifs.foldl (fun (s : State) (f : Nat × Iface) =>
      if f.2.buf.isEmpty then s
      else
        let (s, l) := s.dropBuf p j f.2.buf
        let q := s.port e.1
        let i : Iface := { (tget Iface.init q.ifs f.1) with
          buf := l, acc := f.2.acc + BitVec.ofNat 64 (f.2.buf.length - l.length) }
        s.setPort e.1 { q with ifs := tset q.ifs f.1 i }) s) s

/-- Drop the messages of a job from the pending and hold queues; provisional ones are answered ACCEPT. -/
def State.dropPending (s : State) (p : Nat) (j : BitVec 16) : State :=
  let s := s.dir.foldl (fun (s : State) e =>
    let gone := e.pend.filter (fun m => Msg.isJob m p j)
    if gone.isEmpty then s
    else
      let s := s.updEntry e.key (fun e => { e with pend := e.pend.filter (fun m => !(Msg.isJob m p j)) })
      gone.foldl (fun (s : State) m =>
        let s := (s.jobDrop p j).hostDone m 1 0
        if e.prov then s.answer m .accept else s) s) s
  (s.part p).frozen.foldl (fun (s : State) (f : Nat × Freeze) =>
    let gone := f.2.hold.filter (fun m => Msg.isJob m.2 p j)
    let s := gone.foldl (fun (s : State) m => (s.jobDrop p j).hostDone m.2 1 0) s
    let g : Freeze := { f.2 with hold := f.2.hold.filter (fun m => !(Msg.isJob m.2 p j)) }
    s.updPart p (fun q => { q with frozen := tset q.frozen f.1 g })) s

/-- R283: cancel a job. False when the ID names nothing live. -/
def State.cancelJob (s : State) (p : Nat) (j : BitVec 16) : State × Bool :=
  let live := (s.part p).launches.filter (fun e => e.2.live && e.2.job == j)
  let any := (s.part p).jobLive j
  let s := s.updJob p j (fun x => { x with canc := true })
  let s := live.foldl (fun (s : State) (e : Nat × Launch) =>
    s.cancelLaunch p (e.2.gen ++ BitVec.ofNat 12 e.1)) s
  (((s.dropOuts p j).dropBufs p j).dropPending p j, any)

/-! ## Translation invalidation (R353) -/

/-- A cached leaf that a command names: of a partition, an ASID or every ASID, a page or every page. -/
def Leaf.named (f : Leaf) (p : Nat) (asid : Option (BitVec 16)) (va : Option Nat) : Bool :=
  f.part == p && (match asid with | some a => f.asid == a | none => true) &&
    (match va with | some v => decide (f.base ≤ v) && decide (v < f.base + f.size) | none => true)

/-- Is a virtual line in the largest page that can hold an address? -/
def nearPage (line va : Nat) : Bool := 192 * line / (3 * 2 ^ 26) == va / (3 * 2 ^ 26)

/-- Does a pinned line lie on the page that holds an address, if one is named? -/
def Pin.onPage (x : Pin) (va : Option Nat) : Bool :=
  match va with
  | some v => decide (x.base ≤ v) && decide (v < x.base + x.size)
  | none => true
/-- A load in an issue queue does without the copies under a tag that a command names. -/
def IqEntry.untagged (named : CTag → Bool) (e : IqEntry) : IqEntry :=
  match e with
  | .load no grp d va pa n (some g) => if named g then .load no grp d va pa n none else e
  | .load .. | .store .. | .atom .. | .peer .. | .got .. => e

/-- Drop the named leaves and lines from every cache. A page of any size may hold the address: the lines of its largest
are dropped, as settled copies may be at any time (R117); what is left in issue queues fills none of them again. -/
def State.dropLeaves (s : State) (p : Nat) (asid : Option (BitVec 16)) (va : Option Nat) : State :=
  let of (q : Nat) (a : BitVec 16) : Bool := q == p && (match asid with | some x => a == x | none => true)
  let named (q : Nat) (a : BitVec 16) (line : Nat) : Bool := of q a && (match va with
    | some v => nearPage line v
    | none => true)
  { s with
    tcache := s.tcache.filter (fun x => !(Leaf.named x.leaf p asid va))
    cores := s.cores.map (fun (e : Nat × Core) =>
      (e.1, { e.2 with
        rights := e.2.rights.filter (fun f => !(Leaf.named f p asid va))
        l1 := e.2.l1.filter (fun l => !(named l.part l.asid l.vline)) }))
    l2 := s.l2.map (fun e => (e.1, e.2.filter (fun l => !(named l.part l.asid l.vline))))
    agents := s.agents.map (fun (e : Nat × AgentMem) =>
      (e.1, { e.2 with iq := e.2.iq.map (IqEntry.untagged (fun g => named g.part g.asid (g.va / 192))) }))
    pins := s.pins.filter (fun x => !(of x.part x.asid && x.onPage va)) }

/-- Stores already translated climb to their package holding point (R353 step 3). -/
def State.drainEvery (s : State) : State :=
  s.agents.foldl (fun (s : State) (e : Nat × AgentMem) => s.drain (BitVec.ofNat 32 e.1) 6) s

/-- R353 step 3: is an access translated before store number n and mesh cycle m still to be performed at its package
holding point? -/
def State.unperformed (s : State) (n m : Nat) : Bool :=
  s.agents.any (fun e => !s.olderAbove (BitVec.ofNat 32 e.1) none n 6) ||
    s.outst.any (fun o => decide (o.sent ≤ m))
/-- BUSY of XINVCMD. -/
def State.xinvBusy (s : State) (p : Nat) : Bool :=
  match (s.part p).xinvAt with
  | some (n, m) => s.unperformed n m
  | none => false
/-- What XINVCMD reads. -/
def State.xinvRead (s : State) (p : Nat) : Word :=
  (s.part p).xinvcmd ||| (if s.xinvBusy p then 0x10000 else 0)

/-- A write of XINVCMD: with GO, unless a command is in progress, the leaves and lines are dropped, and BUSY reads 1
until the accesses translated before are performed. -/
def State.xinv (s : State) (p : Nat) (x : Word) : State :=
  let k := s.part p
  let asid := x.extractLsb' 32 16
  let busy := s.xinvBusy p
  let s := s.setPart p { k with xinvcmd := x &&& 0x0000FFFF00060000#64 }
  if x.getLsbD 0 && !busy then
    (s.updPart p (fun k => { k with xinvAt := some (s.serial, s.mesh) })).dropLeaves p
      (if x.getLsbD 18 then none else some asid) (if x.getLsbD 17 then none else some k.xinvva.toNat)
      |>.drainEvery
  else s

/-! ## Migration (R356, R357) -/

/-- RESULT of the check of a migration, or the leaf to move: page base, size, entry and its address. -/
def State.migCheck (s : State) (p : Nat) (asid : BitVec 16) : Nat ⊕ (Nat × Nat × Word × Nat) :=
  let k := s.part p
  match s.walkVa p asid k.migva.toNat with
  | .leaf e a base size =>
    if vaEnd ≤ k.migva.toNat then .inl 1
    else if pteWatch e then .inl 2
    else if pteAway e then .inl 3
    else
      let d := k.migdst.toNat
      let l := paLocal d
      let ok := decide (d < 2 ^ 52) && paPkg d == s.pkg.toNat && regionOf l == .hbm && paLocal d % size == 0 &&
        k.physw.toList.any (fun w => w.2.getLsbD 62 && w.2.getLsbD 63 && winCovers w l (l + size))
      if ok then .inr (base, size, e, a) else .inl 4
  | _ => .inl 1

/-- A write of MIGCMD: with GO and no migration in progress, the check and the stop (R357 steps 1, 2). -/
def State.mig (s : State) (p : Nat) (x : Word) : State :=
  let k := s.part p
  if k.migcmd.getLsbD 15 then
    s.setPart p { k with migcmd := (x &&& 0x0000FFFF00000000#64) ||| (k.migcmd &&& 0x00000000000F8000#64) }
  else
    let asid := x.extractLsb' 32 16
    let fields : Word := (x &&& 0x0000FFFF00000000#64) ||| (k.migcmd &&& 0x00000000000F0000#64)
    if x.getLsbD 0 then
      match s.migCheck p asid with
      | .inl r =>
        s.setPart p { k with
          migcmd := (x &&& 0x0000FFFF00000000#64) ||| BitVec.ofNat 64 (r * 2 ^ 16) }
      | .inr (base, size, e, a) =>
        let s := s.setPart p { k with
          migcmd := fields ||| 0x8000#64, migration := some ⟨asid, base, size, e, a, k.migdst.toNat⟩ }
        { s with
          tcache := s.tcache.filter (fun y => !(Leaf.named y.leaf p (some asid) (some base)))
          cores := s.cores.map (fun (c : Nat × Core) =>
            (c.1, { c.2 with rights := c.2.rights.filter (fun f => !(Leaf.named f p (some asid) (some base))) })) }
    else s.setPart p { k with migcmd := fields }

/-! ## Pool and frame regions (R42, R316) -/

/-- The core is quiescent; what the boot thread runs is no unit of work (R40, R46). -/
def State.quiescent (s : State) (c : Nat) : Bool :=
  let k := s.core c
  k.frames.isEmpty && k.replay.isNone && k.seqq.toList.all (fun q => q.cmds.isEmpty) &&
    (List.range 4).all (fun i =>
      let h := s.thr (4 * c + i)
      (match h.unit with
        | some u => u.kind == .firmware
        | none => true) && h.q.toList.all (fun q => q.cmds.isEmpty) && h.recording.isNone)

/-- REJ in a register value. -/
def rej : Word := 1#64 <<< 48

/-- The byte of the pool that a byte of core c's window holds, counted from line 0, under boundaries POOLB0 and
POOLB1: the scratchpad starts at line POOLB0, and the register partition's lines from 152 on hold bytes of their own
(R42, R43). -/
def poolByte (c b0 b1 a : Nat) : Option Nat :=
  if coreBase c ≤ a ∧ a < coreBase c + 192 * (b1 - b0) then some (192 * b0 + (a - coreBase c))
  else if regBase c + 192 * 152 ≤ a ∧ a < regBase c + 192 * b0 then some (a - regBase c)
  else none
/-- The byte of the window that a byte of the pool is; one of L1 or of the tape recording area has no address. -/
def poolAddr (c b0 b1 n : Nat) : Option Nat :=
  if n < 192 * b0 then some (regBase c + n)
  else if n < 192 * b1 then some (coreBase c + (n - 192 * b0))
  else none
/-- Where a byte goes when the boundaries of core c change; nothing is left of one that no longer has an address. -/
def poolTo (c b0 b1 n0 n1 a : Nat) : Option Nat := (poolByte c b0 b1 a).bind (poolAddr c n0 n1)
/-- A cell put where its byte goes. -/
def movedTo (f : Nat → Option Nat) (m : List Host.Cell) (e : Host.Cell) : List Host.Cell :=
  match f e.1 with
  | some a => memSet m a e.2
  | none => m
/-- R43: the lines keep their bytes when the boundaries change, so offset 0 is then the first byte of the new line
POOLB0; a line that was L1's or the recording area's reads as one that nothing has written (log 7). -/
def State.poolMove (s : State) (c b0 b1 n0 n1 : Nat) : State :=
  let lo := mkPa s.pkg 0
  let to_ (a : Nat) : Option Nat :=
    if lo + coreBase c ≤ a ∧ a < lo + arrBase c then (poolTo c b0 b1 n0 n1 (a - lo)).map (fun x => lo + x) else some a
  let mine (a : Nat) : Bool := decide (lo + coreBase c ≤ a ∧ a < lo + arrBase c)
  { s with
    mem := (s.mem.filter (fun e => mine e.1)).foldl (movedTo to_) (s.mem.filter (fun e => !mine e.1))
    poison := s.poison.filterMap to_ }

/-- R42: a write of POOLCFG. An accepted one invalidates L1 (R340). -/
def State.poolcfg (s : State) (c : Nat) (x : Word) : State :=
  let b0 := poolB0 x
  let b1 := poolB1 x
  let b2 := poolB2 x
  let k := s.core c
  if decide (152 ≤ b0 ∧ b0 ≤ b1 ∧ b1 ≤ b2 ∧ b2 ≤ 4096 ∧ b0 % 8 = 0 ∧ b1 % 8 = 0 ∧ b2 % 8 = 0) &&
      s.quiescent c then
    s.poolMove c (poolB0 k.poolcfg) (poolB1 k.poolcfg) b0 b1 |>.setCore c
      { k with poolcfg := x &&& 0x00001FFF1FFF1FFF#64, l1 := [] }
  else s.setCore c { k with poolcfg := k.poolcfg ||| rej }

/-- R316: a write of FRAMECFG. -/
def State.framecfg (s : State) (c : Nat) (x : Word) : State :=
  let k := s.core c
  if decide ((x.extractLsb' 0 13).toNat ≤ (x.extractLsb' 16 13).toNat) && s.quiescent c then
    s.setCore c { k with framecfg := x &&& 0x000000001FFF1FFF#64 }
  else s.setCore c { k with framecfg := k.framecfg ||| rej }

/-- R383: a write of EQCFG; one with MIN above MAX or either above 36 is ignored. -/
def State.eqcfg (s : State) (p : Nat) (x : Word) : State :=
  let mn := (x.extractLsb' 0 6).toNat
  let mx := (x.extractLsb' 8 6).toNat
  if mx < mn ∨ 36 < mn ∨ 36 < mx then s
  else s.updPart p (fun k => { k with eqcfg := x &&& 0x8000000000003F3F#64 })

/-! ## Debug halts (R381) -/

/-- A halt of a thread at its boundary, at a time of its core: a waiting instruction is abandoned; a SLEEP keeps its
end (R173). -/
def Thread.halt (h : Thread) (pc : Word) (now : Nat) : Thread :=
  { h with
    slept := (match h.waiting with
      | some (.sleep x) => some x
      | _ => h.slept)
    halted := true, haltReq := false, stepReq := false, waiting := none, dbgpc := pc,
    unit := h.unit.map (fun u => { u with since := some now }) }

/-- R381: HALT. It takes effect at once when the thread runs a unit that has not entered ADONE step 3,
between two of its instructions; otherwise before the next unit's first instruction. -/
def Thread.reqHalt (h : Thread) (now : Nat) : Thread :=
  match h.unit with
  | some u => if u.step3 || h.halted then { h with haltReq := !h.halted } else h.halt h.pc now
  | none => { h with haltReq := true }

/-- Issue restarts: the watchdog stood still while the thread was halted (R372). -/
def Thread.restart (h : Thread) (now : Nat) : Thread :=
  { h with
    halted := false
    unit := h.unit.map (fun u => match u.since with
      | some x => { u with halted := u.halted + (if u.start.isSome then now - x else 0), since := none }
      | none => u) }
/-- R381: RESUME clears HALTED. -/
def Thread.resume (h : Thread) (now : Nat) : Thread := { h.restart now with stepReq := false, haltReq := false }
/-- R381: STEP while halted: one instruction, then halt. -/
def Thread.reqStep (h : Thread) (now : Nat) : Thread :=
  if h.halted then { h.restart now with stepReq := true } else h

/-- A write of DBGCTLt. Of several of its bits at once STEP acts first, then RESUME, then HALT (log 53). -/
def Thread.dbgctl (h : Thread) (x : Word) (now : Nat) : Thread :=
  let h := { h with brken := x.getLsbD 3 }
  let h := if x.getLsbD 6 then h.reqStep now else h
  let h := if x.getLsbD 5 then h.resume now else h
  if x.getLsbD 4 then h.reqHalt now else h
/-- What DBGCTLt reads. -/
def Thread.dbgRead (h : Thread) : Word :=
  BitVec.ofNat 64 ((if h.halted then 128 else 0) + (if h.brken then 8 else 0))

/-! ## Debug lookup (R391) -/

/-- A write of DCTL with GO: the entry of the key and class, or nothing. -/
def State.dlookup (s : State) (n : Nat) (x : Word) : State :=
  let sl := s.slice n
  let keep : Word := x &&& 0x00000000007FFFFF#64
  let k : AKey := ⟨(x.extractLsb' 16 7).toNat, x.extractLsb' 0 16, sl.dkey⟩
  if x.getLsbD 31 then
    match (if k.slice = n then s.entry? k else none) with
    | some e =>
      let b := e.bits
      s.setSlice n { sl with
        dctl := keep ||| 0x20000000#64,
        dent := #v[b.extractLsb' 0 64, b.extractLsb' 64 64, b.extractLsb' 128 64] }
    | none => s.setSlice n { sl with dctl := keep, dent := Vector.replicate 3 0 }
  else s.setSlice n { sl with dctl := keep ||| (sl.dctl &&& 0x20000000#64) }

/-! ## The semaphore and freezes (R414, R415) -/

/-- A port is frozen (R415). -/
def State.freezePort (s : State) (p : Nat) : State :=
  let q := s.port p
  if q.frozen then s
  else
    let s := s.setPort p { q with frozen := true }
    { s with module := { s.module with frzcnt := s.module.frzcnt + 1 } }
/-- Freezes end. -/
def State.thaw (s : State) (ps : List Nat) : State :=
  ps.foldl (fun (s : State) p =>
    let q := s.port p
    if q.frozen then s.setPort p { q with frozen := false } else s) s

/-- Does a port hold the semaphore? -/
def State.holds (s : State) (p : Nat) : Bool := s.module.held && s.module.owner == p

/-- R414: a port acquires or renews MSEM; LEASE is the holder's to write. Of two that acquire it in one mesh cycle
port 0 has it. -/
def State.msemTake (s : State) (p : Nat) (x : Word) : State :=
  let m := s.module
  if (s.port p).frozen then s
  else if !m.held || m.owner == p || (p == 0 && m.takenAt == s.mesh) then
    let takenAt := if m.held && m.owner == p then m.takenAt else s.mesh
    { s with module := { m with held := true, owner := p, reqAt := s.mesh, takenAt, lease := x.extractLsb' 32 32 } }
  else s
/-- R414: the holder releases MSEM, which ends the other port's freeze (R415). -/
def State.msemDrop (s : State) (p : Nat) : State :=
  if s.holds p && !(s.port p).frozen then
    ({ s with module := { s.module with held := false } }).thaw [1 - p]
  else s
/-- R414: the holder writes the bits of LEASE that a mask names. -/
def State.msemLease (s : State) (p : Nat) (x m : Word) : State :=
  if s.holds p && !(s.port p).frozen then
    let y := (s.module.lease &&& ~~~(m.extractLsb' 32 32)) ||| ((x &&& m).extractLsb' 32 32)
    { s with module := { s.module with lease := y } }
  else s
/-- A write of the bits of MSEM that a mask names, by a port; one that leaves REQ out writes LEASE alone (R7, R414). -/
def State.msem (s : State) (p : Nat) (x m : Word) : State :=
  let s' := s.msemLease p x m
  if !m.getLsbD 0 then s'
  else if x.getLsbD 0 then
    s'.msemTake p ((s'.module.lease ++ (0 : BitVec 32)) &&& ~~~m ||| (x &&& m))
  else s'.msemDrop p
/-- What MSEM reads. -/
def Module.msemRead (m : Module) : Word :=
  m.lease ++ (0 : BitVec 29) ++ bit m.held ++ BitVec.ofNat 1 m.owner ++ (0 : BitVec 1)

/-! ## Outbound queues (R267, R321) -/

/-- A message leaves for its home slice. One for another package first has its sender's accesses before it brought to
the pod (R123, R131); false while it must wait. With no path it is refused with reason 4. -/
def State.sendMsg (s : State) (m : Msg) (pkg : BitVec 9) (slice : Nat) : State × Bool :=
  if pkg = s.pkg then ({ s with flights := s.flights ++ [⟨m, slice, 0⟩] }, true)
  else
    match s.upTo m.sender m.no 7 with
    | (s, false) => (s, false)
    | (s, true) =>
      let f : Flit := { (default : Flit) with
        sagent := m.sender, dpkg := pkg, part := BitVec.ofNat 7 m.part, vl := 2, typ := 0x08, msgs := [m] }
      match s.emit f with
      | (s, true) => (s, true)
      | (s, false) => (s.answerTo m.via pkg m (.refuse 4), true)

/-- Does an older message of a list to the same class and key stand parked or wait (R321)? -/
def keyBlocked (older : List OutMsg) (m : Msg) : Bool :=
  older.any (fun o => o.msg.cls == m.cls && o.msg.key == m.key &&
    (match o.st with
      | .parked _ | .waiting => true
      | .held | .sent => false))

/-- Send what may leave of an outbound queue, in order; `stop` once one has to wait for R123. -/
def State.pumpOut (s : State) (older : List OutMsg) (stop : Bool) : List OutMsg → State × List OutMsg
  | [] => (s, older)
  | o :: rest =>
    if o.st ≠ .waiting ∨ stop ∨ keyBlocked older o.msg then s.pumpOut (older ++ [o]) stop rest
    else
      match s.sendMsg o.msg o.pkg o.slice with
      | (s, true) => s.pumpOut (older ++ [{ o with st := .sent }]) stop rest
      | (s, false) => s.pumpOut (older ++ [o]) true rest

/-- Send what may leave of a thread's outbound queue. -/
def State.pump (s : State) (t : Nat) : State :=
  let (s, l) := s.pumpOut [] false (s.thr t).outq
  s.updThr t (fun th => { th with outq := l })

/-! ## A port's buffers (R322) -/

/-- A packet of a buffer as an outbound message. -/
def BufPkt.out (b : BufPkt) : OutMsg := ⟨b.msg, b.pkg, b.slice, b.st⟩

/-- Send what may leave of one interface's buffer, in order; none goes before the first whose home is not known. -/
def State.pumpIf (s : State) (p n : Nat) : State :=
  let buf := (tget Iface.init (s.port p).ifs n).buf
  let ready := buf.takeWhile BufPkt.known
  let (s, l) := s.pumpOut [] false (ready.map BufPkt.out)
  let q := s.port p
  let f := tget Iface.init q.ifs n
  s.setPort p { q with ifs := tset q.ifs n { f with
    buf := (ready.zip l).map (fun (x : BufPkt × OutMsg) => { x.1 with st := x.2.st }) ++ buf.drop ready.length } }

/-- Send what may leave of a port's buffers, interface by interface. -/
def State.pumpPort (s : State) (p : Nat) : State :=
  (s.port p).ifs.foldl (fun (s : State) (e : Nat × Iface) =>
    if e.2.buf.any (fun b => b.st == .waiting) then s.pumpIf p e.1 else s) s

/-! ## Packet release (R409, R410) -/

/-- Held packets become messages waiting to leave. -/
def Iface.release (f : Iface) : Iface :=
  { f with buf := f.buf.map (fun (b : BufPkt) => if b.st = .held then { b with st := .waiting } else b) }

/-- The messages that have left since there were n on their way left together (R409, R410). -/
def State.together (s : State) (n : Nat) : State :=
  { s with
    serial := s.serial + 1
    flights := s.flights.take n ++ (s.flights.drop n).map (fun (f : Flight) => { f with batch := s.serial + 1 }) }

/-- R410: a write of BATCHREL: the released messages leave together, interface by interface. -/
def State.batch (s : State) (p : Nat) (mask : Word) : State :=
  let q := s.port p
  ((s.setPort p { q with
    ifs := q.ifs.map (fun (e : Nat × Iface) => if mask.getLsbD e.1 then (e.1, e.2.release) else e),
    batchcnt := BitVec.ofNat 64 ((q.batchcnt.toNat + 1) % 2 ^ 32) }).pumpPort p).together s.flights.length

end Sys2Proof.Machine
end

