-- ==== Sys2Proof/Machine/Registers.lean ====
section
/-! DEFINITION. The registers of the control window and a core's register partition: where they lie, what
they read and what a write does (R333-R336, R370, R374, R381, R390, R391, R400, R403, R406, R412-R417,
R432). -/

namespace Sys2Proof.Machine

/-! ## Blocks (R334) -/

/-- A block of the control window and an offset in it. -/
inductive Blk where
  | build (o : Nat)
  | part (p o : Nat)
  | core (c o : Nat)
  | cluster (j o : Nat)
  | slice (n o : Nat)
  | link (n o : Nat)
  | route (d : Nat)
  | port (p o : Nat)
  | module (o : Nat)
  | none
deriving DecidableEq, Repr

/-- The block at an offset from 0x03C0_0000_0000. -/
def blkOf (off : Nat) : Blk :=
  let at_ (base n : Nat) : Option (Nat × Nat) :=
    if base ≤ off ∧ off < base + n * 0xC000 then some ((off - base) / 0xC000, (off - base) % 0xC000) else none
  if off < 0xC000 then .build off
  else match at_ 0x300000 96 with
  | some (p, o) => .part p o
  | none => match at_ 0x0C000000 nCores with
  | some (c, o) => .core c o
  | none => match at_ 0x18000000 nClusters with
  | some (j, o) => .cluster j o
  | none => match at_ 0x19000000 16 with
  | some (n, o) => .slice n o
  | none => match at_ 0x1A000000 36 with
  | some (n, o) => .link n o
  | none => if 0x1A400000 ≤ off ∧ off < 0x1A401000 then .route ((off - 0x1A400000) / 8)
  else match at_ 0x1B000000 2 with
  | some (p, o) => .port p o
  | none => match at_ 0x1C000000 1 with
  | some (_, o) => .module o
  | none => .none

/-- Who accesses a register: a privilege level, or a host port through its BAR0 (R406, R417). -/
inductive Who where
  | level (p : BitVec 2)
  | port (p : Nat)
deriving DecidableEq, Repr

/-- "RW (S)": writable at privilege S or M. -/
def Who.isS : Who → Bool
  | .level p => p != privU
  | .port _ => false
/-- "RW (M)": writable at privilege M. -/
def Who.isM : Who → Bool
  | .level p => p == privM
  | .port _ => false

/-! ## Partition blocks (R335) -/

/-- The low n bits of a register. -/
def lowBits (n : Nat) (x : Word) : Word := BitVec.ofNat 64 (x.toNat % 2 ^ n)
/-- W1C: writing 1 to a bit clears it (R7). -/
def w1c (old x : Word) : Word := old &&& ~~~x
/-- A number as a 32-bit register, saturating. -/
def sat32 (n : Nat) : Word := BitVec.ofNat 64 (min n 0xFFFFFFFF)
def winMask0 : Word := 0x000007FFFFFFFFFF
def winMask1 : Word := 0xC00007FFFFFFFFFF

/-- What a partition register reads. -/
def Part.read (k : Part) (o : Nat) : Word :=
  match o with
  | 0x000 => k.trapvec | 0x008 => k.clsbase | 0x010 => k.clsarg | 0x018 => k.clscmd
  | 0x040 => k.asidtab | 0x048 => k.asidlim | 0x050 => k.asidcur | 0x058 => k.pgen
  | 0x060 => k.prdrop | 0x068 => k.pinlost | 0x070 => k.xinvva
  | 0x080 => k.migva | 0x088 => k.migdst | 0x090 => k.migcmd
  | 0x0A0 => k.unitbudget | 0x0A8 => k.unitage | 0x0B0 => k.jobsel
  | 0x0B8 => if (k.job (k.jobsel.setWidth 16)).canc then 0x40000 else 0
  | 0x0C0 => BitVec.ofNat 64 (k.job (k.jobsel.setWidth 16)).out
  | 0x0C8 => BitVec.ofNat 64 (k.job (k.jobsel.setWidth 16)).drop
  | 0x0D0 => k.errbase | 0x0D8 => k.errslots | 0x0E0 => k.errhead | 0x0E8 => k.errtail
  | 0x0F0 => k.errlost | 0x0F8 => k.eqcfg | 0x180 => k.pstate | 0x190 => k.hostbind
  | _ =>
    let w (l : List (Word × Word)) (n : Nat) : Word :=
      let p := l.getD (n / 2) (0, 0)
      if n % 2 = 0 then p.1 else p.2
    if 0x100 ≤ o ∧ o < 0x180 ∧ o % 8 = 0 then w k.pexp.toList ((o - 0x100) / 8)
    else if 0x200 ≤ o ∧ o < 0x280 ∧ o % 8 = 0 then w k.physw.toList ((o - 0x200) / 8)
    else 0

def State.partRead (s : State) (p o : Nat) : Word := if o = 0x078 then s.xinvRead p else (s.part p).read o

/-- One word of a window register. -/
def setWin (v : Vector (Word × Word) 8) (n : Nat) (x : Word) : Vector (Word × Word) 8 :=
  Vector.ofFn (fun i =>
    if i.val = n / 2 then (if n % 2 = 0 then (x &&& winMask0, v[i].2) else (v[i].1, x &&& winMask1)) else v[i])

/-- R370: JOBCMD. -/
def State.jobcmd (s : State) (p : Nat) (x : Word) : State :=
  let j : BitVec 16 := (s.part p).jobsel.setWidth 16
  match (x.extractLsb' 0 2).toNat with
  | 1 => s.updJob p j (fun y => { y with canc := false, drop := 0 })
  | 2 => (s.cancelJob p j).1
  | _ => s

/-- A write of a partition register, by one who has privilege S; `m` says whether M. -/
def State.partWrite (s : State) (p o : Nat) (x : Word) (m : Bool) : State :=
  let k := s.part p
  match o with
  | 0x000 => s.setPart p { k with trapvec := x }
  | 0x008 => s.setPart p { k with clsbase := x }
  | 0x010 => s.setPart p { k with clsarg := x }
  | 0x018 =>
    if k.clscmd.getLsbD 18 then s
    else s.setPart p { k with clscmd := (x &&& 0x3FFFF#64) ||| (k.clscmd &&& 0x80000#64) ||| 0x40000#64 }
  | 0x040 => s.setPart p { k with asidtab := x }
  | 0x048 => s.setPart p { k with asidlim := lowBits 17 x }
  | 0x050 => s.setPart p { k with asidcur := lowBits 16 x }
  | 0x060 => s.setPart p { k with prdrop := w1c k.prdrop x }
  | 0x068 => s.setPart p { k with pinlost := w1c k.pinlost x }
  | 0x070 => s.setPart p { k with xinvva := x }
  | 0x078 => s.xinv p x
  | 0x080 => s.setPart p { k with migva := x }
  | 0x088 => s.setPart p { k with migdst := x }
  | 0x090 => s.mig p x
  | 0x0A0 => s.setPart p { k with unitbudget := lowBits 32 x }
  | 0x0A8 => s.setPart p { k with unitage := lowBits 16 x }
  | 0x0B0 => s.setPart p { k with jobsel := lowBits 16 x }
  | 0x0B8 => s.jobcmd p x
  | 0x0D0 => s.setPart p { k with errbase := x }
  | 0x0D8 => s.setPart p { k with errslots := lowBits 32 x }
  | 0x0E8 => s.setPart p { k with errtail := lowBits 32 x }
  | 0x0F0 => s.setPart p { k with errlost := w1c k.errlost x }
  | 0x0F8 => s.eqcfg p x
  | _ =>
    if 0x100 ≤ o ∧ o < 0x180 ∧ o % 8 = 0 then
      s.setPart p { k with pexp := setWin k.pexp ((o - 0x100) / 8) x }
    else if 0x200 ≤ o ∧ o < 0x280 ∧ o % 8 = 0 ∧ m then
      s.setPart p { k with physw := setWin k.physw ((o - 0x200) / 8) x }
    else s

/-! ## Core and cluster blocks (R335, R374) -/

/-- What a core register reads. -/
def State.coreRead (s : State) (c o : Nat) : Word :=
  match o with
  | 0x000 => (s.core c).poolcfg
  | 0x008 => (s.core c).framecfg
  | 0x100 => (s.core c).cerrcnt
  | _ =>
    if 0x040 ≤ o ∧ o < 0x080 ∧ o % 8 = 0 then
      let h := s.thr (4 * c + (o - 0x40) / 16)
      if o % 16 = 0 then h.dbgRead else h.dbgpc
    else 0
/-- A write of a core register. -/
def State.coreWrite (s : State) (c o : Nat) (x : Word) : State :=
  match o with
  | 0x000 => s.poolcfg c x
  | 0x008 => s.framecfg c x
  | 0x100 => s.updCore c (fun k => { k with cerrcnt := w1c k.cerrcnt x })
  | _ =>
    if 0x040 ≤ o ∧ o < 0x080 ∧ o % 16 = 0 then
      s.updThr (4 * c + (o - 0x40) / 16) (fun h => h.dbgctl x (s.time c))
    else s

/-- What a cluster register reads. -/
def Cluster.read (k : Cluster) (o : Nat) : Word :=
  if o % 8 ≠ 0 then 0
  else if o < 0x20 then k.rot.toList.getD (o / 8) 0
  else if o = 0x20 then BitVec.ofNat 64 (k.cur + if k.switching then 16 else 0)
  else if 0x40 ≤ o ∧ o < 0x60 then k.debt.toList.getD ((o - 0x40) / 8) 0
  else if o = 0x60 then BitVec.ofNat 64 k.eqstep
  else if 0x100 ≤ o ∧ o < 0x128 then k.perm.toList.getD ((o - 0x100) / 8) 0
  else 0
/-- One word of a vector of registers. -/
def setAt {n : Nat} (v : Vector Word n) (i : Nat) (x : Word) : Vector Word n :=
  Vector.ofFn (fun j => if j.val = i then x else v[j])

/-- Fields of a rotation entry (R374): EN, PART and LEN in cycles. -/
def rotEn (w : Word) : Bool := w.getLsbD 63
def rotPart (w : Word) : Nat := (w.extractLsb' 32 7).toNat
def rotLen (w : Word) : Nat := 1024 * max 1 (w.extractLsb' 0 32).toNat

/-- The clusters that a launch names, of those of its partition: all where count is 0 (R281). -/
def State.launchClusters (s : State) (p first count : Nat) : List Nat :=
  let js := s.partClusters p
  if count = 0 then js else (js.drop first).take count
/-- The launches of a partition stand in the lists of the clusters that they name now: in those of clusters that have
joined the partition from now on (R362). -/
def State.relist (s : State) (p : Nat) : State :=
  if (s.part p).launches.isEmpty then s
  else s.updPart p (fun k => { k with launches := k.launches.map (fun (e : Nat × Launch) => (e.1, { e.2 with
    ready := (s.launchClusters p e.2.clFirst e.2.clCount).map (fun j =>
      (j, (e.2.ready.find? (fun x => x.1 == j)).elim (s.clusTime j) Prod.snd)) })) })
/-- The same of every partition that a rotation names. -/
def State.relistAll (s : State) (r : Vector Word 4) : State :=
  (rising ((r.toList.filter rotEn).map rotPart)).foldl (fun (s : State) p => s.relist p) s

/-- R374: a rotation entry; one enabled while the cluster runs nothing takes effect at once. -/
def State.writeRot (s : State) (j n : Nat) (x : Word) : State :=
  let k := s.clus j
  let r := setAt k.rot n (x &&& 0x8000007FFFFFFFFF#64)
  if k.rotEff.toList.all (fun w => !rotEn w) ∧ !k.switching then
    let s := s.setClus j { k with
      rot := r, rotEff := r, cur := if rotEn x then n else k.cur, sliceBeg := s.clusTime j, sliceLen := rotLen x }
    if rotEn x then (s.relist (rotPart x)).replace_ (rotPart x) else s
  else s.setClus j { k with rot := r }
/-- R375: a permission word. -/
def State.writePerm (s : State) (j w : Nat) (x : Word) : State :=
  let k := s.clus j
  s.setClus j { k with perm := setAt k.perm w (if w = 4 then x &&& 0xC0000000FFFFFFFF#64 else x) }
/-- A write of a cluster register. -/
def State.clusWrite (s : State) (j o : Nat) (x : Word) : State :=
  if o % 8 ≠ 0 then s
  else if o < 0x20 then s.writeRot j (o / 8) x
  else if 0x100 ≤ o ∧ o < 0x128 then s.writePerm j ((o - 0x100) / 8) x
  else s

/-! ## Slices, links, ports and the module (R391, R403, R406, R412, R414-R417) -/

def Slice.read (k : Slice) (o : Nat) : Word :=
  match o with
  | 0x00 => k.dkey | 0x08 => k.dctl | 0x10 => k.dent[0] | 0x18 => k.dent[1] | 0x20 => k.dent[2]
  | _ => 0
def State.sliceWrite (s : State) (n o : Nat) (x : Word) : State :=
  match o with
  | 0x00 => s.setSlice n { s.slice n with dkey := x }
  | 0x08 => s.dlookup n x
  | _ => s

/-- LSTAT (R403). -/
def Link.lstat (k : Link) : Word :=
  BitVec.ofNat 64 (k.late * 2 ^ 48 + k.bad * 2 ^ 32 + k.replayed * 256 + if k.up then 1 else 0)
/-- A write of LSTAT clears counter bits. -/
def Link.w1c (k : Link) (x : Word) : Link :=
  let y := Machine.w1c k.lstat x
  { k with
    late := (y.extractLsb' 48 16).toNat, bad := (y.extractLsb' 32 16).toNat,
    replayed := (y.extractLsb' 8 24).toNat }

/-- What an interface register reads. -/
def Iface.read (f : Iface) (o : Nat) : Word :=
  match o with
  | 0x00 => f.cfg | 0x08 => f.next | 0x10 => f.drop | 0x18 => f.crb | 0x20 => f.csl | 0x28 => f.chd
  | 0x30 => f.ctr | 0x38 => f.clost
  | _ => 0
/-- A write of an interface register. -/
def Iface.write (f : Iface) (o : Nat) (x : Word) : Iface :=
  match o with
  | 0x10 => { f with drop := w1c f.drop x }
  | 0x18 => { f with crb := x }
  | 0x20 => { f with csl := lowBits 32 x }
  | 0x28 => { f with chd := lowBits 32 x }
  | 0x38 => { f with clost := w1c f.clost x }
  | _ => f

def Port.iface (q : Port) (n : Nat) : Iface := tget Iface.init q.ifs n

/-- HDMBASE and HDMSIZE as written last (R406). -/
def Port.hdm (q : Port) : Word × Word := q.hdmNew.getD (q.hdmbase, q.hdmsize)
/-- R406: a new range takes effect once no CXL.mem request of the port is outstanding. -/
def Port.setHdm (q : Port) (r : Word × Word) : Port :=
  if q.memOut.isEmpty then { q with hdmbase := r.1, hdmsize := r.2, hdmNew := none } else { q with hdmNew := some r }

/-- CXL.mem requests of a port that are outstanding: reads without a completion, writes that have not entered the
package holding point (R406). -/
def State.memLeft (s : State) (p : Nat) : List (Bool × Nat) :=
  let q := s.port p
  let a := s.agent (agentId s.pkg (.port p))
  q.memOut.filter (fun x =>
    if x.1 then
      a.sb.any (fun st => st.id == x.2) || a.iq.any (fun e => match e with
        | .store st => st.id == x.2
        | .load .. | .atom .. | .peer .. | .got .. => false)
    else !(q.replies.any (fun r => r.1 == x.2)))
/-- A port's range is written. -/
def State.setHdm (s : State) (p : Nat) (r : Word × Word) : State :=
  s.setPort p ({ s.port p with memOut := s.memLeft p }.setHdm r)

/-- What a host-port register reads. -/
def Port.read (q : Port) (o : Nat) : Word :=
  match o with
  | 0x000 => q.hdm.1 | 0x008 => q.hdm.2 | 0x048 => q.batchcnt
  | _ =>
    if 0x1000 ≤ o ∧ o < 0x2000 then (q.iface ((o - 0x1000) / 64)).read (o % 64)
    else if 0x2000 ≤ o ∧ o < 0x2200 ∧ o % 8 = 0 then (q.iface ((o - 0x2000) / 8)).acc
    else 0

/-- R406: is a CXL.mem range allowed? -/
def hdmOk (base size : Nat) : Bool :=
  base % (3 * 2 ^ 26) == 0 && size % (3 * 2 ^ 26) == 0 && decide (size ≤ 511973523456) &&
    decide (base + size ≤ hbmEnd)

/-- A write of a host-port register; `own` says whether the writer may write what is the owner's. -/
def State.portWrite (s : State) (p o : Nat) (x : Word) (own : Bool) : State :=
  let q := s.port p
  match o with
  | 0x000 =>
    let b := lowBits 43 x
    if own && hdmOk b.toNat q.hdm.2.toNat then s.setHdm p (b, q.hdm.2) else s
  | 0x008 =>
    let z := lowBits 40 x
    if own && hdmOk q.hdm.1.toNat z.toNat then s.setHdm p (q.hdm.1, z) else s
  | 0x040 => s.batch p x
  | _ =>
    if 0x1000 ≤ o ∧ o < 0x2000 then
      let n := (o - 0x1000) / 64
      s.setPort p { q with ifs := tset q.ifs n ((q.iface n).write (o % 64) x) }
    else s

/-- What a module register reads. -/
def State.moduleRead (s : State) (o : Nat) : Word :=
  match o with
  | 0x000 => s.module.msemRead
  | 0x008 => s.module.frzcnt
  | _ =>
    if 0x100 ≤ o ∧ o < 0x180 then
      let q := s.port ((o - 0x100) / 0x40)
      match o % 0x40 with
      | 0x00 => q.mrbase | 0x08 => q.mrslots | 0x10 => q.mrtail | 0x18 => q.mrdone
      | 0x20 => q.mrrbase | 0x28 => q.mrstop
      | _ => 0
    else 0

/-- R416: a write of MRBASE restarts a stopped ring. -/
def State.mrbase (s : State) (p : Nat) (x : Word) : State :=
  s.setPort p { s.port p with mrbase := x, mrstop := 0 }

/-- A write of a port's ring registers (R417). -/
def State.ringWrite (s : State) (p o : Nat) (x : Word) : State :=
  let q := s.port p
  match o with
  | 0x00 => s.mrbase p x
  | 0x08 => s.setPort p { q with mrslots := lowBits 32 x }
  | 0x10 => s.setPort p { q with mrtail := lowBits 32 x }
  | 0x20 => s.setPort p { q with mrrbase := x }
  | _ => s

/-! ## Routes (R400) -/

/-- The messages of this package that were sent to a package and are not answered. -/
def State.unanswered (s : State) (d : Nat) : List (BitVec 32 × BitVec 6 × BitVec 32) :=
  let key (m : Msg) : BitVec 32 × BitVec 6 × BitVec 32 := (m.sender, m.ifn, m.seq)
  s.threads.flatMap (fun e => (e.2.outq.filter (fun o => o.st == .sent && o.pkg.toNat == d)).map (fun o => key o.msg)) ++
    s.ports.flatMap (fun e => e.2.ifs.flatMap (fun f =>
      (f.2.buf.filter (fun b => b.st == .sent && b.pkg.toNat == d)).map (fun b => key b.msg))) ++
    s.dir.flatMap (fun e => if e.fpkg.toNat = d then e.fwd.map key else [])
/-- The notices of this package to another that await an answer: MOVING, an offer, and a carried state, which the move's
end answers (R326, R397). -/
def State.awaited (s : State) (d : Nat) : List (Nat × AKey) :=
  s.dir.flatMap (fun e =>
    (if e.st == .retiring && e.dest.isSome && !e.acked && e.home.toNat == d then [(0x10, e.key)] else []) ++
      (if e.sent && e.dest == some d then [(0x15, e.key)] else [])) ++
    s.threads.filterMap (fun h => match h.2.waiting, h.2.unit with
      | some (.aexport _ dst), some u => if dst.toNat = d then some (0x13, u.ekey) else none
      | _, _ => none)
/-- Are flits that a hold waits for still unanswered, and not timed out? -/
def State.holds? (s : State) (h : RouteHold) : Bool :=
  decide (s.mesh < h.till) &&
    (s.outst.any (fun o => o.dpkg == h.dst && h.tags.contains o.tag) ||
      (s.unanswered h.dst).any (fun k => h.msgs.contains k) || (s.awaited h.dst).any (fun k => h.keys.contains k))
/-! ### The build table (R140-R143) -/

/-- A cost field (R141). -/
def costField (cyc : Nat) (same : Bool) : BitVec 16 := bit same ++ BitVec.ofNat 15 cyc
/-- Release cost of a scope for a memory kind (R143): typical, worst case, and whether it equals the cost of the next
lower scope. -/
def relCost (sc kind : Nat) : Nat × Nat × Bool :=
  match sc, kind with
  | 0, _ => (0, 0, false)
  | n + 1, 0 => (2, 6, decide (0 < n))
  | n + 1, 1 => (6, 18, decide (0 < n))
  | 1, _ => (4, 12, false)
  | 2, _ => (18, 60, false)
  | 3, _ => (36, 110, false)
  | 4, _ => (70, 220, false)
  | 5, _ => (160, 480, false)
  | 6, 4 => (1800, 5400, false)
  | 6, _ => (430, 1400, false)
  | _, 2 => (430, 1400, true)
  | _, 3 => (3100, 32767, false)
  | _, _ => (1800, 5400, true)
/-- Acquire cost (R143). -/
def acqCost (sc kind : Nat) : Nat × Nat × Bool :=
  if sc = 0 then (0, 0, false)
  else if kind ≤ 1 ∨ sc = 1 then (0, 0, true)
  else (20, 40, decide (3 ≤ sc))
/-- MASK and MEMBERS of a scope, in a pod of P packages (R142). -/
def scopeMask (sc : Nat) : BitVec 32 :=
  match sc with
  | 0 => 0xFFFFFFFF | 1 => 0xFFFFF800 | 2 => 0xFFFFC000 | 3 => 0xFFFC0000
  | 4 => 0xFFF80000 | 5 => 0xFFF00000 | 6 => 0xFF800000 | _ => 0
def scopeMembers (sc p : Nat) : Nat :=
  match sc with
  | 0 => 8 | 1 => 4 | 2 => 32 | 3 => 288 | 4 => 576 | 5 => 1152 | 6 => 9216
  | _ => 9216 * p
/-- The first word of an entry, and its costs for a memory kind (R140). -/
def buildHead (sc p : Nat) : Word :=
  scopeMask sc ++ (0 : BitVec 5) ++ BitVec.ofNat 3 sc ++ BitVec.ofNat 24 (scopeMembers sc p)
def buildCosts (sc kind : Nat) : Word :=
  let a := acqCost sc kind
  let r := relCost sc kind
  costField a.2.1 a.2.2 ++ costField a.1 a.2.2 ++ costField r.2.1 r.2.2 ++ costField r.1 r.2.2
/-- The build table that firmware populates, with P packages in the pod: eight entries of six words. -/
def buildTable (p : Nat) : List Word :=
  (List.range 8).flatMap (fun sc => buildHead sc p :: (List.range 5).map (buildCosts sc))
/-- P: the package itself, and every other whose route table entry has V = 1 (R142). -/
def State.podSize (s : State) : Nat :=
  1 + (s.route.filter (fun e => e.1 != s.pkg.toNat && e.2.getLsbD 63)).length
/-- Firmware rewrites MEMBERS of entry 7, once it has populated the table (R142). -/
def State.countPod (s : State) : State :=
  if s.build.isEmpty then s else { s with build := lset s.build 42 (buildHead 7 s.podSize) }

/-- R400: entry d of the route table is written. Flits of lane 1, and the other notices of lane 3, are not answered, so
none is waited for (log 51). Only firmware and its commands write it, and MEMBERS of the build table follows (R142). -/
def State.routeWrite (s : State) (d : Nat) (x : Word) : State :=
  let h0 : RouteHold := ⟨d, 0, (s.outst.filter (fun o => o.dpkg == d)).map Outst.tag, [], [], s.mesh + 2 ^ 20⟩
  let h2 : RouteHold := ⟨d, 2, [], s.unanswered d, [], s.mesh + 2 ^ 20⟩
  let h3 : RouteHold := ⟨d, 3, [], [], s.awaited d, s.mesh + 2 ^ 20⟩
  { s with
    route := tset s.route d x
    rhold := s.rhold ++ [h0, h2, h3].filter s.holds? }.countPod

/-! ## The window (R432) -/

/-- The register at an 8-byte aligned offset of the control window. -/
def State.ctlRead (s : State) (off : Nat) : Word :=
  match blkOf off with
  | .build o => s.build.getD (o / 8) 0
  | .part p o => s.partRead p o
  | .core c o => s.coreRead c o
  | .cluster j o => (s.clus j).read o
  | .slice n o => (s.slice n).read o
  | .link n o => if o = 0 then (s.link n).lstat else 0
  | .route d => tget (0 : Word) s.route d
  | .port p o => (s.port p).read o
  | .module o => s.moduleRead o
  | .none => 0

/-- R415: is a block an owned resource? -/
def Blk.owned : Blk → Bool
  | .part .. | .core .. | .cluster .. | .link .. | .route .. => true
  | _ => false

/-- R7, R335, R432: a write of the register at an 8-byte aligned offset. Writes without the right are
ignored; a port that writes an owned resource without the semaphore is frozen (R415). -/
def State.ctlWrite (s : State) (who : Who) (off : Nat) (x : Word) : State :=
  let b := blkOf off
  match who with
  | .level pr =>
    match b with
    | .part p o => if who.isS then s.partWrite p o x (pr == privM) else s
    | .core c o => if who.isS then s.coreWrite c o x else s
    | .cluster j o => if who.isM then s.clusWrite j o x else s
    | .slice n o => if who.isM then s.sliceWrite n o x else s
    | .link n o => if who.isM && o == 0 then s.setLink n ((s.link n).w1c x) else s
    | .route d => if who.isM then s.routeWrite d (x &&& 0x800000000000003F#64) else s
    | .port p o => if who.isM then s.portWrite p o x true else s
    | .module o =>
      if who.isM && decide (0x100 ≤ o ∧ o < 0x180) then s.ringWrite ((o - 0x100) / 0x40) (o % 0x40) x else s
    | .build _ | .none => s
  | .port p =>
    if (s.port p).frozen then s
    else if b.owned && !s.holds p then s.freezePort p
    else
      match b with
      | .port q o => if q = p then s.portWrite p o x (s.holds p) else s
      | .module o =>
        if o = 0 then s.msem p x (BitVec.allOnes 64)
        else if 0x100 + 0x40 * p ≤ o ∧ o < 0x140 + 0x40 * p then s.ringWrite p (o % 0x40) x else s
      | _ => s

/-! ## A core's register partition (R333, R336) -/

/-- The scalar window of a thread in its six lines: globals, eight sets of frame registers, a depth's set
being its number modulo 8, and the pass registers (log 5). -/
def Thread.window (h : Thread) (i : Nat) : Word :=
  if i < 8 then h.globals.toList.getD i 0
  else if i < 136 then
    let depth := h.sd + h.outer.length
    let back := (depth + 8 - (i - 8) / 16) % 8
    if back = 0 then h.frame.toList.getD ((i - 8) % 16) 0
    else match h.outer[back - 1]? with
      | some f => f.toList.getD ((i - 8) % 16) 0
      | none => 0
  else h.pass.toList.getD (i - 136) 0
/-- Write a word of the scalar window. -/
def Thread.setWindow (h : Thread) (i : Nat) (x : Word) : Thread :=
  if i < 8 then { h with globals := setAt h.globals i x }
  else if i < 136 then
    let depth := h.sd + h.outer.length
    let back := (depth + 8 - (i - 8) / 16) % 8
    if back = 0 then { h with frame := setAt h.frame ((i - 8) % 16) x }
    else match h.outer[back - 1]? with
      | some f => { h with outer := lset h.outer (back - 1) (setAt f ((i - 8) % 16) x) }
      | none => h
  else { h with pass := setAt h.pass (i - 136) x }

/-- Write lane pair i of vector register r. -/
def Thread.setPair (h : Thread) (r i : Nat) (x : Word) : Thread :=
  { h with v := Vector.ofFn (fun j => if j.val = r then
      Vector.ofFn (fun l => if l.val = i then x.extractLsb' 0 32
        else if l.val = i + 1 then x.extractLsb' 32 32 else (h.v[j])[l]) else h.v[j]) }

/-- Lines 152 up: which word of which thread's frame registers a word of a line shows, if any. Line 152 + 8t + k
shows set k of thread t, the resident window for debug snapshots (R42, log 52). -/
def residentWord (line i : Nat) : Option (Nat × Nat) :=
  if 152 ≤ line ∧ line < 184 ∧ i < 16 then some ((line - 152) / 8, 8 + 16 * ((line - 152) % 8) + i) else none

/-- The 8-byte word at an aligned offset of core c's register partition: vector registers, scalar windows, resident
frames, and bytes of the pool (R42, R336). -/
def State.regpRead (s : State) (c off : Nat) : Word :=
  let line := off / 192
  if line < 152 then
    let h := s.thr (4 * c + line / 38)
    let r := line % 38
    if r < 32 then
      let v := h.v.toList.getD r (Vector.replicate 48 0)
      let i := off % 192 / 4
      v.toList.getD (i + 1) 0 ++ v.toList.getD i 0
    else h.window ((r - 32) * 24 + off % 192 / 8)
  else
    match residentWord line (off % 192 / 8) with
    | some (t, i) => (s.thr (4 * c + t)).window i
    | none => s.rdW (mkPa s.pkg (regBase c + off))
/-- Write it. -/
def State.regpWrite (s : State) (c off : Nat) (x : Word) : State :=
  let line := off / 192
  if line < 152 then
    s.updThr (4 * c + line / 38) (fun h =>
      let r := line % 38
      if r < 32 then h.setPair r (off % 192 / 4) x else h.setWindow ((r - 32) * 24 + off % 192 / 8) x)
  else
    match residentWord line (off % 192 / 8) with
    | some (t, i) => s.updThr (4 * c + t) (fun h => h.setWindow i x)
    | none => s.wrBytes (mkPa s.pkg (regBase c + off)) (bytesOfNat 8 x.toNat)

/-! ## Bytes of registers -/

/-- Is the register at an aligned offset of the control window W1C, or does it hold W1C fields (R335, R381, R403,
R412)? -/
def w1cAt (off : Nat) : Bool :=
  match blkOf off with
  | .part _ o => o == 0x060 || o == 0x068 || o == 0x0F0
  | .core _ o => o == 0x100
  | .link _ o => o == 0
  | .port _ o => decide (0x1000 ≤ o ∧ o < 0x2000) && (o % 64 == 0x10 || o % 64 == 0x38)
  | .build _ | .cluster .. | .slice .. | .route _ | .module _ | .none => false

/-- A write of the bits of a register that a mask names: the others stay as they are, so they are written as they read,
or as 0 where a 1 would clear them; those of MSEM, whose REQ is write-only, are not written (R7, R113, R432). -/
def State.ctlPut (s : State) (who : Who) (off : Nat) (x m : Word) : State :=
  if m = 0 then s
  else
    let all := s.ctlWrite who off (if w1cAt off then x &&& m else (s.ctlRead off &&& ~~~m) ||| (x &&& m))
    match who, blkOf off with
    | .port p, .module 0 => if (s.port p).frozen then s else s.msem p x m
    | _, _ => all
/-- The same for a word of a core's register partition. -/
def State.regpPut (s : State) (c off : Nat) (x m : Word) : State :=
  if m = 0 then s else s.regpWrite c off ((s.regpRead c off &&& ~~~m) ||| (x &&& m))

/-- The register that holds a byte of a target, and the write of bits of it. -/
def State.tgtWord (s : State) (t : Tgt) : Word :=
  match t with
  | .ctl off => s.ctlRead (off / 8 * 8)
  | .regp c off => s.regpRead c (off / 8 * 8)
  | .mem .. => 0
def State.setTgtBits (s : State) (pr : BitVec 2) (t : Tgt) (x m : Word) : State :=
  match t with
  | .ctl off => s.ctlPut (.level pr) (off / 8 * 8) x m
  | .regp c off => if pr = privM then s.regpPut c (off / 8 * 8) x m else s
  | .mem .. => s

/-- n bytes of registers (R432). -/
def State.regBytes (s : State) (t : Tgt) : Nat → List Byte
  | 0 => []
  | n + 1 => (s.tgtWord t).extractLsb' (8 * (t.off % 8)) 8 :: s.regBytes (t.plus 1) n

/-- Bytes of a word from byte k on; the others are 0. -/
def placeBytes (k : Nat) : List Byte → Word
  | [] => 0
  | b :: bs => (b.setWidth 64 <<< (8 * k)) ||| placeBytes (k + 1) bs
/-- A word with bytes from byte k on replaced. -/
def putBytes (w : Word) (k : Nat) (bs : List Byte) : Word :=
  (w &&& ~~~ placeBytes k (List.replicate bs.length 0xFF)) ||| placeBytes k bs
/-- The bits of n bytes whose nibbles a mask names. -/
def maskBytes (mask : BitVec 32) (n : Nat) : List Byte :=
  (List.range n).map (fun i => BitVec.ofNat 8
    ((if mask.getLsbD (2 * i) then 0x0F else 0) + (if mask.getLsbD (2 * i + 1) then 0xF0 else 0)))

/-- A write of bytes of registers, of the nibbles that a mask names: each word is written once (R432, R192). -/
def State.regWrite (s : State) (pr : BitVec 2) (t : Tgt) : Nat → List Byte → BitVec 32 → State
  | 0, _, _ => s
  | _, [], _ => s
  | n + 1, bs, mask =>
    let k := t.off % 8
    let here := bs.take (8 - k)
    (s.setTgtBits pr t (placeBytes k here) (placeBytes k (maskBytes mask here.length))).regWrite pr (t.plus (8 - k)) n
      (bs.drop (8 - k)) (mask >>> (2 * (8 - k)))

end Sys2Proof.Machine
end

