-- ==== Sys2Proof/Machine/Access.lean ====
section
/-! DEFINITION. How an instruction can end, and the accesses of a thread: the checks of R175, plain loads
and stores over memory, watched pages, peers and registers, releases and acquires (R110-R122, R131-R138,
R175, R176, R183, R190, R348, R392, R432). -/

namespace Sys2Proof.Machine

/-! ## How an instruction ends -/

/-- What the meaning of an instruction comes to. -/
inductive Eff where
  /-- It completes, and the PC goes on by 12 or round a loop. -/
  | done (s : State)
  /-- It transfers control. -/
  | jump (s : State) (pc : Word)
  /-- It traps, with c3 = PC, or PC + 12 where `next` (R305). -/
  | trap (s : State) (cause sub : Nat) (c4 c5 : Word) (next : Bool)
  /-- It waits, its operands read. -/
  | wait (s : State) (w : Wait)
  /-- It cannot issue now and is executed again. -/
  | stall (s : State)
  /-- Its unit has ended or failed. -/
  | ended (s : State)
deriving DecidableEq, Repr

/-- A value with the state after it, or an early end. -/
inductive Got (α : Type) where
  | ok (s : State) (v : α)
  | stop (e : Eff)

/-- Go on with a value. -/
def Got.bind {α β : Type} (g : Got α) (f : State → α → Got β) : Got β :=
  match g with
  | .ok s v => f s v
  | .stop e => .stop e
/-- Go on to the end of the instruction. -/
def Got.fin {α : Type} (g : Got α) (f : State → α → Eff) : Eff :=
  match g with
  | .ok s v => f s v
  | .stop e => e

/-! ## The thread as an agent -/

/-- Agent ID of thread t. -/
def State.tid (s : State) (t : Nat) : BitVec 32 := agentId s.pkg (.thread t)

/-- The context of a thread's accesses: its unit's partition and ASID, at a privilege. -/
def State.ctxAt (s : State) (t : Nat) (priv : BitVec 2) : Ctx :=
  match (s.thr t).unit with
  | some u => ⟨s.tid t, coreOf t, if u.kind = .firmware then none else some u.part, u.asid, priv, some t, [], 0⟩
  | none => ⟨s.tid t, coreOf t, some 0, 0, priv, some t, [], 0⟩
def State.ctx (s : State) (t : Nat) : Ctx := s.ctxAt t (s.thr t).priv
/-- Whose a thread's accesses are. -/
def State.whose (s : State) (t : Nat) : Whose := ⟨s.partOf t, (s.ctx t).asid, none⟩

/-- The dual run of a thread, if it is one (R392). -/
def State.dual? (s : State) (t : Nat) : Option Dual := (s.thr t).unit.bind UnitInfo.dual
/-- R392: a dual run does what it may not, and its delivery fails. -/
def State.dualFail (s : State) (t sub : Nat) : Eff :=
  .ended (s.failUnit t (s.threadRec t 0x26 sub) false)

/-- X[43:40] of a format-M instruction (R174). -/
def kindOf (sp_ : Space) (sz : Nat) : BitVec 4 :=
  BitVec.ofNat 4 ((match sp_ with
    | .g => 0
    | .sp => 4
    | .cm => 8) + sz)

/-! ## Checks (R175, R190, R194) -/

/-- One lane's access, or a scalar's (lane 0xFF), checked. -/
structure Piece where
  lane : Nat
  ea   : Word
  segs : List Seg
deriving DecidableEq, Repr, Inhabited

/-! ## Peers (R133) -/

/-- c5 of a REMOTE_FAULT (R132). -/
def remoteInfo (count : Nat) (pkg : BitVec 9) (reason : BitVec 8) : Word :=
  let lo : BitVec 25 := pkg ++ BitVec.ofNat 8 count ++ reason
  (0 : BitVec 39) ++ lo

/-- R133: a refused load or atomic of thread t, with the record of R132. -/
def State.refusedTrap (s : State) (g : Seg) (r : BitVec 8) : Eff :=
  .trap s 0x0C 0 (BitVec.ofNat 64 g.va) (remoteInfo 1 (BitVec.ofNat 9 (paPkg g.pa)) r) false

/-! ## Checks of an instruction (R175, R190, R194) -/

/-- A lane of a load has failed a check; the peer accesses of lower lanes come first, and the first that is refused
decides (R194, check 6 of R175). -/
def State.laneFails (s : State) (t : Nat) (wr : Bool) (lower : List Piece) (e : State → Eff) : Eff :=
  let peers := if wr then [] else s.peerSegs (lower.flatMap Piece.segs)
  match s.peerAll (s.tid t) (s.whose t) 2 (fun g => [BitVec.ofNat 8 g.len]) peers with
  | (s, none) => .stall s
  | (s, some ans) =>
    match refusal peers ans with
    | some (g, r) => s.refusedTrap g r
    | none => e s

/-- R175 for the accesses of an instruction, n bytes each and aligned to `al`, lane by lane: the first lane
that fails decides, by its first check. `sync` marks a synchronisation access (R135). -/
def State.checksFrom (s : State) (t : Nat) (acc : Acc) (wr sync : Bool) (sp_ : Space) (kind : BitVec 4)
    (n al : Nat) (lower : List Piece) : List (Nat × Word) → Got (List Piece)
  | [] => .ok s lower
  | (lane, ea) :: rest =>
    if ea.toNat % al ≠ 0 then
      .stop (s.laneFails t wr lower (fun s => .trap s 0x06 0 ea (accInfo lane wr kind) false))
    else
      match s.check (s.ctx t) acc sp_.toC ea n with
      | (s, .fail cause sub a) =>
        .stop (s.laneFails t wr lower (fun s =>
          .trap s cause sub (BitVec.ofNat 64 a) (accInfo lane wr kind) false))
      | (s, .wait) => .stop (.stall s)
      | (s, .ok segs) =>
        match (if sync then none else s.conflicts (s.tid t) wr segs) with
        | some w => .stop (s.laneFails t wr lower (fun s => .trap s 0x0B 0 ea (conflictInfo wr w) false))
        | none => s.checksFrom t acc wr sync sp_ kind n al (lower ++ [⟨lane, ea, segs⟩]) rest
def State.checks (s : State) (t : Nat) (acc : Acc) (wr sync : Bool) (sp_ : Space) (kind : BitVec 4)
    (n al : Nat) (l : List (Nat × Word)) : Got (List Piece) :=
  s.checksFrom t acc wr sync sp_ kind n al [] l

/-- One scalar access. -/
def State.check1 (s : State) (t : Nat) (acc : Acc) (wr sync : Bool) (sp_ : Space) (kind : BitVec 4)
    (n al : Nat) (ea : Word) : Got (List Piece) :=
  s.checks t acc wr sync sp_ kind n al [(0xFF, ea)]

/-! ## Accesses left in the issue queue (R114, R115) -/

/-- An entry of an issue queue that has yet to be performed or to enter the store buffer, with its nibbles. -/
def IqEntry.locs : IqEntry → Option Nibs
  | .load _ _ _ _ pa n _ => some (nibsOf pa (List.replicate n 0))
  | .store st => some st.nibs
  | .atom _ _ _ pa n _ _ => some (nibsOf pa (List.replicate n 0))
  | .peer .. | .got .. => none
/-- Its number in program order. -/
def IqEntry.no : IqEntry → Nat
  | .load n _ _ _ _ _ _ | .atom n _ _ _ _ _ _ => n
  | .store st => st.id
  | .peer .. | .got .. => 0
/-- Is it a load, or an atomic, which loads? -/
def IqEntry.loads : IqEntry → Bool
  | .load .. | .atom .. => true
  | .store .. | .peer .. | .got .. => false
/-- Does an issue queue hold accesses left there? -/
def iqBusy (q : List IqEntry) : Bool := q.any (fun e => e.locs.isSome)
/-- Does it hold loads or atomics? -/
def iqLoads (q : List IqEntry) : Bool := q.any IqEntry.loads
/-- Does one of them overlap the locations? -/
def iqOverlap (q : List IqEntry) (locs : Nibs) : Bool :=
  q.any (fun e => match e.locs with
    | some ns => nibOverlap ns locs
    | none => false)
/-- Does one of them lie in an array window (R250)? -/
def iqArray (q : List IqEntry) : Bool :=
  q.any (fun e => match e.locs with
    | some ((l, _) :: _) =>
      let a := paLocal (l / 2)
      regionOf a == .core && decide (0x180000 ≤ (a - coreWin) % 0x300000)
    | _ => false)
/-- The specifiers of the registers that loads and atomics left there will write. -/
def claims (q : List IqEntry) : List Nat :=
  q.filterMap (fun e => match e with
    | .load _ _ (.s (.r n) _) _ _ _ _ | .atom _ (.s (.r n) _) _ _ _ _ _ => some n.toNat
    | .load _ _ (.v n _) _ _ _ _ => some (32 + n.toNat)
    | .atom _ (.p n) _ _ _ _ _ => if n = 0 then none else some (0x40 + n.toNat)
    | _ => none)

/-! ## Loads -/

/-- The run of a unit. -/
def SUnit.seg (u : SUnit) : Seg := ⟨u.va, u.tgt, u.bytes.length⟩
/-- The nibbles that a unit writes at an address. -/
def SUnit.nibs (u : SUnit) (pa : Nat) : Nibs :=
  (nibsOf pa u.bytes).filter (fun p => u.mask.getLsbD (p.1 - 2 * pa))

/-- The physical address of a target: a register's is its place in its window (R331, R333). -/
def State.tgtPa (s : State) (t : Tgt) : Nat :=
  match t with
  | .mem pa _ => pa
  | .ctl off => mkPa s.pkg (ctlWin + off)
  | .regp c off => mkPa s.pkg (regBase c + off)

/-- The nibbles of a held store. -/
def HeldStore.nibs (x : HeldStore) : Nibs := x.unit.nibs x.pa
/-- The value that a dual run's held stores give a location (R392). -/
def heldNib (d : Option Dual) (loc : Nat) : Option (BitVec 4) :=
  match d with
  | some d => d.held.reverse.findSome? (fun x => nibFind x.nibs loc)
  | none => none
/-- Bytes at an address as a dual run's held stores leave them. -/
def overlay (d : Option Dual) (a : Nat) : List Byte → List Byte
  | [] => []
  | b :: bs =>
    ((heldNib d (2 * a + 1)).getD (b.extractLsb' 4 4) ++ (heldNib d (2 * a)).getD (b.extractLsb' 0 4)) ::
      overlay d (a + 1) bs

/-- The bytes of one run for a load of an agent: at the LLC on a watched page (R135), at the register (R432),
else by R114; a load with a tag of a thread's, with `fill`, fills the caches (R340). Its own older stores to a watched
page have been brought to the LLC before. -/
def State.readSeg (s : State) (x : Ctx) (fill : Bool) (hint : BitVec 3) (g : Seg) : State × List Byte :=
  match g.tgt with
  | .mem pa pte =>
    if pteWatch pte then
      (s, s.atomRead pa g.len)
    else
      let tag := s.cacheTag x hint g
      let s := if fill then s.fillRun x.ag tag pa g.len else s
      (s, s.loadBytes x.ag tag pa g.len)
  | r => (s, s.regBytes r g.len)

/-- The bytes of runs in order, those of peers from their answers. -/
def State.readSegs (s : State) (x : Ctx) (fill : Bool) (hint : BitVec 3) (ans : List PeerAns) :
    List Seg → State × List Byte
  | [] => (s, [])
  | g :: gs =>
    if !g.tgt.isReg && s.isPeer g.pa then
      let here := match ans with
        | .reply d :: _ => (List.range g.len).map (fun i => d.getD i 0)
        | _ => List.replicate g.len 0
      let (s, rest) := s.readSegs x fill hint (ans.drop 1) gs
      (s, here ++ rest)
    else
      let (s, here) := s.readSeg x fill hint g
      let (s, rest) := s.readSegs x fill hint ans gs
      (s, here ++ rest)

/-- The first run of an instruction that meets poison (R348). -/
def State.poisonedIn (s : State) (x : Ctx) (ps : List Piece) : Option Piece :=
  ps.find? (fun p => p.segs.any (s.poisonSeg x))

/-- The poisoned tile or accumulator that a run of an array window meets: the sub-cause of HWERR and its
offset (R386, R389). -/
def State.arrPoison (s : State) (g : Seg) : Option (Nat × Nat) :=
  let l := paLocal g.pa
  if g.tgt.isReg || s.isPeer g.pa || l < coreWin || clusWin ≤ l || (l - coreWin) % 0x300000 < 0x180000 then none
  else
    let k := s.core ((l - coreWin) / 0x300000)
    let o := (l - coreWin) % 0x300000 - 0x180000
    let hits (b : Nat) : Bool := decide (b < o + g.len) && decide (o < b + 9216)
    match k.poisonT.find? (fun n => hits (9216 * n)) with
    | some n => some (3, 9216 * n)
    | none =>
      match k.poisonA.find? (fun n => hits (147456 + 9216 * n)) with
      | some n => some (4, 147456 + 9216 * n)
      | none => none

/-- Cut a list into the bytes of the pieces. -/
def cutPieces (bs : List Byte) : List Piece → List (List Byte)
  | [] => []
  | p :: ps =>
    let n := (p.segs.map Seg.len).foldl (· + ·) 0
    bs.take n :: cutPieces (bs.drop n) ps

/-- Bytes of runs as a dual run's held stores leave them (R392). -/
def State.overlaySegs (s : State) (d : Option Dual) (gs : List Seg) (bs : List Byte) : List Byte :=
  match d with
  | none => bs
  | some _ => (gs.foldl (fun (l : List Byte × List Byte) g =>
      (l.1 ++ overlay d (s.tgtPa g.tgt) (l.2.take g.len), l.2.drop g.len)) ([], bs)).1

/-- The agent's older stores to what runs on watched pages name are brought to the LLC, where the access is performed
(R135); false while a release of its own holds one back (R119). -/
def State.watchClear (s : State) (id : BitVec 32) (gs : List Seg) : State × Bool :=
  (gs.filter Seg.watched).foldl (fun (r : State × Bool) g =>
    let (s, b) := r.1.cleared id 6 g.locs
    (s, r.2 && b)) (s, true)

/-- A plain, acquire or waiting load of an instruction's pieces: their bytes, in order. It waits for older accesses
left in the issue queue that overlap it (R114), for room for its records (R346), and on watched pages for older stores
of its own (R117). -/
def State.readPieces (s : State) (t : Nat) (plain : Bool) (hint : BitVec 3) (ps : List Piece) :
    Got (List (List Byte)) :=
  let x := s.ctx t
  let gs := ps.flatMap Piece.segs
  let peers := s.peerSegs gs
  if gs.any (fun g => !g.tgt.isReg && iqOverlap (s.agent x.ag).iq g.locs) ||
      (plain && !s.watchFits x.ag (s.agent x.ag).stamp false gs) then .stop (.stall s)
  else
  match s.watchClear x.ag gs with
  | (s, false) => .stop (.stall s)
  | (s, true) =>
  match s.peerAll x.ag (s.whose t) 2 (fun g => [BitVec.ofNat 8 g.len]) peers with
  | (s, none) => .stop (.stall s)
  | (s, some ans) =>
    match refusal peers ans with
    | some (g, r) => .stop (s.refusedTrap g r)
    | none =>
      match gs.findSome? s.arrPoison with
      | some (sub, o) => .stop (.ended (s.hwErr t 0x22 sub (BitVec.ofNat 64 o)))
      | none =>
      match s.poisonedIn x ps with
      | some p => .stop (.ended (s.hwErr t 0x23 0 p.ea))
      | none =>
        let s := if plain then s.watchAll x.ag false gs else s
        let (s, bs) := s.readSegs x plain hint ans gs
        .ok s (cutPieces (s.overlaySegs (s.dual? t) gs bs) ps)

/-! ## Stores -/

/-- The units of a piece: one when it is naturally aligned, else one for each byte (R183). -/
def unitsOf (p : Piece) (bs : List Byte) (mask : BitVec 32) : List SUnit :=
  match p.segs with
  | [g] => if p.ea.toNat % g.len = 0 ∨ p.lane ≠ 0xFF then [⟨g.va, g.tgt, bs, mask⟩]
    else (List.range g.len).map (fun i => ⟨g.va + i, g.tgt.plus i, [bs.getD i 0], mask⟩)
  | gs =>
    (gs.foldl (fun (l : List SUnit × Nat) g =>
      (l.1 ++ (List.range g.len).map (fun i => ⟨g.va + i, g.tgt.plus i, [bs.getD (l.2 + i) 0], mask⟩),
        l.2 + g.len)) ([], 0)).1

/-- The sectors that a dual run's held stores take (R392). -/
def heldSectors (l : List HeldStore) : Nat :=
  (rising (l.flatMap (fun x => x.nibs.map (fun p => secBase (p.1 / 2))))).length

/-- The sectors of memory that the units of an instruction write whole (R348). -/
def wholeSectors (us : List SUnit) : List Nat :=
  let ns := us.flatMap (fun u => match u.tgt with
    | .mem pa _ => u.nibs pa
    | .ctl _ | .regp .. => [])
  (rising (ns.map (fun p => secBase (p.1 / 2)))).filter (fun a =>
    (List.range 96).all (fun i => (nibFind ns (2 * a + i)).isSome))

/-- A store of thread t that is next in program order enters its buffer, or its issue queue when it is late or
loads there precede it (R115). -/
def State.placeStore (s : State) (t : Nat) (st : SbStore) : State :=
  let id := s.tid t
  let a := s.agent id
  let s := if s.late || iqLoads a.iq || iqOverlap a.iq st.nibs then s.setAgent id { a with iq := a.iq ++ [.store st] }
    else s.bufferSt id st
  { s with serial := s.serial + 1 }

/-- The store that a unit of an instruction's makes; `grp` and `wipe` as in its tag. -/
def State.stOf (s : State) (t : Nat) (rel : Option Nat) (grp : Bool) (wipe : List Nat) (s0 : Nat) (va pa : Nat)
    (ns : Nibs) : SbStore :=
  ⟨⟨s.serial, if grp then s0 + 1 else 0, if wipe.contains (secBase pa) then s0 + 1 else 0, BitVec.ofNat 64 va, rel,
    s.whose t⟩, ns⟩

/-- A unit of a store of thread t is performed, or is placed; on a watched page it is performed at the LLC (R135),
in a register at once (R432). -/
def State.storeUnit (s : State) (t : Nat) (rel : Option Nat) (grp : Bool) (wipe : List Nat) (s0 : Nat) (u : SUnit) :
    State :=
  let id := s.tid t
  match u.tgt with
  | .mem pa pte =>
    let ns := u.nibs pa
    if ns.isEmpty then s
    else if pteWatch pte && rel.isNone then (s.drainOver id 6 ns).atomWriteN id ns
    else s.placeStore t (s.stOf t rel grp wipe s0 u.va pa ns)
  | r => s.regWrite (s.thr t).priv r (u.bytes.length + 1) u.bytes u.mask

/-- The sectors that the units of an instruction on watched pages, where they are performed at once, write whole. -/
def wholeWatched (us : List SUnit) : List Nat := wholeSectors (us.filter (fun u => u.seg.watched))

/-- The units of an instruction, in order; sectors of watched pages that it writes whole lose their poison (R348). -/
def State.storeUnits (s : State) (t : Nat) (rel : Option Nat) (us : List SUnit) : State :=
  let grp := us.length != 1 && us.all (fun u => u.bytes.length == 1)
  let wipe := wholeSectors us
  (us.foldl (fun (x : State) u => x.storeUnit t rel grp wipe s.serial u) s).heal
    (if rel.isNone then wholeWatched us else [])

/-- A store to a watched page waits for the loads before it (R115) and for room for its record (R346). -/
def State.storeWaits (s : State) (t : Nat) (rel : Option Nat) (us : List SUnit) : Bool :=
  let id := s.tid t
  let ws := us.filter (fun u => u.seg.watched)
  rel.isNone && ((!ws.isEmpty && iqBusy (s.agent id).iq) ||
    !s.watchFits id (s.agent id).stamp true (ws.map SUnit.seg))

/-- The units of an instruction as a dual run holds them (R392). -/
def State.heldOf (s : State) (us : List SUnit) : List HeldStore :=
  let wipe := wholeSectors us
  us.map (fun u => ⟨u, s.tgtPa u.tgt, if wipe.contains (secBase (s.tgtPa u.tgt)) then s.serial + 1 else 0⟩)

/-- A dual run's stores outside its scratchpad are held. -/
def State.holdStores (s : State) (t : Nat) (d : Dual) (us : List SUnit) : Got Unit :=
  let held := d.held ++ s.heldOf us
  if 256 < heldSectors held then .stop (s.dualFail t 2)
  else .ok { s.updThr t (fun h => { h with unit := h.unit.map (fun x => { x with
    dual := some { d with held := held } }) }) with serial := s.serial + 1 } ()

/-- May the stores of an instruction be made now? Plain ones to watched pages wait for what `storeWaits` says, and until
older stores of the thread's to what they write are at the LLC (R117). -/
def State.storeReady (s : State) (t : Nat) (rel : Option Nat) (us : List SUnit) : State × Bool :=
  if s.storeWaits t rel us then (s, false)
  else if rel.isNone then s.watchClear (s.tid t) (us.map SUnit.seg)
  else (s, true)

/-- The stores of an instruction, which may be made now: performed, or held in a dual run. -/
def State.storeAll (s : State) (t : Nat) (sp_ : Space) (rel : Option Nat) (us : List SUnit) : Got Unit :=
  match s.dual? t with
  | some d => if sp_ = .sp then .ok (s.storeUnits t rel us) () else s.holdStores t d us
  | none => .ok (s.storeUnits t rel us) ()

/-- A plain store records its access to watched sectors (R137). -/
def State.watchStore (s : State) (t : Nat) (ps : List Piece) : State :=
  s.watchAll (s.tid t) true (ps.flatMap Piece.segs)

/-! ## Releases and acquires (R118, R119, R131, R132, R136) -/

/-- R132: the unreported refusal of a thread is reported. -/
def State.reportRef (s : State) (t : Nat) : Eff :=
  let id := s.tid t
  let a := s.agent id
  let s := (s.setAgent id { a with ref := default }).updThr t (fun h =>
    { h with status := withRfp h.status false })
  .trap s 0x0C 0 a.ref.addr (remoteInfo a.ref.count a.ref.pkg a.ref.reason) false

/-- What a release at scope sc needs: every earlier access done up to that scope, and at pod every peer
store answered and no refusal unreported. -/
def State.releaseAt (s : State) (t sc : Nat) : Got Unit :=
  let id := s.tid t
  if iqBusy (s.agent id).iq then .stop (.stall s)
  else
    let s := s.drain id sc
    if (s.storeLevels id).any (fun p => decide (p.2 < sc)) || (sc == 7 && !s.peersDone id) then
      .stop (.stall s)
    else if sc = 7 ∧ 0 < (s.agent id).ref.count then .stop (s.reportRef t)
    else .ok s ()

/-- The release side of an access, if it has one. -/
def State.releaseIf (s : State) (t : Nat) (rel : Bool) (sc : Nat) : Got Unit :=
  if rel then s.releaseAt t sc else .ok s ()
/-- The acquire side of an access, if it has one (R118). -/
def State.acquireIf (s : State) (t : Nat) (acq : Bool) (sc : Nat) : State :=
  if acq then s.acquire (s.tid t) sc else s
/-- A synchronisation access ends the region (R136). -/
def State.regionIf (s : State) (t : Nat) (sync : Bool) : State :=
  if sync then s.newRegion (s.tid t) else s

/-! ## Atomics (R120, R186-R189, R339) -/

/-- R186: the operation on n bytes. -/
def amoOp (op : AmoOp) (n old b : Nat) : Nat :=
  let w := 8 * n
  let x := BitVec.ofNat w old
  let y := BitVec.ofNat w b
  (match op with
    | .add => x + y | .and => x &&& y | .or => x ||| y | .xor => x ^^^ y
    | .min => if x.slt y then x else y
    | .max => if x.slt y then y else x
    | .minu => if x.ult y then x else y
    | .maxu => if x.ult y then y else x
    | .swap => y).toNat

/-- R188: the operation on a 4-byte word, with its flags. -/
def amofOp (op : AmofOp) (old b : Nat) : Nat × Flags :=
  match op with
  | .fadd => FF.f32.add .rne old b
  | .fmin => FF.f32.minmax false old b
  | .fmax => FF.f32.minmax true old b
  | .fadd2 =>
    let (x, fl) := mapLane .bf16x2 (fun k =>
      FF.bf16.add .rne (elemOf 16 (BitVec.ofNat 32 old) k) (elemOf 16 (BitVec.ofNat 32 b) k))
    (x.toNat, fl)

/-! ### Futures (R277, R278) -/

/-- FWR on the bits of a future, and whether it was refused. -/
def futWrite (x : BitVec 128) (v : Word) : BitVec 128 × Bool :=
  if x.getLsbD 64 then
    let n := x.extractLsb' 96 32
    let n : BitVec 32 := if n = 0xFFFFFFFF then n else n + 1
    (n ++ x.extractLsb' 0 96, true)
  else (x.extractLsb' 96 32 ++ (0 : BitVec 31) ++ (1 : BitVec 1) ++ v, false)
def futFull (x : BitVec 128) : Bool := x.getLsbD 64
def futValue (x : BitVec 128) : Word := x.extractLsb' 0 64

/-! ### One step -/

/-- What an atomic writes in place of n old bytes, if it writes, and the flags that it raises. -/
def AtomOp.apply (op : AtomOp) (n old : Nat) : Option Nat × Flags :=
  match op with
  | .amo o b => (some (amoOp o n old b.toNat), 0)
  | .cas b c => (if old = c.toNat % 2 ^ (8 * n) then some (b.toNat % 2 ^ (8 * n)) else none, 0)
  | .amof o b => (some (amofOp o old (b.toNat % 2 ^ 32)).1, (amofOp o old (b.toNat % 2 ^ 32)).2)
  | .futRead => (none, 0)
  | .futWrite v => (some (Machine.futWrite (BitVec.ofNat 128 old) v).1.toNat, 0)

/-- What a request to a peer says of an atomic: its code, its size and its operands. -/
def AtomOp.data (op : AtomOp) (n : Nat) : List Byte :=
  let (k, b, c) : Nat × Word × Word := match op with
    | .amo o b => (o.code.toNat, b, 0)
    | .cas b c => (10, b, c)
    | .amof o b => (10 + o.code.toNat, b, 0)
    | .futRead => (16, 0, 0)
    | .futWrite v => (15, v, 0)
  BitVec.ofNat 8 k :: BitVec.ofNat 8 n :: (bytesOfNat n b.toNat ++ bytesOfNat n c.toNat)

/-- An atomic on n bytes of local memory in one step: the old bytes, and the state after. It waits for the agent's
older stores to overlapping locations (R120); false while one is held back. -/
def State.atomStep (s : State) (id : BitVec 32) (pa n : Nat) (op : AtomOp) : State × Option Nat :=
  let locs := nibsOf pa (List.replicate n 0)
  let l := s.atomLevel id pa
  match s.cleared id l locs with
  | (s, false) => (s, none)
  | (s, true) =>
    let old := natOfBytes (s.atomRead pa n)
    (match (op.apply n old).1 with
      | some x => s.atomWrite id pa (bytesOfNat n x)
      | none => s, some old)

/-- One atomic access of thread t to a checked piece: its old bytes, after the new ones are written. -/
def State.atomic (s : State) (t : Nat) (p : Piece) (n : Nat) (op : AtomOp) : Got Nat :=
  let id := s.tid t
  match p.segs with
  | g :: _ =>
    if g.tgt.isReg then
      let old := natOfBytes (s.regBytes g.tgt n)
      .ok (match (op.apply n old).1 with
        | some x => s.regWrite (s.thr t).priv g.tgt (n + 1) (bytesOfNat n x) 0xFFFFFFFF
        | none => s) old
    else if iqOverlap (s.agent id).iq g.locs then .stop (.stall s)
    else if s.isPeer g.pa then
      match s.peerAll id (s.whose t) 3 (fun _ => op.data n) [g] with
      | (s, some (.reply d :: _)) => .ok s (natOfBytes ((List.range n).map (fun i => d.getD i 0)))
      | (s, some (.refuse r :: _)) =>
        .stop (.trap s 0x0C 0 p.ea (remoteInfo 1 (BitVec.ofNat 9 (paPkg g.pa)) r) false)
      | (s, some _) => .ok s 0
      | (s, none) => .stop (.stall s)
    else if s.poisoned g.pa n then .stop (.ended (s.hwErr t 0x23 0 p.ea))
    else
      match s.atomStep id g.pa n op with
      | (s, some old) => .ok s old
      | (s, none) => .stop (.stall s)
  | [] => .ok s 0

end Sys2Proof.Machine
end

