-- ==== Sys2Proof/Machine/Ops.lean ====
section
/-! DEFINITION. What every instruction of a thread shares: frames with their spills and fills (R18-R20),
taking a trap (R306) and returning from one (R307), the tags of a recording (R286-R288), the fetch of a
word (R103-R107), and issue itself: guard, loops, traps and waits (R35, R92, R102). -/

namespace Sys2Proof.Machine

/-! ## Loops (R35) -/

/-- The loop test at a PC over the loops listed: the thread with its counts, and the next PC, which is
`after` where no loop goes round. -/
def Thread.loopEnd (h : Thread) (pc after : Word) : List (Fin 4) → Thread × Word
  | [] => (h, after)
  | n :: ns =>
    if h.lc[n] ≠ 0 ∧ h.le[n] = pc then
      if 1 < (h.lc[n]).toNat then ({ h with lc := h.lc.set n (h.lc[n] - 1) }, h.ls[n])
      else { h with lc := h.lc.set n 0 }.loopEnd pc after ns
    else h.loopEnd pc after ns

/-- How far an instruction reaches: one word, and for REPB its body too (R225). -/
def reach (i : Instr) : Word :=
  match i with
  | .repb _ _ _ _ n _ _ _ _ _ => 12 * (BitVec.ofNat 64 n.toNat + 2)
  | _ => 12

/-- The end of an instruction that does not transfer control and reaches d bytes. -/
def Thread.advance (h : Thread) (d : Word) : Thread :=
  let (h, pc) := h.loopEnd h.pc (h.pc + d) [0, 1, 2, 3]
  { h with pc }

/-! ## Frames (R18-R20) -/

/-- The n bytes at an offset of runs. -/
def segSlice : List Seg → Nat → Nat → Seg
  | [], _, n => ⟨0, .mem 0 0, n⟩
  | g :: gs, o, n => if o < g.len then ⟨g.va + o, g.tgt.plus o, n⟩ else segSlice gs (o - g.len) n

/-- The sixteen words of a unit of 128 bytes. -/
def framePieces (addr : Nat) (segs : List Seg) : List Piece :=
  (List.range 16).map (fun i => ⟨0xFF, BitVec.ofNat 64 (addr + 8 * i), [segSlice segs (8 * i) 8]⟩)

/-- R20: the checks of a spill or fill of the unit at an address, in the order of the sub-causes. -/
def State.spillCheck (s : State) (t : Nat) (wr : Bool) (addr : Nat) : Got (List Piece) :=
  let c4 := BitVec.ofNat 64 addr
  let c5 := accInfo 0xFF wr 0
  if vaEnd < addr + 128 then .stop (.trap s 0x05 2 c4 c5 false)
  else
    match s.check (s.ctx t) (if wr then .write else .read) .g c4 128 with
    | (s, .fail cause _ _) =>
      .stop (.trap s 0x05 (if cause = 0x09 then 3 else if cause = 0x0A then 4 else 2) c4 c5 false)
    | (s, .wait) => .stop (.stall s)
    | (s, .ok segs) =>
      match s.conflicts (s.tid t) wr segs with
      | some w => .stop (.trap s 0x0B 0 c4 (conflictInfo wr w) false)
      | none => .ok s (framePieces addr segs)

/-- R18, R19: open a frame with the given registers, spilling the oldest of eight. -/
def State.openFrame (s : State) (t : Nat) (f : Vector Word 16) : Got Unit :=
  let h := s.thr t
  if h.outer.length < 7 then .ok (s.setThr t { h with frame := f, outer := h.frame :: h.outer }) ()
  else
    let addr := h.spbase.toNat + 128 * h.sd
    if h.splim.toNat < addr + 128 then .stop (.trap s 0x05 1 (BitVec.ofNat 64 addr) 0 false)
    else
      let old := (h.outer.getLast?).getD h.frame
      (s.spillCheck t true addr).bind (fun s ps =>
        let us := (ps.zip old.toList).flatMap (fun p => unitsOf p.1 (bytesOfNat 8 p.2.toNat) 0xFFFFFFFF)
        match s.storeReady t none us with
        | (s, false) => .stop (.stall s)
        | (s, true) =>
          ((s.watchStore t ps).storeAll t .g none us).bind (fun s _ =>
            .ok (s.updThr t (fun h => { h with
              frame := f, outer := h.frame :: h.outer.dropLast, sd := h.sd + 1 })) ()))

/-- The call depth. -/
def Thread.depth (h : Thread) : Nat := h.sd + h.outer.length

/-- R18, R19: close the current frame, filling the caller's if it is not resident. -/
def State.closeFrame (s : State) (t : Nat) : Got Unit :=
  let h := s.thr t
  match h.outer with
  | f :: fs => .ok (s.setThr t { h with frame := f, outer := fs }) ()
  | [] =>
    let addr := h.spbase.toNat + 128 * (h.sd - 1)
    (s.spillCheck t false addr).bind (fun s ps =>
      (s.readPieces t true 0 ps).bind (fun s ws =>
        let f : Vector Word 16 := Vector.ofFn (fun i => BitVec.ofNat 64 (natOfBytes (ws.getD i.val [])))
        .ok (s.updThr t (fun h => { h with frame := f, sd := h.sd - 1 })) ()))

/-! ## Traps (R306) -/

/-- A trap that cannot be taken fails the unit (R28, R306, R389). -/
def State.trapLost (s : State) (t sub : Nat) (c2 c4 : Word) : State :=
  s.failUnit t { s.threadRec t 0x21 sub with info0 := c2, info1 := c4 } false

/-- c2 of a cause and a sub-cause (R29). -/
def causeWord (cause sub : Nat) : Word := BitVec.ofNat 64 (cause + 256 * sub)

/-- The address of the handler for the privilege that a trap is taken to, as it stands: R306 and R335 set no alignment
for TRAPVEC, so a PC that is no multiple of 12 may follow (log 53). -/
def State.vector (s : State) (t : Nat) (priv : BitVec 2) : Word :=
  if priv = privM then Config.firmwareVector else (s.part (s.partOf t)).trapvec

/-- R306: take a trap. A spill that must wait for a page puts it off. A vector that is no multiple of 12 is taken as it
stands, and fetch reads the 12 bytes at that offset of the line (R103, log 53). -/
def State.takeTrap (s : State) (t cause sub : Nat) (c3 c4 c5 : Word) : Got Unit :=
  let s := s.abortRec t 3
  let h := s.thr t
  let c2 := causeWord cause sub
  if stTh h.status then .ok (s.trapLost t 1 c2 c4) ()
  else
    match s.openFrame t (Vector.replicate 16 0) with
    | .stop (.stall s) => .stop (.stall s)
    | .stop _ => .ok (s.trapLost t 3 c2 c4) ()
    | .ok s _ =>
      let st := trapStatus h.status
      let vec := s.vector t (stPriv st)
      if stPriv st ≠ privM ∧ vec = 0 then .ok (s.trapLost t 2 c2 c4) ()
      else
        .ok (s.updThr t (fun h => { h with
          tcause := c2, tpc := c3, taddr := c4, tinfo := c5, status := st, pc := vec, slept := none })) ()

/-- The word of an instruction. -/
def wordOf (i : Instr) : IWord := (encode i).getD 0

/-- c4 and c5 of ILLEGAL and PRIVILEGE: the word (R101, R305). -/
def wordLo (w : IWord) : Word := w.extractLsb' 0 64
def wordHi (w : IWord) : Word := (w.extractLsb' 64 32).setWidth 64
def State.illegal (s : State) (i : Instr) (sub : Nat) : Eff :=
  .trap s 0x01 sub (wordLo (wordOf i)) (wordHi (wordOf i)) false
def State.privTrap (s : State) (i : Instr) : Eff :=
  .trap s 0x02 0 (wordLo (wordOf i)) (wordHi (wordOf i)) false
/-- R105: a target that is not a multiple of 12. -/
def State.badTarget (s : State) (i : Instr) (target : Word) : Eff :=
  .trap s 0x01 7 target (wordHi (wordOf i)) false

/-- R307, after its privilege: return from a trap to a target. At depth 0 there is no frame to close, and
the fill counts as failing (log 30). -/
def State.eret (s : State) (t : Nat) (i : Instr) (target : Word) : Eff :=
  let h := s.thr t
  if !stTh h.status then s.illegal i 10
  else if target.toNat % 12 ≠ 0 then s.badTarget i target
  else if h.depth = 0 then .ended (s.trapLost t 4 0x05 h.spbase)
  else
    match s.closeFrame t with
    | .stop (.stall s) => .stall s
    | .stop (.trap s cause sub c4 _ _) => .ended (s.trapLost t 4 (causeWord cause sub) c4)
    | .stop e => e
    | .ok s _ => .jump (s.updThr t (fun h => { h with status := eretStatus h.status })) target

/-! ## Recording (R286-R288) -/

/-- Instructions whose execution aborts a recording with OUTC 3 (R181, R230, R260, R286). WAITA and BARW are among
them, as R286 lists them, though R181 says that the other instructions of its chapter execute normally (log 53). -/
def aborts3 : Instr → Bool
  | .st .. | .vst .. | .vsts .. | .vscat .. | .amo .. | .cas .. | .amof .. | .bari .. | .bara .. | .barx ..
  | .repb .. | .waita .. | .barw .. | .fork .. | .join .. | .finit .. | .frd .. | .fwr .. | .qpush ..
  | .qpop .. | .launch .. | .cancel .. | .cntrd .. | .send .. | .sendm .. | .reply .. | .aretire ..
  | .aexport .. | .aimport .. | .brk .. | .trap .. | .mtc .. | .synci .. | .tplay .. | .tinv .. | .tld ..
  | .ttrn .. | .acvt .. | .atov .. | .vtoa .. | .tst .. | .ast .. | .tsca .. | .gset .. => true
  | .tmma _ _ _ _ slot _ _ _ _ => slot != 0
  | .cpy _ _ _ _ _ slot _ | .cpy2d _ _ _ _ _ slot _ | .cpyg _ _ _ _ _ slot _ | .cpys _ _ _ _ _ slot _ =>
    slot != 0
  | .qjoin _ _ slot _ => slot != 0
  | _ => false

/-- The tag of a register in a recording, by its specifier. -/
def Recording.tag (r : Recording) (x : Nat) : Tag := tget Tag.none r.tags x

/-- The registers whose tags abort a recording with OUTC 2 where they are read (R288). -/
def aborts2 (i : Instr) : List Nat :=
  match i with
  | .jmp _ (.r a) | .callr _ (.r a) | .ret _ (.r a) => [a.toNat]
  | .lsetup _ (.r a) false _ _ _ => [a.toNat]
  | .cpy .. | .cpy2d .. | .cpyg .. | .cpys .. => []
  | _ => []

/-- Does a word in a recording read a scalar operand of a command that is DERIVED (R288)? -/
def derivedOperand (i : Instr) (r : Recording) : Bool :=
  let bad (x : SOp) : Bool := match x with
    | .r n => r.tag n.toNat == .derived
    | .zr => false
  match i with
  | .cpy _ d a b _ _ _ | .cpy2d _ d a b _ _ _ | .cpyg _ d a b _ _ _ | .cpys _ d a b _ _ _ =>
    bad d || bad a || bad b
  | .tcfg _ _ (.r a) => bad a
  | _ => false

/-- What recording says of an instruction before it is performed (R286, R288). -/
def State.recBefore (s : State) (t : Nat) (i : Instr) : State :=
  match (s.thr t).recording with
  | none => s
  | some r =>
    if aborts3 i then s.abortRec t 3
    else if (aborts2 i).any (fun x => r.tag x != .none) || derivedOperand i r then s.abortRec t 2
    else s

/-- A guard that is a tagged predicate aborts a recording (R288). -/
def State.recGuard (s : State) (t : Nat) (h : Hdr) : State :=
  match (s.thr t).recording with
  | none => s
  | some r => if h.gp ≠ 0 ∧ r.tag (0x40 + h.gp.toNat) ≠ .none then s.abortRec t 2 else s

/-- The tag of an instruction's results (R288). -/
def resultTag (i : Instr) (r : Recording) : Tag :=
  let src (x : SOp) : Tag := match x with
    | .r n => r.tag n.toNat
    | .zr => .none
  let srcB (x : Src) : Tag := match x with
    | .r b => src b
    | .i _ => .none
  let gen : Tag := if (reads i).any (fun x => r.tag x != .none) then .derived else .none
  match i with
  | .add _ _ a b .wrap =>
    match src a, srcB b with
    | .tag k ix, .none => .tag k ix
    | .none, .tag k ix => .tag k ix
    | _, _ => gen
  | .sub _ _ a b .wrap =>
    match src a, srcB b with
    | .tag k ix, .none => .tag k ix
    | _, _ => gen
  | .lea _ _ a b _ _ _ =>
    match src a, src b with
    | .tag k ix, .none => .tag k ix
    | _, _ => gen
  | .mfc _ _ c =>
    if c = 22 then .tag .fbase 0 else if c = 24 then .tag .key 0
    else if c = 6 ∨ c = 7 then .derived else .none
  | .aself _ _ .key => .tag .key 0
  | .aself _ _ .frame => .tag .fbase 0
  | .tpatch _ _ _ p _ => .tag p.kind p.ix
  | .tguard .. => .none
  | _ => gen

/-- The tags of the frame registers. -/
def frameTags (l : Tbl Tag) : Tbl Tag := l.filter (fun e => decide (8 ≤ e.1 ∧ e.1 < 24))
def otherTags (l : Tbl Tag) : Tbl Tag := l.filter (fun e => !decide (8 ≤ e.1 ∧ e.1 < 24))

/-- The tags after an instruction has been performed: calls and returns move the tags of frames. -/
def Recording.after (r : Recording) (i : Instr) : Recording :=
  match i with
  | .call .. | .callr .. => { r with tags := otherTags r.tags, outer := frameTags r.tags :: r.outer }
  | .ret .. =>
    let f := (r.outer.head?).getD []
    { r with
      tags := f.foldl (fun (l : Tbl Tag) e => tset l e.1 e.2) (otherTags r.tags), outer := r.outer.drop 1 }
  | .trec .. => r
  | _ =>
    let k := resultTag i r
    { r with tags := (writes i).foldl (fun (l : Tbl Tag) x => tset l x k) r.tags }

/-- Tags of what an instruction wrote, for a recording that was in progress before it. -/
def State.recAfter (s : State) (t : Nat) (i : Instr) (before : Bool) : State :=
  if before then
    s.updThr t (fun h => { h with recording := h.recording.map (fun r => r.after i) })
  else s

/-! ## Issue (R92, R102, R35, R381) -/

/-- The end of an instruction: its cycle passes, answered page requests are forgotten, and a thread that
was stepped halts. -/
def State.boundary (s : State) (t : Nat) : State :=
  let s := s.tickCore (coreOf t)
  let s := if s.pagereq.isEmpty then s else s.pageSeen (s.tid t)
  if (s.thr t).stepReq then s.updThr t (fun h => h.halt h.pc (s.time (coreOf t))) else s

/-- An instruction that does not transfer control completes. -/
def State.complete (s : State) (t : Nat) (d : Word) : State := (s.updThr t (fun h => h.advance d)).boundary t
/-- An instruction transfers control. -/
def State.jumpTo (s : State) (t : Nat) (pc : Word) : State :=
  (s.updThr t (fun h => { h with pc })).boundary t
/-- The thread could not issue. -/
def State.stallIt (s : State) : State := { s with stalled := true }

/-- Do loads left in an issue queue write frame registers? Those of the current frame move with it. -/
def claimsFrame (q : List IqEntry) : Bool := (claims q).any (fun x => decide (8 ≤ x ∧ x < 24))

/-- A trap at thread t, from the state before the instruction and the one it traps in. Loads left in the
issue queue that write the current frame's registers are performed before it is taken. -/
def State.trapFrom (s0 s : State) (t cause sub : Nat) (c4 c5 : Word) (next : Bool) : State :=
  let pc := (s.thr t).pc
  if claimsFrame (s0.agent (s0.tid t)).iq then s0.stallIt
  else
    match s.takeTrap t cause sub (if next then pc + 12 else pc) c4 c5 with
    | .ok s _ => s.boundary t
    | .stop _ =>
      match s0.openFrame t (Vector.replicate 16 0) with
      | .stop (.stall s) => s.stallIt
      | _ => s0.stallIt

/-- Instructions that open or close a frame. -/
def movesFrame : Instr → Bool
  | .call .. | .callr .. | .ret .. | .eret .. => true
  | _ => false
/-- ADONE waits until every access before it has been performed or has left for the store buffer: the registers that
loads write end with the unit. -/
def waitsForAll : Instr → Bool
  | .adone .. => true
  | _ => false

/-- The specifiers that an instruction names. -/
def names (i : Instr) : List Nat :=
  let n := named i
  [n.d, n.a, n.b, n.c]

/-- Vector and mask specifiers that the REPBs of a thread claim, from issue until they complete (R228). -/
def repClaims (q : List Cmd) : List Nat :=
  q.flatMap (fun c => match c.i with
    | .repb _ _ _ _ _ _ _ rs rb _ =>
      (List.range rs.toNat).map (fun k => 32 + rb.toNat + k) ++
        (c.body.flatMap names).filter (fun x => decide (32 ≤ x ∧ x < 64) || decide (0x61 ≤ x ∧ x < 0x68))
    | _ => [])
/-- Do they claim the lane LFSRs? -/
def lfsrClaimed (q : List Cmd) : Bool :=
  q.any (fun c => c.body.any (fun i => match i with
    | .vquant _ _ _ _ _ _ _ _ sr => sr
    | _ => false))

/-- Tiles and accumulators that the commands of Q0 claim (R232). -/
def tileClaims (q : List Cmd) : List Nat :=
  (q.flatMap (fun c => names c.i)).filter (fun x => decide (0x80 ≤ x ∧ x < 0xC0))

/-- Does an instruction name what a REPB of its thread claims, while Q3 has not stopped (R228), or a tile
instruction what the commands of Q0 claim (R232)? A REPB is also held back by what its body names. While the lane LFSRs
are claimed, a VQUANT with SR = 1 of the thread waits as an MTC to c1 does (log 53). -/
def Thread.claimed (h : Thread) (i : Instr) : Bool :=
  let q := if h.q[3].stopped.isSome then [] else h.q[3].cmds
  (!q.isEmpty && ((names i).any (fun x => (repClaims q).contains x) ||
    (lfsrClaimed q && (match i with
      | .mtc _ c _ => c == 1
      | .vquant _ _ _ _ _ _ _ _ sr => sr
      | _ => false)))) ||
  ((named i).group == 0x10 && (names i).any (fun x => (tileClaims h.q[0].cmds).contains x))

/-- May an instruction issue: beside the accesses left in its thread's issue queue, whose registers it does not name
(R102), nor their array windows as a tile instruction, and beside the claims of REPBs? -/
def State.mayIssue (s : State) (t : Nat) (i : Instr) : Bool :=
  let q := (s.agent (s.tid t)).iq
  (claims q).all (fun x => !(reads i).contains x && !(writes i).contains x) &&
    !(movesFrame i && claimsFrame q) && !(waitsForAll i && iqBusy q) &&
    !((named i).group == 0x10 && iqArray q) && !(s.thr t).claimed i

/-- Issue an instruction that has been decoded: the guard, the instruction, and what it comes to. -/
def State.issue (s : State) (h : Hdr) (i : Instr) (body : State → Nat → Eff) : State :=
  let t := s.cur
  if !s.mayIssue t i then s.stallIt
  else
    let s0 := s.recGuard t h
    if !(s.thr t).guard h then s0.complete t (reach i)
    else
      let s1 := s0.recBefore t i
      let rec_ := (s1.thr t).recording.isSome
      match body s1 t with
      | .done s' => (s'.recAfter t i rec_).complete t (reach i)
      | .jump s' pc => (s'.recAfter t i rec_).jumpTo t pc
      | .trap s' cause sub c4 c5 next => s0.trapFrom s' t cause sub c4 c5 next
      | .wait s' w => s'.updThr t (fun h => { h with waiting := some w })
      | .stall s' => s'.stallIt
      | .ended s' => s'.tickCore (coreOf t)

/-- The meaning of an instruction of a thread: it is issued by the current thread. -/
def run (s : State) (h : Hdr) (i : Instr) (body : State → Nat → Eff) : Host.Outcome State Fault Refusal :=
  .next (s.issue h i body)

/-- The meaning of a step of the device. -/
def event (s : State) : Host.Outcome State Fault Refusal := .next s

/-- A step of the device that names a part: it must exist (R2). -/
def eventAt (ok : Bool) (s : State) : Host.Outcome State Fault Refusal :=
  if ok then .next s else .fault .noSuchPart

/-! ## Fetch (R103-R107) -/

/-- What the fetch of a thread's next word gives. -/
inductive Fetched where
  | word (s : State) (w : IWord)
  | trap (s : State) (cause sub : Nat) (c5 : Word)
  | stall (s : State)
  | ended (s : State)
deriving DecidableEq, Repr

/-- The word at an offset of a line's bytes. -/
def wordAt (line : List Byte) (o : Nat) : IWord := wordOfBytes ((line.drop o).take 12)

/-- Bytes of the code store of the firmware unit (R46, log 5). -/
def romBytes (m : List Host.Cell) (a : Nat) : Nat → List Byte
  | 0 => []
  | n + 1 => memGet m a :: romBytes m (a + 1) n

/-- A line enters the instruction buffer of 4 lines, or is used there: the least recently used line leaves (R104). -/
def Thread.bufferLine (h : Thread) (n : Nat) (bs : List Byte) : Thread :=
  { h with ibuf := ((n, bs) :: h.ibuf.filter (fun e => e.1 != n)).take 4 }

/-- R103-R106: the word at a PC, from the thread's instruction buffer or from memory, line by line. A line is read whole
(R104), so poison or a conflict in any sector of it stops the thread at the first word that it fetches from the line:
R106 leaves open whether that word has failed (log 53). -/
def State.fetchAt (s : State) (t pc : Nat) : Fetched :=
  let h := s.thr t
  if vaEnd ≤ pc then .trap s 0x07 0 (accInfo 0xFF false 0)
  else
    match h.ibuf.find? (fun e => e.1 == pc / 192) with
    | some (_, bs) => .word (s.setThr t (h.bufferLine (pc / 192) bs)) (wordAt bs (pc % 192))
    | none =>
      let a := pc / 192 * 192
      match (s.ctx t).part with
      | none =>
        let bs := romBytes s.rom a 192
        .word (s.setThr t (h.bufferLine (pc / 192) bs)) (wordAt bs (pc % 192))
      | some _ =>
        match s.check (s.ctx t) .fetch .g (BitVec.ofNat 64 a) 192 with
        | (s, .fail cause sub _) => .trap s cause sub (accInfo 0xFF false 0)
        | (s, .wait) => .stall s
        | (s, .ok segs) =>
          match s.conflicts (s.tid t) false segs with
          | some w => .trap s 0x0B 0 (conflictInfo false w)
          | none =>
            match s.readPieces t true 0 [⟨0xFF, BitVec.ofNat 64 a, segs⟩] with
            | .ok s bs =>
              .word (s.updThr t (fun h => h.bufferLine (pc / 192) (bs.getD 0 []))) (wordAt (bs.getD 0 []) (pc % 192))
            | .stop (.trap s cause sub _ c5 _) => .trap s cause sub c5
            | .stop (.ended s) => .ended s
            | .stop (.stall s) => .stall s
            | .stop _ => .stall s

/-- The word at the thread's PC. -/
def State.fetch (s : State) (t : Nat) : Fetched := s.fetchAt t (s.thr t).pc.toNat

/-- A thread that runs a unit and neither waits nor is halted issues. -/
def Thread.canIssue (h : Thread) : Bool := h.unit.isSome && h.waiting.isNone && !h.halted

end Sys2Proof.Machine
end

