-- ==== Sys2Proof/Machine/ControlFlow.lean ====
section
/-! DEFINITION. Group 0x06: transfers of control, loops and waits on queues and time (R164-R173). -/

namespace Sys2Proof.Machine

/-! ## Transfers (R165-R167) -/

/-- PC + 12 × SignExt(offset) (R98). -/
def relTarget (pc : Word) (off : BitVec 32) : Word := pc + 12 * off.signExtend 64

/-- R165. -/
def execBr (h : Hdr) (off : BitVec 32) (s : State) : Host.Outcome State Fault Refusal :=
  run s h (.br h off) (fun s t => .jump s (relTarget (s.thr t).pc off))

/-- R165. -/
def execJmp (h : Hdr) (a : SOp) (s : State) : Host.Outcome State Fault Refusal :=
  run s h (.jmp h a) (fun s t =>
    let target := (s.thr t).rs a
    if target.toNat % 12 ≠ 0 then s.badTarget (.jmp h a) target else .jump s target)

/-- The frame that a call opens: s8 to s22 zero, s23 the return PC (R166). -/
def calleeFrame (ret : Word) : Vector Word 16 := (Vector.replicate 16 (0 : Word)).set 15 ret

/-- R166: call a target. -/
def State.callTo (s : State) (t : Nat) (target : Word) : Eff :=
  (s.openFrame t (calleeFrame ((s.thr t).pc + 12))).fin (fun s _ => .jump s target)

/-- R166. -/
def execCall (h : Hdr) (off : BitVec 32) (s : State) : Host.Outcome State Fault Refusal :=
  run s h (.call h off) (fun s t => s.callTo t (relTarget (s.thr t).pc off))

/-- R166. -/
def execCallr (h : Hdr) (a : SOp) (s : State) : Host.Outcome State Fault Refusal :=
  run s h (.callr h a) (fun s t =>
    let target := (s.thr t).rs a
    if target.toNat % 12 ≠ 0 then s.badTarget (.callr h a) target else s.callTo t target)

/-- R167. -/
def execRet (h : Hdr) (a : SOp) (s : State) : Host.Outcome State Fault Refusal :=
  run s h (.ret h a) (fun s t =>
    let th := s.thr t
    let target := th.rs a
    if th.depth = 0 then s.illegal (.ret h a) 8
    else if target.toNat % 12 ≠ 0 then s.badTarget (.ret h a) target
    else (s.closeFrame t).fin (fun s _ => .jump s target))

/-! ## Loops (R168, R169) -/

/-- The loop that an L field names. -/
def loopIx (l : BitVec 2) : Fin 4 := ⟨l.toNat, l.isLt⟩

/-- R168: a loop with its registers. -/
def Thread.startLoop (th : Thread) (l : BitVec 2) (ls le : Word) (n : BitVec 32) : Thread :=
  { th with
    ls := th.ls.set (loopIx l).val ls, le := th.le.set (loopIx l).val le, lc := th.lc.set (loopIx l).val n }

/-- R168: with a count of 0 the body is skipped. Such an LSETUP sets its next PC itself, so one that stands at the end
address of another loop makes no loop test (log 16). -/
def execLsetup (h : Hdr) (a : SOp) (ic : Bool) (cnt : BitVec 16) (l : BitVec 2) (off : BitVec 32)
    (s : State) : Host.Outcome State Fault Refusal :=
  run s h (.lsetup h a ic cnt l off) (fun s t =>
    let th := s.thr t
    let n : BitVec 32 := if ic then cnt.setWidth 32 else (th.rs a).extractLsb' 0 32
    let le := relTarget th.pc off
    let s := s.setThr t (th.startLoop l (th.pc + 12) le n)
    if n = 0 then .jump s (le + 12) else .done s)

/-- R169. -/
def execLbrk (h : Hdr) (all : Bool) (l : BitVec 2) (s : State) : Host.Outcome State Fault Refusal :=
  run s h (.lbrk h all l) (fun s t => .done (s.updThr t (fun th => { th with
    lc := if all then Vector.replicate 4 0 else th.lc.set (loopIx l).val 0 })))

/-! ## Engine faults that are reported (R39, R259) -/

/-- The queues of a set that stopped with a fault or with a conflict, oldest by issue order. -/
def Thread.oldestRec (th : Thread) (qs : List Nat) (conflict : Bool) : Option (Nat × EngRec) :=
  qs.foldl (fun (a : Option (Nat × EngRec)) q =>
    match (th.q.toList.getD q Queue.init).stopped with
    | none => a
    | some r =>
      if r.conflict ≠ conflict then a
      else match a with
        | none => some (q, r)
        | some (q', r') => if r.order < r'.order then some (q, r) else some (q', r')) none

/-- R259: a queue's fault is reported: its commands are discarded. -/
def Thread.dropQueue (th : Thread) (q : Nat) : Thread := (th.setQ q Queue.init).pendingBits

/-- R39: the report that a set of queues is due, if one is; an engine fault goes before a conflict. -/
def State.engReport (s : State) (t : Nat) (qs : List Nat) : Option Eff :=
  let th := s.thr t
  match th.oldestRec qs false with
  | some (q, r) => some (.trap (s.setThr t (th.dropQueue q)) 0x0D r.sub.toNat r.c4 r.c5 false)
  | none =>
    match th.oldestRec qs true with
    | some (q, r) => some (.trap (s.setThr t (th.dropQueue q)) 0x0B 0 r.c4 r.c5 false)
    | none => none

/-! ## WAITC (R171, R128) -/

/-- The queues that a WAITC covers. -/
def covered (lims : BitVec 32) : List Nat := [0, 1, 2, 3].filter (fun q => decide ((limit lims q).toNat ≤ 32))
/-- Are the counters of the covered queues at their limits? -/
def Thread.countsMet (th : Thread) (lims : BitVec 32) : Bool :=
  (covered lims).all (fun q => decide ((th.q.toList.getD q Queue.init).cmds.length ≤ (limit lims q).toNat))

/-- R128: the return step, which ends a region as an acquire (R136); a WAITC that covers no queue orders nothing
(R171). -/
def State.waitcAcquire (s : State) (t : Nat) (qs : List Nat) : State :=
  if qs.isEmpty then s
  else
    let th := s.thr t
    let lvl := (qs.flatMap (fun q => th.waitCov.toList.getD q [])).foldl max 0
    ((s.setThr t { th with
      waitCov := Vector.ofFn (fun i => if qs.contains i.val then [] else th.waitCov[i]) }).acquire (s.tid t) lvl)
      |>.newRegion (s.tid t)

/-- R171: one look at the counters. -/
def State.waitcTry (s : State) (t : Nat) (lims : BitVec 32) : Eff :=
  match s.engReport t (covered lims) with
  | some e => e
  | none =>
    if (s.thr t).countsMet lims then .done (s.waitcAcquire t (covered lims)) else .wait s (.waitc lims)

/-- R171. -/
def execWaitc (h : Hdr) (lims : BitVec 32) (s : State) : Host.Outcome State Fault Refusal :=
  run s h (.waitc h lims) (fun s t => s.waitcTry t lims)

/-! ## YIELD and SLEEP (R172) -/

/-- R172: a yield concerns only which thread issues next. -/
def execYield (h : Hdr) (s : State) : Host.Outcome State Fault Refusal :=
  run s h (.yield h) (fun s t => .done (s.yieldThr t))

/-- R172: d. -/
def sleepCycles (a : Word) (imm : BitVec 32) : Nat := min (a.toNat + imm.toNat) 0xFFFFFFFF

/-- R172. One that a halt has abandoned ends when the first would have, since the cycles spent halted count (R173). -/
def execSleep (h : Hdr) (a : SOp) (imm : BitVec 32) (s : State) : Host.Outcome State Fault Refusal :=
  run s h (.sleep h a imm) (fun s t =>
    let th := s.thr t
    let now := s.time (coreOf t)
    let d := sleepCycles (th.rs a) imm
    if d = 0 then .done (s.yieldThr t)
    else
      match th.slept with
      | some x =>
        let s := s.setThr t { th with slept := none }
        if x ≤ now then .done s else .wait s (.sleep x)
      | none => .wait s (.sleep (now + d)))

/-- Does an instruction move its thread to the back of the selector's order: by its hint, or as YIELD or a SLEEP with
d = 0 (R92, R93, R172)? -/
def Thread.yields (th : Thread) (i : Instr) : Bool :=
  (hdrOf i).yld || (th.guard (hdrOf i) && (match i with
    | .yield _ => true
    | .sleep _ a imm => sleepCycles (th.rs a) imm == 0
    | _ => false))

end Sys2Proof.Machine
end

