-- ==== Sys2Proof/Machine/Objects.lean ====
section
/-! DEFINITION. Objects in memory that are updated in one step: barrier objects and work queues
(R130, R196-R202, R279, R280). -/

namespace Sys2Proof.Machine

/-! ## Barrier objects (R196, R197) -/

/-- The fields of a barrier object. -/
structure Bar where
  stale : BitVec 16
  out   : BitVec 20
  inb   : BitVec 20
  init  : BitVec 16
  pend  : BitVec 16
  err   : Bool
  gen   : BitVec 4
deriving DecidableEq, Repr, Inhabited

/-- The 16 bytes of an object as fields; the reserved bits are dropped. -/
def Bar.ofBits (x : BitVec 128) : Bar where
  stale := x.extractLsb' 80 16
  out := x.extractLsb' 60 20
  inb := x.extractLsb' 40 20
  init := x.extractLsb' 24 16
  pend := x.extractLsb' 8 16
  err := x.getLsbD 4
  gen := x.extractLsb' 0 4
/-- The 16 bytes of an object; the reserved bits are written as zero (R8). -/
def Bar.bits (b : Bar) : BitVec 128 :=
  (0 : BitVec 32) ++ b.stale ++ b.out ++ b.inb ++ b.init ++ b.pend ++ (0 : BitVec 3) ++ bit b.err ++ b.gen

/-- BARI: the object with a count. -/
def Bar.start (n : BitVec 16) : Bar := ⟨0, 0, 0, n, n, false, 0⟩
/-- The next phase. -/
def Bar.advance (b : Bar) : Bar := { b with gen := b.gen + 1, pend := b.init }
/-- The phase check of R197. -/
def Bar.check (b : Bar) : Bar :=
  if b.pend = 0 ∧ b.inb = 0 ∧ b.out = 0 ∧ !b.err then b.advance else b
/-- Issue of a tagged copy. -/
def Bar.raise (b : Bar) (out : Bool) : Bar :=
  let n := if out then b.out else b.inb
  if n = 0xFFFFF then { b with err := true }
  else if out then { b with out := b.out + 1 } else { b with inb := b.inb + 1 }
/-- Arrival of a thread, where ERR is 0. -/
def Bar.arrive (b : Bar) : Bar :=
  if b.pend = 0 then { b with err := true } else { b with pend := b.pend - 1 }.check
/-- Completion of a tagged copy of generation g. -/
def Bar.land (b : Bar) (out : Bool) (g : BitVec 4) : Bar :=
  let d := (b.gen - g).toNat
  if d = 0 then
    let n := if out then b.out else b.inb
    if n = 0 then { b with err := true }
    else (if out then { b with out := b.out - 1 } else { b with inb := b.inb - 1 }).check
  else if d ≤ 7 then { b with stale := if b.stale = 0xFFFF then 0xFFFF else b.stale + 1 }
  else { b with err := true }
/-- The record that BARX returns. -/
def Bar.record (b : Bar) : Word :=
  let lo : BitVec 45 := bit b.err ++ b.out ++ b.inb ++ b.gen
  lo.setWidth 64
/-- May BARX advance the object without .abandon? -/
def Bar.quiet (b : Bar) : Bool := !b.err && b.inb == 0 && b.out == 0
/-- BARX; .abandon also clears IN, OUT and ERR. -/
def Bar.cross (b : Bar) (abandon : Bool) : Bar :=
  let c := b.advance
  if abandon then { c with inb := 0, out := 0, err := false } else c

/-- The object at a physical address. -/
def State.obj (s : State) (pa : Nat) : BitVec 128 := BitVec.ofNat 128 (s.rdNat pa 16)
/-- An object of on-chip memory is replaced in one step (R130). -/
def State.setObj (s : State) (pa : Nat) (x : BitVec 128) : State :=
  s.rootWrite (nibsOf pa (bytesOfNat 16 x.toNat))
def State.bar (s : State) (pa : Nat) : Bar := Bar.ofBits (s.obj pa)
def State.setBar (s : State) (pa : Nat) (b : Bar) : State := s.setObj pa b.bits

/-! ### Phase ends and balancing (R383, R384) -/

/-- The cluster whose memory, or whose core's scratchpad, holds an address. -/
def objCluster (pa : Nat) : Nat :=
  let l := paLocal pa
  if clusWin ≤ l then (l - clusWin) / 0x300000 else clusOfCore ((l - coreWin) / 0x300000)

/-- An arrival of the phase, by its cluster if it carries one. -/
def State.noteArrival (s : State) (pa : Nat) (cl : Option Nat) : State :=
  match s.arrive.find? (fun x => x.pa == pa) with
  | some x => { s with arrive := { x with last := cl } :: s.arrive.filter (fun y => y.pa != pa) }
  | none => { s with arrive := ⟨pa, cl, cl⟩ :: s.arrive }

/-- A cluster's step changes; its clock follows 4096 mesh cycles later. -/
def State.moveStep (s : State) (j n : Nat) : State :=
  let k := s.clus j
  s.setClus j { k with eqstep := n, eqNext := k.eqNext ++ [(n, s.mesh + 4096)], eqSince := s.mesh }
/-- A phase end moves a cluster's step, unless the cluster has switched in in this mesh cycle: its step is 24 then
(R394). -/
def State.phaseStep (s : State) (j n : Nat) : State :=
  if (s.clus j).inAt = some s.mesh then s else s.moveStep j n

/-- R384: what a phase end does to the steps of the clusters that arrived first and last. -/
def State.phaseEnd (s : State) (pa : Nat) : State :=
  match s.arrive.find? (fun x => x.pa == pa) with
  | none => s
  | some x =>
    let s := { s with arrive := s.arrive.filter (fun y => y.pa != pa) }
    match x.first, x.last, s.runs (objCluster pa) with
    | some f, some l, some p =>
      let e := (s.part p).eqcfg
      if f ≠ l ∧ s.runs f = some p ∧ s.runs l = some p ∧ e.getLsbD 63 ∧
          (s.clus l).eqstep < min s.module.caps (e.extractLsb' 8 6).toNat ∧ (e.extractLsb' 0 6).toNat < (s.clus f).eqstep then
        (s.phaseStep l ((s.clus l).eqstep + 1)).phaseStep f ((s.clus f).eqstep - 1)
      else s
    | _, _, _ => s

/-- One update of a barrier object, with the cluster of an arrival it makes. -/
def State.barStep (s : State) (pa : Nat) (arr : Option (Option Nat)) (b : Bar) : State :=
  let old := s.bar pa
  let s := match arr with
    | some cl => s.noteArrival pa cl
    | none => s
  let s := s.setBar pa b
  if b.gen ≠ old.gen then s.phaseEnd pa else s

/-- A completion of a tagged copy of generation g reaches its object (R197); one counted with d = 0 is an
arrival. -/
def State.barLand (s : State) (pa : Nat) (out : Bool) (g : BitVec 4) (cl : Option Nat) : State :=
  let b := s.bar pa
  let n := if out then b.out else b.inb
  s.barStep pa (if b.gen = g ∧ n ≠ 0 then some cl else none) (b.land out g)

/-- c5 of a BARRIER trap: the low half of the object (R201). -/
def State.barTrap (s : State) (pa sub : Nat) (ea : Word) : Eff :=
  .trap s 0x0E sub ea ((s.obj pa).extractLsb' 0 64) false

/-- A checked access to an object of on-chip memory of its 16 bytes: the address, after the thread's own older
accesses to it have been performed (R120, R130). A poisoned sector is a hardware error of the unit (R386). -/
def State.objAddr (s : State) (t : Nat) (ps : List Piece) : Got Nat :=
  match ps with
  | ⟨_, ea, g :: _⟩ :: _ =>
    let id := s.tid t
    if iqOverlap (s.agent id).iq g.locs then .stop (.stall s)
    else
      match s.cleared id 7 g.locs with
      | (s, false) => .stop (.stall s)
      | (s, true) =>
      if s.poisoned g.pa g.len then .stop (.ended (s.hwErr t 0x23 0 ea))
      else .ok s g.pa
  | _ => .ok s 0

/-! ## Work queues (R279, R280) -/

/-- HEAD, TAIL, SBASE and CAP of a work queue. -/
def wqHead (x : BitVec 128) : BitVec 32 := x.extractLsb' 0 32
def wqTail (x : BitVec 128) : BitVec 32 := x.extractLsb' 32 32
def wqBase (x : BitVec 128) : BitVec 32 := x.extractLsb' 64 32
def wqCap (x : BitVec 128) : Nat := (x.extractLsb' 96 16).toNat
/-- Entries in a work queue. -/
def wqCount (x : BitVec 128) : Nat := (wqTail x - wqHead x).toNat
/-- The offset of the slot of an index. -/
def wqSlot (x : BitVec 128) (ix : BitVec 32) : Word :=
  let n := if wqCap x = 0 then Config.modZero ix.toNat else ix.toNat % wqCap x
  BitVec.ofNat 64 ((wqBase x).toNat + 8 * n)
def wqSetHead (x : BitVec 128) (v : BitVec 32) : BitVec 128 := x.extractLsb' 32 96 ++ v
def wqSetTail (x : BitVec 128) (v : BitVec 32) : BitVec 128 :=
  x.extractLsb' 64 64 ++ v ++ x.extractLsb' 0 32

end Sys2Proof.Machine
end

