-- ==== Sys2Proof/Machine/Memory.lean ====
section
/-! DEFINITION. Groups 0x08, 0x09 and 0x0A: loads, stores, atomics, cache operations, waits on words and
barrier objects (R174-R203). -/

namespace Sys2Proof.Machine

/-! ## Addresses and sizes (R174, R179) -/

/-- ea: base plus sign-extended offset. -/
def Thread.ea (th : Thread) (m : MemOp) : Word := th.rs m.base + m.off.signExtend 64
/-- Bytes and SZ code of a size. -/
def szBytes : Size → Nat
  | .d => 8 | .w => 4 | .h => 2 | .b => 1
def szCode : Size → Nat
  | .d => 0 | .w => 1 | .h => 2 | .b => 3
def esBytes : ESize → Nat
  | .w => 4 | .h => 2 | .b => 1
def esCode : ESize → Nat
  | .w => 0 | .h => 1 | .b => 2
/-- Bytes of a word of 8 or 4 bytes. -/
def wBytes (w4 : Bool) : Nat := if w4 then 4 else 8
def wCode (w4 : Bool) : Nat := if w4 then 1 else 0
/-- Acquire and release sides of an ordering (R77). -/
def ordAcqSide : Ord → Bool
  | .acq | .ar => true
  | .pl | .rel => false
def ordRelSide : Ord → Bool
  | .rel | .ar => true
  | .pl | .acq => false

/-! ## Loads left in the issue queue (R114) -/

/-- May an access be left there: all of it in ordinary memory of this package? -/
def State.mayWait (s : State) (t : Nat) (ps : List Piece) : Bool :=
  s.late && (s.dual? t).isNone &&
    ps.all (fun p => p.segs.all (fun g => !g.tgt.isReg && !g.watched && !s.isPeer g.pa))

/-- Leave a load in the thread's issue queue. -/
def State.leaveLoad (s : State) (t grp : Nat) (dst : LDst) (hint : BitVec 3) (g : Seg) : State :=
  let id := s.tid t
  let a := s.agent id
  { s.setAgent id { a with iq := a.iq ++
      [.load s.serial grp dst (BitVec.ofNat 64 g.va) g.pa g.len (s.cacheTag (s.ctx t) hint g)] } with
    serial := s.serial + 1 }

/-- The units of a scalar load: one, or one for each byte (R183). -/
def loadUnits (p : Piece) : List Seg :=
  (unitsOf p (List.replicate ((p.segs.map Seg.len).foldl (· + ·) 0) 0) 0xFFFFFFFF).map (fun u =>
    ⟨u.va, u.tgt, u.bytes.length⟩)
/-- A scalar load is left in the thread's issue queue; bytes of one access go in order (R183). -/
def State.leaveScalar (s : State) (t : Nat) (d : SOp) (hint : BitVec 3) (p : Piece) : State :=
  let us := loadUnits p
  let grp := if us.length = 1 then 0 else s.serial + 1
  us.zipIdx.foldl (fun (s : State) u => s.leaveLoad t grp (.s d u.2) hint u.1) s

/-! ## Scalar loads and stores (R182, R183) -/

/-- R182: LD; an acquire must be naturally aligned (R183). -/
def State.load (s : State) (t : Nat) (d : SOp) (m : MemOp) (sz : Size) (acq : Bool) : Eff :=
  let n := szBytes sz
  let ea := (s.thr t).ea m
  (s.check1 t .read false acq m.space (kindOf m.space (szCode sz)) n (if acq then n else 1) ea).fin (fun s ps =>
    if s.mayWait t ps && !acq then
      .done (ps.foldl (fun (s : State) p => s.leaveScalar t d m.hint p) (s.updThr t (fun th => th.ws d 0)))
    else
      (s.readPieces t (!acq) m.hint ps).fin (fun s bs =>
        let s := (s.acquireIf t acq m.sc.toNat).regionIf t acq
        .done (s.updThr t (fun th => th.ws d (BitVec.ofNat 64 (natOfBytes (bs.getD 0 [])))))))

/-- R182. -/
def execLd (h : Hdr) (d : SOp) (m : MemOp) (sz : Size) (acq : Bool) (s : State) :
    Host.Outcome State Fault Refusal :=
  run s h (.ld h d m sz acq) (fun s t => s.load t d m sz acq)

/-- What a release store waits for before it issues: at pod all that R131 asks; below pod it enters the issue queue or
the buffer, and climbs as R119 lets it. -/
def State.releaseStore (s : State) (t : Nat) (rel : Bool) (sc : Nat) : Got Unit :=
  if rel && sc == 7 then s.releaseAt t sc else .ok s ()

/-- The stores of an instruction whose pieces and bytes are known. -/
def State.store (s : State) (t : Nat) (sp_ : Space) (rel : Bool) (sc : Nat)
    (us : List (Piece × List Byte × BitVec 32)) : Eff :=
  (s.releaseStore t rel sc).fin (fun s _ =>
    let units := us.flatMap (fun u => unitsOf u.1 u.2.1 u.2.2)
    match s.storeReady t (if rel then some sc else none) units with
    | (s, false) => .stall s
    | (s, true) =>
      let s := if rel then s else s.watchStore t (us.map Prod.fst)
      (s.storeAll t sp_ (if rel then some sc else none) units).fin (fun s _ => .done (s.regionIf t rel)))

/-- R182. -/
def execSt (h : Hdr) (b : SOp) (m : MemOp) (sz : Size) (rel : Bool) (s : State) :
    Host.Outcome State Fault Refusal :=
  run s h (.st h b m sz rel) (fun s t =>
    let n := szBytes sz
    let th := s.thr t
    let x := bytesOfNat n (th.rs b).toNat
    (s.check1 t .write true rel m.space (kindOf m.space (szCode sz)) n (if rel then n else 1) (th.ea m)).fin
      (fun s ps => s.store t m.space rel m.sc.toNat (ps.map (fun p => (p, x, 0xFFFFFFFF)))))

/-! ## PFETCH and CACHE (R184, R185) -/

/-- R184: the line is brought into L1, or into L2 only. An address that would fail a check or meets a page fault makes
the instruction do nothing. -/
def State.prefetch (s : State) (t : Nat) (ea : Word) (l2 : Bool) : State :=
  let a := BitVec.ofNat 64 (ea.toNat / 192 * 192)
  match s.check (s.ctx t) .read .g a 192 with
  | (s', .ok [g]) => s'.fillRun (s.tid t) (s.cacheTag (s.ctx t) (if l2 then 1 else 0) g) g.pa g.len
  | _ => s

/-- R184. -/
def execPfetch (h : Hdr) (m : MemOp) (l2 : Bool) (s : State) : Host.Outcome State Fault Refusal :=
  run s h (.pfetch h m l2) (fun s t => .done (if m.space = .g then s.prefetch t ((s.thr t).ea m) l2 else s))

/-- The pin of a line, whichever cores have made it. -/
def Pin.same (x y : Pin) : Bool := x.chip == y.chip && x.part == y.part && x.asid == y.asid && x.line == y.line

/-- R344: core c pins a line, unless the slice or the set is at its limit. -/
def State.pinLine (s : State) (x : Pin) (c : Nat) : State × Bool :=
  match s.pins.find? x.same with
  | some y => ({ s with pins := { y with cores := insertN c y.cores } :: s.pins.filter (fun z => !x.same z) }, true)
  | none =>
    let slice (y : Pin) : Nat := sliceOf y.part y.asid (y.line * 192)
    let mine := s.pins.filter (fun y => y.chip == x.chip && slice y == slice x)
    if mine.length < 2560 ∧ (mine.filter (fun y => lineSet y.line == lineSet x.line)).length < 5 then
      ({ s with pins := { x with cores := [c] } :: s.pins }, true)
    else (s, false)

/-- R185: cores pass to another partition: their pins are removed; a line that other cores have pinned too stays pinned
(log 47). -/
def State.unpinCores (s : State) (gone : Nat → Bool) : State :=
  if s.pins.isEmpty then s
  else
    let left := s.pins.map (fun x => { x with cores := x.cores.filter (fun c => !gone c) })
    { s with pins := left.filter (fun x => !x.cores.isEmpty) }

/-- The sectors of a line are in the slice (R185). -/
def State.fillLine (s : State) (id : BitVec 32) (g : CTag) : State :=
  (List.range 4).foldl (fun (s : State) i =>
    let a := lineBase g.pa + 48 * i
    if s.poison.contains a then s else s.fillL2 id g a) s

/-- R185: the operation on the line of an address whose checks pass, and its result. A line of a window of on-chip or
control memory is not pinned, though the rule's list does not name it: no slice holds one (log 53). -/
def State.cacheOp (s : State) (t : Nat) (op : CacheOp) (ea : Word) (g : Seg) : State × Bool :=
  let id := s.tid t
  let line := ea.toNat / 192
  let leaf := (leafFind (s.core (coreOf t)).rights (s.partOf t) (s.ctx t).asid ea.toNat).getD default
  let pin : Pin := ⟨chipOfClus (clusOf t), s.partOf t, (s.ctx t).asid, line, leaf.base, leaf.size, []⟩
  let is (l : CLine) : Bool := l.part == pin.part && l.asid == pin.asid && l.vline == line
  let free (s : State) : State := { s with pins := s.pins.filter (fun x => !pin.same x) }
  match op with
  | .pin =>
    match s.cacheTag (s.ctx t) 0 g with
    | some tag =>
      match s.pinLine pin (coreOf t) with
      | (s, true) => (s.fillLine id tag, true)
      | (s, false) => (s, false)
    | none => (s, false)
  | .unpin => (free s, s.pins.any pin.same)
  | .inv1 =>
    (if (s.core (coreOf t)).l1.isEmpty then s
      else s.updCore (coreOf t) (fun k => { k with l1 := k.l1.filter (fun l => !is l) }), true)
  | .evict2 => ((free s).setL2 pin.chip ((s.l2Of pin.chip).filter (fun l => !is l)), true)

/-- R185: an address that fails a check, or whose page is not resident, gives false and has no effect; a .pin of a
page that is being migrated stalls (R358). -/
def execCache (h : Hdr) (d : PZ) (m : MemOp) (op : CacheOp) (s : State) : Host.Outcome State Fault Refusal :=
  run s h (.cache h d m op) (fun s t =>
    let ea := (s.thr t).ea m
    let x := s.ctx t
    match s.check x .read .g ea 1 with
    | (s, .ok (g :: _)) =>
      let (s, r) := s.cacheOp t op ea g
      .done (s.updThr t (fun th => th.wpz d r))
    | (_, .wait) =>
      if op = .pin && x.part.any (fun p => s.migrating p x.asid ea.toNat) then .stall s
      else .done (s.updThr t (fun th => th.wpz d false))
    | _ => .done (s.updThr t (fun th => th.wpz d false)))

/-! ## Atomics (R186-R189) -/

/-- May an atomic be left in the issue queue (R110, R120)? One that acquires is performed at its issue, and one that
releases at pod reports there what R132 asks. -/
def State.atomWaits (s : State) (t : Nat) (m : MemOp) (ord : Ord) (ps : List Piece) : Bool :=
  s.mayWait t ps && !ordAcqSide ord && !(ordRelSide ord && m.sc == 7)

/-- An atomic of one piece is left in the thread's issue queue. -/
def State.leaveAtom (s : State) (t : Nat) (d : LDst) (ps : List Piece) (n : Nat) (rel : Option Nat) (op : AtomOp) :
    State :=
  let id := s.tid t
  let a := s.agent id
  match ps with
  | ⟨_, ea, g :: _⟩ :: _ =>
    { s.setAgent id { a with iq := a.iq ++ [.atom s.serial d ea g.pa n rel op] } with serial := s.serial + 1 }
  | _ => s

/-- The result and the flags of an atomic go to the thread when it is performed (R186-R188): of FWR a predicate, whether
the future was full (R278). -/
def Thread.atomDone (h : Thread) (d : LDst) (n old : Nat) (op : AtomOp) : Thread :=
  (match d with
    | .s r _ => h.ws r (BitVec.ofNat 64 old)
    | .p q => h.wp q (futFull (BitVec.ofNat 128 old))
    | .v .. | .port _ => h).orFlags (op.apply n old).2

/-- An atomic instruction: its checks, its release, its one step, its acquire. -/
def State.atomicOp (s : State) (t : Nat) (d : SOp) (m : MemOp) (n sz : Nat) (ord : Ord) (op : AtomOp) : Eff :=
  if (s.dual? t).isSome then s.dualFail t 3
  else
    let ea := (s.thr t).ea m
    (s.check1 t .atomic true true m.space (kindOf m.space sz) n n ea).fin (fun s ps =>
      if s.atomWaits t m ord ps then
        .done ((s.leaveAtom t (.s d 0) ps n (if ordRelSide ord then some m.sc.toNat else none) op).regionIf t true)
      else
        (s.releaseIf t (ordRelSide ord) m.sc.toNat).fin (fun s _ =>
          (s.atomic t (ps.headD default) n op).fin (fun s old =>
            let s := (s.acquireIf t (ordAcqSide ord) m.sc.toNat).regionIf t true
            .done (s.updThr t (fun th => th.atomDone (.s d 0) n old op)))))

/-- R186. -/
def execAmo (h : Hdr) (d b : SOp) (m : MemOp) (w4 : Bool) (ord : Ord) (op : AmoOp) (s : State) :
    Host.Outcome State Fault Refusal :=
  run s h (.amo h d b m w4 ord op) (fun s t =>
    s.atomicOp t d m (wBytes w4) (wCode w4) ord (.amo op ((s.thr t).rs b)))

/-- R187. -/
def execCas (h : Hdr) (d b c : SOp) (m : MemOp) (w4 : Bool) (ord : Ord) (s : State) :
    Host.Outcome State Fault Refusal :=
  run s h (.cas h d b c m w4 ord) (fun s t =>
    s.atomicOp t d m (wBytes w4) (wCode w4) ord (.cas ((s.thr t).rs b) ((s.thr t).rs c)))

/-- R188: the flags go to the thread when the atomic is performed. -/
def execAmof (h : Hdr) (d b : SOp) (m : MemOp) (ord : Ord) (op : AmofOp) (s : State) :
    Host.Outcome State Fault Refusal :=
  run s h (.amof h d b m ord op) (fun s t => s.atomicOp t d m 4 1 ord (.amof op ((s.thr t).rs b)))

/-! ## Vector loads and stores (R190-R194) -/

/-- The active lanes of a mask with their addresses. -/
def laneAddrs (m : Mask) (f : Nat → Word) : List (Nat × Word) :=
  ((List.range 48).filter (fun i => m.getLsbD i)).map (fun i => (i, f i))

/-- R191: the alignment of ea and of a stride, checked only when a lane is active. -/
def State.alignVec (s : State) (lanes : List (Nat × Word)) (ea stride : Word) (wr : Bool) (kind : BitVec 4) :
    Got Unit :=
  match lanes with
  | [] => .ok s ()
  | (i, a) :: _ =>
    if ea.toNat % 4 ≠ 0 then .stop (.trap s 0x06 0 a (accInfo i wr kind) false)
    else if stride.toNat % 4 ≠ 0 then .stop (.trap s 0x06 0 ea (accInfo 0xFF wr kind) false)
    else .ok s ()

/-- Lanes of a register replaced by loaded bytes. -/
def loadLanes (old : VReg) (l : List (Nat × List Byte)) : VReg :=
  Vector.ofFn (fun i =>
    match l.find? (fun p => p.1 == i.val) with
    | some (_, bs) => BitVec.ofNat 32 (natOfBytes bs)
    | none => old[i])

/-- A vector load of n bytes for each lane. -/
def State.vload (s : State) (t : Nat) (d : BitVec 5) (m : MemOp) (sz n : Nat) (acq : Bool)
    (lanes : List (Nat × Word)) : Eff :=
  (s.checks t .read false acq m.space (kindOf m.space sz) n n lanes).fin (fun s ps =>
    if s.mayWait t ps && !acq then
      .done (ps.foldl (fun (s : State) p =>
        s.leaveLoad t 0 (.v d p.lane) m.hint { (p.segs.headD default) with va := p.ea.toNat }) s)
    else
      (s.readPieces t (!acq) m.hint ps).fin (fun s bs =>
        let s := (s.acquireIf t acq m.sc.toNat).regionIf t acq
        .done (s.updThr t (fun th => th.wv d (loadLanes (th.rv d) ((ps.map Piece.lane).zip bs))))))

/-- A vector store of n bytes for each lane, with its nibble mask. -/
def State.vstore (s : State) (t : Nat) (m : MemOp) (sz n : Nat) (rel : Bool) (data : Nat → Lane)
    (nm : Nat → BitVec 32) (lanes : List (Nat × Word)) : Eff :=
  (s.checks t .write true rel m.space (kindOf m.space sz) n n lanes).fin (fun s ps =>
    s.store t m.space rel m.sc.toNat (ps.map (fun p =>
      (p, bytesOfNat n (data p.lane).toNat, nm p.lane))))

/-- Lane i of a register. -/
def laneOf (v : VReg) (i : Nat) : Lane := v.toList.getD i 0

/-- R191. -/
def execVld (h : Hdr) (d : BitVec 5) (m : MemOp) (c : BitVec 3) (acq : Bool) (s : State) :
    Host.Outcome State Fault Refusal :=
  run s h (.vld h d m c acq) (fun s t =>
    let th := s.thr t
    let ea := th.ea m
    let l := laneAddrs (th.rm c) (fun i => ea + BitVec.ofNat 64 (4 * i))
    (s.alignVec l ea 0 false (kindOf m.space 0)).fin (fun s _ => s.vload t d m 0 4 acq l))

/-- R191, R192. -/
def execVst (h : Hdr) (nib : Option (BitVec 5)) (b : BitVec 5) (m : MemOp) (c : BitVec 3) (rel : Bool)
    (s : State) : Host.Outcome State Fault Refusal :=
  run s h (.vst h nib b m c rel) (fun s t =>
    let th := s.thr t
    let ea := th.ea m
    let l := laneAddrs (th.rm c) (fun i => ea + BitVec.ofNat 64 (4 * i))
    let sz := if nib.isSome then 1 else 0
    let nm (i : Nat) : BitVec 32 := match nib with
      | some d => ((laneOf (th.rv d) i).extractLsb' 0 8).setWidth 32
      | none => 0xFFFFFFFF
    (s.alignVec l ea 0 true (kindOf m.space sz)).fin (fun s _ =>
      s.vstore t m sz 4 rel (laneOf (th.rv b)) nm l))

/-- R191. -/
def execVlds (h : Hdr) (d : BitVec 5) (b : SOp) (m : MemOp) (c : BitVec 3) (acq : Bool) (s : State) :
    Host.Outcome State Fault Refusal :=
  run s h (.vlds h d b m c acq) (fun s t =>
    let th := s.thr t
    let ea := th.ea m
    let l := laneAddrs (th.rm c) (fun i => ea + BitVec.ofNat 64 i * th.rs b)
    (s.alignVec l ea (th.rs b) false (kindOf m.space 0)).fin (fun s _ => s.vload t d m 0 4 acq l))

/-- R191: the data stands in D. -/
def execVsts (h : Hdr) (d : BitVec 5) (b : SOp) (m : MemOp) (c : BitVec 3) (rel : Bool) (s : State) :
    Host.Outcome State Fault Refusal :=
  run s h (.vsts h d b m c rel) (fun s t =>
    let th := s.thr t
    let ea := th.ea m
    let l := laneAddrs (th.rm c) (fun i => ea + BitVec.ofNat 64 i * th.rs b)
    (s.alignVec l ea (th.rs b) true (kindOf m.space 0)).fin (fun s _ =>
      s.vstore t m 0 4 rel (laneOf (th.rv d)) (fun _ => 0xFFFFFFFF) l))

/-- R193. -/
def execVgath (h : Hdr) (d b : BitVec 5) (m : MemOp) (c : BitVec 3) (e : ESize) (acq : Bool) (s : State) :
    Host.Outcome State Fault Refusal :=
  run s h (.vgath h d b m c e acq) (fun s t =>
    let th := s.thr t
    let l := laneAddrs (th.rm c) (fun i => th.ea m + (laneOf (th.rv b) i).signExtend 64)
    s.vload t d m (esCode e) (esBytes e) acq l)

/-- R193. -/
def execVscat (h : Hdr) (d b : BitVec 5) (m : MemOp) (c : BitVec 3) (e : ESize) (rel : Bool) (s : State) :
    Host.Outcome State Fault Refusal :=
  run s h (.vscat h d b m c e rel) (fun s t =>
    let th := s.thr t
    let l := laneAddrs (th.rm c) (fun i => th.ea m + (laneOf (th.rv b) i).signExtend 64)
    s.vstore t m (esCode e) (esBytes e) rel (laneOf (th.rv d)) (fun _ => 0xFFFFFFFF) l)

/-! ## WAITA (R195) -/

/-- R195: the condition on n-byte words. -/
def waitHolds (c : WaitCond) (x b : Nat) : Bool :=
  match c with
  | .eq => x == b | .ne => x != b | .geu => decide (b ≤ x) | .ltu => decide (x < b)
  | .any => (x &&& b) != 0

/-- One examination of the waited word: done, or wait. -/
def State.waitaTry (s : State) (t : Nat) (d : SOp) (ea : Word) (sp_ : Space) (w4 acq : Bool) (sc : BitVec 3)
    (cond : WaitCond) (b : Word) : Eff :=
  let n := wBytes w4
  (s.check1 t .read false true sp_ (kindOf sp_ (wCode w4)) n n ea).fin (fun s ps =>
    (s.readPieces t false 0 ps).fin (fun s bs =>
      let x := natOfBytes (bs.getD 0 [])
      if waitHolds cond x (b.toNat % 2 ^ (8 * n)) then
        let s := s.acquireIf t acq sc.toNat
        let s := s.regionIf t acq
        .done (s.updThr t (fun th => th.ws d (BitVec.ofNat 64 x)))
      else .wait s (.waita d ea sp_ w4 acq sc cond b)))

/-- R195. -/
def execWaita (h : Hdr) (d b : SOp) (m : MemOp) (w4 acq : Bool) (cond : WaitCond) (s : State) :
    Host.Outcome State Fault Refusal :=
  run s h (.waita h d b m w4 acq cond) (fun s t =>
    let th := s.thr t
    s.waitaTry t d (th.ea m) m.space w4 acq m.sc cond (th.rs b))

/-! ## Barrier objects (R196-R202) -/

/-- The checks of an instruction that takes a barrier object, its release, and the object's address. -/
def State.barOp (s : State) (t : Nat) (m : MemOp) (acc : Acc) (wr rel : Bool)
    (f : State → Nat → Word → Eff) : Eff :=
  if wr && (s.dual? t).isSome then s.dualFail t 3
  else
    let ea := (s.thr t).ea m
    (s.check1 t acc wr true m.space (kindOf m.space 0) 16 16 ea).fin (fun s ps =>
      (s.releaseIf t rel m.sc.toNat).fin (fun s _ =>
        (s.objAddr t ps).fin (fun s pa => f s pa ea)))

/-- R197, R198. -/
def execBari (h : Hdr) (b : SOp) (m : MemOp) (rel : Bool) (s : State) : Host.Outcome State Fault Refusal :=
  run s h (.bari h b m rel) (fun s t =>
    let n := ((s.thr t).rs b).extractLsb' 0 16
    s.barOp t m .write true rel (fun s pa _ =>
      let s := s.setBar pa (Bar.start n)
      .done ({ s with arrive := s.arrive.filter (fun x => x.pa != pa) }.regionIf t true)))

/-- R197, R199. -/
def execBara (h : Hdr) (d : SOp) (m : MemOp) (s : State) : Host.Outcome State Fault Refusal :=
  run s h (.bara h d m) (fun s t =>
    s.barOp t m .write true true (fun s pa ea =>
      let b := s.bar pa
      if b.err then s.barTrap pa 1 ea
      else
        let s := s.barStep pa (some (some (clusOf t))) b.arrive
        let s := s.regionIf t true
        .done (s.updThr t (fun th => th.ws d (b.gen.setWidth 64)))))

/-- One look of BARW at the object: done, trap, or wait. A waiter that an update wakes reads the object again (R200), so
one that finds ERR cleared by a BARX.abandon made meanwhile does not trap (log 53). -/
def State.barwTry (s : State) (t : Nat) (d : SOp) (ea : Word) (sp_ : Space) (sc : BitVec 3) (g : BitVec 4) :
    Eff :=
  (s.check1 t .read false true sp_ (kindOf sp_ 0) 16 16 ea).fin (fun s ps =>
    (s.objAddr t ps).fin (fun s pa =>
      let b := s.bar pa
      if b.err then s.barTrap pa 1 ea
      else if b.gen ≠ g then
        let s := (s.acquireIf t true sc.toNat).regionIf t true
        .done (s.updThr t (fun th => th.ws d (b.gen.setWidth 64)))
      else .wait s (.barw d ea sp_ sc g)))

/-- R200. -/
def execBarw (h : Hdr) (d b : SOp) (m : MemOp) (s : State) : Host.Outcome State Fault Refusal :=
  run s h (.barw h d b m) (fun s t =>
    let th := s.thr t
    s.barwTry t d (th.ea m) m.space m.sc ((th.rs b).extractLsb' 0 4))

/-- R197. -/
def execBarx (h : Hdr) (d : SOp) (m : MemOp) (ar abandon : Bool) (s : State) :
    Host.Outcome State Fault Refusal :=
  run s h (.barx h d m ar abandon) (fun s t =>
    s.barOp t m .write true true (fun s pa ea =>
      let b := s.bar pa
      if !abandon && !b.quiet then s.barTrap pa 2 ea
      else
        let s := s.barStep pa none (b.cross abandon)
        let s := (s.acquireIf t ar m.sc.toNat).regionIf t true
        .done (s.updThr t (fun th => th.ws d b.record))))

/-! ## RFCHK (R203) -/

/-- Does an agent have a peer store that is neither acknowledged nor refused? -/
def State.peerStoresLeft (s : State) (id : BitVec 32) : Bool :=
  let far (ns : Nibs) : Bool := match ns with
    | (l, _) :: _ => s.isPeer (l / 2)
    | [] => false
  (s.agent id).sb.any (fun x => far x.nibs) ||
    (s.agent id).iq.any (fun e => match e with
      | .store st => far st.nibs
      | .load .. | .atom .. | .peer .. | .got .. => false) ||
    s.hold.any (fun e => e.ag == id && s.isPeer (e.loc / 2)) || !s.peersDone id

/-- RFCHK once it does not wait: a report, or its answer. -/
def State.rfchkEnd (s : State) (t : Nat) (d : PZ) : Eff :=
  if 0 < (s.agent (s.tid t)).ref.count then s.reportRef t
  else .done (s.updThr t (fun th => th.wpz d (s.peerStoresLeft (s.tid t))))

/-- R203. -/
def execRfchk (h : Hdr) (d : PZ) (wt : Bool) (s : State) : Host.Outcome State Fault Refusal :=
  run s h (.rfchk h d wt) (fun s t =>
    if wt && s.peerStoresLeft (s.tid t) then .wait s (.rfchk d) else s.rfchkEnd t d)

end Sys2Proof.Machine
end

