-- ==== Sys2Proof/Machine/Tile.lean ====
section
/-! DEFINITION. The tile file and the accumulators, and group 0x10 (R23-R25, R231-R241, R386). -/

namespace Sys2Proof.Machine

/-! ## The arrays (R23, R250) -/

/-- Offsets of a tile and of an accumulator in the array window. -/
def tileOff (n : Nat) : Nat := 9216 * n
def accOff (n : Nat) : Nat := 147456 + 9216 * n
/-- The physical address of an offset of core c's array window. -/
def State.arrPa (s : State) (c o : Nat) : Nat := mkPa s.pkg (arrBase c + o)

/-- Row r of a tile, as a number of 1536 bits. -/
def State.tileRow (s : State) (c n r : Nat) : Nat := s.rdNat (s.arrPa c (tileOff n + 192 * r)) 192
/-- Element k of width w of a row. -/
def elemAt (row w k : Nat) : Nat := row / 2 ^ (w * k) % 2 ^ w
/-- A row from its n elements of width w. -/
def rowOf (w : Nat) (f : Nat → Nat) : Nat → Nat
  | 0 => 0
  | n + 1 => rowOf w f n + f n % 2 ^ w * 2 ^ (w * n)

/-- R233: a tile is written whole; rows and bytes that are not given become zero, and poison ends (R386). -/
def State.setTile (s : State) (c n : Nat) (rows : List Nat) : State :=
  let s := s.wrBytes (s.arrPa c (tileOff n)) ((List.range 48).flatMap (fun r => bytesOfNat 192 (rows.getD r 0)))
  s.updCore c (fun k => { k with poisonT := k.poisonT.filter (fun x => x != n) })

/-- Element (i, j) of an accumulator. -/
def State.acc (s : State) (c n i j : Nat) : Nat := s.rdNat (s.arrPa c (accOff n + 192 * i + 4 * j)) 4
/-- An accumulator's elements, row by row. -/
def State.accAll (s : State) (c n : Nat) : List (List Nat) :=
  (List.range 48).map (fun i =>
    let row := s.rdNat (s.arrPa c (accOff n + 192 * i)) 192
    (List.range 48).map (fun j => elemAt row 32 j))
/-- The element of a list of rows. -/
def accAt (l : List (List Nat)) (i j : Nat) : Nat := (l.getD i []).getD j 0
/-- An accumulator is written whole, which ends its poison. -/
def State.setAcc (s : State) (c n : Nat) (l : List (List Nat)) : State :=
  let s := s.wrBytes (s.arrPa c (accOff n)) (l.flatMap (fun row => row.flatMap (fun x => bytesOfNat 4 x)))
  s.updCore c (fun k => { k with poisonA := k.poisonA.filter (fun x => x != n) })
/-- An accumulator of zeros. -/
def accZero : List (List Nat) := List.replicate 48 (List.replicate 48 0)

/-- The descriptor of a tile, and the tag of an accumulator. -/
def State.desc (s : State) (c n : Nat) : BitVec 32 := (s.core c).desc.toList.getD n 0
def State.setDesc (s : State) (c : Nat) (n : BitVec 4) (x : BitVec 32) : State :=
  s.updCore c (fun k => { k with desc := k.desc.set n.toNat x })
def State.tagInt (s : State) (c : Nat) (n : BitVec 3) : Bool := (s.core c).accInt[n.toNat]
def State.setTag (s : State) (c : Nat) (n : BitVec 3) (int : Bool) : State :=
  s.updCore c (fun k => { k with accInt := k.accInt.set n.toNat int })

/-- A thread's own stores to its core's array window reach it. -/
def State.arrDrain (s : State) (t : Nat) : State :=
  let id := s.tid t
  let lo := s.arrPa (coreOf t) 0
  let ids := ((s.agent id).sb.filter (fun st => match st.nibs with
    | (l, _) :: _ => decide (lo ≤ l / 2) && decide (l / 2 < lo + arrBytes)
    | [] => false)).map (fun st => (st.id, id))
  s.raiseAll 1 ids

/-! ## Shape faults and poison (R231, R234, R386) -/

/-- R234. -/
def State.shapeTrap (s : State) (sub : Nat) (c4 : Word) (spec : BitVec 8) : Eff :=
  .trap s 0x0F sub c4 (spec.setWidth 64) false

/-- R231: a configured tile's format, rows and columns, or TILE_SHAPE 1. -/
def State.tileShape (s : State) (t : Nat) (n : BitVec 4) : Got (Fmt × Nat × Nat) :=
  let d := s.desc (coreOf t) n.toNat
  match descFmt d with
  | some f => .ok s (f, descRows d + 1, descCols d + 1)
  | none => .stop (s.shapeTrap 1 (d.setWidth 64) (tSpec n))

/-- Reading a poisoned tile or accumulator is a hardware error of the unit. -/
def State.readTileOk (s : State) (t : Nat) (n : BitVec 4) : Got Unit :=
  if (s.core (coreOf t)).poisonT.contains n.toNat then
    .stop (.ended (s.hwErr t 0x22 3 (BitVec.ofNat 64 (tileOff n.toNat))))
  else .ok s ()
def State.readAccOk (s : State) (t : Nat) (n : BitVec 3) : Got Unit :=
  if (s.core (coreOf t)).poisonA.contains n.toNat then
    .stop (.ended (s.hwErr t 0x22 4 (BitVec.ofNat 64 (accOff n.toNat))))
  else .ok s ()

/-! ## What recording keeps of commands (R260, R286, R289, R299) -/

/-- Lines of the recording area that n records take (R286). -/
def recLines (n : Nat) : Nat := (768 + 48 * n + 191) / 192
/-- Lines of the area in use by the recordings of a core. -/
def State.recUsed (s : State) (c : Nat) : Nat :=
  ((List.range 4).map (fun i => match (s.thr (4 * c + i)).recording with
    | some r => recLines r.recs.length
    | none => 0)).foldl (· + ·) 0
/-- Lines of the area (R41). -/
def State.recArea (s : State) (c : Nat) : Nat := 4096 - poolB2 (s.core c).poolcfg

/-- The slot of a pair, new if it has none: its number and the slots (R289, R291). -/
def slotOf (r : Recording) (key fbase : Word) (k : PKind) (ix : BitVec 10) : Nat × List PSlot :=
  let src : PSrc := ⟨k, ix⟩
  match (List.range r.slots.length).find? (fun i => (r.slots[i]?).map PSlot.src == some src) with
  | some i => (i, r.slots)
  | none =>
    let x : PSlot := match r.pairs.find? (fun p => p.src == src) with
      | some p => p
      | none => ⟨src, if k = .key then key else fbase, 0⟩
    (r.slots.length, r.slots ++ [x])

/-- The slot that an operand position is bound to: scalar registers with a tag are. -/
def bindOperand (r : Recording) (key fbase : Word) (spec : BitVec 8) : Recording × Option (BitVec 4) :=
  if 32 ≤ spec.toNat then (r, none)
  else
    match r.tag spec.toNat with
    | .tag k ix =>
      let (n, l) := slotOf r key fbase k ix
      ({ r with slots := l }, some (BitVec.ofNat 4 n))
    | .none | .derived => (r, none)

/-- The operand specifiers D, A and B of an instruction. -/
def specsOf (i : Instr) : BitVec 8 × BitVec 8 × BitVec 8 :=
  match encodeFields i with
  | some f => (f.d, f.a, f.b)
  | none => (0xE0, 0xE0, 0xE0)

/-- A performed command is recorded, or a recording that is full ends (R286). -/
def State.record (s : State) (t : Nat) (i : Instr) (thr : Bool) (q : BitVec 2) : State :=
  let h := s.thr t
  match h.recording with
  | none => s
  | some r =>
    let (d, a, b) := specsOf i
    let (r, pd) := bindOperand r h.key h.cframe d
    let (r, pa) := bindOperand r h.key h.cframe a
    let (r, pb) := bindOperand r h.key h.cframe b
    let x : Rec := { i, hn := hdrOf i, thr, queue := q, opd := h.rspec d, opa := h.rspec a, opb := h.rspec b,
                     pd, pa, pb }
    let more := recLines (r.recs.length + 1) - recLines r.recs.length
    if 1024 ≤ r.recs.length ∨ 16 < r.slots.length ∨
        s.recArea (coreOf t) < s.recUsed (coreOf t) + more then s.abortRec t 7
    else s.setThr t { h with recording := some { r with recs := r.recs ++ [x] } }

/-! ## TCFG (R236) -/

/-- A descriptor is written; the data stays. -/
def execTcfg (h : Hdr) (d : BitVec 4) (src : TcfgSrc) (s : State) : Host.Outcome State Fault Refusal :=
  run s h (.tcfg h d src) (fun s t =>
    let v : BitVec 32 := match src with
      | .r a => ((s.thr t).rs a).extractLsb' 0 32
      | .i imm => imm
    if !descOk v then s.shapeTrap 2 (v.setWidth 64) (tSpec d)
    else .done ((s.setDesc (coreOf t) d v).record t (.tcfg h d src) true 0))

/-! ## TLD, TST, AST (R237) -/

/-- The words of n rows of rb bytes at ea + r × stride, by row. -/
def rowWords (ea stride : Word) (n rb : Nat) : List (Nat × Word) :=
  (List.range n).flatMap (fun r => (List.range (rb / 4)).map (fun k =>
    (r, ea + BitVec.ofNat 64 r * stride + BitVec.ofNat 64 (4 * k))))

/-- RB of a row of n elements of width w. -/
def rowBytes (n w : Nat) : Nat := 4 * ((n * w + 31) / 32)

/-- The alignment of ea and of the stride (R237). -/
def State.alignRows (s : State) (ea stride : Word) (wr : Bool) (kind : BitVec 4) : Got Unit :=
  if ea.toNat % 4 ≠ 0 then .stop (.trap s 0x06 0 ea (accInfo 0 wr kind) false)
  else if stride.toNat % 4 ≠ 0 then .stop (.trap s 0x06 0 ea (accInfo 0xFF wr kind) false)
  else .ok s ()

/-- Bytes in rows of n, each as a number of its low w bits. -/
def cutRows (n w : Nat) : List Byte → Nat → List Nat
  | _, 0 => []
  | bs, k + 1 => natOfBytes (bs.take n) % 2 ^ w :: cutRows n w (bs.drop n) k

/-- R237. An unconfigured tile comes before a misaligned ea or stride (log 53). -/
def execTld (h : Hdr) (d : BitVec 4) (c : SOp) (m : MemOp) (acq : Bool) (s : State) :
    Host.Outcome State Fault Refusal :=
  run s h (.tld h d c m acq) (fun s t =>
    let th := s.thr t
    let kind := kindOf m.space 0
    (s.tileShape t d).fin (fun s sh =>
      let (f, rows, cols) := sh
      let rb := rowBytes cols f.width
      (s.alignRows (th.ea m) (th.rs c) false kind).fin (fun s _ =>
        (s.checks t .read false acq m.space kind 4 4 (rowWords (th.ea m) (th.rs c) rows rb)).fin (fun s ps =>
          (s.readPieces t (!acq) m.hint ps).fin (fun s bs =>
            let s := (s.acquireIf t acq m.sc.toNat).regionIf t acq
            .done ((s.arrDrain t).setTile (coreOf t) d.toNat (cutRows rb (cols * f.width) bs.flatten rows)))))))

/-- Rows of bytes stored word by word. -/
def State.storeRows (s : State) (t : Nat) (m : MemOp) (rel : Bool) (stride : Word) (rb : Nat)
    (rows : List (List Byte)) : Eff :=
  let kind := kindOf m.space 0
  let ea := (s.thr t).ea m
  (s.alignRows ea stride true kind).fin (fun s _ =>
    (s.checks t .write true rel m.space kind 4 4 (rowWords ea stride rows.length rb)).fin (fun s ps =>
      let words := rows.flatMap (fun bs => (List.range (rb / 4)).map (fun k => (bs.drop (4 * k)).take 4))
      s.store t m.space rel m.sc.toNat ((ps.zip words).map (fun p => (p.1, p.2, 0xFFFFFFFF)))))

/-- R237. -/
def execTst (h : Hdr) (b : BitVec 4) (c : SOp) (m : MemOp) (rel : Bool) (s : State) :
    Host.Outcome State Fault Refusal :=
  run s h (.tst h b c m rel) (fun s t =>
    (s.tileShape t b).fin (fun s sh =>
      let (f, rows, cols) := sh
      (s.readTileOk t b).fin (fun s _ =>
        let s := s.arrDrain t
        let data := (List.range rows).map (fun r => bytesOfNat 192 (s.tileRow (coreOf t) b.toNat r))
        s.storeRows t m rel ((s.thr t).rs c) (rowBytes cols f.width) data)))

/-- R237: all 48 rows, raw. -/
def execAst (h : Hdr) (b : BitVec 3) (c : SOp) (m : MemOp) (rel : Bool) (s : State) :
    Host.Outcome State Fault Refusal :=
  run s h (.ast h b c m rel) (fun s t =>
    (s.readAccOk t b).fin (fun s _ =>
      let s := s.arrDrain t
      let data := (s.accAll (coreOf t) b.toNat).map (fun row => row.flatMap (fun x => bytesOfNat 4 x))
      s.storeRows t m rel ((s.thr t).rs c) 192 data))

/-! ## TZERO, TTRN, ACVT (R238-R240) -/

/-- R238, as a thread or Q0 performs it. -/
def State.tzero (s : State) (c : Nat) (d : TA) (int : Bool) : State :=
  match d with
  | .t n => s.setTile c n.toNat []
  | .a n => (s.setAcc c n.toNat accZero).setTag c n int

/-- R238. -/
def execTzero (h : Hdr) (d : TA) (int : Bool) (s : State) : Host.Outcome State Fault Refusal :=
  run s h (.tzero h d int) (fun s t =>
    .done (((s.arrDrain t).tzero (coreOf t) d int).record t (.tzero h d int) true 0))

/-- R239. -/
def execTtrn (h : Hdr) (d a : BitVec 4) (s : State) : Host.Outcome State Fault Refusal :=
  run s h (.ttrn h d a) (fun s t =>
    (s.tileShape t a).fin (fun s sh =>
      let (f, rows, cols) := sh
      if 48 < cols then s.shapeTrap 3 ((s.desc (coreOf t) a.toNat).setWidth 64) (tSpec a)
      else
        (s.readTileOk t a).fin (fun s _ =>
          let s := s.arrDrain t
          let src := (List.range rows).map (fun r => s.tileRow (coreOf t) a.toNat r)
          let out := (List.range cols).map (fun j =>
            rowOf f.width (fun i => elemAt (src.getD i 0) f.width j) rows)
          let desc := BitVec.ofNat 32 ((rows - 1) * 1024 + (cols - 1) * 16 + f.code.toNat)
          .done ((s.setTile (coreOf t) d.toNat out).setDesc (coreOf t) d desc))))

/-- R240: Conv of a 32-bit element, INT32 or FP32, to a format. -/
def convElemTo (int ss : Bool) (rm : RM) (f : Fmt) (x : Nat) : Nat × Flags :=
  if int then
    match f with
    | .int32 => (x, 0)
    | .int8 => intElem ss true 8 (toI true 32 x)
    | .uint8 => intElem ss false 8 (toI true 32 x)
    | _ => fmtOf f rm (Val.ofInt (toI true 32 x))
  else fmtOf f rm (FF.f32.decode x)

/-- The flags of a list of elements. -/
def flagsOf (l : List (List (Nat × Flags))) : Flags :=
  l.foldl (fun (a : Flags) row => row.foldl (fun (a : Flags) x => a ||| x.2) a) 0

/-- R240. Of a D2S8 tile with more than 48 columns, sub-cause 3 shows (log 53). -/
def execAcvt (h : Hdr) (d : TA) (a : BitVec 3) (ss : Bool) (rm : RM) (s : State) :
    Host.Outcome State Fault Refusal :=
  run s h (.acvt h d a ss rm) (fun s t =>
    let c := coreOf t
    match d with
    | .t n =>
      (s.tileShape t n).fin (fun s sh =>
        let (f, rows, cols) := sh
        let bad (sub : Nat) : Eff := s.shapeTrap sub ((s.desc c n.toNat).setWidth 64) (tSpec n)
        if 48 < cols then bad 3
        else if f = .d2s8 then bad 4
        else
          (s.readAccOk t a).fin (fun s _ =>
            let s := s.arrDrain t
            let src := s.accAll c a.toNat
            let out := (List.range rows).map (fun i => (List.range cols).map (fun j =>
              convElemTo (s.tagInt c a) ss rm f (accAt src i j)))
            let rowsOut := out.map (fun row => rowOf f.width (fun j => (row.getD j (0, 0)).1) cols)
            .done ((s.setTile c n.toNat rowsOut).updThr t (fun th => th.orFlags (flagsOf out)))))
    | .a n =>
      (s.readAccOk t a).fin (fun s _ =>
        let s := s.arrDrain t
        let int := s.tagInt c a
        let out := (s.accAll c a.toNat).map (fun row => row.map (fun x =>
          convElemTo int ss rm (if int then .fp32 else .int32) x))
        let s := (s.setAcc c n.toNat (out.map (fun row => row.map Prod.fst))).setTag c n (!int)
        .done (s.updThr t (fun th => th.orFlags (flagsOf out)))))

/-! ## ATOV, VTOA (R241) -/

/-- r of R241. -/
def rowIndex (row : BitVec 6) (b : Word) : Nat := row.toNat + b.toNat

/-- R241. Of a row index that is too large c5 names the accumulator: R234 leaves open whether it is that or B (log 53). -/
def execAtov (h : Hdr) (d : BitVec 5) (a : BitVec 3) (b : SOp) (c : BitVec 3) (col : Bool) (row : BitVec 6)
    (s : State) : Host.Outcome State Fault Refusal :=
  run s h (.atov h d a b c col row) (fun s t =>
    let th := s.thr t
    let r := rowIndex row (th.rs b)
    if 48 ≤ r then s.shapeTrap 6 (BitVec.ofNat 64 r) (aSpec a)
    else
      (s.readAccOk t a).fin (fun s _ =>
        let s := s.arrDrain t
        let x : VReg := Vector.ofFn (fun i => BitVec.ofNat 32
          (if col then s.acc (coreOf t) a.toNat i.val r else s.acc (coreOf t) a.toNat r i.val))
        .done (s.updThr t (fun th => th.wvm d (th.rm c) x))))

/-- R241. A row index that is too large shows as ATOV's does (log 53). -/
def execVtoa (h : Hdr) (d : BitVec 3) (a : BitVec 5) (b : SOp) (c : BitVec 3) (col : Bool) (row : BitVec 6)
    (s : State) : Host.Outcome State Fault Refusal :=
  run s h (.vtoa h d a b c col row) (fun s t =>
    let th := s.thr t
    let r := rowIndex row (th.rs b)
    if 48 ≤ r then s.shapeTrap 6 (BitVec.ofNat 64 r) (aSpec d)
    else
      let s := s.arrDrain t
      let m := th.rm c
      .done ((List.range 48).foldl (fun (s : State) i =>
        if m.getLsbD i then
          let o := if col then 192 * i + 4 * r else 192 * r + 4 * i
          s.wrNat (s.arrPa (coreOf t) (accOff d.toNat + o)) 4 (laneOf (th.rv a) i).toNat
        else s) s))

end Sys2Proof.Machine
end

