-- ==== Sys2Proof/Machine/Engine.lean ====
section
/-! DEFINITION. Engine queues and their commands: matrix commands, copies, QJOIN and repeats, from issue to
completion; groups 0x0F, 0x11 and 0x12 and the steps that perform their commands (R37-R39, R63-R68, R99,
R123-R130, R224-R230, R243-R259). -/

namespace Sys2Proof.Machine

/-! ## Queues and their owners (R38, R300) -/

/-- Does the queue exist? -/
def ownerOk (o : QOwner) (q : Nat) : Bool :=
  decide (q < 4) && (match o with
    | .thread t => decide (t < nThreads)
    | .seqr c => decide (c < nCores))
/-- The head of a queue is replaced, or removed. -/
def State.setHead (s : State) (o : QOwner) (q : Nat) (c : Cmd) : State :=
  let x := s.queue o q
  s.setQueue o q { x with cmds := c :: x.cmds.drop 1 }
def State.popHead (s : State) (o : QOwner) (q : Nat) : State :=
  let x := s.queue o q
  s.setQueue o q { x with cmds := x.cmds.drop 1 }

/-- Does the unit that issued a command still run? A replay's commands end with it. -/
def State.cmdLives (s : State) (o : QOwner) (c : Cmd) : Bool := s.ownerUid o == some c.uid

/-! ## The fields of a copy (R249, R250) -/

/-- The guard slot of a command. -/
def slotField (i : Instr) : BitVec 4 :=
  match i with
  | .repb _ _ _ slot _ _ _ _ _ _ | .tmma _ _ _ _ slot _ _ _ _ | .tsca _ _ _ _ _ slot _ _
  | .cpy _ _ _ _ _ slot _ | .cpy2d _ _ _ _ _ slot _ | .cpyg _ _ _ _ _ slot _ | .cpys _ _ _ _ _ slot _
  | .qjoin _ _ slot _ => slot
  | _ => 0

/-- The queue that a command enters. -/
def queueField (i : Instr) : Nat :=
  match i with
  | .repb .. => 3
  | .qjoin _ q _ _ => q.toNat
  | _ => match copyMod i with
    | some (_, q2) => if q2 then 2 else 1
    | none => 0

/-- Completion scope (R125). -/
def cmdScope (i : Instr) : Nat :=
  match i with
  | .repb _ _ _ _ _ cs _ _ _ _ => cs.toNat
  | _ => match copyMod i with
    | some (k, _) => k.cs.toNat
    | none => 1

/-- The completion target of a copy: its space, offset and bytes (R253). -/
def copyTarget (k : CpyMod) (cframe : Word) : Option (CSpace × Word × Nat) :=
  let o : Word := BitVec.ofNat 64 (4 * k.coff.toNat) + if k.cfr then cframe else 0
  match k.ck with
  | .none => none
  | .cwsp => some (.sp, o, 4)
  | .cwcm => some (.cm, o, 4)
  | .barsp => some (.sp, o, 16)
  | .barcm => some (.cm, o, 16)
def isBar (k : CpyMod) : Bool := k.ck == .barsp || k.ck == .barcm

/-- R253: the order number of the check of R175 that a completion target fails, or 0. -/
def State.targetCheck (s : State) (core : Nat) (x : CSpace × Word × Nat) : Nat :=
  let (sp_, o, n) := x
  if o.toNat % n ≠ 0 then 1
  else if (s.spaceBase core sp_).1 < o.toNat + n then 2
  else 0
/-- The physical address of a completion target. -/
def State.targetPa (s : State) (core : Nat) (x : CSpace × Word × Nat) : Nat :=
  (s.spaceBase core x.1).2 + x.2.1.toNat

/-! ## Issue (R38, R253, R246) -/

/-- A command with its operands read. -/
def State.mkCmd (s : State) (t : Nat) (i : Instr) : Cmd :=
  let h := s.thr t
  let (d, a, b) := specsOf i
  let ctx := s.ctx t
  let v (n : BitVec 5) : VReg := h.rv n
  let (rows, cols) : VReg × VReg := match i with
    | .tsca _ _ _ b cv _ _ _ => (v b, v cv)
    | _ => (Vector.replicate 48 0, Vector.replicate 48 0)
  { i, opd := h.rspec d, opa := h.rspec a, opb := h.rspec b, rows, cols, body := [], snap := [], gen := 0,
    tgt := 0, order := s.serial + 1, decided := slotField i == 0, begun := false, stamp := 0, todo := [], buf := [],
    idx := [], seen := [], iter := 0, fl := 0,
    uid := (match h.unit with
      | some u => u.uid
      | none => 0),
    part := ctx.part, asid := ctx.asid, priv := ctx.priv }

/-! ## Replays that fail (R301, R328, R386, R388) -/

/-- The sequencer gives a replay up: commands that have not begun are discarded, and held messages. -/
def State.dropReplay (s : State) (c : Nat) : State :=
  let s := match (s.core c).replay with
    | some r => (match r.thr with
      | some t => s.dropHeld t r.uid
      | none => s)
    | none => s
  s.updCore c (fun k => { k with
    replay := none, seqq := Vector.ofFn (fun i => (k.seqq[i]).orphan) })

/-- A hardware error of a replay's run. -/
def State.replayHw (s : State) (c cause sub : Nat) (info0 : Word) : State :=
  match (s.core c).replay with
  | none => s
  | some r =>
    let s := s.putRecord (some r.part) { s.replayRec c r cause sub with info0, rd := s.redelivers r.ekey }
    { s.dropReplay c with notices := s.notices ++ [⟨.hwError false c, r.ekey⟩] }

/-- A hardware error met by a command: of the unit that issued it, if that still runs. -/
def State.cmdHw (s : State) (o : QOwner) (q : Nat) (c : Cmd) (cause sub : Nat) (info0 : Word) : State :=
  let here := ((s.closeHead o q).popHead o q).forget (fun x => x.cmd == c.order)
  if s.cmdLives o c then
    match o with
    | .thread t => here.hwErr t cause sub info0
    | .seqr k => here.replayHw k cause sub info0
  else here

/-! ## At the head (R37, R253, R257) -/

/-- The cluster that a completion carries: its quill's or its queue agent's; a brush carries none (R384). -/
def cmdCluster (o : QOwner) (i : Instr) : Option Nat :=
  match copyMod i with
  | some (k, _) => if k.eng == .brush then none else some (clusOfCore (ownerCore o))
  | none => some (clusOfCore (ownerCore o))
/-- What the completion of a copy does to its barrier (R253, R257). -/
def State.barComplete (s : State) (o : QOwner) (c : Cmd) : State :=
  match copyMod c.i with
  | some (k, _) => if isBar k then s.barLand c.tgt.toNat k.dir c.gen (cmdCluster o c.i) else s
  | none => s

/-- The completion of a command reads its barrier object, or a word that it adds to: does it meet poison there (R386)? -/
def State.endPoison (s : State) (c : Cmd) : Bool :=
  match copyMod c.i with
  | some (k, _) => (isBar k && s.poisoned c.tgt.toNat 16) ||
      ((k.ck == .cwsp || k.ck == .cwcm) && k.cadd && s.poisoned c.tgt.toNat 4)
  | none => false
/-- A command is discarded at the head of its queue: its barrier counts it as complete (R257). -/
def State.discardHead (s : State) (o : QOwner) (q : Nat) (c : Cmd) : State :=
  if (match copyMod c.i with
    | some (k, _) => isBar k
    | none => false) && s.endPoison c then s.cmdHw o q c 0x23 0 (winOff c.tgt.toNat)
  else (s.popHead o q).barComplete o c

/-- R37, R257: the command at the head of a thread's queue decides its fate, if it has not; one that is discarded
leaves the head to the next. -/
def State.decideHead (s : State) (o : QOwner) (q : Nat) : Nat → State
  | 0 => s
  | n + 1 =>
    let x := s.queue o q
    match o, x.cmds, x.stopped with
    | .thread t, c :: _, none =>
      if c.decided then s
      else
        let h := s.thr t
        match h.slots.toList.getD (slotField c.i).toNat .empty with
        | .pass => s.setHead o q { c with decided := true }
        | .discard => (s.discardHead o q c).decideHead o q n
        | .empty => if h.slotsClosed then (s.discardHead o q c).decideHead o q n else s
    | _, _, _ => s
/-- The same for a queue whose head may be new. -/
def State.atHead (s : State) (o : QOwner) (q : Nat) : State := s.decideHead o q 33
/-- The guard slots of a thread have changed: the commands that wait on them look (R257). -/
def State.slotsSet (s : State) (t : Nat) : State :=
  [0, 1, 2, 3].foldl (fun (s : State) q => s.atHead (.thread t) q) s
/-- From ADONE or TPLAY on, an EMPTY slot acts as DISCARD (R37). -/
def State.closeSlots (s : State) (t : Nat) : State :=
  (s.updThr t (fun h => { h with slotsClosed := true })).slotsSet t

/-- A command enters a thread's queue, where it may be at the head at once; R128 will have WAITC cover it. -/
def State.pushCmd (s : State) (t : Nat) (c : Cmd) : State :=
  let q := queueField c.i
  let lvl := homeLevel (idKind (agentId s.pkg (cmdAgent (.thread t) q c.i)))
  let s := s.updThr t (fun h =>
    let x := h.q.toList.getD q Queue.init
    { h.setQ q { x with cmds := x.cmds ++ [c] } with
      waitCov := Vector.ofFn (fun i => if i.val = q then lvl :: h.waitCov[i] else h.waitCov[i]) })
  { s with serial := s.serial + 1 }.atHead (.thread t) q

/-- Is a queue of a thread full? -/
def State.queueFull (s : State) (t q : Nat) : Bool := decide (32 ≤ (s.queue (.thread t) q).cmds.length)

/-- A command whose target checks have passed is queued and recorded. -/
def State.enqueueCmd (s : State) (t : Nat) (c : Cmd) : Eff :=
  .done ((s.pushCmd t c).record t c.i false (BitVec.ofNat 2 (queueField c.i)))

/-- A command of groups 0x11 and 0x12 other than a copy. TMMA and TSCA write an accumulator, which fails a dual run
(R392). -/
def State.issueCmd (s : State) (t : Nat) (i : Instr) : Eff :=
  if (s.dual? t).isSome && (named i).group == 0x11 then s.dualFail t 3
  else if s.queueFull t (queueField i) then .stall s else s.enqueueCmd t (s.mkCmd t i)

/-- X[43:40] of a word (R176). -/
def kindBits (i : Instr) : BitVec 4 := (wordOf i).extractLsb' 40 4

/-- A copy: its completion target is checked, and a barrier's counter raised, before it is queued (R253): an update of the
barrier, which ends a region of the thread (R136, R178). -/
def State.issueCopy (s : State) (t : Nat) (i : Instr) : Eff :=
  match copyMod i with
  | none => .done s
  | some (k, _) =>
    if (s.dual? t).isSome && !(k.dsp == .sp && (k.ck == .none || k.ck == .cwsp)) then s.dualFail t 3
    else if s.queueFull t (queueField i) then .stall s
    else
      let c := s.mkCmd t i
      match copyTarget k (s.thr t).cframe with
      | none => s.enqueueCmd t c
      | some x =>
        let chk := s.targetCheck (coreOf t) x
        if chk = 1 then .trap s 0x06 0 x.2.1 (accInfo 0xFF true (kindBits i)) false
        else if chk = 2 then .trap s 0x08 0 x.2.1 (accInfo 0xFF true (kindBits i)) false
        else
          let pa := s.targetPa (coreOf t) x
          if isBar k then
            (s.objAddr t [⟨0xFF, x.2.1, [⟨x.2.1.toNat, .mem pa 0, 16⟩]⟩]).fin (fun s pa =>
              let b := s.bar pa
              let s := (s.barStep pa none (b.raise k.dir)).regionIf t true
              s.enqueueCmd t { c with tgt := BitVec.ofNat 64 pa, gen := b.gen })
          else s.enqueueCmd t { c with tgt := BitVec.ofNat 64 pa }

/-! ## Stops (R39, R133, R138, R229, R258) -/

/-- c5 of R258. -/
def faultInfo (chk reason : Nat) (i : Instr) (q row : Nat) (wr : Bool) (side : Nat) : Word :=
  let w := wordOf i
  let g := (w.extractLsb' 90 6).toNat
  let f := (w.extractLsb' 86 4).toNat
  BitVec.ofNat 64 (chk % 256 * 2 ^ 40 + reason % 256 * 2 ^ 32 + g * 2 ^ 26 + f * 2 ^ 22 + q % 4 * 2 ^ 20 +
    row % 4096 * 2 ^ 8 + (if wr then 128 else 0) + side * 16)

/-! ## Accesses of commands (R124, R133, R135-R138, R348) -/

/-- What an access of a command comes to. -/
inductive EGot (α : Type) where
  | ok (s : State) (v : α)
  /-- A check of R175 fails, by its order number, with the reason of a refusal or the record of a conflict. -/
  | bad (s : State) (chk reason : Nat) (addr : Nat) (w : Option Watch)
  | wait (s : State)
  | hw (s : State) (cause sub : Nat) (info0 : Word)

/-- The context of a command's accesses. -/
def State.cmdCtx (s : State) (o : QOwner) (q : Nat) (c : Cmd) : Ctx :=
  let thr := match o with
    | .thread t => if s.cmdLives o c then some t else none
    | .seqr _ => none
  ⟨agentId s.pkg (cmdAgent o q c.i), ownerCore o, c.part, c.asid, c.priv, thr, c.seen, c.order⟩
/-- Whose they are, with c5 of the record that a refused store of theirs makes. -/
def Cmd.whose (c : Cmd) (o : QOwner) (q : Nat) (c5 : Word) : Whose :=
  ⟨c.part.getD 0, c.asid, some ⟨o, q, c.uid, c.order, c5⟩⟩

/-- The order number of a check by its cause (R175). -/
def checkNo (cause : Nat) : Nat :=
  match cause with
  | 0x06 => 1 | 0x07 | 0x08 => 2 | 0x09 => 3 | 0x0A => 4 | 0x0B => 5
  | _ => 6

/-- R175, checks 2 to 5, for n bytes of a command. -/
def State.cmdCheck (s : State) (x : Ctx) (wr : Bool) (sp_ : CSpace) (ea n : Nat) : EGot (List Seg) :=
  match s.check x (if wr then .write else .read) sp_ (BitVec.ofNat 64 ea) n with
  | (s, .fail cause _ a) => .bad s (checkNo cause) 0 a none
  | (s, .wait) => .wait s
  | (s, .ok segs) =>
    match s.conflicts x.ag wr segs with
    | some w => .bad s 5 0 ea (some w)
    | none => .ok s segs

/-- Bytes read by a command in its region, as a dual run's held stores leave them (R392). -/
def State.cmdRead (s : State) (x : Ctx) (stamp : BitVec 16) (of : Whose) (segs : List Seg) : EGot (List Byte) :=
  let peers := s.peerSegs segs
  if !s.watchFits x.ag stamp false segs then .wait s
  else
  match s.watchClear x.ag segs with
  | (s, false) => .wait s
  | (s, true) =>
  match s.peerAll x.ag of 2 (fun g => [BitVec.ofNat 8 g.len]) peers with
  | (s, none) => .wait s
  | (s, some ans) =>
    match refusal peers ans with
    | some (g, r) => .bad s 6 r.toNat g.va none
    | none =>
      match segs.findSome? s.arrPoison with
      | some (sub, o) => .hw s 0x22 sub (BitVec.ofNat 64 o)
      | none =>
        match segs.find? (s.poisonSeg x) with
        | some g => .hw s 0x23 0 (BitVec.ofNat 64 g.va)
        | none =>
          let (s, bs) := (s.watchAs x.ag stamp false segs).readSegs x false 0 ans segs
          .ok s (s.overlaySegs (x.thr.bind s.dual?) segs bs)

/-- One unit stored by a command; `wipe` as in a store's tag. -/
def State.cmdUnit (s : State) (x : Ctx) (of : Whose) (wipe : Nat) (u : SUnit) : State :=
  match u.tgt with
  | .mem pa pte =>
    let ns := u.nibs pa
    if ns.isEmpty then s
    else if pteWatch pte then (s.drainOver x.ag 6 ns).atomWriteN x.ag ns
    else s.buffer x.ag (BitVec.ofNat 64 u.va) ns wipe none of
  | r => s.regWrite x.priv r (u.bytes.length + 1) u.bytes u.mask

/-- Bytes stored by a command over runs: each run is one unit of the machine. -/
def State.cmdStore (s : State) (x : Ctx) (stamp : BitVec 16) (of : Whose) : List Seg → List Byte → State
  | [], _ => s
  | g :: gs, bs =>
    let s := s.watchAs x.ag stamp true [g]
    let here := bs.take g.len
    let s := match g.tgt with
      | .mem pa pte =>
        let ns := nibsOf pa here
        if ns.isEmpty then s
        else if pteWatch pte then (s.drainOver x.ag 6 ns).atomWriteN x.ag ns
        else s.buffer x.ag (BitVec.ofNat 64 g.va) ns 0 none of
      | r => s.regWrite x.priv r (here.length + 1) here 0xFFFFFFFF
    s.cmdStore x stamp of gs (bs.drop g.len)

/-! ## TMMA (R244, R64, R66) -/

/-- A pair of formats: its block, and whether it accumulates in INT32. -/
def mmPair (a b : Fmt) : Option (Nat × Bool) :=
  let f8 (f : Fmt) : Bool := f == .e4m3 || f == .e5m2
  let i8 (f : Fmt) : Bool := f == .int8 || f == .uint8
  if (a == .bf16 && b == .bf16) || (a == .fp16 && b == .fp16) then some (16, false)
  else if (f8 a && f8 b) || (a == .fp4 && b == .fp4) then some (32, false)
  else if (i8 a && i8 b) || (a == .d2s8 && i8 b) || (i8 a && b == .d2s8) then some (32, true)
  else none

/-- NBT: the K blocks of an extent. -/
def blocksOf (k block : Nat) : Nat := (k + block - 1) / block

/-- R244: the shape sub-cause that a TMMA is refused with, or 0. Where several hold, the first of 1, 3 (the K of the
tiles), 4, 5, 3 (KO and KC) shows: R244 lists them without an order (log 53). -/
def State.tmmaBad (s : State) (c : Nat) (d : BitVec 3) (a b : BitVec 4) (za : Bool) (ko kc : BitVec 8) : Nat :=
  let da := s.desc c a.toNat
  let db := s.desc c b.toNat
  match descFmt da, descFmt db with
  | some fa, some fb =>
    if descCols da ≠ descCols db then 3
    else
      match mmPair fa fb with
      | none => 4
      | some (block, int) =>
        if !za && s.tagInt c d != int then 5
        else
          let last := if kc = 0 then ko.toNat else ko.toNat + kc.toNat - 1
          if blocksOf (descCols da + 1) block ≤ last then 3 else 0
  | _, _ => 1

/-- The integer that an element of an integer format stands for (R56, R66). -/
def fmtInt (f : Fmt) (x : Nat) : Int :=
  match f with
  | .d2s8 => d2s8 x
  | .uint8 => toI false 8 x
  | _ => toI true 8 x

/-- R64: one accumulator element over the blocks listed. -/
def dotFloat (fa fb : Fmt) (ra rb : Nat → Nat) (k block x : Nat) (bs : List Nat) : Nat × Flags :=
  bs.foldl (fun (a : Nat × Flags) b =>
    let ps := (List.range block).map (fun i =>
      let n := b * block + i
      if n < k then (fmtVal fa (ra n)).mul (fmtVal fb (rb n)) else (Val.zero, 0))
    let (y, fl) := accumulate a.1 (blockSum ps)
    (y, a.2 ||| fl)) (x, 0)

/-- R66: the same for integers. -/
def dotInt (sat : Bool) (fa fb : Fmt) (ra rb : Nat → Nat) (k block x : Nat) (bs : List Nat) : Nat × Flags :=
  bs.foldl (fun (a : Nat × Flags) b =>
    let sum := (List.range block).foldl (fun (z : Int) i =>
      let n := b * block + i
      if n < k then z + fmtInt fa (ra n) * fmtInt fb (rb n) else z) 0
    let y := toI true 32 a.1 + sum
    if sat then
      let (z, cl) := clampI true 32 y
      (ofI 32 z, a.2 ||| flagIf cl satF)
    else (ofI 32 y, a.2)) (x, 0)

/-- R244: TMMA's results and flags. -/
def State.tmma (s : State) (c : Nat) (d : BitVec 3) (a b : BitVec 4) (za sat : Bool) (ko kc : BitVec 8) :
    State × Flags :=
  let da := s.desc c a.toNat
  let db := s.desc c b.toNat
  match descFmt da, descFmt db with
  | some fa, some fb =>
    match mmPair fa fb with
    | some (block, int) =>
      let k := descCols da + 1
      let nb := if kc = 0 then blocksOf k block - ko.toNat else kc.toNat
      let bs := (List.range nb).map (fun i => ko.toNat + i)
      let rowsA := (List.range (descRows da + 1)).map (fun i => s.tileRow c a.toNat i)
      let rowsB := (List.range (descRows db + 1)).map (fun i => s.tileRow c b.toNat i)
      let old := if za then accZero else s.accAll c d.toNat
      let out := (List.range 48).map (fun i => (List.range 48).map (fun j =>
        if i ≤ descRows da ∧ j ≤ descRows db then
          let ra (n : Nat) : Nat := elemAt (rowsA.getD i 0) fa.width n
          let rb (n : Nat) : Nat := elemAt (rowsB.getD j 0) fb.width n
          if int then dotInt sat fa fb ra rb k block (accAt old i j) bs
          else dotFloat fa fb ra rb k block (accAt old i j) bs
        else (accAt old i j, 0)))
      let s := s.setAcc c d.toNat (out.map (fun row => row.map Prod.fst))
      (if za then s.setTag c d int else s, flagsOf out)
    | none => (s, 0)
  | _, _ => (s, 0)

/-! ## TSCA (R246, R67, R68) -/

/-- R67: one element with E8M0 scales. -/
def scaleE8 (d : Nat) (p : Val) (sa sb : Nat) : Nat × Flags :=
  if sa = 0xFF ∨ sb = 0xFF then (FF.f32.nanBits, nvF)
  else FF.f32.fin .rne (Val.fma .rne p (.fin false 1 ((sa : Int) + sb - 254)) (FF.f32.decode d))
/-- R68: one element with FP32 scales. -/
def scaleF (d : Nat) (p : Val) (fa fb : Nat) : Nat × Flags :=
  let (x, f1) := FF.f32.mul .rne fa fb
  let (y, f2) := FF.f32.fin .rne (Val.fma .rne p (FF.f32.decode x) (FF.f32.decode d))
  (y, f1 ||| f2)

/-- R246. -/
def State.tsca (s : State) (c : Nat) (d a : BitVec 3) (rows cols : VReg) (za fs : Bool) : State × Flags :=
  let p := s.accAll c a.toNat
  let pInt := s.tagInt c a
  let old := if za then accZero else s.accAll c d.toNat
  let out := (List.range 48).map (fun i => (List.range 48).map (fun j =>
    let x := accAt p i j
    let v := if pInt then Val.ofInt (toI true 32 x) else FF.f32.decode x
    let sa := (laneOf rows i).toNat
    let sb := (laneOf cols j).toNat
    if fs then scaleF (accAt old i j) v sa sb else scaleE8 (accAt old i j) v (sa % 256) (sb % 256)))
  let s := s.setAcc c d.toNat (out.map (fun row => row.map Prod.fst))
  (if za then s.setTag c d false else s, flagsOf out)

/-! ## Copies (R251, R252) -/

/-- Rows of a copy, and bytes in each. -/
def copyShape (c : Cmd) : Nat × Nat :=
  match c.i with
  | .cpy .. =>
    let n := (c.opb.extractLsb' 0 32).toNat
    (if n = 0 then 0 else 1, n)
  | _ =>
    let n := 4 * (c.opb.extractLsb' 40 12).toNat
    (if n = 0 then 0 else (c.opb.extractLsb' 52 12).toNat, n)

/-- A signed 20-bit stride of 4-byte units, in bytes. -/
def stride4 (x : BitVec 20) : Word := 4 * x.signExtend 64
/-- A row of an index list: 48 × idx. -/
def indexed (c : Cmd) (k : Nat) : Option Word :=
  (c.idx.find? (fun p => p.1 == k)).map (fun p => 48 * p.2.signExtend 64)

/-- The source and the destination address of row k, once its index is known. -/
def srcRow (c : Cmd) (k : Nat) : Option Word :=
  let n : Word := BitVec.ofNat 64 k
  match c.i with
  | .cpy2d .. => some (c.opa + n * stride4 (c.opb.extractLsb' 0 20))
  | .cpyg .. => (indexed c k).map (fun x => c.opa + x)
  | .cpys .. => some (c.opa + n * stride4 (c.opb.extractLsb' 20 20))
  | _ => some c.opa
def dstRow (c : Cmd) (k : Nat) : Option Word :=
  let n : Word := BitVec.ofNat 64 k
  match c.i with
  | .cpy2d .. | .cpyg .. => some (c.opd + n * stride4 (c.opb.extractLsb' 20 20))
  | .cpys .. => (indexed c k).map (fun x => c.opd + x)
  | _ => some c.opd

/-- The offset of the index list in the scratchpad, where there is one. -/
def indexList (c : Cmd) : Option Nat :=
  match c.i with
  | .cpyg .. | .cpys .. => some (4 * (c.opb.extractLsb' 0 20).toNat)
  | _ => none

/-- The part of n bytes at a that lies in its j-th sector: where in the n bytes it starts, and its length. -/
def sectorPart (a n j : Nat) : Nat × Nat :=
  let lo := max a (48 * (a / 48 + j))
  let hi := min (a + n) (48 * (a / 48 + j + 1))
  (lo - a, hi - lo)

/-- The units of a copy. -/
def copyUnits (c : Cmd) : List CUnit :=
  let (rows, n) := copyShape c
  let list := if (indexList c).isSome ∧ rows ≠ 0 then
      (List.range (4 * rows / 48 + 2)).map (fun j => ⟨2, 0, j⟩)
    else []
  list ++ (List.range rows).flatMap (fun r => (List.range (n / 48 + 3)).flatMap (fun j =>
    ⟨0, r, j⟩ :: if j = 0 then [] else [⟨1, r, j - 1⟩]))

/-- The operand that R251 finds misaligned: its value, SIDE and WR. -/
def copyMisaligned (c : Cmd) : Option (Word × Nat × Bool) :=
  if c.opa.toNat % 4 ≠ 0 then some (c.opa, 0, false)
  else if c.opd.toNat % 4 ≠ 0 then some (c.opd, 1, true)
  else
    match c.i with
    | .cpy .. =>
      let n := (c.opb.extractLsb' 0 32).toNat
      if n % 4 ≠ 0 then some (BitVec.ofNat 64 n, 6, false) else none
    | _ => none

/-- Do two ranges of n bytes share a byte? -/
def rangesMeet (a b n : Nat) : Bool := decide (a < b + n) && decide (b < a + n)

/-- R252: a store unit of row r waits for the store units of lower rows that it overlaps. -/
def storeHeld (c : Cmd) (r : Nat) : Bool :=
  c.todo.any (fun u => u.kind == 1 && decide (u.row < r) &&
    (match dstRow c u.row, dstRow c r with
     | some a, some b => rangesMeet a.toNat b.toNat (copyShape c).2
     | _, _ => true))

/-- Bytes of a command that have been loaded, from number o on, where all n are there. -/
def bufBytes (c : Cmd) (o n : Nat) : Option (List Byte) :=
  (List.range n).mapM (fun i => (c.buf.find? (fun p => p.1 == o + i)).map Prod.snd)

/-- The spaces of a copy's sides. -/
def copySpace (c : Cmd) (dst : Bool) : CSpace :=
  match copyMod c.i with
  | some (k, _) => if dst then k.dsp else k.ssp
  | none => .g

/-- The virtual pages of runs in a space, which a copy has translated (R357). -/
def Cmd.sees (c : Cmd) (sp_ : CSpace) (gs : List Seg) : Cmd :=
  if sp_ = .g then { c with seen := (gs.map (fun g => g.va / 49152)).foldl (fun l n => insertN n l) c.seen } else c

/-- A command's access over runs is performed: it forgets the answers to the page requests that it joined (R354). -/
def State.seenBy (s : State) (x : Ctx) (segs : List Seg) : State :=
  s.forget (fun j => j.ag == x.ag && j.cmd == x.cmd && segs.any (fun g => g.va == j.va))

/-- What one unit of a copy leaves of the command, or its fault. -/
def State.copyStep (s : State) (o : QOwner) (q : Nat) (c : Cmd) (u : CUnit) : Option (EGot Cmd) :=
  let x := s.cmdCtx o q c
  let of := c.whose o q (faultInfo 6 0 c.i q u.row true 1)
  let (rows, n) := copyShape c
  match u.kind with
  | 2 =>
    match indexList c with
    | none => none
    | some base =>
      let (off, len) := sectorPart base (4 * rows) u.j
      if len = 0 ∨ 4 * rows ≤ off then some (.ok s c)
      else
        match s.cmdCheck x false .sp (base + off) len with
        | .bad s chk r a w => some (.bad s chk r a w)
        | .wait s => some (.wait s)
        | .hw s a b i => some (.hw s a b i)
        | .ok s segs =>
          match s.cmdRead x c.stamp of segs with
          | .bad s chk r a w => some (.bad s chk r a w)
          | .wait s => some (.wait s)
          | .hw s a b i => some (.hw s a b i)
          | .ok s bs =>
            some (.ok s { c with idx := (List.range (len / 4)).map (fun i =>
              (off / 4 + i, BitVec.ofNat 32 (natOfBytes ((bs.drop (4 * i)).take 4)))) ++ c.idx })
  | 0 =>
    match srcRow c u.row with
    | none => none
    | some a =>
      let (off, len) := sectorPart a.toNat n u.j
      if len = 0 ∨ n ≤ off then some (.ok s c)
      else
        match s.cmdCheck x false (copySpace c false) (a.toNat + off) len with
        | .bad s chk r a w => some (.bad s chk r a w)
        | .wait s => some (.wait s)
        | .hw s a b i => some (.hw s a b i)
        | .ok s segs =>
          match s.cmdRead x c.stamp of segs with
          | .bad s chk r a w => some (.bad s chk r a w)
          | .wait s => some (.wait s)
          | .hw s a b i => some (.hw s a b i)
          | .ok s bs =>
            let c := c.sees (copySpace c false) segs
            some (.ok (s.seenBy x segs) { c with buf := bs.zipIdx.map (fun b => (u.row * n + off + b.2, b.1)) ++ c.buf })
  | _ =>
    match dstRow c u.row with
    | none => none
    | some a =>
      let (off, len) := sectorPart a.toNat n u.j
      if len = 0 ∨ n ≤ off then some (.ok s c)
      else if storeHeld c u.row then none
      else
        match bufBytes c (u.row * n + off) len with
        | none => none
        | some bs =>
          match s.cmdCheck x true (copySpace c true) (a.toNat + off) len with
          | .bad s chk r a w => some (.bad s chk r a w)
          | .wait s => some (.wait s)
          | .hw s a b i => some (.hw s a b i)
          | .ok s segs =>
            let lo := u.row * n + off
            let c := c.sees (copySpace c true) segs
            if !s.watchFits x.ag c.stamp true segs then some (.wait s)
            else
              match s.watchClear x.ag segs with
              | (s, false) => some (.wait s)
              | (s, true) =>
              some (.ok ((s.cmdStore x c.stamp of segs bs).seenBy x segs)
                { c with buf := c.buf.filter (fun p => decide (p.1 < lo ∨ lo + len ≤ p.1)) })

/-- SIDE of a unit (R258), and the row or index-list entry. -/
def unitSide (c : Cmd) (u : CUnit) : Nat × Nat :=
  match u.kind with
  | 2 => (2, (sectorPart ((indexList c).getD 0) (4 * (copyShape c).1) u.j).1 / 4)
  | k => (k, u.row)

/-- The record of a conflict (R138) or of a failed check of a copy (R258). -/
def engRec (c : Cmd) (sub : BitVec 8) (chk addr : Nat) (c5 : Word) (wr : Bool) (w : Option Watch) : EngRec :=
  match w with
  | some w => ⟨c.order, 0, BitVec.ofNat 64 addr, conflictInfo wr w, true⟩
  | none => ⟨c.order, sub, if chk = 0 then 0 else BitVec.ofNat 64 addr, c5, false⟩

/-! ### Turns (R247, R250, R369) -/

/-- A queue among those of its core: the threads' before the sequencer's. -/
def ownerRank (o : QOwner) : Nat :=
  match o with
  | .thread t => 5 * coreOf t + t % 4
  | .seqr c => 5 * c + 4
/-- The queues of the package with their owners: those of a thread or a sequencer that the state lists. -/
def State.owners (s : State) : List QOwner :=
  s.threads.map (fun e => .thread e.1) ++ s.cores.map (fun e => .seqr e.1)
/-- The numbers of the units that serve several queues: a core's matrix unit, its copy engine, a quill, a brush. -/
def matrixKey (core : Nat) : Nat := 4 * core
def engineKey (o : QOwner) (i : Instr) : Nat :=
  let c := ownerCore o
  match copyMod i with
  | some (k, _) => (match k.eng with
    | .local => 4 * c + 1
    | .quill => 4 * clusOfCore c + 2
    | .brush => 4 * chipOfClus (clusOfCore c) + 3)
  | none => matrixKey c
/-- Is it the turn of user `me` at a unit: does no other ready user come before it in the round? -/
def State.inTurn (s : State) (key me : Nat) (ready : List Nat) : Bool :=
  let from_ := tget 0 s.turns key
  let far (x : Nat) : Nat := (x + 4 * 5 * nCores - from_) % (4 * 5 * nCores)
  ready.all (fun x => decide (far me ≤ far x))
/-- It has been served. -/
def State.tookTurn (s : State) (key me : Nat) : State := { s with turns := tset s.turns key (me + 1) }

/-- The copy that runs at the head of a queue. -/
def State.copyAt (s : State) (o : QOwner) (q : Nat) : Option Cmd :=
  let x := s.queue o q
  match x.cmds, x.stopped with
  | c :: _, none => if c.begun && (copyMod c.i).isSome then some c else none
  | _, _ => none
/-- Can it perform a unit, or fault on one, now? -/
def State.copyReady (s : State) (o : QOwner) (q : Nat) (c : Cmd) : Bool :=
  c.todo.any (fun u => match s.copyStep o q c u with
    | none | some (.wait _) => false
    | some _ => true)
/-- The queues other than one whose running copies use the same engine and are ready, by rank (R250). -/
def State.copyUsers (s : State) (key me : Nat) : List Nat :=
  s.owners.flatMap (fun o => [1, 2].filterMap (fun q =>
    match s.copyAt o q with
    | some c => if engineKey o c.i = key ∧ 4 * ownerRank o + q ≠ me ∧ s.copyReady o q c then some (4 * ownerRank o + q)
      else none
    | none => none))

/-- One unit of the copy at the head of a queue, when it is the queue's turn at the engine (R250, R254). -/
def State.copyUnit (s : State) (o : QOwner) (q n : Nat) : State :=
  match s.copyAt o q with
  | none => s
  | some c =>
    let me := 4 * ownerRank o + q
    let key := engineKey o c.i
    match c.todo[n]? with
    | none => s
    | some u =>
      if !s.inTurn key me (s.copyUsers key me) then s
      else
        match s.copyStep o q c u with
        | none => s
        | some (.ok s c) => (s.setHead o q { c with todo := ldel c.todo n }).tookTurn key me
        | some (.wait s) => s
        | some (.hw s cause sub i) => s.cmdHw o q c cause sub i
        | some (.bad s chk r a w) =>
          let (side, row) := unitSide c u
          let wr := u.kind == 1
          (s.forget (fun j => j.cmd == c.order)).stopQueue o q c.uid (engRec c 0 chk a (faultInfo chk r c.i q row wr side) wr w)

/-! ## Repeats (R226-R229) -/

/-- A body word that R226 allows. -/
def bodyOk (i : Instr) (h : Hdr) : Bool :=
  let n := named i
  !h.gneg && h.gp == 0 &&
  (0x0B ≤ n.group && n.group ≤ 0x0D ||
    (n.group == 0x0E && n.func != 0 && n.func != 5 && n.func != 7) ||
    (match i with
     | .vld _ _ _ _ acq | .vlds _ _ _ _ _ acq => !acq
     | .vst _ _ _ _ _ rel | .vsts _ _ _ _ _ rel => !rel
     | _ => false))

/-- R227: the register that a body's specifier names in iteration j. -/
def rotate (st : BitVec 5) (rs : BitVec 6) (rb : BitVec 5) (j : Nat) (x : BitVec 8) : BitVec 8 :=
  let k := x.toNat - 32
  if 32 ≤ x.toNat ∧ x.toNat < 64 ∧ rb.toNat ≤ k ∧ k < rb.toNat + rs.toNat then
    BitVec.ofNat 8 (32 + rb.toNat + (k - rb.toNat + j * st.toNat) % rs.toNat)
  else x
/-- A body word with its registers renamed. -/
def renamed (st : BitVec 5) (rs : BitVec 6) (rb : BitVec 5) (j : Nat) (i : Instr) : Instr :=
  match encodeFields i with
  | none => i
  | some f =>
    let r := rotate st rs rb j
    let g := { f with d := r f.d, a := r f.a, b := r f.b, c := r f.c }
    match decodeFields g with
    | .ok i' => i'
    | .error _ => i

/-- A thread whose scalars are a snapshot, and whose flags are clear. -/
def Thread.withSnap (h : Thread) (snap : Tbl Word) : Thread :=
  let h := { h with status := h.status &&& ~~~(0x1F8#64) }
  snap.foldl (fun (h : Thread) p => if p.1 < 32 then h.setSreg (BitVec.ofNat 5 p.1) p.2 else h) h

/-- A body word of groups 0x0B to 0x0E performed on a thread's registers: the flags it raises. -/
def Thread.bodyLanes (h : Thread) (snap : Tbl Word) (i : Instr) : Thread × Flags :=
  let r := (h.withSnap snap).vector i
  ({ h with v := r.v, m := r.m, lfsr := r.lfsr }, stFlags r.status)

/-- The active lanes of a memory word of a body with their addresses (R227), and its alignment check. -/
def bodyLanesAt (h : Thread) (snap : Tbl Word) (j : Nat) (step : Word) (m : MemOp) (stride : Option SOp)
    (c : BitVec 3) : List (Nat × Word) × Option (Nat × Word) :=
  let g := h.withSnap snap
  let ea := g.ea m + BitVec.ofNat 64 j * step
  let d : Word := match stride with
    | some b => g.rs b
    | none => 4
  let l := laneAddrs (h.rm c) (fun i => ea + BitVec.ofNat 64 i * d)
  let bad := match l with
    | [] => none
    | (i, a) :: _ =>
      if ea.toNat % 4 ≠ 0 then some (i, a) else if d.toNat % 4 ≠ 0 then some (0xFF, ea) else none
  (l, bad)

/-- What a word of a body comes to: done, a fault of a lane, a wait, or a hardware error. -/
inductive Word1 where
  | done (s : State) (fl : Flags)
  | bad (s : State) (chk lane : Nat) (addr : Nat) (wr : Bool) (w : Option Watch)
  | wait (s : State)
  | hw (s : State) (cause sub : Nat) (info0 : Word)

/-- The lanes of a memory word once checked, or what it comes to instead. -/
inductive Lanes where
  | ok (s : State) (l : List (Nat × Seg))
  | stop (w : Word1)

/-- The lane of a run. -/
def laneAt (l : List (Nat × Seg)) (va : Nat) : Nat := ((l.find? (fun p => p.2.va == va)).getD (0xFF, default)).1

/-- A lane of a load has failed a check; the peer accesses of lower lanes come first, and the first that is refused
decides (R194, R229). -/
def State.bodyFails (s : State) (x : Ctx) (of : Whose) (wr : Bool) (lower : List (Nat × Seg)) (e : State → Word1) :
    Word1 :=
  let peers := if wr then [] else s.peerSegs (lower.map Prod.snd)
  match s.peerAll x.ag of 2 (fun g => [BitVec.ofNat 8 g.len]) peers with
  | (s, none) => .wait s
  | (s, some ans) =>
    match refusal peers ans with
    | some (g, _) => .bad s 6 (laneAt lower g.va) g.va false none
    | none => e s

/-- Lanes that a memory word accesses, checked in order after those of `lower`. -/
def State.bodyCheck (s : State) (x : Ctx) (of : Whose) (wr : Bool) (sp_ : CSpace) (lower : List (Nat × Seg)) :
    List (Nat × Word) → Lanes
  | [] => .ok s lower
  | (lane, ea) :: rest =>
    match s.cmdCheck x wr sp_ ea.toNat 4 with
    | .ok s segs => s.bodyCheck x of wr sp_ (lower ++ [(lane, segs.headD default)]) rest
    | .bad s chk _ a w => .stop (s.bodyFails x of wr lower (fun s => .bad s chk lane a wr w))
    | .wait s => .stop (.wait s)
    | .hw s a b i => .stop (.hw s a b i)

/-- A load word of a body. -/
def State.bodyLoad (s : State) (t : Nat) (x : Ctx) (stamp : BitVec 16) (of : Whose) (snap : Tbl Word) (j : Nat)
    (step : Word) (d : BitVec 5) (m : MemOp) (stride : Option SOp) (c : BitVec 3) : Word1 :=
  let (l, bad) := bodyLanesAt (s.thr t) snap j step m stride c
  match bad with
  | some (lane, a) => .bad s 1 lane a.toNat false none
  | none =>
    match s.bodyCheck x of false m.space.toC [] l with
    | .stop w => w
    | .ok s segs =>
      match s.cmdRead x stamp of (segs.map Prod.snd) with
      | .bad s chk _ a w => .bad s chk (laneAt segs a) a false w
      | .wait s => .wait s
      | .hw s a b i => .hw s a b i
      | .ok s bs =>
        let vals := segs.zipIdx.map (fun p => (p.1.1, (bs.drop (4 * p.2)).take 4))
        .done (s.updThr t (fun h => h.wv d (loadLanes (h.rv d) vals))) 0

/-- A store word of a body; `info` is c5 of the record that a refused store of a lane makes. -/
def State.bodyStore (s : State) (t : Nat) (x : Ctx) (stamp : BitVec 16) (of : Nat → Whose) (snap : Tbl Word) (j : Nat)
    (step : Word) (data : BitVec 5) (nib : Option (BitVec 5)) (m : MemOp) (stride : Option SOp) (c : BitVec 3) :
    Word1 :=
  let (l, bad) := bodyLanesAt (s.thr t) snap j step m stride c
  match bad with
  | some (lane, a) => .bad s 1 lane a.toNat true none
  | none =>
    match s.bodyCheck x (of 0) true m.space.toC [] l with
    | .stop w => w
    | .ok s segs =>
      let h := s.thr t
      if !s.watchFits x.ag stamp true (segs.map Prod.snd) then .wait s
      else
      match s.watchClear x.ag (segs.map Prod.snd) with
      | (s, false) => .wait s
      | (s, true) =>
      let us : List (Nat × SUnit) := segs.map (fun p => (p.1, ⟨p.2.va, p.2.tgt,
        bytesOfNat 4 (laneOf (h.rv data) p.1).toNat,
        match nib with
        | some n => ((laneOf (h.rv n) p.1).extractLsb' 0 8).setWidth 32
        | none => 0xFFFFFFFF⟩))
      let whole := wholeSectors (us.map Prod.snd)
      let s := s.watchAs x.ag stamp true (segs.map Prod.snd)
      .done ((us.foldl (fun (u : State) p =>
        u.cmdUnit x (of p.1) (if whole.contains (secBase p.2.seg.pa) then s.serial + 1 else 0) p.2) s).heal
          (wholeWatched (us.map Prod.snd))) 0

/-- One word of a body in iteration j; `of` gives whose the access of a lane is. -/
def State.bodyWord (s : State) (t : Nat) (x : Ctx) (stamp : BitVec 16) (of : Nat → Whose) (snap : Tbl Word) (j : Nat)
    (step : Word) (i : Instr) : Word1 :=
  match i with
  | .vld _ d m c _ => s.bodyLoad t x stamp (of 0) snap j step d m none c
  | .vlds _ d b m c _ => s.bodyLoad t x stamp (of 0) snap j step d m (some b) c
  | .vst _ nib b m c _ => s.bodyStore t x stamp of snap j step b nib m none c
  | .vsts _ d b m c _ => s.bodyStore t x stamp of snap j step d none m (some b) c
  | i =>
    let (h, fl) := (s.thr t).bodyLanes snap i
    .done (s.setThr t h) fl

/-- Iterations of a REPB (R227). -/
def repCount (c : Cmd) : Nat :=
  match c.i with
  | .repb _ _ _ _ _ _ _ _ _ count => count.toNat + (c.opa.extractLsb' 0 32).toNat
  | _ => 0

/-- c5 of R229. -/
def repInfo (j k chk lane : Nat) (wr : Bool) (i : Instr) : Word :=
  BitVec.ofNat 64 (j % 2 ^ 32 * 2 ^ 32 + k % 16 * 2 ^ 28 + chk % 256 * 2 ^ 16 + lane % 256 * 256 +
    (if wr then 128 else 0) + (kindBits i).toNat)

/-- The words of a REPB from word k of iteration j to the end of the iteration. -/
def State.repWords (s : State) (t : Nat) (o : QOwner) (q : Nat) (c : Cmd) (j : Nat) : List (Instr × Nat) → State
  | [] => s.setHead o q c
  | (i, k) :: rest =>
    match c.i with
    | .repb _ _ _ _ _ _ st rs rb _ =>
      let i' := renamed st rs rb j i
      let of (lane : Nat) : Whose := c.whose o q (repInfo j k 6 lane true i)
      let done (s : State) : State := s.forget (fun j => j.cmd == c.order)
      match s.bodyWord t (s.cmdCtx o q c) c.stamp of c.snap j c.opb i' with
      | .done s fl => (done s).repWords t o q { c with iter := c.iter + 1, fl := c.fl ||| fl } j rest
      | .wait s => s.setHead o q c
      | .hw s cause sub i => (s.setHead o q c).cmdHw o q c cause sub i
      | .bad s chk lane a wr w =>
        (done (s.setHead o q c)).stopQueue o q c.uid (engRec c 1 chk a (repInfo j k chk lane wr i) wr w)
    | _ => s

/-- One iteration of the REPB at the head of a thread's Q3, or the rest of one that had to wait. -/
def State.repeatIteration (s : State) (o : QOwner) (q : Nat) : State :=
  let x := s.queue o q
  match o, x.cmds, x.stopped with
  | .thread t, c :: _, none =>
    match c.i with
    | .repb .. =>
      let n := c.body.length
      if !c.begun || n = 0 || n * repCount c ≤ c.iter then s
      else s.repWords t o q c (c.iter / n) (c.body.zipIdx.drop (c.iter % n))
    | _ => s
  | _, _, _ => s

/-! ## From head to begin (R37, R124, R126, R257) -/

/-- R124: the issuing thread's earlier loads are performed, and its earlier stores reach the home level of the
performing agent; for a replay those of the sender of its message before it (R123, R130). False while one cannot. -/
def State.beforeBegin (s : State) (o : QOwner) (q : Nat) (c : Cmd) : State × Bool :=
  let lvl := homeLevel (idKind (s.cmdCtx o q c).ag)
  match o with
  | .thread t => s.upTo (s.tid t) c.order lvl
  | .seqr k =>
    match (s.core k).replay with
    | some r => s.upTo r.src r.since lvl
    | none => (s, true)

/-- The accumulator that a matrix command writes, and those that it holds until it is complete; a TSCA has read its P
when it has begun (R247). -/
def accWritten (i : Instr) : Option (BitVec 3) :=
  match i with
  | .tmma _ d _ _ _ _ _ _ _ | .tsca _ d _ _ _ _ _ _ => some d
  | .tzero _ (.a n) _ => some n
  | _ => none
/-- The owners of a core's five queues of each kind (R369). -/
def coreOwners (k : Nat) : List QOwner := [.thread (4 * k), .thread (4 * k + 1), .thread (4 * k + 2), .thread (4 * k + 3), .seqr k]
/-- The command at the head of another Q0 of the core has begun and holds an accumulator that this one writes. -/
def State.accBusy (s : State) (o : QOwner) (i : Instr) : Bool :=
  match accWritten i with
  | none => false
  | some d =>
    (coreOwners (ownerCore o)).any (fun p =>
      p != o && (match (s.queue p 0).cmds, (s.queue p 0).stopped with
        | c :: _, none => c.begun && accWritten c.i == some d
        | _, _ => false))
/-- The matrix command that waits to begin at the head of a queue, if its conditions hold. -/
def State.matrixReady (s : State) (o : QOwner) : Bool :=
  match (s.queue o 0).cmds, (s.queue o 0).stopped with
  | c :: _, none => c.decided && !c.begun && (s.beforeBegin o 0 c).2 && !s.accBusy o c.i
  | _, _ => false
/-- The other Q0 heads of a core that are ready, by rank (R247, R369). -/
def State.matrixUsers (s : State) (o : QOwner) : List Nat :=
  ((coreOwners (ownerCore o)).filter (fun p => p != o && s.matrixReady p)).map ownerRank

/-- The tile file's part of a beginning: shapes are checked, and a matrix command is performed (R248). -/
def State.beginTile (s : State) (o : QOwner) (q : Nat) (c : Cmd) : State :=
  let k := ownerCore o
  let shape (sub : Nat) : State :=
    s.stopQueue o q c.uid ⟨c.order, 0, 0, faultInfo 0 sub c.i q 0 false 5, false⟩
  let pt (n : BitVec 4) : Bool := (s.core k).poisonT.contains n.toNat
  let pa (n : BitVec 3) : Bool := (s.core k).poisonA.contains n.toNat
  let bad (acc : Bool) (n : Nat) : State :=
    s.cmdHw o q c 0x22 (if acc then 4 else 3) (BitVec.ofNat 64 (if acc then accOff n else tileOff n))
  match c.i with
  | .tmma _ d a b _ za sat ko kc =>
    let sub := s.tmmaBad k d a b za ko kc
    if sub ≠ 0 then shape sub
    else if pt a then bad false a.toNat
    else if pt b then bad false b.toNat
    else if !za && pa d then bad true d.toNat
    else
      let (s, fl) := s.tmma k d a b za sat ko kc
      s.setHead o q { c with begun := true, fl }
  | .tsca _ d a _ _ _ za fs =>
    if !za && s.tagInt k d then shape 5
    else if pa a then bad true a.toNat
    else if !za && pa d then bad true d.toNat
    else
      let (s, fl) := s.tsca k d a c.rows c.cols za fs
      s.setHead o q { c with begun := true, fl }
  | .tcfg _ d src =>
    let v : BitVec 32 := match src with
      | .r _ => c.opa.extractLsb' 0 32
      | .i imm => imm
    if !descOk v then shape 2 else (s.setDesc k d v).setHead o q { c with begun := true }
  | .tzero _ d int => (s.tzero k d int).setHead o q { c with begun := true }
  | _ => s.setHead o q { c with begun := true }

/-- A command begins, and with it its region (R136). -/
def State.begin_ (s : State) (o : QOwner) (q : Nat) (c : Cmd) : State :=
  let (s, stamp) := s.openRegion (s.cmdCtx o q c).ag
  let c := { c with begun := true, stamp }
  let s := s.setHead o q c
  match copyMod c.i with
  | some _ =>
    match copyMisaligned c with
    | some (v, side, wr) => s.stopQueue o q c.uid ⟨c.order, 0, v, faultInfo 1 0 c.i q 0 wr side, false⟩
    | none => s.setHead o q { c with todo := copyUnits c }
  | none => s.beginTile o q c

/-- The command at the head of a queue begins, a matrix command at its turn (R247). -/
def State.beginCmd (s : State) (o : QOwner) (q : Nat) : State :=
  let x := s.queue o q
  match x.cmds, x.stopped with
  | c :: _, none =>
    if !c.decided || c.begun then s
    else
      match s.beforeBegin o q c with
      | (s, false) => s
      | (s', true) =>
        if (s'.queue o q).stopped.isSome then s'
        else if q = 0 then
          if s.accBusy o c.i || !s.inTurn (matrixKey (ownerCore o)) (ownerRank o) (s.matrixUsers o) then s
          else (s'.begin_ o q c).tookTurn (matrixKey (ownerCore o)) (ownerRank o)
        else s'.begin_ o q c
  | _, _ => s

/-! ## Completion (R125-R127, R129, R253, R63) -/

/-- Does a QJOIN's set still hold an earlier command of the same thread? -/
def State.joinWaits (s : State) (o : QOwner) (order : Nat) (set : BitVec 4) : Bool :=
  [0, 1, 2, 3].any (fun q => set.getLsbD q && (s.queue o q).cmds.any (fun c => decide (c.order < order)))

/-- Stores of a command that are below a level, and those that have replaced a store of its agent there (R119). -/
def State.cmdStores (s : State) (id : BitVec 32) (order lvl : Nat) : List (Nat × BitVec 32) :=
  let mine := ((s.agent id).sb.filter (fun st => st.tag.of.order == order)).map (fun st => (st.id, id))
  let up := (s.hold.filter (fun e => decide (e.lvl < lvl) &&
    ((e.ag == id && e.tag.of.order == order) || e.past.any (fun x => x.1 == id)))).map (fun e => (e.id, e.ag))
  oldestFirst (mine ++ up)

/-- R253: the word of a completion is added to in one step at its place, or stored: the store climbs to its place over
what is pending on the agent's path (R116). -/
def State.completionWord (s : State) (id : BitVec 32) (of : Whose) (k : CpyMod) (pa : Nat) : State :=
  let v := k.cval.toNat
  if k.cadd then s.land none (nibsOf pa (bytesOfNat 4 (v + s.rdNat pa 4)))
  else
    let ns := nibsOf pa (bytesOfNat 4 v)
    let s := s.drainOver id 7 ns
    (s.buffer id (winOff pa) ns 0 none of).raiseAll 7 [(s.serial, id)]

/-- What an addition at a completion word finds pending on the agent's path goes to the word's place first (R116);
false while it cannot. -/
def State.wordReady (s : State) (id : BitVec 32) (c : Cmd) : State × Bool :=
  match copyMod c.i with
  | some (k, _) =>
    if (k.ck == .cwsp || k.ck == .cwcm) && k.cadd then
      let locs := nibsOf c.tgt.toNat (List.replicate 4 0)
      let s := s.clearPath id locs
      (s, !s.pathBusy id locs)
    else (s, true)
  | none => (s, true)

/-- Do a command's own stores stand at its completion scope or above (R125)? They are brought up here. -/
def State.storesUp (s : State) (id : BitVec 32) (c : Cmd) : State × Bool :=
  let sc := cmdScope c.i
  let s := s.raiseAll sc (s.cmdStores id c.order sc)
  (s, (s.cmdStores id c.order sc).isEmpty &&
    (sc != 7 || !(s.outst.any (fun x => x.store && x.ag == id && x.of.order == c.order))))

/-- Has a command done all that it has to, and have its stores come to its completion scope? -/
def State.cmdDone (s : State) (o : QOwner) (q : Nat) (c : Cmd) : State × Bool :=
  let id := (s.cmdCtx o q c).ag
  let sc := cmdScope c.i
  match c.i with
  | .qjoin _ _ _ set => (s, !s.joinWaits o c.order set)
  | .repb .. => if c.body.length * repCount c ≠ c.iter then (s, false) else s.storesUp id c
  | _ =>
    match copyMod c.i with
    | none => (s, true)
    | some (k, _) =>
      if !c.todo.isEmpty then (s, false)
      else if k.ck == .none then s.storesUp id c
      else
        -- its completion is a release by the performing agent at the completion scope
        let s := s.drain id sc
        let up := !((s.storeLevels id).any (fun p => decide (p.2 < sc))) && (sc != 7 || s.peersDone id)
        let (s, ok) := s.wordReady id c
        (s, up && ok)

/-- What the completion of a command does besides freeing its place: a word, a barrier, flags (R253, R63). -/
def State.cmdEnds (s : State) (o : QOwner) (q : Nat) (c : Cmd) : State :=
  let s := match copyMod c.i with
    | some (k, _) =>
      if k.ck == .cwsp || k.ck == .cwcm then
        s.completionWord (s.cmdCtx o q c).ag (c.whose o q 0) k c.tgt.toNat
      else s.barComplete o c
    | none => s
  match o with
  | .thread t => if s.cmdLives o c then s.updThr t (fun h => h.orFlags c.fl) else s
  | .seqr _ => s

/-- The command at the head of a queue completes, and the next is at the head (R125, R257). A store of it that is
refused on the way stops the queue instead (R133). -/
def State.completeCmd (s : State) (o : QOwner) (q : Nat) : State :=
  let x := s.queue o q
  match x.cmds, x.stopped with
  | c :: _, none =>
    if !c.begun then s
    else
      match s.cmdDone o q c with
      | (s, false) => s
      | (s, true) =>
        if (s.queue o q).stopped.isSome then s
        else if s.endPoison c then (s.cmdHw o q c 0x23 0 (winOff c.tgt.toNat)).atHead o q
        else ((((s.closeHead o q).popHead o q).cmdEnds o q c)).atHead o q
  | _, _ => s

/-! ## Group 0x11 and 0x12: issue -/

/-- R243, R244. -/
def execTmma (h : Hdr) (d : BitVec 3) (a b slot : BitVec 4) (za sat : Bool) (ko kc : BitVec 8) (s : State) :
    Host.Outcome State Fault Refusal :=
  run s h (.tmma h d a b slot za sat ko kc) (fun s t => s.issueCmd t (.tmma h d a b slot za sat ko kc))

/-- R243, R246. -/
def execTsca (h : Hdr) (d a : BitVec 3) (b cv : BitVec 5) (slot : BitVec 4) (za fs : Bool) (s : State) :
    Host.Outcome State Fault Refusal :=
  run s h (.tsca h d a b cv slot za fs) (fun s t => s.issueCmd t (.tsca h d a b cv slot za fs))

/-- R249, R251, R253. -/
def execCpy (h : Hdr) (d a b : SOp) (q2 : Bool) (slot : BitVec 4) (k : CpyMod) (s : State) :
    Host.Outcome State Fault Refusal :=
  run s h (.cpy h d a b q2 slot k) (fun s t => s.issueCopy t (.cpy h d a b q2 slot k))

/-- R249, R251, R253. -/
def execCpy2d (h : Hdr) (d a b : SOp) (q2 : Bool) (slot : BitVec 4) (k : CpyMod) (s : State) :
    Host.Outcome State Fault Refusal :=
  run s h (.cpy2d h d a b q2 slot k) (fun s t => s.issueCopy t (.cpy2d h d a b q2 slot k))

/-- R249, R251, R253. -/
def execCpyg (h : Hdr) (d a b : SOp) (q2 : Bool) (slot : BitVec 4) (k : CpyMod) (s : State) :
    Host.Outcome State Fault Refusal :=
  run s h (.cpyg h d a b q2 slot k) (fun s t => s.issueCopy t (.cpyg h d a b q2 slot k))

/-- R249, R251, R253. -/
def execCpys (h : Hdr) (d a b : SOp) (q2 : Bool) (slot : BitVec 4) (k : CpyMod) (s : State) :
    Host.Outcome State Fault Refusal :=
  run s h (.cpys h d a b q2 slot k) (fun s t => s.issueCopy t (.cpys h d a b q2 slot k))

/-- R255, R127. -/
def execQjoin (h : Hdr) (q : BitVec 2) (slot set : BitVec 4) (s : State) : Host.Outcome State Fault Refusal :=
  run s h (.qjoin h q slot set) (fun s t => s.issueCmd t (.qjoin h q slot set))

/-- R256. -/
def gsetValue (th : Thread) (op : GsetOp) : GSlot :=
  match op with
  | .pred a => if th.rp a then .pass else .discard
  | .pass => .pass
  | .disc => .discard
  | .empty => .empty

/-- R256, R257: the slot is set at once, and a command that waits on it at the head of its queue decides. -/
def execGset (h : Hdr) (k : BitVec 4) (op : GsetOp) (s : State) : Host.Outcome State Fault Refusal :=
  run s h (.gset h k op) (fun s t =>
    .done ((s.updThr t (fun th => { th with slots := th.slots.set k.toNat (gsetValue th op) })).slotsSet t))

/-! ## Group 0x0F: REPB (R224-R228) -/

/-- Words of the repetition buffer in use. -/
def State.repWordsUsed (s : State) (t : Nat) : Nat :=
  ((s.queue (.thread t) 3).cmds.map (fun c => c.body.length)).foldl (· + ·) 0

/-- The scalars of a thread by specifier. -/
def Thread.snapshot (h : Thread) : Tbl Word :=
  (List.range 32).map (fun n => (n, h.sreg (BitVec.ofNat 5 n)))

/-- R225 step 1: the words of a body. -/
def State.bodyFetch (s : State) (t : Nat) (pc : Word) : Nat → Got (List IWord)
  | 0 => .ok s []
  | n + 1 =>
    if vaEnd ≤ pc.toNat then .stop (.trap s 0x07 0 pc (accInfo 0xFF false 0) false)
    else
      match s.fetchAt t pc.toNat with
      | .trap s cause sub c5 => .stop (.trap s cause sub pc c5 false)
      | .stall s => .stop (.stall s)
      | .ended s => .stop (.ended s)
      | .word s w => (s.bodyFetch t (pc + 12) n).bind (fun s ws => .ok s (w :: ws))

/-- The trap of a body word, with its index in c5[35:32]. -/
def bodyTrap (s : State) (sub : Nat) (w : IWord) (k : Nat) : Eff :=
  .trap s 0x01 sub (wordLo w) (wordHi w ||| BitVec.ofNat 64 (k % 16 * 2 ^ 32)) false

/-- R225 step 2, first R101 for every word. -/
def bodyDecode (s : State) : List (IWord × Nat) → Got (List Instr)
  | [] => .ok s []
  | (w, k) :: rest =>
    match decode w with
    | .error e => .stop (bodyTrap s e.check w k)
    | .ok i => (bodyDecode s rest).bind (fun s l => .ok s (i :: l))

/-- Does a body name a register, or draw from LFSRs, that an earlier REPB claims (R228)? -/
def Thread.bodyClaimed (h : Thread) (body : List Instr) : Bool := body.any (fun i => h.claimed i)

/-- Does a body name a register that a load left in the issue queue will write, or do the registers that it rotates hold
one (R102, R225)? -/
def State.bodyPending (s : State) (t : Nat) (rs : BitVec 6) (rb : BitVec 5) (body : List Instr) : Bool :=
  let l := claims (s.agent (s.tid t)).iq
  !l.isEmpty && ((List.range rs.toNat).map (fun k => 32 + rb.toNat + k) ++ body.flatMap names).any l.contains

/-- Does a body store outside the scratchpad? -/
def bodyStoresOut (body : List Instr) : Bool :=
  body.any (fun i => match i with
    | .vst _ _ _ m _ _ | .vsts _ _ _ m _ _ => m.space != .sp
    | _ => false)

/-- R225. -/
def execRepb (h : Hdr) (a b : SOp) (slot n : BitVec 4) (cs : BitVec 3) (st : BitVec 5) (rs : BitVec 6)
    (rb : BitVec 5) (count : BitVec 16) (s : State) : Host.Outcome State Fault Refusal :=
  let i : Instr := .repb h a b slot n cs st rs rb count
  run s h i (fun s t =>
    (s.bodyFetch t ((s.thr t).pc + 12) (n.toNat + 1)).fin (fun s ws =>
      (bodyDecode s ws.zipIdx).fin (fun s body =>
        match (body.zip ws.zipIdx).find? (fun p => !bodyOk p.1 (hdrOf p.1)) with
        | some (_, w, k) => bodyTrap s 9 w k
        | none =>
          if (s.dual? t).isSome && bodyStoresOut body then s.dualFail t 3
          else if s.queueFull t 3 || decide (64 < s.repWordsUsed t + body.length) ||
              (s.thr t).bodyClaimed body || s.bodyPending t rs rb body then .stall s
          else
            let c := { s.mkCmd t i with body, snap := (s.thr t).snapshot }
            s.enqueueCmd t c)))

/-! ## The steps that perform commands -/

/-- R37, R257. -/
def execCommandAtHead (o : QOwner) (q : Nat) (s : State) : Host.Outcome State Fault Refusal :=
  eventAt (ownerOk o q) (s.atHead o q)
/-- R124, R126. -/
def execCommandBegin (o : QOwner) (q : Nat) (s : State) : Host.Outcome State Fault Refusal :=
  eventAt (ownerOk o q) (s.beginCmd o q)
/-- R250, R251. -/
def execCopyUnit (o : QOwner) (q n : Nat) (s : State) : Host.Outcome State Fault Refusal :=
  eventAt (ownerOk o q) (s.copyUnit o q n)
/-- R227. -/
def execRepeatIteration (o : QOwner) (q : Nat) (s : State) : Host.Outcome State Fault Refusal :=
  eventAt (ownerOk o q) (s.repeatIteration o q)
/-- R125, R253. -/
def execCommandComplete (o : QOwner) (q : Nat) (s : State) : Host.Outcome State Fault Refusal :=
  eventAt (ownerOk o q) (s.completeCmd o q)

end Sys2Proof.Machine
end

