-- ==== Sys2Proof/Machine/Task.lean ====
section
/-! DEFINITION. Group 0x07: forked tasks, futures, work queues, launches, cancellation and counters
(R273-R284). -/

namespace Sys2Proof.Machine

/-! ## Shared parts -/

/-- An update of an object by an instruction of group 0x07: not in a dual run (R392), checked, and after
the release that it makes. -/
def State.objOp (s : State) (t : Nat) (i : Instr) (sp_ : Space) (ea : Word) (n : Nat) (rel : Option Nat)
    (f : State → Piece → Eff) : Eff :=
  if (s.dual? t).isSome then s.dualFail t 3
  else
    (s.check1 t .atomic true true sp_ (kindBits i) n n ea).fin (fun s ps =>
      (match rel with
        | some sc => s.releaseAt t sc
        | none => .ok s ()).fin (fun s _ => f s (ps.headD default)))

/-- Space of a join counter. -/
def cmcSpace (cmc : Bool) : Space := if cmc then .cm else .sp

/-! ## FORK and JOIN (R274-R276) -/

/-- What FORK pushes: the entry, the parent's s24 to s31, c26, c27 and the counter. -/
def State.mkTask (s : State) (t : Nat) (entry : Word) (counter : Nat) : Task :=
  let h := s.thr t
  { entry, pass := h.pass, c26 := h.launch, c27 := h.job, counter, part := s.partOf t,
    prio := (match h.unit with
      | some u => u.prio
      | none => 0),
    ready := (s.cycle (coreOf t)).toNat, no := s.serial }

/-- R274. -/
def execFork (h : Hdr) (d : BitVec 3) (a : SOp) (cmc : Bool) (off : BitVec 32) (s : State) :
    Host.Outcome State Fault Refusal :=
  run s h (.fork h d a cmc off) (fun s t =>
    let i := Instr.fork h d a cmc off
    s.objOp t i (cmcSpace cmc) ((s.thr t).rs a) 4 none (fun s p =>
      if 64 ≤ (s.thr t).deque.length then .done (s.updThr t (fun th => th.wp d true))
      else
        (s.atomic t p 4 (.amo .add 1)).fin (fun s _ =>
          let s := s.regionIf t true
          .done (s.updThr t (fun th =>
            { th with deque := th.deque ++ [s.mkTask t (relTarget th.pc off) (p.segs.headD default).pa] }.wp d false)))))

/-- R276: one look at a join counter; poison there is a hardware error of the unit (R386). -/
def State.joinTry (s : State) (t : Nat) (ea : Word) (pa : Nat) : Eff :=
  (s.objAddr t [⟨0xFF, ea, [⟨ea.toNat, .mem pa 0, 4⟩]⟩]).fin (fun s pa =>
    if natOfBytes (s.atomRead pa 4) = 0 then .done ((s.acquire (s.tid t) 2).regionIf t true) else .wait s (.join ea pa))

/-- R276. -/
def execJoin (h : Hdr) (a : SOp) (cmc : Bool) (s : State) : Host.Outcome State Fault Refusal :=
  run s h (.join h a cmc) (fun s t =>
    let ea := (s.thr t).rs a
    (s.check1 t .read false true (cmcSpace cmc) (kindBits (.join h a cmc)) 4 4 ea).fin (fun s ps =>
      s.joinTry t ea ((ps.headD default).segs.headD default).pa))

/-! ## Futures (R277, R278) -/

/-- R278: a plain store of 16 zero bytes in one unit. -/
def execFinit (h : Hdr) (a : SOp) (sc : BitVec 3) (space : Space) (s : State) :
    Host.Outcome State Fault Refusal :=
  run s h (.finit h a sc space) (fun s t =>
    (s.check1 t .write true false space (kindBits (.finit h a sc space)) 16 16 ((s.thr t).rs a)).fin (fun s ps =>
      s.store t space false sc.toNat (ps.map (fun p => (p, List.replicate 16 0, 0xFFFFFFFF)))))

/-- R278: one execution of FRD: its value, or a wait for the next update. A dual run reads the data that it holds
(R392). -/
def State.frdTry (s : State) (t : Nat) (d a : SOp) (sc : BitVec 3) (space : Space) : Eff :=
  (s.check1 t .read false true space (kindBits (.frd Hdr.plain d a sc space)) 16 16 ((s.thr t).rs a)).fin
    (fun s ps =>
      (s.atomic t (ps.headD default) 16 .futRead).fin (fun s x =>
        let x := BitVec.ofNat 128 (natOfBytes (s.overlaySegs (s.dual? t) (ps.headD default).segs (bytesOfNat 16 x)))
        if futFull x then
          let s := (s.acquireIf t true sc.toNat).regionIf t true
          .done (s.updThr t (fun th => th.ws d (futValue x)))
        else .wait s (.frd d a sc space)))

/-- R278. -/
def execFrd (h : Hdr) (d a : SOp) (sc : BitVec 3) (space : Space) (s : State) :
    Host.Outcome State Fault Refusal :=
  run s h (.frd h d a sc space) (fun s t => s.frdTry t d a sc space)

/-- R278. -/
def execFwr (h : Hdr) (d : BitVec 3) (a b : SOp) (sc : BitVec 3) (space : Space) (s : State) :
    Host.Outcome State Fault Refusal :=
  run s h (.fwr h d a b sc space) (fun s t =>
    let op : AtomOp := .futWrite ((s.thr t).rs b)
    s.objOp t (.fwr h d a b sc space) space ((s.thr t).rs a) 16 none (fun s p =>
      if s.mayWait t [p] && sc != 7 then .done ((s.leaveAtom t (.p d) [p] 16 (some sc.toNat) op).regionIf t true)
      else
        (s.releaseAt t sc.toNat).fin (fun s _ =>
          (s.atomic t p 16 op).fin (fun s old =>
            let s := s.regionIf t true
            .done (s.updThr t (fun th => th.atomDone (.p d) 16 old op))))))

/-! ## Work queues (R279, R280) -/

/-- R280: the slot, checked as the second access of the instruction. -/
def State.slotCheck (s : State) (t : Nat) (i : Instr) (wr : Bool) (space : Space) (ea : Word) : Got Nat :=
  (s.check1 t (if wr then .write else .read) wr true space (kindBits i) 8 8 ea).bind (fun s ps => s.objAddr t ps)

/-- R280: a push into a queue that has room; the release is on this branch only. -/
def State.qpush (s : State) (t : Nat) (i : Instr) (d : BitVec 3) (sc : Nat) (space : Space) (pa : Nat) (v : Word) : Eff :=
  let x := s.obj pa
  (s.slotCheck t i true space (wqSlot x (wqTail x))).fin (fun s slot =>
    (s.releaseAt t sc).fin (fun s _ =>
      let s := s.rootWrite (nibsOf slot (bytesOfNat 8 v.toNat))
      let s := s.setObj pa (wqSetTail (s.obj pa) (wqTail x + 1))
      .done ((s.regionIf t true).updThr t (fun th => th.wp d false))))

/-- R280: a full queue gives D := 1 and orders nothing. -/
def execQpush (h : Hdr) (d : BitVec 3) (a b : SOp) (sc : BitVec 3) (space : Space) (s : State) :
    Host.Outcome State Fault Refusal :=
  run s h (.qpush h d a b sc space) (fun s t =>
    let i := Instr.qpush h d a b sc space
    let v := (s.thr t).rs b
    s.objOp t i space ((s.thr t).rs a) 16 none (fun s p =>
      (s.objAddr t [p]).fin (fun s pa =>
        let x := s.obj pa
        if wqCap x ≤ wqCount x then .done ((s.regionIf t true).updThr t (fun th => th.wp d true))
        else s.qpush t i d sc.toNat space pa v)))

/-- R280: D is not written when the queue is empty, and nothing is acquired. -/
def execQpop (h : Hdr) (d a : SOp) (c : BitVec 3) (sc : BitVec 3) (space : Space) (s : State) :
    Host.Outcome State Fault Refusal :=
  run s h (.qpop h d a c sc space) (fun s t =>
    let i := Instr.qpop h d a c sc space
    s.objOp t i space ((s.thr t).rs a) 16 none (fun s p =>
      (s.objAddr t [p]).fin (fun s pa =>
        let x := s.obj pa
        if wqCount x = 0 then .done ((s.regionIf t true).updThr t (fun th => th.wp c true))
        else
          (s.slotCheck t i false space (wqSlot x (wqHead x))).fin (fun s slot =>
            let v := BitVec.ofNat 64 (s.rdNat slot 8)
            let s := ((s.setObj pa (wqSetHead (s.obj pa) (wqHead x + 1))).acquireIf t true sc.toNat).regionIf t true
            .done (s.updThr t (fun th => (th.ws d v).wp c false))))))

/-! ## Launches (R281-R284) -/

/-- Fields of a launch descriptor (R281). -/
def ldEntry (x : BitVec 384) : Word := x.extractLsb' 0 64
def ldUnits (x : BitVec 384) : Nat := (x.extractLsb' 64 32).toNat
def ldPrio (x : BitVec 384) : Nat := (x.extractLsb' 96 4).toNat
def ldArgs (x : BitVec 384) : Word := x.extractLsb' 128 64
def ldCnt (x : BitVec 384) : Word := x.extractLsb' 192 64
def ldFirst (x : BitVec 384) : Nat := (x.extractLsb' 256 32).toNat
def ldCount (x : BitVec 384) : Nat := (x.extractLsb' 288 32).toNat

/-- A descriptor that traps ACTOR with sub-cause 4 (R282). -/
def State.badLaunch (s : State) (p : Nat) (x : BitVec 384) : Bool :=
  (ldEntry x).toNat % 12 != 0 || decide (vaEnd ≤ (ldEntry x).toNat) ||
    (ldCount x != 0 && decide ((s.partClusters p).length < ldFirst x + ldCount x)) ||
    (ldCnt x).toNat % 8 != 0

/-- The lowest-numbered free entry of the launch table of 4096. -/
def Part.launchFree (k : Part) : Option Nat :=
  (List.range 4096).find? (fun n => !(k.launches.any (fun e => e.1 == n && e.2.live)))
/-- The next generation of a slot: from 1, never 0. -/
def nextGen (g : BitVec 20) : BitVec 20 := if g = 0xFFFFF then 1 else g + 1

/-- R282, R283: a launch is made, and joins the list of each cluster that it names (R362); a launch of a cancelled job
is made already cancelled. -/
def State.launch (s : State) (t : Nat) (x : BitVec 384) : State × Word :=
  let p := s.partOf t
  let h := s.thr t
  match (s.part p).launchFree with
  | none => (s, 0)
  | some n =>
    let g := nextGen ((tget default (s.part p).launches n).gen)
    let id : BitVec 32 := g ++ BitVec.ofNat 12 n
    let l : Launch := {
      gen := g, live := ldUnits x != 0, entry := ldEntry x, args := ldArgs x, cnt := ldCnt x, units := ldUnits x,
      prio := ldPrio x, clFirst := ldFirst x, clCount := ldCount x, job := h.job, asid := (s.ctx t).asid,
      ag := s.tid t, no := s.serial, next := 0, ended := 0, canc := 0,
      ready := (s.launchClusters p (ldFirst x) (ldCount x)).map (fun j => (j, s.clusTime j)) }
    let s := (s.setLaunch p n l).jobIn p h.job (ldUnits x)
    let s := if ((s.part p).job h.job).canc then s.cancelLaunch p id else s
    (s, id.setWidth 64)

/-- R282. -/
def execLaunch (h : Hdr) (d a : SOp) (space : Space) (s : State) : Host.Outcome State Fault Refusal :=
  run s h (.launch h d a space) (fun s t =>
    (s.check1 t .read false false space (kindBits (.launch h d a space)) 48 48 ((s.thr t).rs a)).fin (fun s ps =>
      (s.readPieces t true 0 ps).fin (fun s bs =>
        let x := BitVec.ofNat 384 (natOfBytes (bs.getD 0 []))
        if s.badLaunch (s.partOf t) x then .trap s 0x10 4 0 0 false
        else
          let (s, id) := s.launch t x
          .done (s.updThr t (fun th => th.ws d id)))))

/-- R283. -/
def execCancel (h : Hdr) (d : BitVec 3) (a : SOp) (jb : Bool) (s : State) :
    Host.Outcome State Fault Refusal :=
  run s h (.cancel h d a jb) (fun s t =>
    let p := s.partOf t
    let x := (s.thr t).rs a
    if jb then
      let (s, live) := s.cancelJob p (x.extractLsb' 0 16)
      .done (s.updThr t (fun th => th.wp d !live))
    else
      let id := x.extractLsb' 0 32
      let live := ((s.part p).launch? id).isSome
      .done ((s.cancelLaunch p id).updThr t (fun th => th.wp d !live)))

/-- R284: an ID that names nothing live gives 2^64 − 1. -/
def counterValue (k : Part) (what : CntWhat) (x : Word) : Word :=
  let l (f : Launch → Nat) : Word := match k.launch? (x.extractLsb' 0 32) with
    | some l => BitVec.ofNat 64 (f l)
    | none => BitVec.allOnes 64
  match what with
  | .lrem => l (fun l => l.units - l.ended - l.canc)
  | .ldone => l Launch.ended
  | .lcan => l Launch.canc
  | .jout => if k.jobLive (x.extractLsb' 0 16) then BitVec.ofNat 64 (k.job (x.extractLsb' 0 16)).out else BitVec.allOnes 64
  | .jdrop => if k.jobLive (x.extractLsb' 0 16) then BitVec.ofNat 64 (k.job (x.extractLsb' 0 16)).drop else BitVec.allOnes 64

/-- R284. -/
def execCntrd (h : Hdr) (d a : SOp) (what : CntWhat) (s : State) : Host.Outcome State Fault Refusal :=
  run s h (.cntrd h d a what) (fun s t =>
    let x := counterValue (s.part (s.partOf t)) what ((s.thr t).rs a)
    .done (s.updThr t (fun th => th.ws d x)))

end Sys2Proof.Machine
end

