-- ==== Sys2Proof/Machine/Actor.lean ====
section
/-! DEFINITION. Group 0x13: sending messages, ending units of work and moving actors (R262, R266-R272, R308,
R321, R387, R392, R393). -/

namespace Sys2Proof.Machine

/-! ## What a unit is -/

/-- The unit of a thread if it is a handler run. -/
def Thread.handler (th : Thread) : Option UnitInfo :=
  match th.unit with
  | some u => if u.kind = .handler then some u else none
  | none => none

/-- Is a unit a run of a RESTARTABLE class (R269)? -/
def State.restartable (s : State) (u : UnitInfo) : Bool :=
  u.kind == .handler &&
    (match s.cls? u.ekey.part u.ekey.cls with
      | some d => cdRestartable d
      | none => false)

/-- ACTOR traps hold no c4 and c5 (R305). -/
def State.actorTrap (s : State) (sub : Nat) : Eff := .trap s 0x10 sub 0 0 false

/-! ## Home (R308) -/

/-- The home package of a class and key for a thread: its own, or the entry of the home map, which is a
plain load of two bytes. -/
def State.homeOf (s : State) (t : Nat) (i : Instr) (c : BitVec 16) (key : Word) : Got (BitVec 9) :=
  let p := s.partOf t
  match s.cls? p c with
  | none => .ok s s.pkg
  | some d =>
    if cdHmap d = 0 then .ok s s.pkg
    else
      let ea := cdHmap d + BitVec.ofNat 64 (2 * homeIx (homeHash p c key) (cdHbits d))
      (s.check1 t .read false false .g (kindBits i) 2 1 ea).bind (fun s ps =>
        (s.readPieces t true 0 ps).bind (fun s bs => .ok s (BitVec.ofNat 9 (natOfBytes (bs.getD 0 [])))))

/-- R267: a built message is accepted into the queue, or refused for want of room. -/
def State.accept (s : State) (t : Nat) (d : BitVec 3) (m : Msg) (pkg : BitVec 9) : Eff :=
  let th := s.thr t
  if 16 ≤ th.outq.length then .done (s.setThr t (th.wp d true))
  else
    let hold := (match th.unit with
      | some u => s.restartable u || u.dual.isSome
      | none => false)
    let m := { m with seq := th.seq }
    let o : OutMsg := ⟨m, pkg, m.akey.slice, if hold then .held else .waiting⟩
    let s := s.setThr t ({ th with outq := th.outq ++ [o], seq := th.seq + 1 }.wp d false)
    let s := (s.jobIn m.part m.job 1).newRegion (s.tid t)
    .done (s.pump t)

/-- The header of a message of thread t (R262). -/
def State.header (s : State) (t : Nat) (c : BitVec 16) (sel : BitVec 8) (key : Word) (len : Nat)
    (rv : Bool) (rsel : BitVec 8) (payload : List Byte) : Msg :=
  let th := s.thr t
  { (default : Msg) with
    cls := c, sel, len := BitVec.ofNat 8 len, job := th.job, rv, key, sender := s.tid t,
    rkey := if rv then th.key else 0, rcls := if rv then th.clsel.extractLsb' 0 16 else 0, rsel,
    payload := payload.take len, part := s.partOf t, via := s.pkg, asid := (s.ctx t).asid, no := s.serial,
    uid := match th.unit with
      | some u => u.uid
      | none => 0 }

/-- R267: SEND and SENDM, with their payload's source. -/
def State.sendOp (s : State) (t : Nat) (i : Instr) (d : BitVec 3) (key desc : Word)
    (payload : State → Nat → Got (List Byte)) : Eff :=
  let len := (desc.extractLsb' 24 8).toNat
  let rv := desc.getLsbD 40
  let c := desc.extractLsb' 0 16
  if 192 < len then s.actorTrap 3
  else if rv && (s.thr t).handler.isNone then s.actorTrap 1
  else
    (payload s len).fin (fun s bs =>
      (s.homeOf t i c key).fin (fun s pkg =>
        s.accept t d (s.header t c (desc.extractLsb' 16 8) key len rv (desc.extractLsb' 32 8) bs) pkg))

/-- The bytes of a vector register. -/
def vecBytes (v : VReg) : List Byte := v.toList.flatMap (fun x => bytesOfNat 4 x.toNat)

/-- R267. -/
def execSend (h : Hdr) (d : BitVec 3) (a : SOp) (b : BitVec 5) (c : SOp) (s : State) :
    Host.Outcome State Fault Refusal :=
  run s h (.send h d a b c) (fun s t =>
    let th := s.thr t
    s.sendOp t (.send h d a b c) d (th.rs a) (th.rs c) (fun s _ => .ok s (vecBytes (th.rv b))))

/-- R267: the payload is a plain load, at a multiple of 4. -/
def execSendm (h : Hdr) (d : BitVec 3) (a b c : SOp) (space : Space) (s : State) :
    Host.Outcome State Fault Refusal :=
  run s h (.sendm h d a b c space) (fun s t =>
    let th := s.thr t
    let i := Instr.sendm h d a b c space
    s.sendOp t i d (th.rs a) (th.rs c) (fun s len =>
      if len = 0 then
        if (th.rs b).toNat % 4 ≠ 0 then .stop (.trap s 0x06 0 (th.rs b) (accInfo 0xFF false (kindBits i)) false)
        else .ok s []
      else
        (s.check1 t .read false false space (kindBits i) len 4 (th.rs b)).bind (fun s ps =>
          (s.readPieces t true 0 ps).bind (fun s bs => .ok s (bs.getD 0 [])))))

/-- R267: the reply goes to the reply-to of the message that started the run. RSEL of its header is 0: of its descriptor
word a REPLY uses LEN alone (R266), though the text of R267 takes RSEL from it (log 53). -/
def execReply (h : Hdr) (d : BitVec 3) (b : BitVec 5) (c : SOp) (s : State) :
    Host.Outcome State Fault Refusal :=
  run s h (.reply h d b c) (fun s t =>
    let th := s.thr t
    let i := Instr.reply h d b c
    let len := ((th.rs c).extractLsb' 24 8).toNat
    if 192 < len then s.actorTrap 3
    else
      match th.handler with
      | none => s.actorTrap 2
      | some u =>
        if !u.msg.rv then s.actorTrap 2
        else
          (s.homeOf t i u.msg.rcls u.msg.rkey).fin (fun s pkg =>
            s.accept t d (s.header t u.msg.rcls u.msg.rsel u.msg.rkey len false 0 (vecBytes (th.rv b))) pkg))

/-! ## Sealing (R294, R297-R299) -/

/-- KIND of a patch source (R298). -/
def PKind.code : PKind → BitVec 2
  | .pay => 0 | .frm => 1 | .key => 2 | .fbase => 3
/-- The bits that a slot entry and a guard entry share: a source and two words (R298). -/
def pairBits (src : PSrc) (lo hi : Word) : BitVec 192 :=
  hi ++ lo ++ (0 : BitVec 52) ++ src.ix ++ PKind.code src.kind
/-- A patched position of a record: its flag and its slot (R299). -/
def patchBits (x : Option (BitVec 4)) : BitVec 5 :=
  match x with
  | some n => (1 : BitVec 1) ++ n
  | none => 0
/-- A command record (R299). -/
def Rec.bits (r : Rec) : BitVec 384 :=
  let lo : BitVec 288 := r.opb ++ r.opa ++ r.opd ++ wordOf r.i
  let mid : BitVec 21 := patchBits r.pb ++ (0 : BitVec 3) ++ patchBits r.pa ++ (0 : BitVec 3) ++ patchBits r.pd
  (0 : BitVec 29) ++ bit r.thr ++ r.queue ++ (0 : BitVec 43) ++ mid ++ lo
/-- QMASK (R297). -/
def Tape.qmask (x : Tape) : Nat := (rising (x.recs.map (fun r => r.queue.toNat))).foldl (fun n q => n + 2 ^ q) 0
/-- A list of entries of 24 bytes in n places. -/
def table24 (n : Nat) (l : List (BitVec 192)) : List Byte :=
  (l.flatMap (fun x => bytesOfNat 24 x.toNat)) ++ List.replicate (24 * (n - l.length)) 0
/-- The bytes of a tape image (R297). -/
def Tape.image (x : Tape) : List Byte :=
  [0x53, 0x48, 0x54, 0x01] ++ bytesOfNat 2 x.cls.toNat ++ bytesOfNat 1 x.sel.toNat ++ bytesOfNat 1 x.var.toNat ++
    bytesOfNat 2 x.cver.toNat ++ bytesOfNat 2 0 ++ bytesOfNat 4 x.epoch.toNat ++ bytesOfNat 2 x.recs.length ++
    bytesOfNat 1 x.slots.length ++ bytesOfNat 1 x.grds.length ++ bytesOfNat 4 x.qmask ++ List.replicate 168 0 ++
    table24 16 (x.slots.map (fun y => pairBits y.src y.recval y.span)) ++
    table24 8 (x.grds.map (fun y => pairBits y.src y.mask y.value)) ++
    x.recs.flatMap (fun r => bytesOfNat 48 r.bits.toNat)

/-- The lines of an image. -/
def TapeImg.lines (x : TapeImg) : Nat := (x.bytes.length + 191) / 192
/-- The images that fit into the 512 lines of a tape cache, those used last first. -/
def fitImages (n : Nat) : List TapeImg → List TapeImg
  | [] => []
  | x :: xs => if x.lines ≤ n then x :: fitImages (n - x.lines) xs else []
/-- Do two images belong to the same tape? -/
def TapeImg.same (x y : TapeImg) : Bool := x.part == y.part && x.cls == y.cls && x.sel == y.sel && x.var == y.var
/-- A cluster's tape cache takes an image. -/
def State.cacheTape (s : State) (j : Nat) (x : TapeImg) : State :=
  let k := s.clus j
  s.setClus j { k with tapeCache := fitImages 512 (x :: k.tapeCache.filter (fun y => !x.same y)) }

/-- The image that a recording of a unit makes. -/
def State.tapeOf (s : State) (u : UnitInfo) (r : Recording) : Tape :=
  { cls := u.msg.cls, sel := u.msg.sel, var := r.var,
    cver := (match s.cls? u.part u.msg.cls with
      | some d => cdVer d
      | none => 0),
    epoch := (s.part u.part).epoch, slots := r.slots, grds := r.grds, recs := r.recs }

/-- R294: a recording ends with its image in the partition's tape store and in the cluster's tape cache; where the
store has no room it aborts with OUTC 7. False when nothing is sealed. -/
def State.seal (s : State) (t : Nat) : State × Bool :=
  let th := s.thr t
  match th.recording, th.unit with
  | some r, some u =>
    let x := s.tapeOf u r
    let k := (s.part u.part).dropTape x.cls x.sel x.var
    let img : TapeImg := ⟨u.part, x.cls, x.sel, x.var, x.image⟩
    if k.tapeRoom < (k.tapeStore.map (fun y => y.bytes.length)).foldl (· + ·) img.bytes.length then
      (s.abortRec t 7, false)
    else
      let s := (s.setPart u.part { k with tapes := k.tapes ++ [x], tapeStore := k.tapeStore ++ [img] }).cacheTape
        (clusOf t) img
      let s := (s.setThr t (th.endRec 1)).updPart u.part (fun k =>
        let y := k.tapeCtl? x.cls x.sel x.var
        k.setTapeCtl { y with right := none, seals := y.seals + 1 })
      (s, true)
  | _, _ => (s, false)

/-! ## Dual runs (R392, R393) -/

/-- The polynomial of the signature. -/
def crcPoly : Word := 0x42F0E1EBA9EA3693
/-- One bit of CRC-64. -/
def crcBit (c : Word) (b : Bool) : Word := if c.getLsbD 63 != b then (c <<< 1) ^^^ crcPoly else c <<< 1
/-- Fold bytes into a CRC-64, each from its highest bit. -/
def crcBytes (c : Word) (bs : List Byte) : Word :=
  bs.foldl (fun (c : Word) b => (List.range 8).foldl (fun (c : Word) i => crcBit c (b.getLsbD (7 - i))) c) c

/-- A held store as R393 folds it: its address in its space in 8 bytes, a mask with a bit for each of its bytes that it
writes, in whole bytes, and its bytes (log 13). -/
def HeldStore.bytes (x : HeldStore) : List Byte :=
  let n := x.nibs.foldl (fun (n : Nat) p => max n (p.1 / 2 - x.pa + 1)) 0
  let nib (i : Nat) : Option (BitVec 4) := nibFind x.nibs (2 * x.pa + i)
  let mask := (List.range n).foldl (fun (m : Nat) i =>
    if (nib (2 * i)).isSome || (nib (2 * i + 1)).isSome then m + 2 ^ i else m) 0
  bytesOfNat 8 x.unit.va ++ bytesOfNat ((n + 7) / 8) mask ++
    (List.range n).map (fun i => (nib (2 * i + 1)).getD 0 ++ (nib (2 * i)).getD 0)

/-- A held message as R393 folds it: header and payload. -/
def msgBytes (m : Msg) : List Byte := bytesOfNat 48 (headerOf m).toNat ++ m.payload
/-- The messages that the unit of a thread holds, oldest first. -/
def Thread.heldMsgs (h : Thread) : List Msg :=
  match h.unit with
  | some u => (h.outq.filter (fun o => o.st == .held && o.msg.uid == u.uid)).map OutMsg.msg
  | none => []
/-- The held messages of the run of thread t, one of a pair, as the primary's thread `pri` sends them: with its agent ID
and its SEQ (log 13). -/
def State.pairMsgs (s : State) (pri t : Nat) : List Msg :=
  let first := (s.thr pri).seq - BitVec.ofNat 32 (s.thr pri).heldMsgs.length
  (s.thr t).heldMsgs.zipIdx.map (fun x => { x.1 with sender := s.tid pri, seq := first + BitVec.ofNat 32 x.2 })

/-- The signature of the run of thread t, one of a pair whose primary thread `pri` runs (R393). -/
def State.signature (s : State) (pri t : Nat) : Word :=
  let th := s.thr t
  match th.unit with
  | none => Config.crcInit
  | some u =>
    let held := match u.dual with
      | some d => d.held
      | none => []
    let c := crcBytes Config.crcInit (held.flatMap HeldStore.bytes)
    let c := crcBytes c ((s.pairMsgs pri t).flatMap msgBytes)
    let base := s.framePa (coreOf t) u.fline
    let dirty := match (s.core (coreOf t)).frameOf u.ekey with
      | some f => rising f.dirty
      | none => []
    crcBytes c (dirty.flatMap (fun k => s.loadBytes (s.tid t) none (base + 48 * k) 48))

/-- A held store is performed as a store of its thread is. -/
def State.performOne (s : State) (t : Nat) (x : HeldStore) : State :=
  let id := s.tid t
  match x.unit.tgt with
  | .mem _ pte =>
    if x.nibs.isEmpty then s
    else if pteWatch pte then (s.drainOver id 6 x.nibs).atomWriteN id x.nibs
    else s.buffer id (BitVec.ofNat 64 x.unit.va) x.nibs x.wipe none (s.whose t)
  | r => s.regWrite (s.thr t).priv r (x.unit.bytes.length + 1) x.unit.bytes x.unit.mask
/-- The held stores of a run are performed in program order; sectors of watched pages that one instruction has written
whole lose their poison (R348). -/
def State.performHeld (s : State) (t : Nat) (l : List HeldStore) : State :=
  ((l.foldl (fun (s : State) x => s.performOne t x) s).drain (s.tid t) 6).heal
    ((l.filter (fun x => x.wipe != 0 && x.unit.seg.watched)).map (fun x => secBase x.pa))

/-- A run of a pair leaves without effect: held messages dropped, its thread free. -/
def State.dropRun (s : State) (t : Nat) : State := (s.orphanThread t).freeThread t

/-- R393: the two runs differ: both are discarded. A redelivery excludes the primary's core (log 13). -/
def State.dualMismatch (s : State) (t other : Nat) (u : UnitInfo) (mine theirs : Word) : State :=
  let s := s.putRecord u.ring { s.threadRec t 0x26 1 with
    rd := s.redelivers u.ekey, d0 := mine, d1 := theirs }
  let s := { s with notices := s.notices ++ [(⟨.hwError true (coreOf t), u.ekey⟩ : Notice)] }
  (s.dropRun other).dropRun t

/-! ## ADONE (R269) -/

/-- Stores of an agent to other packages that have not left, and those that have replaced one. -/
def State.peerIds (s : State) (id : BitVec 32) : List (Nat × BitVec 32) :=
  let far (ns : Nibs) : Bool := match ns with
    | (l, _) :: _ => s.isPeer (l / 2)
    | [] => false
  let all := ((s.agent id).sb.filter (fun x => far x.nibs)).map (fun x => (x.id, id)) ++
    (s.hold.filter (fun e => s.isPeer (e.loc / 2) && (e.ag == id || e.past.any (fun x => x.1 == id)))).map
      (fun e => (e.id, e.ag))
  oldestFirst all

/-- Steps 1 and 2, which TPLAY shares: nothing is left to wait for, or a trap, or a wait. -/
def State.drained (s : State) (t : Nat) (w : Wait) : Got Unit :=
  let s := s.closeSlots t
  match s.engReport t [0, 1, 2, 3] with
  | some e => .stop e
  | none =>
    let th := s.thr t
    let id := s.tid t
    if th.q.toList.any (fun q => !q.cmds.isEmpty) then .stop (.wait s w)
    else
      let s := s.raiseAll 7 (s.peerIds id)
      if s.peerStoresLeft id || th.outq.any (fun o => o.st != .held) then .stop (.wait s w)
      else if 0 < (s.agent id).ref.count then .stop (s.reportRef t)
      else .ok s ()

/-- R269 step 4: held messages are released, after every access of the run (R123). -/
def State.releaseHeld (s : State) (t uid : Nat) : State :=
  (s.updThr t (fun th => { th with outq := th.outq.map (fun (o : OutMsg) =>
    if o.st = .held ∧ o.msg.uid = uid then { o with msg := { o.msg with no := s.serial }, st := .waiting } else o) })).pump t

/-- A commit that fails (R319): its run ends before its commit point and is not redelivered. -/
def State.commitFailed (s : State) (t : Nat) (u : UnitInfo) (addr : Word) : State :=
  let s := { s with notices := s.notices ++ [(⟨.commitFailed addr, u.ekey⟩ : Notice)] }
  (s.orphanThread t).freeThread t

/-- R269 step 4 for a RESTARTABLE run: the dirty sectors go to the state block, as a release at pkg. -/
def State.commit (s : State) (t : Nat) (u : UnitInfo) : Got Unit :=
  if !s.restartable u then .ok s ()
  else
    match s.entry? u.ekey with
    | some e =>
      match s.blockCheck e e.desc .write with
      | (s, .ok segs) =>
        match s.writeBlock e segs false with
        | (s, true) => .ok (s.releaseHeld t u.uid) ()
        | (s, false) => .stop (.wait s .adone)
      | (s, .away) | (s, .room) => .stop (.wait s .adone)
      | (s, .bad a) => .stop (.ended (s.commitFailed t u a))
    | none => .ok (s.releaseHeld t u.uid) ()

/-- The level at which a unit's accesses stand before the counters and the notices that its end makes: a task's at clus
(R275), those of a run whose completion a host sees at the pod (R411), else at pkg (R123). -/
def endLevel (kind : UKind) (m : Msg) : Nat := if kind = .task then 2 else if m.host && m.irq then 7 else 6

/-- R269 steps 5 to 7: the counters of the unit, the notice to its slice, and the free thread. -/
def State.endUnit (s : State) (t : Nat) (u : UnitInfo) : State :=
  let id := s.tid t
  let s := s.unitCounters t u
  let s := if u.kind = .handler then
      let s := (s.jobOut u.part (s.thr t).job 1).hostDone u.msg 0 0
      { s with notices := s.notices ++ [⟨.runEnded u.retire u.export_, u.ekey⟩] }
    else s
  (s.newRegion id).freeThread t

/-- R269 from step 3 on, for a run that is not, or no longer, one of two: it ends once its accesses stand where its end
needs them. -/
def State.adoneRest (s : State) (t : Nat) : Eff :=
  let s := (s.seal t).1
  match (s.thr t).unit with
  | none => .ended s
  | some u =>
    match s.upTo (s.tid t) s.serial (endLevel u.kind u.msg) with
    | (s, false) => .wait s .adone
    | (s, true) => (s.commit t u).fin (fun s _ => .ended (s.endUnit t u))

/-- The primary of a pair goes on with ADONE, seen from the other thread. -/
def State.adoneFor (s : State) (t : Nat) : State :=
  match s.adoneRest t with
  | .ended s => s
  | .wait s w => s.updThr t (fun th => { th with waiting := some w })
  | .done s | .jump s _ | .trap s .. | .stall s => s

/-- R393: both runs have reached step 3. -/
def State.dualEnd (s : State) (t : Nat) (u : UnitInfo) (d : Dual) : Eff :=
  let pri := if d.shadow then d.other else t
  let sh := if d.shadow then t else d.other
  let a := s.signature pri pri
  let b := s.signature pri sh
  if a ≠ b then .ended (s.dualMismatch pri sh u a b)
  else
    let held := match s.dual? pri with
      | some x => x.held
      | none => []
    let s := s.dropRun sh
    let s := s.updThr pri (fun th => { th with unit := th.unit.map (fun x => { x with dual := none }) })
    let s := (s.performHeld pri held).releaseHeld pri (match (s.thr pri).unit with
      | some x => x.uid
      | none => 0)
    if d.shadow then .ended (s.adoneFor pri) else s.adoneRest pri

/-- R269: ADONE, as far as it can go; step 3 is entered only while the watchdog has not expired (R373). -/
def State.adoneTry (s : State) (t : Nat) : Eff :=
  match (s.thr t).unit with
  | none => .ended s
  | some u =>
    let go (s : State) : Eff :=
      match u.dual with
      | none => s.adoneRest t
      | some d =>
        match s.dual? d.other with
        | some o => if o.arrived then s.dualEnd t u d else .wait s .adone
        | none => .wait s .adone
    if u.step3 then go s
    else
      (s.drained t .adone).fin (fun s _ =>
        if s.expired u (s.time (coreOf t)) then .wait s .adone
        else go (s.updThr t (fun th => { th with unit := th.unit.map (fun x => { x with
          step3 := true
          dual := x.dual.map (fun y => { y with arrived := true }) }) })))

/-- R269. -/
def execAdone (h : Hdr) (s : State) : Host.Outcome State Fault Refusal :=
  run s h (.adone h) (fun s t => s.adoneTry t)

/-! ## Retirement and moves (R270, R271) -/

/-- Change the unit of a thread. -/
def State.updUnit (s : State) (t : Nat) (f : UnitInfo → UnitInfo) : State :=
  s.updThr t (fun th => { th with unit := th.unit.map f })

/-- R270. -/
def execAretire (h : Hdr) (s : State) : Host.Outcome State Fault Refusal :=
  run s h (.aretire h) (fun s t =>
    if (s.thr t).handler.isNone then s.actorTrap 1
    else .done (s.updUnit t (fun u => { u with retire := true })))

/-- R271: an offer is sent, and its answer awaited; with no path to the package the answer is no. -/
def execAexport (h : Hdr) (d : BitVec 3) (a : SOp) (s : State) : Host.Outcome State Fault Refusal :=
  run s h (.aexport h d a) (fun s t =>
    let th := s.thr t
    match th.handler with
    | none => s.actorTrap 1
    | some u =>
      let dst := (th.rs a).extractLsb' 0 9
      if dst = s.pkg ∨ u.export_.isSome then .done (s.updThr t (fun th => th.wp d true))
      else
        let f : Flit := { (default : Flit) with
          sagent := s.tid t, dpkg := dst, part := BitVec.ofNat 7 u.part, vl := 3, typ := 0x13, key := u.ekey }
        match s.emit f with
        | (s, true) => .wait s (.aexport d dst)
        | (s, false) => .done (s.updThr t (fun th => th.wp d true)))

/-- R271, R313: an import is recorded at the home slice; false when it is not. -/
def State.importRec (s : State) (k : AKey) : State × Bool :=
  let s := s.touch k
  if (s.cls? k.part k.cls).isNone || (s.entry? k).isSome then (s, false)
  else
    match s.alloc k .absent with
    | some s => (s.updEntry k (fun e => { e with imp := true }), true)
    | none => (s, false)

/-- R271, R313: an unmatched import record is removed; false when there is none. -/
def State.importCan (s : State) (k : AKey) : State × Bool :=
  let s := s.touch k
  match s.entry? k with
  | some e => if e.st = .absent ∧ e.imp then (s.delEntry k, true) else (s, false)
  | none => (s, false)

/-- R271. -/
def execAimport (h : Hdr) (d : BitVec 3) (a b : SOp) (cn : Bool) (s : State) :
    Host.Outcome State Fault Refusal :=
  run s h (.aimport h d a b cn) (fun s t =>
    let th := s.thr t
    let k : AKey := ⟨s.partOf t, (th.rs b).extractLsb' 0 16, th.rs a⟩
    let (s, ok) := if cn then s.importCan k else s.importRec k
    .done (s.updThr t (fun th => th.wp d !ok)))

/-! ## ASELF (R272) -/

/-- R272. -/
def execAself (h : Hdr) (d : SOp) (what : SelfWhat) (s : State) : Host.Outcome State Fault Refusal :=
  run s h (.aself h d what) (fun s t =>
    let th := s.thr t
    match th.handler with
    | none => s.actorTrap 1
    | some u =>
      let put (s : State) (x : Word) : Eff := .done (s.updThr t (fun th => th.ws d x))
      match what with
      | .key => put s th.key
      | .cls => put s th.clsel
      | .frame => put s th.cframe
      | .lines => put s (BitVec.ofNat 64 (match s.cls? u.ekey.part u.ekey.cls with
          | some c => cdLines c
          | none => 0))
      | .home => (s.homeOf t (.aself h d what) u.ekey.cls u.ekey.key).fin (fun s pkg => put s (pkg.setWidth 64)))

/-! ## The device's steps for imports -/

/-- IMPORT_RECORD: the home slice records an expected import. -/
def execImportRecord (k : AKey) (s : State) : Host.Outcome State Fault Refusal := event (s.importRec k).1
/-- IMPORT_CANCEL: the home slice removes an unmatched import record. -/
def execImportCancel (k : AKey) (s : State) : Host.Outcome State Fault Refusal := event (s.importCan k).1

end Sys2Proof.Machine
end

