-- ==== Sys2Proof/Machine/Tape.lean ====
section
/-! DEFINITION. Group 0x14 and the tape sequencer: recording, guards, and replay (R285-R301, R362-R364, R367,
R425). -/

namespace Sys2Proof.Machine

/-! ## Sources (R287) -/

/-- Word k of a payload, zero beyond its length. -/
def payWord (m : Msg) (k : Nat) : Word :=
  BitVec.ofNat 64 (natOfBytes ((List.range 8).map (fun i => m.payload.getD (8 * k + i) 0)))

/-- TAPE traps hold no c4 and c5 (R305). -/
def State.tapeTrap (s : State) (sub : Nat) : Eff := .trap s 0x11 sub 0 0 false

/-- Is a frame word beyond the frame (R290)? -/
def beyondFrame (src : PSrc) (flen : Nat) : Bool :=
  src.kind == .frm && decide (192 * flen < 8 * src.ix.toNat + 8)

/-- The value of a source for agent ag on core c. -/
def State.srcValue (s : State) (ag : BitVec 32) (c : Nat) (m : Msg) (key : Word) (fline flen : Nat)
    (src : PSrc) : Word :=
  match src.kind with
  | .pay => payWord m src.ix.toNat
  | .frm =>
    if beyondFrame src flen then 0
    else BitVec.ofNat 64 (natOfBytes (s.loadBytes ag none (s.framePa c fline + 8 * src.ix.toNat) 8))
  | .key => key
  | .fbase => BitVec.ofNat 64 (192 * fline)

/-- The agent of a core's sequencer. -/
def State.seqrId (s : State) (c : Nat) : BitVec 32 := agentId s.pkg (.seqr c)

/-- The source values of a replay's slots, which stay within the replay (R425). -/
def State.slotValues (s : State) (c : Nat) (r : Replay) : List Word :=
  r.tape.slots.map (fun x => s.srcValue (s.seqrId c) c r.msg r.ekey.key r.fline r.flen x.src)

/-- The source of a TPATCH or TGUARD of thread t. -/
def State.source (s : State) (t : Nat) (src : PSrc) : Got Word :=
  match (s.thr t).handler with
  | none => .stop (s.tapeTrap 2)
  | some u =>
    if beyondFrame src u.flen then .stop (s.tapeTrap 3)
    else
      let o := 192 * u.fline + 8 * src.ix.toNat
      if src.kind == .frm && s.poisoned (s.framePa (coreOf t) u.fline + 8 * src.ix.toNat) 8 then
        .stop (.ended (s.hwErr t 0x23 0 (BitVec.ofNat 64 o)))
      else .ok s (s.srcValue (s.tid t) (coreOf t) u.msg (s.thr t).key u.fline u.flen src)

/-! ## TREC (R293, R285, R286) -/

/-- A recording with every tag NONE. -/
def Recording.start (var : BitVec 4) : Recording := ⟨var, [], [], [], [], [], []⟩

/-- Begin to record, with the right taken; with no room for its four lines it ends at once (R286). -/
def State.beginRec (s : State) (t : Nat) (u : UnitInfo) (r : Recording) : State :=
  let room := decide (s.recUsed (coreOf t) + recLines 0 ≤ s.recArea (coreOf t))
  let x := (s.part u.part).tapeCtl? u.msg.cls u.msg.sel r.var
  let s := s.updPart u.part (fun k => k.setTapeCtl { x with right := some t })
  let s := s.updThr t (fun th => { th with recording := some r, tapest := 0 })
  if room then s else s.abortRec t 7

/-- May a recording take the right (R285, R392)? -/
def State.mayRecord (s : State) (u : UnitInfo) (var : BitVec 4) : Bool :=
  let x := (s.part u.part).tapeCtl? u.msg.cls u.msg.sel var
  x.right.isNone && !x.supp && u.dual.isNone

/-- R293. -/
def execTrec (h : Hdr) (var : BitVec 4) (s : State) : Host.Outcome State Fault Refusal :=
  run s h (.trec h var) (fun s t =>
    match (s.thr t).handler with
    | none => s.tapeTrap 2
    | some u =>
      if (s.thr t).recording.isSome then s.tapeTrap 1
      else if s.mayRecord u var then .done (s.beginRec t u (Recording.start var))
      else .done (s.updThr t (fun th => th.endRec 6)))

/-! ## TPATCH and TGUARD (R291, R292) -/

/-- R291: a pair is fixed by its first TPATCH, and with it the SPAN of a slot that a tag of the entry registers, MFC or
ASELF has made for it; a later one that reads another value ends the recording. -/
def State.patchPair (s : State) (t : Nat) (src : PSrc) (v span : Word) : State :=
  let th := s.thr t
  match th.recording with
  | none => s
  | some r =>
    match r.pairs.find? (fun x => x.src == src) with
    | some x => if x.recval = v then s else s.abortRec t 2
    | none => s.setThr t { th with recording := some { r with
        pairs := r.pairs ++ [⟨src, v, span⟩]
        slots := r.slots.map (fun (x : PSlot) => if x.src = src then { x with span } else x) } }

/-- R291. -/
def execTpatch (h : Hdr) (d a : SOp) (src : PSrc) (imm : BitVec 32) (s : State) :
    Host.Outcome State Fault Refusal :=
  run s h (.tpatch h d a src imm) (fun s t =>
    (s.source t src).fin (fun s v =>
      let s := s.patchPair t src v ((s.thr t).rs a)
      .done (s.updThr t (fun th => th.ws d (v + imm.signExtend 64)))))

/-- R292: a guard is recorded; a ninth ends the recording (R286). -/
def State.addGuard (s : State) (t : Nat) (g : GuardRec) : State :=
  let th := s.thr t
  match th.recording with
  | none => s
  | some r =>
    if 8 ≤ r.grds.length then s.abortRec t 7
    else s.setThr t { th with recording := some { r with grds := r.grds ++ [g] } }

/-- R292. -/
def execTguard (h : Hdr) (d b : SOp) (src : PSrc) (s : State) : Host.Outcome State Fault Refusal :=
  run s h (.tguard h d b src) (fun s t =>
    (s.source t src).fin (fun s v =>
      let m := (s.thr t).rs b
      let s := s.addGuard t ⟨src, m, v &&& m⟩
      .done (s.updThr t (fun th => th.ws d (v &&& m)))))

/-! ## TSEAL and TINV (R294, R296) -/

/-- R294. -/
def execTseal (h : Hdr) (d : BitVec 3) (s : State) : Host.Outcome State Fault Refusal :=
  run s h (.tseal h d) (fun s t =>
    let (s, ok) := s.seal t
    .done (s.updThr t (fun th => th.wp d !ok)))

/-- Does a tape or its control record carry a class and, unless every selector is meant, a selector? -/
def tapeNamed (c : BitVec 16) (sel : Option (BitVec 8)) (c' : BitVec 16) (sel' : BitVec 8) : Bool :=
  c' == c && (match sel with
    | some x => sel' == x
    | none => true)

/-- R296: tapes are discarded, their failure counts cleared, their suppression lifted. -/
def State.tinv (s : State) (p : Nat) (c : BitVec 16) (sel : Option (BitVec 8)) : State :=
  let s := { s with clusters := s.clusters.map (fun (e : Nat × Cluster) =>
    (e.1, { e.2 with tapeCache := e.2.tapeCache.filter (fun x => !(x.part == p && tapeNamed c sel x.cls x.sel)) })) }
  s.updPart p (fun k => { k with
    tapes := k.tapes.filter (fun x => !tapeNamed c sel x.cls x.sel)
    tapeStore := k.tapeStore.filter (fun x => !tapeNamed c sel x.cls x.sel)
    tapeCtl := k.tapeCtl.map (fun (x : TapeCtl) =>
      if tapeNamed c sel x.cls x.sel then { x with fails := 0, supp := false } else x) })

/-- R296. -/
def execTinv (h : Hdr) (a b : SOp) (all : Bool) (s : State) : Host.Outcome State Fault Refusal :=
  run s h (.tinv h a b all) (fun s t =>
    let th := s.thr t
    .done (s.tinv (s.partOf t) ((th.rs a).extractLsb' 0 16)
      (if all then none else some ((th.rs b).extractLsb' 0 8))))

/-! ## CHECK and GUARDS (R300) -/

/-- The OUTC of a fallback, or the tape. -/
inductive Checked where
  | go (x : Tape)
  | back (outc : Nat)
deriving DecidableEq, Repr

/-- The CHECK and GUARDS steps for a message: a stale tape is discarded, and a mismatch counts as a failure
(R285, R294). -/
def State.checkTape (s : State) (p : Nat) (m : Msg) (var : BitVec 4) (src : PSrc → Word) : State × Checked :=
  match (s.part p).tape? m.cls m.sel var, s.cls? p m.cls with
  | some x, some d =>
    if !s.tapeCurrent p d x then (s.updPart p (fun k => k.dropTape m.cls m.sel var), .back 5)
    else if x.grds.all (fun g => src g.src &&& g.mask == g.value) then (s, .go x)
    else (s.tapeFail p m.cls m.sel var, .back 4)
  | _, _ => (s, .back 6)

/-- A replay reads its tape through the cluster's tape cache, which takes the image where it has none (R294). -/
def State.cacheOf (s : State) (p c : Nat) (x : Tape) : State :=
  match (s.part p).tapeStore.find? (fun y => y.cls == x.cls && y.sel == x.sel && y.var == x.var) with
  | some img => s.cacheTape (clusOfCore c) img
  | none => s

/-! ## TPLAY (R295) -/

/-- R295: TPLAY, as far as it can go: it waits, hands its unit to the sequencer, or falls through. A run that follows a
failed replay does not replay (R301): its TPLAY falls through with OUTC 6, as where there is no tape (log 53). -/
def State.tplayTry (s : State) (t : Nat) (d : BitVec 3) (var : BitVec 4) : Eff :=
  let c := coreOf t
  match (s.thr t).handler with
  | none => s.tapeTrap 2
  | some u =>
    (s.drained t (.tplay d var)).fin (fun s _ =>
      let back (s : State) (outc : Nat) : Eff :=
        .done (s.updThr t (fun th => (th.endRec outc).wp d true))
      if u.dual.isSome || u.plain then back s 6
      else if (s.core c).replay.isSome then .wait s (.tplay d var)
      else
        match s.checkTape u.part u.msg var
            (s.srcValue (s.tid t) c u.msg u.ekey.key u.fline u.flen) with
        | (s, .back outc) => back s outc
        | (s, .go x) =>
          match (if iqBusy (s.agent (s.tid t)).iq then (s, false) else s.upTo (s.tid t) s.serial 6) with
          | (s, false) => .wait s (.tplay d var)
          | (s, true) =>
          let r : Replay := {
            uid := u.uid, msg := u.msg, ekey := u.ekey, part := u.part, asid := u.asid,
            fline := u.fline, flen := u.flen, tape := x, next := 0, retire := u.retire, export_ := u.export_,
            thr := some t, src := s.tid t, since := s.serial, vals := [] }
          let r := { r with vals := s.slotValues c r }
          let s := (s.updCore c (fun k => { k with replay := some r })).cacheOf u.part c x
          .ended ((s.newRegion (s.tid t)).freeThread t))

/-- R295. -/
def execTplay (h : Hdr) (d : BitVec 3) (var : BitVec 4) (s : State) : Host.Outcome State Fault Refusal :=
  run s h (.tplay h d var) (fun s t => s.tplayTry t d var)

/-! ## Ordering at a start (R123), and priority (R364) -/

/-- R123: the accesses of the earlier side before number n reach the scope of the two agents, and the later side
acquires there; false while they cannot. A sender of another package has done its part before its message left. -/
def State.orderBefore (s : State) (src dst : BitVec 32) (n : Nat) : State × Bool :=
  let sc := scopeOf src dst
  if idPkg src ≠ s.pkg then (s.acquire dst 7, true)
  else
    match s.upTo src n sc with
    | (s, true) => (s.acquire dst sc, true)
    | (s, false) => (s, false)

/-- R364, with times of CYCLE, which wraps (R33). -/
def effPrio (base rate ready now : Nat) : Nat :=
  if rate = 0 then base else min 15 (base + (now + 2 ^ 64 - ready) % 2 ^ 64 / (1024 * rate))

/-- Effective priority of a delivery at its core. -/
def State.itemPrio (s : State) (c : Nat) (it : Item) : Nat :=
  match s.cls? it.msg.part it.msg.cls with
  | some d => effPrio (cdPrio d) (cdAge d) it.ready (s.cycle c).toNat
  | none => 0

/-- The item that goes first: higher priority, then earlier ready time, then its place in the list. -/
def State.firstItem (s : State) (c : Nat) (l : List Item) : Option Item :=
  l.foldl (fun (a : Option Item) x => match a with
    | none => some x
    | some y =>
      let px := s.itemPrio c x
      let py := s.itemPrio c y
      if py < px ∨ (py = px ∧ x.ready < y.ready) then some x else some y) none

/-! ## REPLAY_TAKE (R367, R300) -/

/-- Remove a delivery from a core's places. -/
def Core.unplace (k : Core) (it : Item) : Core :=
  { k with places := k.places.erase it }

/-- The pool line of the first poisoned sector of a frame (R386, R389). -/
def State.badLine (s : State) (c line len : Nat) : Option Nat :=
  let a := s.framePa c line
  ((rising s.poison).find? (fun x => decide (a ≤ x) && decide (x < a + 192 * len))).map (fun x =>
    poolB0 (s.core c).poolcfg + (paLocal x - coreBase c) / 192)

/-- R386: a delivery that meets an error found in its frame while no run was in progress. -/
def State.failDelivery (s : State) (c : Nat) (it : Item) (line : Nat) : State :=
  let s := s.updCore c (fun k => k.unplace it)
  let s := s.putRecord (some it.ekey.part) {
    cause := 0x22, sub := 2, rd := s.redelivers it.ekey, ukind := 0, part := it.ekey.part,
    agent := s.coreAgent c, pc := 0, info0 := BitVec.ofNat 64 line, info1 := 0, key := it.ekey.key,
    job := it.msg.job, sel := it.msg.sel, cls := it.msg.cls, d0 := 0, d1 := 0 }
  { s with notices := s.notices ++ [(⟨.hwError false c, it.ekey⟩ : Notice)] }

/-- R367: the sequencer takes a replay and makes its CHECK and GUARDS steps; one that fails falls back to
the run list in its place. -/
def State.replayTake (s : State) (c : Nat) : State :=
  let k := s.core c
  if k.replay.isSome then s
  else
    match s.firstItem c (k.places.filter Item.replay) with
    | none => s
    | some it =>
      if s.runs (clusOfCore c) ≠ some it.msg.part then s
      else
        match s.orderBefore it.msg.sender (s.seqrId c) it.msg.no, s.entry? it.ekey with
        | (s, false), _ => s
        | (s, true), none => s
        | (s, true), some e =>
          let flen := match s.cls? it.msg.part it.msg.cls with
            | some d => cdLines d
            | none => 0
          match s.badLine c e.frame flen with
          | some l => s.failDelivery c it l
          | none =>
          match s.checkTape it.msg.part it.msg 0
              (s.srcValue (s.seqrId c) c it.msg it.ekey.key e.frame flen) with
          | (s, .back outc) =>
            s.updCore c (fun k => { k with places := k.places.map (fun (x : Item) =>
              if x = it then { x with replay := false, record := false, outc := BitVec.ofNat 3 outc } else x) })
          | (s, .go x) =>
            let s := { s with serial := s.serial + 1 }
            let r : Replay := {
              uid := s.serial, msg := it.msg, ekey := it.ekey, part := it.msg.part,
              asid := (s.part it.msg.part).asidcur.extractLsb' 0 16, fline := e.frame, flen, tape := x,
              next := 0, retire := false, export_ := none, thr := none, src := it.msg.sender, since := it.msg.no,
              vals := [] }
            let r := { r with vals := s.slotValues c r }
            (s.updCore c (fun k => { k.unplace it with replay := some r })).cacheOf it.msg.part c x

/-! ## REPLAY_ISSUE (R300, R289, R425) -/

/-- A replay fails after issue has begun (R301): a record, a failure of the tape, and a notice. -/
def State.replayFail (s : State) (c : Nat) (r : Replay) (sub : Nat) (info0 info1 : Word) : State :=
  let re := match s.cls? r.part r.ekey.cls with
    | some d => cdRestartable d
    | none => false
  let s := s.putRecord (some r.part) { s.replayRec c r 0x24 sub with
    info0, info1, rd := s.redelivers r.ekey }
  let s := (s.dropReplay c).tapeFail r.part r.msg.cls r.msg.sel r.tape.var
  { s with notices := s.notices ++ [(⟨.runFailed re r.retire r.export_, r.ekey⟩ : Notice)] }

/-- The distance of a slot's source value from its recorded one. -/
def slotDelta (r : Replay) (n : Nat) : Word × Word :=
  match r.tape.slots[n]? with
  | none => (0, 0)
  | some x => (r.vals.getD n 0, r.vals.getD n 0 - x.recval)

/-- R425: |d| > SPAN. -/
def spanFails (span d : Word) : Bool := span != 0 && decide (span.toNat < d.toInt.natAbs)

/-- The slots that a record names, lowest position first. -/
def Rec.patched (x : Rec) : List (BitVec 4) := [x.pd, x.pa, x.pb].filterMap id

/-- The first slot of a record that lies beyond its span. -/
def patchFails (r : Replay) (x : Rec) : Option (Nat × Word) :=
  x.patched.findSome? (fun n =>
    let (v, d) := slotDelta r n.toNat
    match r.tape.slots[n.toNat]? with
    | some y => if spanFails y.span d then some (n.toNat, v) else none
    | none => none)

/-- R289: an operand as the replay takes it. -/
def patched (r : Replay) (op : Word) : Option (BitVec 4) → Word
  | none => op
  | some n => op + (slotDelta r n.toNat).2

/-- The command that a record makes. -/
def State.replayCmd (s : State) (r : Replay) (x : Rec) : Cmd :=
  { i := x.i, opd := patched r x.opd x.pd, opa := patched r x.opa x.pa, opb := patched r x.opb x.pb, rows := Vector.replicate 48 0, cols := Vector.replicate 48 0, body := [],
    snap := [], gen := 0, tgt := 0, order := s.serial + 1, decided := true, begun := false, stamp := 0,
    todo := [], buf := [], idx := [], seen := [], iter := 0, fl := 0, uid := r.uid, part := some r.part, asid := r.asid, priv := privU }

/-- A command enters a queue of the sequencer. -/
def State.pushReplay (s : State) (c q : Nat) (x : Cmd) : State :=
  let y := s.queue (.seqr c) q
  let s := s.setQueue (.seqr c) q { y with cmds := y.cmds ++ [x] }
  let s := s.updCore c (fun k => { k with replay := k.replay.map (fun r => { r with next := r.next + 1 }) })
  { s with serial := s.serial + 1 }

/-- R300: the next record is patched, checked and issued, while its queue has room. -/
def State.replayIssue (s : State) (c : Nat) : State :=
  match (s.core c).replay with
  | none => s
  | some r =>
    match r.tape.recs[r.next]? with
    | none => s
    | some x =>
      let q := x.queue.toNat
      if 32 ≤ (s.queue (.seqr c) q).cmds.length then s
      else
        match patchFails r x with
        | some (n, v) => s.replayFail c r 1 (BitVec.ofNat 64 n) v
        | none =>
          let y := s.replayCmd r x
          match copyMod x.i with
          | none => s.pushReplay c q y
          | some (k, _) =>
            match copyTarget k (BitVec.ofNat 64 (192 * r.fline)) with
            | none => s.pushReplay c q y
            | some tg =>
              let chk := s.targetCheck c tg
              if chk ≠ 0 then
                s.replayFail c r 2 tg.2.1 (faultInfo chk 0 x.i q 0 true (if isBar k then 4 else 3))
              else
                let pa := s.targetPa c tg
                let y := { y with tgt := BitVec.ofNat 64 pa }
                if isBar k && s.poisoned pa 16 then s.replayHw c 0x23 0 tg.2.1
                else if isBar k then
                  let s := s.drainOver (s.seqrId c) 7 (nibsOf pa (List.replicate 16 0))
                  let b := s.bar pa
                  ((s.barStep pa none (b.raise k.dir)).newRegion (s.seqrId c)).pushReplay c q { y with gen := b.gen }
                else s.pushReplay c q y

/-! ## REPLAY_DRAINED (R300, R301) -/

/-- The oldest stop of the sequencer's queues, a fault before a conflict. -/
def Core.seqStop (k : Core) : Option EngRec :=
  let l := k.seqq.toList.filterMap Queue.stopped
  let pick (c : Bool) : Option EngRec := (l.filter (fun r => r.conflict == c)).foldl
    (fun (a : Option EngRec) r => match a with
      | none => some r
      | some b => if r.order < b.order then some r else some b) none
  match pick false with
  | some r => some r
  | none => pick true

/-- COMMIT: steps 3 to 6 of ADONE for a replay whose commands are complete and whose accesses stand where its end needs
them. -/
def State.replayEnds (s : State) (c : Nat) (r : Replay) : State :=
  let re := match s.cls? r.part r.ekey.cls with
    | some d => cdRestartable d
    | none => false
  let fin (s : State) : State :=
    let s := (s.jobOut r.part r.msg.job 1).hostDone r.msg 0 0
    let s := s.updCore c (fun k => { k with replay := none })
    { s with notices := s.notices ++ [(⟨.runEnded r.retire r.export_, r.ekey⟩ : Notice)] }
  let held (s : State) : State := match r.thr with
    | some t => s.releaseHeld t r.uid
    | none => s
  if !re then fin s
  else
    match s.entry? r.ekey with
    | some e =>
      match s.blockCheck e e.desc .write with
      | (s, .ok segs) =>
        match s.writeBlock e segs false with
        | (s, true) => fin (held s)
        | (s, false) => s
      | (s, .away) | (s, .room) => s
      | (s, .bad a) =>
        let s := s.dropReplay c
        { s with notices := s.notices ++ [(⟨.commitFailed a, r.ekey⟩ : Notice)] }
    | none => fin (held s)
/-- The same, while they may have to climb yet. -/
def State.replayCommit (s : State) (c : Nat) (r : Replay) : State :=
  match s.upTo (s.seqrId c) s.serial (endLevel .handler r.msg) with
  | (s, false) => s
  | (s, true) => s.replayEnds c r

/-- R300: DRAIN's end: every issued command is complete, or a queue has stopped. -/
def State.replayDrained (s : State) (c : Nat) : State :=
  let k := s.core c
  match k.replay with
  | none => s
  | some r =>
    let full := k.seqq.toList.any (fun q => decide (32 ≤ q.cmds.length))
    if r.next < r.tape.recs.length ∧ !full then s
    else
      match k.seqStop with
      | some x => s.replayFail c r (if x.conflict then 3 else 2) x.c4 x.c5
      | none =>
        if r.next < r.tape.recs.length ∨ k.seqq.toList.any (fun q => !q.cmds.isEmpty) then s
        else s.replayCommit c r

/-! ## The device's steps -/

/-- REPLAY_TAKE. -/
def execReplayTake (c : Nat) (s : State) : Host.Outcome State Fault Refusal :=
  eventAt (decide (c < nCores)) (s.replayTake c)
/-- REPLAY_ISSUE. -/
def execReplayIssue (c : Nat) (s : State) : Host.Outcome State Fault Refusal :=
  eventAt (decide (c < nCores)) (s.replayIssue c)
/-- REPLAY_DRAINED. -/
def execReplayDrained (c : Nat) (s : State) : Host.Outcome State Fault Refusal :=
  eventAt (decide (c < nCores)) (s.replayDrained c)

end Sys2Proof.Machine
end

