-- ==== Sys2Proof/Machine/Wakes.lean ====
section
/-! DEFINITION. The steps of the ordering machine (R114-R117), and the steps that end waits (R128, R172, R195,
R200, R203, R269, R271, R276, R278, R295). -/

namespace Sys2Proof.Machine

/-! ## The ordering machine -/

/-- Does the build have an agent? -/
def agentOk : Agent → Bool
  | .thread t => decide (t < nThreads)
  | .seqr c => decide (c < nCores)
  | .queue t q => decide (t < nThreads) && decide (q < 4)
  | .quill j => decide (j < nClusters)
  | .brush k => decide (k < nChips)
  | .port p => decide (p < 2)

/-- A port returns a host's read (R134). -/
def State.hostReply (s : State) (p tag : Nat) (x : HostAns) : State :=
  let k := s.port p
  s.setPort p { k with replies := k.replies ++ [(tag, x)] }

/-- The value that a load has taken reaches its place. -/
def State.loadTo (s : State) (ag : Agent) (d : LDst) (bs : List Byte) : State :=
  match ag, d with
  | .thread t, .s r o => s.updThr t (fun h => h.ws r (putBytes (h.rs r) o bs))
  | .thread t, .v n i => s.updThr t (fun h =>
      h.wv n (loadLanes (h.rv n) [(i, bs)]))
  | .port p, .port tag => s.hostReply p tag (.data bs)
  | _, _ => s

/-- R134: a port's strictly ordered writes before load `no` have entered the package holding point. -/
def State.portReady (s : State) (ag : Agent) (no : Nat) : State × Bool :=
  match ag with
  | .port _ =>
    let id := agentId s.pkg ag
    let s := s.drain id 6
    let strict (st : SbStore) : Bool := st.tag.rel.isSome && decide (st.id < no)
    (s, !((s.agent id).iq.any (fun e => match e with
      | .store st => strict st
      | .load .. | .atom .. | .peer .. | .got .. => false) || (s.agent id).sb.any strict))
  | _ => (s, true)

/-- Does a load of n bytes left in an agent's queue read poison: a poisoned sector of which no cache on its path has a
copy (R348)? -/
def State.poisonHit (s : State) (id : BitVec 32) (tag : Option CTag) (pa n : Nat) : Bool :=
  s.poison.any (fun a => decide (a < pa + n) && decide (pa < a + 48) && !s.cached id tag (max a pa))

/-- R114: a load that nothing holds back is performed. A thread's fills the caches (R340); one that meets an
uncorrectable error gets no data, and the thread's unit fails (R348, R386). -/
def State.takeLoad (s : State) (ag : Agent) (d : LDst) (va : Word) (pa len : Nat) (tag : Option CTag) : State :=
  let id := agentId s.pkg ag
  match ag with
  | .thread t =>
    match s.arrPoison ⟨va.toNat, .mem pa 0, len⟩ with
    | some (sub, o) => s.hwErr t 0x22 sub (BitVec.ofNat 64 o)
    | none =>
      if s.poisonHit id tag pa len then s.hwErr t 0x23 0 va
      else
        let s := s.fillRun id tag pa len
        s.loadTo ag d (s.loadBytes id tag pa len)
  | .port p =>
    match d with
    | .port n => if s.poisoned pa len then s.hostReply p n .abort else s.loadTo ag d (s.loadBytes id none pa len)
    | .s .. | .v .. | .p _ => s
  | _ => s.loadTo ag d (s.loadBytes id tag pa len)

/-- Does the unit that issued access `no` still run on thread t? -/
def State.unitOf (s : State) (t no : Nat) : Bool :=
  match (s.thr t).unit with
  | some u => decide (u.uid ≤ no)
  | none => false

/-- R120: an atomic left in a thread's queue is performed, once the stores that it must follow have let it: its release,
as R119 asks, and its unit's poison, result and flags. -/
def State.takeAtom (s : State) (t no : Nat) (d : LDst) (va : Word) (pa n : Nat) (rel : Option Nat) (op : AtomOp)
    (iq : List IqEntry) : State :=
  let id := agentId s.pkg (.thread t)
  let mine := s.unitOf t no
  let s1 := match rel with
    | some r => s.raiseAll r (s.below id r (fun x => decide (x < no)))
    | none => s
  if (match rel with
    | some r => !s1.olderAbove id none no r
    | none => false) then s1
  else if s1.poisoned pa n then
    let s2 := s1.setAgent id { s1.agent id with iq }
    if mine then s2.hwErr t 0x23 0 va else s2
  else
    match s1.atomStep id pa n op with
    | (s2, none) => s2
    | (s2, some old) =>
      let s2 := s2.setAgent id { s2.agent id with iq }
      if mine then s2.updThr t (fun h => h.atomDone d n old op) else s2

/-- R114, R120: perform load or atomic n of an issue queue. No older access there may overlap it, nor an older byte of
the same unaligned access wait (R183). -/
def State.performLoad (s : State) (ag : Agent) (n : Nat) : State :=
  let id := agentId s.pkg ag
  let iq := (s.agent id).iq
  let before := iq.take n
  match iq[n]? with
  | some (.load no grp d va pa len tag) =>
    let sooner := grp != 0 && before.any (fun e => match e with
      | .load _ g _ _ _ _ _ => g == grp
      | .store .. | .atom .. | .peer .. | .got .. => false)
    let (s, ready) := s.portReady ag no
    if iqOverlap before (nibsOf pa (List.replicate len 0)) || sooner || !ready then s
    else (s.setAgent id { s.agent id with iq := ldel iq n }).takeLoad ag d va pa len tag
  | some (.atom no d va pa len rel op) =>
    if iqOverlap before (nibsOf pa (List.replicate len 0)) then s
    else
      match ag with
      | .thread t => s.takeAtom t no d va pa len rel op (ldel iq n)
      | _ => s
  | some (.store _) | some (.peer ..) | some (.got ..) | none => s

/-- R115: store n of an issue queue enters the store buffer, once every load before it has been performed; older stores
to what it writes go first, and the lower bytes of the same unaligned access (R183). -/
def State.issueStore (s : State) (ag : Agent) (n : Nat) : State :=
  let id := agentId s.pkg ag
  let a := s.agent id
  match a.iq[n]? with
  | some (.store st) =>
    let before := a.iq.take n
    let sooner (e : IqEntry) : Bool := match e with
      | .store x => st.tag.grp != 0 && x.tag.grp == st.tag.grp
      | .load .. | .atom .. | .peer .. => true
      | .got .. => false
    if before.any sooner || iqOverlap before st.nibs then s
    else (s.setAgent id { a with iq := ldel a.iq n }).bufferSt id st
  | some (.load ..) | some (.atom ..) | some (.peer ..) | some (.got ..) | none => s

/-- PERFORM_LOAD: a load, or an atomic, which loads and stores in one step. -/
def execPerformLoad (ag : Agent) (n : Nat) (s : State) : Host.Outcome State Fault Refusal :=
  eventAt (agentOk ag) (s.performLoad ag n)
/-- ISSUE_STORE. -/
def execIssueStore (ag : Agent) (n : Nat) (s : State) : Host.Outcome State Fault Refusal :=
  eventAt (agentOk ag) (s.issueStore ag n)
/-- STORE_LEAVE_BUFFER (R116). -/
def execStoreLeaveBuffer (ag : Agent) (id : Nat) (s : State) : Host.Outcome State Fault Refusal :=
  eventAt (agentOk ag) (s.leave (agentId s.pkg ag) id)
/-- STORE_CLIMB (R116). -/
def execStoreClimb (id lvl : Nat) (s : State) : Host.Outcome State Fault Refusal := event (s.climb id lvl)
/-- DISCARD_SETTLED (R117). -/
def execDiscardSettled (lvl inst loc : Nat) (s : State) : Host.Outcome State Fault Refusal :=
  event (s.discard lvl inst loc)

/-! ## Waits that end -/

/-- What looking again comes to: the wait ends with the instruction, or goes on. -/
def State.wake (s : State) (t : Nat) (i : Instr) (e : Eff) : State :=
  let clear (s : State) : State := s.updThr t (fun h => { h with waiting := none })
  match e with
  | .done s' => ((clear s').recAfter t i (s.thr t).recording.isSome).complete t 12
  | .jump s' pc => (clear s').jumpTo t pc
  | .trap s' cause sub c4 c5 next => s.trapFrom (clear s') t cause sub c4 c5 next
  | .wait s' w => s'.updThr t (fun h => { h with waiting := some w })
  | .stall s' => s'
  | .ended s' => s'

/-- A wake of a thread that waits, unless its watchdog has expired (R373). -/
def State.wakeIf (s : State) (t : Nat) (f : Wait → Option (Instr × Eff)) : State :=
  match (s.thr t).waiting with
  | none => s
  | some w =>
    if s.overdue t then s
    else
      match f w with
      | some (i, e) => s.wake t i e
      | none => s

def threadOk (t : Nat) : Bool := decide (t < nThreads)

/-- WAITC_RETURN (R128). -/
def execWaitcReturn (t : Nat) (s : State) : Host.Outcome State Fault Refusal :=
  eventAt (threadOk t) (s.wakeIf t (fun w => match w with
    | .waitc lims => some (.waitc Hdr.plain lims, s.waitcTry t lims)
    | _ => none))

/-- WAITA_WAKE (R195). -/
def execWaitaWake (t : Nat) (s : State) : Host.Outcome State Fault Refusal :=
  eventAt (threadOk t) (s.wakeIf t (fun w => match w with
    | .waita d ea sp_ w4 acq sc cond b => some (.nop Hdr.plain, s.waitaTry t d ea sp_ w4 acq sc cond b)
    | _ => none))

/-- BARW_WAKE (R200). -/
def execBarwWake (t : Nat) (s : State) : Host.Outcome State Fault Refusal :=
  eventAt (threadOk t) (s.wakeIf t (fun w => match w with
    | .barw d ea sp_ sc g => some (.nop Hdr.plain, s.barwTry t d ea sp_ sc g)
    | _ => none))

/-- JOIN_WAKE (R276). -/
def execJoinWake (t : Nat) (s : State) : Host.Outcome State Fault Refusal :=
  eventAt (threadOk t) (s.wakeIf t (fun w => match w with
    | .join ea pa => some (.nop Hdr.plain, s.joinTry t ea pa)
    | _ => none))

/-- FRD_RETRY (R278). -/
def execFrdRetry (t : Nat) (s : State) : Host.Outcome State Fault Refusal :=
  eventAt (threadOk t) (s.wakeIf t (fun w => match w with
    | .frd d a sc sp_ => some (.nop Hdr.plain, s.frdTry t d a sc sp_)
    | _ => none))

/-- SLEEP_EXPIRE (R172). -/
def execSleepExpire (t : Nat) (s : State) : Host.Outcome State Fault Refusal :=
  eventAt (threadOk t) (s.wakeIf t (fun w => match w with
    | .sleep until_ => if until_ ≤ s.time (coreOf t) then some (.nop Hdr.plain, .done s) else none
    | _ => none))

/-- ADONE_DRAINED (R269). -/
def execAdoneDrained (t : Nat) (s : State) : Host.Outcome State Fault Refusal :=
  eventAt (threadOk t) (s.wakeIf t (fun w => match w with
    | .adone => some (.nop Hdr.plain, s.adoneTry t)
    | _ => none))

/-- RFCHK_WAIT_END (R203). -/
def execRfchkWaitEnd (t : Nat) (s : State) : Host.Outcome State Fault Refusal :=
  eventAt (threadOk t) (s.wakeIf t (fun w => match w with
    | .rfchk d =>
      if s.peerStoresLeft (s.tid t) then none else some (.rfchk Hdr.plain d true, s.rfchkEnd t d)
    | _ => none))

/-- R271: the answer to a thread's offer. -/
def State.exportAnswer (s : State) (t : Nat) (accepted : Bool) : State :=
  s.wakeIf t (fun w => match w with
    | .aexport d dst =>
      let s := if accepted then s.updUnit t (fun u => { u with export_ := some dst.toNat }) else s
      some (.nop Hdr.plain, .done (s.updThr t (fun th => th.wp d !accepted)))
    | _ => none)

/-- EXPORT_ANSWER (R271). -/
def execExportAnswer (t : Nat) (accepted : Bool) (s : State) : Host.Outcome State Fault Refusal :=
  eventAt (threadOk t) (s.exportAnswer t accepted)

/-- TPLAY_DRAINED (R295). -/
def execTplayDrained (t : Nat) (s : State) : Host.Outcome State Fault Refusal :=
  eventAt (threadOk t) (s.wakeIf t (fun w => match w with
    | .tplay d var => some (.nop Hdr.plain, s.tplayTry t d var)
    | _ => none))

end Sys2Proof.Machine
end

