-- ==== Sys2Proof/Machine/Messages.lean ====
section
/-! DEFINITION. Answers of peers, and messages on their way: arrival at a slice, answers to the sender, and
resends (R131, R133, R268, R311, R321, R322, R402, R433). -/

namespace Sys2Proof.Machine

/-! ## Peers -/

/-- What a peer answered reaches the agent: a refused store its record, anything else the access that waits. -/
def State.peerDone (s : State) (o : Outst) (ans : PeerAns) : State :=
  let s := { s with outst := s.outst.erase o }
  if o.store then
    match ans with
    | .refuse r => s.refuse o.ag o.of.cmd o.va (BitVec.ofNat 9 o.dpkg) r
    | .ack | .reply _ => s
  else
    let a := s.agent o.ag
    s.setAgent o.ag { a with iq := a.iq.map (fun (e : IqEntry) => match e with
      | .peer va pa n tag => if tag = o.tag then .got va pa n ans else e
      | .load .. | .store .. | .atom .. | .got .. => e) }

/-- The oldest request that awaits an answer under a tag. -/
def State.outst? (s : State) (tag : Nat) : Option Outst := s.outst.find? (fun o => o.tag == tag)

/-- The answer to an offer reaches the run that made it (R271). -/
def State.exportReply (s : State) (k : AKey) (accepted : Bool) : State :=
  match s.threads.find? (fun e => match e.2.waiting, e.2.unit with
      | some (.aexport ..), some u => u.ekey == k
      | _, _ => false) with
  | some (t, _) => s.exportAnswer t accepted
  | none => s

/-- The answer to a flit. -/
def State.reply (s : State) (f : Flit) (typ : BitVec 6) (reason : BitVec 4) (data : List Byte) : State :=
  (s.emit { (default : Flit) with
    sagent := (s.pkg : BitVec 9) ++ (0 : BitVec 23), dpkg := idPkg f.sagent, part := f.part, vl := 1, typ, reason,
    tag := f.tag, addr := f.addr, data }).1

/-- R400: a flit with no path is answered at once as a refusal with reason 4, to this package's own agent or to the
package that sent it. -/
def State.noPath (s : State) (f : Flit) : State :=
  let own := idPkg f.sagent == s.pkg
  match f.typ.toNat with
  | 1 | 2 | 3 =>
    if own then
      match s.outst? f.tag.toNat with
      | some o => s.peerDone o (.refuse 4)
      | none => s
    else s.reply f 0x06 4 []
  | 8 =>
    if f.msgs.isEmpty then s
    else if own then { s with answers := s.answers ++ f.msgs.map (fun m => ⟨m, .refuse 4, f.dpkg⟩) }
    else (s.emit { (default : Flit) with
      sagent := (s.pkg : BitVec 9) ++ (0 : BitVec 23), dpkg := idPkg f.sagent, part := f.part, vl := 1,
      typ := 0x0A, reason := 4, msgs := f.msgs, home := f.dpkg }).1
  | 0x13 =>
    if own then s.exportReply f.key false
    else (s.emit { (default : Flit) with
      sagent := (s.pkg : BitVec 9) ++ (0 : BitVec 23), dpkg := idPkg f.sagent, part := f.part, vl := 3,
      typ := 0x14, reason := 4, key := f.key }).1
  | _ => s

/-- R400: flits that have waited for those sent before a write of their route leave once these are answered or have
timed out. -/
def State.routeFlush (s : State) : State :=
  if s.rhold.isEmpty then s
  else
    let s := { s with rhold := s.rhold.filter s.holds? }
    let held (f : Flit) : Bool := s.routeHeld f.dpkg.toNat f.vl
    ((s.rwait.filter (fun f => !held f)).foldl (fun (s : State) f => match s.pass f with
      | (s, true) => s
      | (s, false) => s.noPath f) { s with rwait := s.rwait.filter held }).markLeft

/-- R131, R133: an answer arrives; one that nothing awaits changes nothing here. -/
def State.peerAnswer (s : State) (tag : Nat) (ans : PeerAns) : State :=
  match s.outst? tag with
  | some o => (s.peerDone o ans).routeFlush
  | none => s

/-- R402: no answer within 2^20 mesh cycles from when the flit left is a refusal with reason 4. -/
def State.answerTimeout (s : State) (tag : Nat) : State :=
  match s.outst? tag with
  | some o =>
    if o.left.any (fun n => decide (n + 2 ^ 20 ≤ s.mesh)) then (s.peerDone o (.refuse 4)).routeFlush else s
  | none => s

/-- PEER_ANSWER. -/
def execPeerAnswer (tag : Nat) (ans : PeerAns) (s : State) : Host.Outcome State Fault Refusal :=
  event (s.peerAnswer tag ans)
/-- ANSWER_TIMEOUT. -/
def execAnswerTimeout (tag : Nat) (s : State) : Host.Outcome State Fault Refusal :=
  event (s.answerTimeout tag)

/-! ## Arrival (R311) -/

/-- A message reaches its slice in its turn there. An actor that moves away may then have received all that its home has
forwarded (R326). -/
def State.arriveOne (s : State) (f : Flight) : State :=
  s.sliceDo f.slice (.message f.msg) (fun s =>
    ({ s with flights := s.flights.erase f }.arrive_ f.slice f.msg).trySend f.msg.akey)
/-- Message n on its way reaches its slice: of one sender and interface, in the order sent. Those that one release of
packets has sent to a slice travel on one path and reach it together (R410). -/
def State.messageArrival (s : State) (n : Nat) : State :=
  match s.flights[n]? with
  | none => s
  | some f =>
    if (s.flights.take n).any (fun g => g.slice == f.slice && g.msg.sender == f.msg.sender &&
        (g.msg.ifn == f.msg.ifn || f.batch != 0)) then s
    else if f.batch = 0 then s.arriveOne f
    else (s.flights.filter (fun g => g.slice == f.slice && g.batch == f.batch)).foldl
      (fun (s : State) g => s.arriveOne g) s

/-- MESSAGE_ARRIVAL. -/
def execMessageArrival (n : Nat) (s : State) : Host.Outcome State Fault Refusal := event (s.messageArrival n)

/-! ## Answers at the sender (R268, R433) -/

/-- A refusal that no unit reports (R268, R411). -/
def State.refusedRec (s : State) (m : Msg) (reason : BitVec 8) : State :=
  let t := idThread m.sender
  let base : ERec :=
    if m.host then default
    else
      match (s.thr t).unit with
      | some u => if u.uid = m.uid then s.threadRec t 0 0 else default
      | none => default
  s.putRecord (some m.part) { base with
    cause := 0x29, sub := reason.toNat, part := m.part, agent := m.sender, info0 := m.key,
    info1 := (headerOf m).extractLsb' 0 64, job := m.job, sel := m.sel, cls := m.cls }

/-- A refusal reaches the sender. -/
def State.refused (s : State) (m : Msg) (home : BitVec 9) (reason : BitVec 8) : State :=
  if m.host then
    if m.irq then s.hostDone m 2 reason else s.refusedRec m reason
  else
    match (s.thr (idThread m.sender)).unit with
    | some u =>
      if u.uid = m.uid ∧ !u.step3 then s.refuse m.sender none m.key home reason else s.refusedRec m reason
    | none => s.refusedRec m reason

/-- What an answer makes of an outbound entry: nothing left, or the message parked. -/
def answered_ (now : Nat) (a : Answer) (o : OutMsg) : Option OutMsg :=
  match a with
  | .retry => some { o with st := .parked now }
  | .accept | .refuse _ => none

/-- Is an outbound entry the one that an answer is for? -/
def OutMsg.is (o : OutMsg) (m : Msg) : Bool := o.st == .sent && o.msg.seq == m.seq && o.msg.akey == m.akey

/-- A message of another package's slice is counted here no more once it is answered (R284). -/
def State.uncount (s : State) (o : OutMsg) (a : Answer) : State :=
  match a with
  | .retry => s
  | .accept | .refuse _ => if o.pkg = s.pkg then s else s.jobOut o.msg.part o.msg.job 1

/-- The answer to a message of thread t. -/
def State.answerThread (s : State) (t : Nat) (m : Msg) (a : Answer) : State :=
  match (s.thr t).outq.find? (fun o => o.is m) with
  | none => s
  | some o =>
    let s := s.updThr t (fun h => { h with
      outq := h.outq.filterMap (fun x => if x = o then answered_ s.mesh a x else some x) })
    (s.uncount o a).pump t

/-- The answer to a message of a port: its packet's entry is freed, and counted, but for a RETRY (R411). -/
def State.answerPort (s : State) (p : Nat) (m : Msg) (a : Answer) : State :=
  let n := m.ifn.toNat
  let f := tget Iface.init (s.port p).ifs n
  match f.buf.find? (fun b => b.out.is m) with
  | none => s
  | some b =>
    let q := s.port p
    let f := match answered_ s.mesh a b.out with
      | some o => { f with buf := f.buf.map (fun (x : BufPkt) => if x = b then { x with st := o.st } else x) }
      | none => { f with
          buf := f.buf.erase b
          acc := BitVec.ofNat 64 ((f.acc.toNat + 1) % 2 ^ 32) }
    let s := s.setPort p { q with ifs := tset q.ifs n f }
    (s.uncount b.out a).pumpIf p n

/-- The answer to a message that this package's slice forwarded (R433). -/
def State.answerFwd (s : State) (e : Entry) (f : Msg) (a : Answer) : State :=
  let e := { e with fwd := e.fwd.erase f }
  match a with
  | .retry =>
    let at_ := if e.resent then 0 else e.parked
    s.setEntry { e with
      pend := e.pend.take at_ ++ f :: e.pend.drop at_, parked := e.parked + 1, since := s.mesh, resent := false }
  | .accept => ((s.setEntry { e with resent := false }).jobOut f.part f.job 1).forwardAll e.key
  | .refuse r => ((s.setEntry { e with resent := false }).lateRefuse e.home f r).forwardAll e.key

/-- The forwarded message of an entry that an answer is for. -/
def State.fwd? (s : State) (m : Msg) : Option (Entry × Msg) :=
  if m.fwd && m.via == s.pkg then
    match s.entry? m.akey with
    | some e => (e.fwd.find? (fun f => f.sender == m.sender && f.ifn == m.ifn && f.seq == m.seq)).map (fun f => (e, f))
    | none => none
  else none

/-- An answer reaches the sender. -/
def State.takeAnswer (s : State) (x : AnsFlight) : State :=
  match s.fwd? x.msg with
  | some (e, f) => s.answerFwd e f x.ans
  | none =>
    let m := x.msg
    let (s, home) : State × BitVec 9 :=
      if m.host then (s.answerPort (m.sender.extractLsb' 0 6).toNat m x.ans, x.home)
      else
        let t := idThread m.sender
        let home := match (s.thr t).outq.find? (fun o => o.is m) with
          | some o => o.pkg
          | none => x.home
        (s.answerThread t m x.ans, home)
    match x.ans with
    | .refuse r => s.refused m home r
    | .accept | .retry => s

/-- Answer n on its way arrives: those to one sender and interface in the order given. -/
def State.messageAnswer (s : State) (n : Nat) : State :=
  match s.answers[n]? with
  | none => s
  | some x =>
    if (s.answers.take n).any (fun y => y.msg.sender == x.msg.sender && y.msg.ifn == x.msg.ifn) then s
    else ({ s with answers := ldel s.answers n }.takeAnswer x).routeFlush

/-- MESSAGE_ANSWER. -/
def execMessageAnswer (n : Nat) (s : State) : Host.Outcome State Fault Refusal := event (s.messageAnswer n)

/-! ## Resends (R321, R322, R433) -/

/-- Mesh cycles between a RETRY and the resend. -/
def State.backoff (s : State) (p : Nat) (c : BitVec 16) : Nat :=
  match s.cls? p c with
  | some d => 16 * max 1 (cdBackoff d)
  | none => 16

/-- May message n of a queue be sent again? -/
def State.mayResend (s : State) (l : List OutMsg) (n : Nat) : Option OutMsg :=
  match l[n]? with
  | none => none
  | some o =>
    match o.st with
    | .parked at_ =>
      let older := (l.take n).any (fun x => x.msg.akey == o.msg.akey && (match x.st with
        | .parked _ => true
        | .held | .waiting | .sent => false))
      if at_ + s.backoff o.msg.part o.msg.cls ≤ s.mesh ∧ !older then some o else none
    | .held | .waiting | .sent => none

/-- Thread t sends message n of its queue again. -/
def State.resendThread (s : State) (t n : Nat) : State :=
  match s.mayResend (s.thr t).outq n with
  | none => s
  | some o =>
    let m := { o.msg with rt := true }
    match s.sendMsg m o.pkg o.slice with
    | (_, false) => s
    | (s', true) =>
      (s'.updThr t (fun h => { h with outq := lset h.outq n { o with msg := m, st := .sent } })).pump t

/-- A port sends packet k of interface n again. -/
def State.resendPort (s : State) (p n k : Nat) : State :=
  let f := tget Iface.init (s.port p).ifs n
  match s.mayResend (f.buf.map BufPkt.out) k, f.buf[k]? with
  | some o, some b =>
    let m := { o.msg with rt := true }
    match s.sendMsg m o.pkg o.slice with
    | (_, false) => s
    | (s', true) =>
      let q := s'.port p
      (s'.setPort p { q with ifs := tset q.ifs n { f with buf := lset f.buf k { b with msg := m, st := .sent } } }).pumpIf p n
  | _, _ => s

/-- A queue whose messages had to wait for their senders' accesses goes on (R123). -/
def State.forwardLate (s : State) (k : AKey) : State :=
  let r := (s.touch k).forwardAll k
  if r.entry? k = (s.touch k).entry? k then s else r

/-- The home slice of a key forwards the head of its queue again, or goes on with a queue whose messages had to wait. -/
def State.resendSlice (s : State) (k : AKey) : State :=
  match s.entry? k with
  | none => s
  | some e =>
    match e.pend with
    | [] => s
    | m :: rest =>
      if e.st ≠ .forward ∨ e.busy ∨ e.resent ∨ s.isFrozen k.part k.cls then s
      else if e.parked = 0 then s.forwardLate k
      else if !e.fwd.isEmpty ∨ s.mesh < e.since + s.backoff k.part k.cls then s
      else
        let old := s
        let s := (s.touch k).updEntry k (fun e => { e with pend := rest, parked := e.parked - 1, resent := true })
        match s.forward k { m with rt := true } with
        | (_, false) => old
        | (s, true) =>
          -- with no path it has been refused
          match s.entry? k with
          | some e => if e.fwd.isEmpty then (s.setEntry { e with resent := false }).forwardAll k else s
          | none => s

/-- Message n of a sender, or the head of a slice's queue, is sent again; a port's messages are numbered
64 × index + interface. -/
def State.retryResend (s : State) (who : Resender) (n : Nat) : State :=
  match who with
  | .agent (.thread t) => s.resendThread t n
  | .agent (.port p) => s.resendPort p (n % 64) (n / 64)
  | .agent _ => s
  | .slice k => s.resendSlice k

/-- RETRY_RESEND. -/
def execRetryResend (who : Resender) (n : Nat) (s : State) : Host.Outcome State Fault Refusal :=
  eventAt (match who with
    | .agent a => agentOk a
    | .slice _ => true) (s.retryResend who n)

end Sys2Proof.Machine
end

