-- ==== Sys2Proof/Machine/Lifecycle.lean ====
section
/-! DEFINITION. The life of an actor at its slice: activation, the ends of its runs, retirement, moves between
packages (R313-R330, R363, R376, R424, R428). -/

namespace Sys2Proof.Machine

/-! ## Activation (R319, R320, R428) -/

/-- The check of a state block by its slice, which starts page requests and joins none (R354). -/
def State.stateCheck (s : State) (e : Entry) (d : BitVec 768) (acc : Acc) : State × Block :=
  let old := s.pagereq
  let (s, b) := { s with pagereq := old.filter (fun q => decide (q.1 < answered)) }.blockCheck e d acc
  let new := s.pagereq.map (fun (q : Nat × PageReq) => match old.find? (fun o => o.1 == q.1) with
    | some o => o
    | none => (q.1, { q.2 with joined := [] }))
  ({ s with pagereq := new ++ old.filter (fun q => decide (answered ≤ q.1)) }, b)

/-- Does the state block of an entry lie on a page of a request? -/
def Entry.onReq (e : Entry) (d : BitVec 768) (q : PageReq) : Bool :=
  let a := (blockAddr d e.key.key).toNat
  q.part == e.key.part && q.asid == e.asid && decide (a / 49152 ≤ q.page) &&
    decide (q.page ≤ (a + 192 * cdLines d - 1) / 49152)
/-- A request for a page of its state block is outstanding. -/
def State.pageAsked (s : State) (e : Entry) (d : BitVec 768) : Bool :=
  s.pagereq.any (fun q => decide (q.1 < answered) && e.onReq d q.2)

/-- What an activation's fetch finds: sectors carried from another package go to the block first. -/
def State.fetchCheck (s : State) (e : Entry) (d : BitVec 768) : State × Block :=
  if e.carry.isEmpty then s.stateCheck e d .read
  else
    match s.stateCheck e d .write with
    | (s, .ok segs) =>
      let (s, left) := s.putSectors e segs e.carry
      let e' := { e with carry := left }
      if left.isEmpty then (s.setEntry e').stateCheck e' d .read else (s.setEntry e', .room)
    | r => r

/-- The actor that came from another package is acknowledged to it (R326). -/
def State.ackMove (s : State) (e : Entry) : State :=
  match e.src with
  | none => s
  | some src => (s.emit { (default : Flit) with
      sagent := (s.pkg : BitVec 9) ++ (0 : BitVec 23), dpkg := BitVec.ofNat 9 src,
      part := BitVec.ofNat 7 e.key.part, vl := 1, typ := 0x05, data := [1], key := e.key }).1

/-! ## Retirement and moves (R317, R319, R326) -/

/-- An entry becomes RETIRING: towards another package where `dest` names one, and without write-back where
`noWb` says so. Its core is recorded (R315); RDC stays that of the message at the head of its queue. -/
def State.retire (s : State) (k : AKey) (dest : Option Nat) (noWb : Bool) : State :=
  match s.entry? k with
  | none => s
  | some e =>
    let s := s.setEntry { e with
      st := .retiring, busy := false, cur := none, wait := .fetch, dest, noWb,
      acked := e.home == s.pkg, sent := false }
    let s := s.stickyPut k e.core
    match dest with
    | none => s
    | some _ =>
      if e.home = s.pkg then s.trySend k
      else (s.emit { (default : Flit) with
        sagent := (s.pkg : BitVec 9) ++ (0 : BitVec 23), dpkg := e.home, part := BitVec.ofNat 7 k.part,
        vl := 3, typ := 0x10, key := k }).1

/-- The pending messages of an activation that is done are answered ACCEPT, in order (R433). -/
def State.acceptPend (s : State) (e : Entry) : State :=
  if e.prov then e.pend.foldl (fun (s : State) m => s.answer m .accept) s else s

/-- Is an entry's cluster switching its partition out (R376)? -/
def State.leaving (s : State) (e : Entry) : Bool := (s.clus (clusOfCore e.core)).switching

/-- R311: a notice from an entry's core, of a kind in the rule's order, is applied at the entry's slice. The notices
that the list does not name go with those like them: the other outcomes of an activation with activation done, a failed
run with run ended, a failed write-back or commit with write-back done (log 53). -/
def State.coreEvent (s : State) (e : Entry) (kind : Nat) (f : State → State) : State :=
  s.sliceDo e.key.slice (.notice kind (s.coreAgent e.core)) f
/-- R311: a notice from a slice of package p. -/
def State.peerEvent (s : State) (k : AKey) (p : Nat) (f : State → State) : State :=
  s.sliceDo k.slice (.notice 5 (BitVec.ofNat 9 p ++ (0 : BitVec 23))) f

/-- An idle actor: LIVE, no run in progress, nothing pending. -/
def Entry.isIdle (e : Entry) : Bool := e.st == .live && !e.busy && e.pend.isEmpty
/-- An entry delivers; one that is idle then on a cluster that switches out is retired (R376). -/
def State.deliverIdle (s : State) (k : AKey) : State :=
  let s := s.deliverAll k
  match s.entry? k with
  | some e => if e.isIdle && s.leaving e then s.retire k none false else s
  | none => s

/-- The activation of an entry is done: it is LIVE and delivers (R313). -/
def State.goLive (s : State) (e : Entry) (segs : List Seg) (ans : List PeerAns) : State :=
  ((((s.fetchBlock e segs ans).ackMove e).acceptPend e).setEntry { e with
    st := .live, busy := false, prov := false, src := none, carry := [], excl := none, idle := s.time e.core,
    ended := s.mesh }).deliverIdle e.key

/-- ACTIVATION_DONE: the block is in the frame; the entry is LIVE and delivers (R313). Parts of the block that another
package owns are asked for first; one that is refused fails the entry (R315). -/
def State.activationDone (s : State) (k : AKey) : State :=
  match s.entry? k, s.cls? k.part k.cls with
  | some e, some d =>
    if e.st ≠ .activating ∨ e.wait ≠ .fetch then s
    else s.coreEvent e 0 (fun s =>
      match s.fetchCheck e d with
      | (s', .ok segs) =>
        let e := { e with carry := [] }
        match s'.blockPeers e segs with
        | (s', none) => s'
        | (s', some ans) =>
          match refusal ((s'.peerSegs segs).flatMap Seg.cut) ans with
          | some (g, _) => (s'.ackMove e).failEntry k 1 (BitVec.ofNat 64 g.va)
          | none => s'.goLive e segs ans
      | (s', .room) => s'
      | (_, .away) | (_, .bad _) => s)
  | _, _ => s

/-- STATE_PAGE_NOT_RESIDENT: the page request is started, the frame freed, and the activation abandoned or put
off (R320, R428). -/
def State.statePageNotResident (s : State) (k : AKey) : State :=
  match s.entry? k, s.cls? k.part k.cls with
  | some e, some d =>
    if e.st ≠ .activating ∨ e.wait ≠ .fetch then s
    else s.coreEvent e 0 (fun s =>
      match s.fetchCheck e d with
      | (s', .away) =>
        if !s'.pageAsked e d then s
        else
          let s' := s'.freeFrame e.core k
          if e.prov then (e.pend.foldl (fun (s : State) m => s.retryMsg m) s').delEntry k
          else s'.updEntry k (fun e => { e with wait := .page })
      | _ => s)
  | _, _ => s

/-- STATE_BLOCK_FAILED: the entry becomes FAILED, with sub-cause 5 where carried sectors cannot be written (R313, R315,
R319, R326). -/
def State.stateBlockFailed (s : State) (k : AKey) : State :=
  match s.entry? k, s.cls? k.part k.cls with
  | some e, some d =>
    if e.st ≠ .activating then s
    else s.coreEvent e 0 (fun s =>
      match e.wait with
      | .noCore => if cdPol d = 2 then (s.ackMove e).failEntry k 1 (blockAddr d k.key) else s
      | .fetch =>
        match s.fetchCheck e d with
        | (s', .bad a) =>
          let wr := (s'.entry? k).any (fun e => !e.carry.isEmpty)
          (s'.ackMove e).failEntry k (if wr then 5 else 1) a
        | _ => s
      | .room | .page | .carried | .switch => s)
  | _, _ => s

/-! ## The ends of runs (R311, R313, R328, R329) -/

/-- Take the first notice that satisfies a test. -/
def State.takeNotice (s : State) (f : Notice → Bool) : Option (State × Notice) :=
  match s.notices.find? f with
  | some n => some ({ s with notices := s.notices.erase n }, n)
  | none => none

/-- A notice that has been taken is applied at the slice of its key (R311). -/
def State.noticeDo (s s' : State) (k : AKey) (kind : Nat) (f : State → State) : State :=
  match s.entry? k with
  | some e => s.coreEvent e kind (fun x => f { x with notices := s'.notices })
  | none => s'

/-- The run's end at the slice (R313). -/
def State.endRun (s : State) (k : AKey) (retire : Bool) (export_ : Option Nat) : State :=
  match s.entry? k with
  | none => s
  | some e =>
    if e.st ≠ .live ∨ !e.busy then s
    else if retire || export_.isSome || s.leaving e then (s.setEntry { e with rdc := 0 }).retire k export_ false
    else (s.setEntry { e with
      busy := false, rdc := 0, cur := none, idle := s.time e.core, ended := s.mesh }).deliverAll k
/-- R424: a core has retired an actor for room in this mesh cycle; the end of another's run is taken in a later one. -/
def State.roomMade (s : State) (k : AKey) : Bool :=
  match s.entry? k with
  | some e => (s.core e.core).capAt == some s.mesh
  | none => false

/-- RUN_ENDED. -/
def State.runEnded (s : State) (k : AKey) : State :=
  match s.takeNotice (fun n => n.key == k && (match n.kind with
    | .runEnded .. => true
    | .hwError .. | .commitFailed _ | .runFailed .. => false)) with
  | some (s', ⟨.runEnded retire export_, _⟩) =>
    if s.roomMade k then s else s.noticeDo s' k 1 (fun s => s.endRun k retire export_)
  | _ => s

/-- The message of a run that failed is consumed (R329, R411). -/
def State.consumed (s : State) (k : AKey) : State :=
  match s.entry? k with
  | some e => (match e.cur with
    | some m => (s.jobOut m.part m.job 1).hostDone m 3 0
    | none => s)
  | none => s

/-- R328, R301: the message of the run stays at the head of the queue and is delivered again from a fresh
activation; a fourth redelivery fails the entry. -/
def State.redeliver (s : State) (k : AKey) (excl : Option Nat) (noReplay : Bool) : State :=
  match s.entry? k with
  | none => s
  | some e =>
    let head := e.cur.toList.map (fun m =>
      { (if m.slot < 8192 then m else s.slotted k.slice m) with rd := true })
    let e := { e with pend := head ++ e.pend }
    if 3 ≤ e.rdc then (s.setEntry e).failEntry k 2 0
    else
      let s := s.freeFrame e.core k
      (s.setEntry { e with busy := false, cur := none, rdc := e.rdc + 1, excl, noReplay }).activate k

/-- Is there a slot for the message of an entry's run, if it is to be delivered again? Else its notice waits (log 48). -/
def State.mayRedeliver (s : State) (k : AKey) : Bool := (s.entry? k).all s.slotFor

/-- HARDWARE_ERROR_NOTICE (R328, R393). -/
def State.hwNotice (s : State) (k : AKey) : State :=
  match s.takeNotice (fun n => n.key == k && (match n.kind with
    | .hwError .. => true
    | .runEnded .. | .commitFailed _ | .runFailed .. => false)) with
  | some (s', ⟨.hwError dual core, _⟩) =>
    if !s.mayRedeliver k then s
    else s.noticeDo s' k 3 (fun s =>
      match s.entry? k, s.cls? k.part k.cls with
      | some e, some d =>
        if e.st ≠ .live ∨ !e.busy then s
        else if cdRestartable d then s.redeliver k (some core) false
        else (s.consumed k).failEntry k (if dual then 4 else 3) 0
      | _, _ => s)
  | _ => s

/-- RUN_FAILED (R329, R301): a run of a class that is not RESTARTABLE ends as it would have. -/
def State.runFailed_ (s : State) (k : AKey) : State :=
  match s.takeNotice (fun n => n.key == k && (match n.kind with
    | .runFailed .. => true
    | .runEnded .. | .commitFailed _ | .hwError .. => false)) with
  | some (s', ⟨.runFailed again retire export_, _⟩) =>
    if (again && !s.mayRedeliver k) || s.roomMade k then s
    else s.noticeDo s' k 1 (fun s =>
      match s.entry? k, s.cls? k.part k.cls with
      | some e, some d =>
        if e.st ≠ .live ∨ !e.busy then s
        else if again then s.redeliver k none true
        else if cdRestartable d then ((s.consumed k).updEntry k (fun e => { e with rdc := 0 })).retire k none true
        else (s.consumed k).endRun k retire export_
      | _, _ => s)
  | _ => s

/-- An entry that has waited is looked up (R310), and delivers. -/
def State.deliverLate (s : State) (k : AKey) : State := (s.touch k).deliverIdle k

/-- ROOM_NOTICE: waiting entries deliver, in the order refused, while the core accepts (R363). -/
def State.roomNotice (s : State) (c : Nat) : State :=
  (s.core c).refused.foldl (fun (s : State) k =>
    if 64 ≤ (s.core c).places.length then s
    else s.sliceDo k.slice (.notice 4 (s.coreAgent c)) (fun s =>
      (s.updCore c (fun x => { x with refused := x.refused.erase k })).deliverLate k)) s

/-! ## Write-back (R313, R319) -/

/-- The frame of a retired entry is freed; with messages pending the entry activates again. -/
def State.retired (s : State) (k : AKey) : State :=
  match s.entry? k with
  | none => s
  | some e =>
    let s := s.freeFrame e.core k
    if e.pend.isEmpty then s.delEntry k else (s.setEntry { e with noWb := false }).activate k

/-- WRITE_BACK_DONE: the dirty sectors are in the state block; those that go to another package as there is room for
their answers (R398). A page that is not resident is asked for and waited for (R319). A move towards another package goes
on when nothing holds it back any more (R326). -/
def State.writeBackDone (s : State) (k : AKey) : State :=
  match s.entry? k with
  | some e =>
    if e.st ≠ .retiring then s
    else if e.dest.isSome then s.trySend k
    else s.coreEvent e 2 (fun s =>
      if e.noWb then s.retired k
      else if e.wait ≠ .fetch then s
      else
        match s.stateCheck e e.desc .write with
        | (s', .ok segs) =>
          match s'.writeBlock e segs true with
          | (s', true) => s'.retired k
          | (s', false) => s'
        | (s', .away) => if s'.pageAsked e e.desc then s'.setEntry { e with wait := .page } else s
        | (_, .bad _) | (_, .room) => s)
  | none => s

/-- WRITE_BACK_FAILED: of a retirement, or of the commit of a run (R319). -/
def State.writeBackFailed (s : State) (k : AKey) : State :=
  match s.takeNotice (fun n => n.key == k && (match n.kind with
    | .commitFailed _ => true
    | .runEnded .. | .hwError .. | .runFailed .. => false)) with
  | some (s', ⟨.commitFailed a, _⟩) => s.noticeDo s' k 2 (fun s => (s.consumed k).failEntry k 5 a)
  | _ =>
    match s.entry? k with
    | some e =>
      if e.st ≠ .retiring ∨ e.dest.isSome ∨ e.noWb ∨ e.wait ≠ .fetch then s
      else s.coreEvent e 2 (fun s =>
        match s.stateCheck e e.desc .write with
        | (s', .bad a) => s'.failEntry k 5 a
        | _ => s)
    | none => s

/-! ## Moves (R326) -/

/-- EXPORT_OFFER: the destination's slice answers an offer of a package. -/
def State.exportOffer (s : State) (k : AKey) (src : Nat) : State :=
  let reply (s : State) (no : Bool) : State := (s.emit { (default : Flit) with
    sagent := (s.pkg : BitVec 9) ++ (0 : BitVec 23), dpkg := BitVec.ofNat 9 src,
    part := BitVec.ofNat 7 k.part, vl := 3, typ := 0x14, reason := if no then 1 else 0, key := k }).1
  s.peerEvent k src (fun s =>
    let s := s.touch k
    match s.entry? k with
    | some e =>
      if e.st = .absent ∧ e.imp then
        reply (s.setEntry { e with
          st := .activating, imp := false, prov := false, wait := .carried, src := some src,
          asid := (s.part k.part).asidcur.extractLsb' 0 16 }) false
      else reply s true
    | none => reply s true)

/-- Does a message forwarded to a package still wait to leave on a link or for its lane (R398, R400)? -/
def State.laneWaits (s : State) (dst : Nat) : Bool :=
  let is (f : Flit) : Bool := f.vl == 2 && f.dpkg.toNat == dst
  s.rwait.any is || s.links.any (fun l => l.2.queue.any is)

/-- MOVING: the home entry holds later arrivals, and answers once every message that it has forwarded has left. -/
def State.moving (s : State) (k : AKey) (src : Nat) : State :=
  match s.entry? k with
  | some e =>
    if e.st = .forward ∧ e.fpkg.toNat = src then s.peerEvent k src (fun s =>
      let s := (s.touch k).updEntry k (fun e => { e with busy := true })
      if s.laneWaits src then s
      else (s.emit { (default : Flit) with
        sagent := (s.pkg : BitVec 9) ++ (0 : BitVec 23), dpkg := BitVec.ofNat 9 src,
        part := BitVec.ofNat 7 k.part, vl := 3, typ := 0x11, key := k }).1)
    else s
  | none => s

/-- MOVING_ACK: the source sends its state and its queue. -/
def State.movingAck (s : State) (k : AKey) : State :=
  match s.entry? k with
  | some e =>
    if e.st = .retiring ∧ e.dest.isSome then
      s.peerEvent k e.home.toNat (fun s => (s.setEntry { e with acked := true }).trySend k)
    else s
  | none => s

/-- The entry of a key that awaits a state from a package (R326). -/
def State.awaits? (s : State) (k : AKey) (src : Nat) : Option Entry :=
  (s.entry? k).filter (fun e => e.st == .activating && e.wait == .carried && e.src == some src)
/-- A carried message takes a slot, and is counted from here on (R284). -/
def State.cameIn (s : State) (k : AKey) (m : Msg) : State :=
  let m := { s.slotted k.slice m with via := s.pkg }
  (s.updEntry k (fun e => { e with came := e.came ++ [m] })).jobIn m.part m.job 1
/-- R326 step 5: all has come: the messages go ahead of the entry's own, and it activates. -/
def State.cameAll (s : State) (k : AKey) (home : Nat) : State :=
  (s.updEntry k (fun e => { e with
    pend := e.came ++ e.pend, came := [], home := BitVec.ofNat 9 home })).activate k

/-- CARRIED_STATE: the destination takes the state and the messages, which go ahead of its own, and activates; it waits
while its store has no slots for them (log 48). -/
def State.carried (s : State) (k : AKey) (src home : Nat) (secs : List (Nat × List Byte)) (msgs : List Msg) :
    State :=
  match s.awaits? k src with
  | some _ =>
    if 8192 < s.pendCount k.slice + msgs.length then s
    else s.peerEvent k src (fun s =>
      (msgs.foldl (fun (s : State) m => s.cameIn k m)
        (s.updEntry k (fun e => { e with carry := e.carry ++ secs }))).cameAll k home)
  | none => s
/-- A flit of a carried state (R326, R395): sectors, a message, the rest of its payload, or the end. -/
def State.carriedPart (s : State) (f : Flit) (src : Nat) : State :=
  match s.awaits? f.key src with
  | some _ => s.peerEvent f.key src (fun s =>
    match f.data with
    | 0 :: _ => s.updEntry f.key (fun e => { e with carry := e.carry ++ f.secs })
    | 1 :: _ => f.msgs.foldl (fun (s : State) m => s.cameIn f.key m) s
    | 2 :: more => s.updEntry f.key (fun e => { e with
        came := e.came.dropLast ++ (e.came.getLast?.toList.map (fun m => { m with payload := m.payload ++ more })) })
    | _ => s.cameAll f.key f.home.toNat)
  | none => s

/-- MOVE_DONE: the destination has acknowledged; the source forwards if it is home, and is free if not. -/
def State.moveDone (s : State) (k : AKey) : State :=
  match s.entry? k with
  | none => s
  | some e =>
    match e.dest with
    | none => s
    | some dst =>
      if e.st ≠ .retiring ∨ !e.sent then s
      else s.peerEvent k dst (fun s =>
        let s := s.freeFrame e.core k
        if e.home = s.pkg then
          (s.setEntry { e with
            st := .forward, busy := false, fpkg := BitVec.ofNat 9 dst, dest := none, acked := false,
            sent := false }).forwardAll k
        else
          ((s.delEntry k).emit { (default : Flit) with
            sagent := (s.pkg : BitVec 9) ++ (0 : BitVec 23), dpkg := e.home, part := BitVec.ofNat 7 k.part,
            vl := 3, typ := 0x12, key := k, home := BitVec.ofNat 9 dst }).1)

/-- MOVED: the home entry forwards to the new package. -/
def State.moved (s : State) (k : AKey) (src dst : Nat) : State :=
  match s.entry? k with
  | some e =>
    if e.st = .forward ∧ e.busy ∧ e.fpkg.toNat = src then s.peerEvent k src (fun s =>
      ((s.touch k).updEntry k (fun e => { e with busy := false, fpkg := BitVec.ofNat 9 dst })).forwardAll k)
    else s
  | none => s

/-- WITHDRAW: the marker with this sequence number is cleared (R320). -/
def State.withdraw (s : State) (k : AKey) (sender : BitVec 32) (ifn : BitVec 6) (seq : BitVec 32) : State :=
  s.dropMarker ⟨sender, ifn, k, seq⟩

/-! ## Idle and capacity retirement (R317, R318, R424) -/

/-- A timer's decision retires an actor, whose entry is looked up (R310). -/
def State.retireIdle (s : State) (k : AKey) : State := (s.touch k).retire k none false

/-- IDLE_RETIREMENT (R318). -/
def State.idleRetire (s : State) (k : AKey) : State :=
  match s.entry? k, s.cls? k.part k.cls with
  | some e, some d =>
    if e.isIdle && cdRetire d != 0 && decide (cdRetire d ≤ s.time e.core - e.idle) then
      s.sliceDo k.slice (.timer false) (fun s => s.retireIdle k)
    else s
  | _, _ => s

/-- The idle actor of a core that goes first: the least recently used, by the mesh cycle in which its last run's end was
taken, then the lower frame (R317, R424). -/
def State.lru (s : State) (c : Nat) : Option Entry :=
  (s.dir.filter (fun e => e.isIdle && e.core == c)).foldl (fun (a : Option Entry) e => match a with
    | none => some e
    | some b => if e.ended < b.ended ∨ (e.ended = b.ended ∧ e.frame < b.frame) then some e else some b) none

/-- The end of a run on a core has been reported, and not taken yet. -/
def State.endComing (s : State) (c : Nat) : Bool :=
  s.notices.any (fun n => (match n.kind with
    | .runEnded .. | .runFailed .. => true
    | .hwError .. | .commitFailed _ => false) && (s.entry? n.key).any (fun e => e.core == c))

/-- CAPACITY_RETIREMENT: while an activation waits for room on the core, an idle actor is retired; none while
those already retiring may make room is asked for again, nor before the run's ends of the mesh cycle have been taken
(R317, R424). -/
def State.capacityRetire (s : State) (c : Nat) : State :=
  if (s.core c).wantRoom.isEmpty || s.endComing c ||
      s.dir.any (fun e => e.st == .retiring && e.dest.isNone && e.core == c && ((s.core c).frameOf e.key).isSome) then s
  else
    match s.lru c with
    | some e => s.sliceDo e.key.slice (.timer true) (fun s =>
      (s.updCore c (fun k => { k with capAt := some s.mesh })).retireIdle e.key)
    | none => s

/-! ## The device's steps -/

/-- EXPORT_OFFER (R313). -/
def execExportOffer (k : AKey) (src : Nat) (s : State) : Host.Outcome State Fault Refusal :=
  event (s.exportOffer k src)
/-- ACTIVATION_DONE (R313). -/
def execActivationDone (k : AKey) (s : State) : Host.Outcome State Fault Refusal := event (s.activationDone k)
/-- STATE_PAGE_NOT_RESIDENT (R320). -/
def execStatePageNotResident (k : AKey) (s : State) : Host.Outcome State Fault Refusal :=
  event (s.statePageNotResident k)
/-- STATE_BLOCK_FAILED (R313). -/
def execStateBlockFailed (k : AKey) (s : State) : Host.Outcome State Fault Refusal :=
  event (s.stateBlockFailed k)
/-- RUN_ENDED (R313). -/
def execRunEnded (k : AKey) (s : State) : Host.Outcome State Fault Refusal := event (s.runEnded k)
/-- ROOM_NOTICE (R363). -/
def execRoomNotice (c : Nat) (s : State) : Host.Outcome State Fault Refusal :=
  eventAt (decide (c < nCores)) (s.roomNotice c)
/-- HARDWARE_ERROR_NOTICE (R328). -/
def execHardwareErrorNotice (k : AKey) (s : State) : Host.Outcome State Fault Refusal := event (s.hwNotice k)
/-- RUN_FAILED (R329). -/
def execRunFailed (k : AKey) (s : State) : Host.Outcome State Fault Refusal := event (s.runFailed_ k)
/-- WRITE_BACK_DONE (R313). -/
def execWriteBackDone (k : AKey) (s : State) : Host.Outcome State Fault Refusal := event (s.writeBackDone k)
/-- WRITE_BACK_FAILED (R319). -/
def execWriteBackFailed (k : AKey) (s : State) : Host.Outcome State Fault Refusal := event (s.writeBackFailed k)
/-- MOVE_DONE (R326). -/
def execMoveDone (k : AKey) (s : State) : Host.Outcome State Fault Refusal := event (s.moveDone k)
/-- MOVING (R326). -/
def execMoving (k : AKey) (src : Nat) (s : State) : Host.Outcome State Fault Refusal := event (s.moving k src)
/-- MOVING_ACK (R326). -/
def execMovingAck (k : AKey) (s : State) : Host.Outcome State Fault Refusal := event (s.movingAck k)
/-- CARRIED_STATE (R326). -/
def execCarriedState (k : AKey) (src home : Nat) (secs : List (Nat × List Byte)) (msgs : List Msg) (s : State) :
    Host.Outcome State Fault Refusal := event (s.carried k src home secs msgs)
/-- MOVED (R326). -/
def execMoved (k : AKey) (src dst : Nat) (s : State) : Host.Outcome State Fault Refusal :=
  event (s.moved k src dst)
/-- WITHDRAW (R320). -/
def execWithdraw (k : AKey) (sender : BitVec 32) (ifn : BitVec 6) (seq : BitVec 32) (s : State) :
    Host.Outcome State Fault Refusal := event (s.withdraw k sender ifn seq)
/-- IDLE_RETIREMENT (R318). -/
def execIdleRetirement (k : AKey) (s : State) : Host.Outcome State Fault Refusal := event (s.idleRetire k)
/-- CAPACITY_RETIREMENT (R317). -/
def execCapacityRetirement (c : Nat) (s : State) : Host.Outcome State Fault Refusal :=
  eventAt (decide (c < nCores)) (s.capacityRetire c)

end Sys2Proof.Machine
end

