-- ==== Sys2Proof/Machine/Schedule.lean ====
section
/-! DEFINITION. Dispatch of units of work, the watchdog, time slicing and cluster clocks (R45, R263, R274,
R362-R366, R372-R378, R380-R385, R392). -/

namespace Sys2Proof.Machine

/-! ## What a thread may take (R365) -/

/-- A piece of work that a thread may take: the newest task of its own deque, a delivery to its core, the oldest
task of another thread's deque, or the next unit of a launch. -/
inductive Work where
  | own
  | item (it : Item)
  | task (owner : Nat)
  | launch (slot : Nat)
deriving DecidableEq, Repr

/-- Work with what orders it: priority, ready time, its kind's rank, and the last tie-break. -/
structure Cand where
  prio  : Nat
  ready : Nat
  rank  : Nat
  tie   : Nat
  work  : Work
deriving DecidableEq, Repr

/-- Does one go before another? -/
def Cand.before (a b : Cand) : Bool :=
  if a.prio != b.prio then decide (b.prio < a.prio)
  else if a.ready != b.ready then decide (a.ready < b.ready)
  else if a.rank != b.rank then decide (a.rank < b.rank)
  else decide (a.tie < b.tie)

/-- UNITAGE. -/
def Part.unitRate (k : Part) : Nat := (k.unitage.extractLsb' 0 16).toNat

/-- The launch ID of a slot. -/
def Launch.id (l : Launch) (slot : Nat) : BitVec 32 := l.gen ++ BitVec.ofNat 12 slot

/-- Does a launch of partition p name cluster j (R281)? -/
def State.namesCluster (s : State) (p j : Nat) (l : Launch) : Bool :=
  match indexIn (s.partClusters p) j with
  | some i => l.clCount == 0 || (decide (l.clFirst ≤ i) && decide (i < l.clFirst + l.clCount))
  | none => false

/-- Threads of a cluster. -/
def clusThreads (j : Nat) : List Nat := (List.range 32).map (fun i => 32 * j + i)

/-- The items that thread t may take, of the partition p that its cluster runs; each list ages by the CYCLE of the core
or cluster that holds it (R362, R364). -/
def State.cands (s : State) (t p : Nat) : List Cand :=
  let c := coreOf t
  let j := clusOf t
  let k := s.part p
  let items := ((s.core c).places.filter (fun it => !it.replay && it.msg.part == p)).zipIdx.map (fun (x : Item × Nat) =>
    ({ prio := s.itemPrio c x.1, ready := x.1.ready, rank := 0, tie := x.2, work := .item x.1 } : Cand))
  let tasks := (clusThreads j).filterMap (fun o =>
    match (s.thr o).deque with
    | [] => none
    | x :: _ =>
      if (s.thr o).unit.isSome && x.part == p then
        some ({ prio := effPrio x.prio k.unitRate x.ready (s.cycle (coreOf o)).toNat, ready := x.ready, rank := 1,
                tie := (s.tid o).toNat, work := .task o } : Cand)
      else none)
  let launches := if (s.clus j).switching then [] else k.launches.filterMap (fun (e : Nat × Launch) =>
    if e.2.live && decide (e.2.next < e.2.units) && s.namesCluster p j e.2 then
      let ready := tget 0 e.2.ready j
      some ({ prio := effPrio e.2.prio k.unitRate ready (s.clusTime j), ready, rank := 2,
              tie := (e.2.id e.1).toNat, work := .launch e.1 } : Cand)
    else none)
  items ++ tasks ++ launches

/-- What thread t takes next. -/
def State.chooseWork (s : State) (t p : Nat) : Option Work :=
  if !(s.thr t).deque.isEmpty then some .own
  else
    ((s.cands t p).foldl (fun (a : Option Cand) x => match a with
      | none => some x
      | some y => if x.before y then some x else some y) none).map Cand.work

/-! ## The thread at dispatch (R45) -/

/-- R45, for every kind of unit; its first instruction issues 24 cycles later (R366), and a halt asked for before takes
effect before that (R381). -/
def Thread.begin_ (h : Thread) (u : UnitInfo) (pc : Word) (job : BitVec 16) (now : Nat) : Thread :=
  let h : Thread := { h with
    pc := pc, globals := Vector.replicate 8 0, frame := Vector.replicate 16 0, pass := Vector.replicate 8 0,
    outer := [], sd := 0, v := Vector.replicate 32 (Vector.replicate 48 0), p := 0,
    m := Vector.replicate 8 (BitVec.allOnes 48), status := unitStatus h.status, tcause := 0, tpc := 0,
    taddr := 0, tinfo := 0, hdr0 := 0, hdr1 := 0, lc := Vector.replicate 4 0, cframe := 0, clsel := 0, key := 0,
    tapest := 0, launch := 0, job, slots := Vector.replicate 16 .empty, slotsClosed := false,
    waitCov := Vector.replicate 4 [], lfsr := seeded (stSeed h.status), ibuf := [], unit := some u,
    waiting := none, recording := none, slept := none, notBefore := now + 24 }
  if h.haltReq then h.halt pc now else h

/-- Frame registers s8 to s11, the rest zero. -/
def frame4 (a b c d : Word) : Vector Word 16 :=
  Vector.ofFn (fun i => if i.val = 0 then a else if i.val = 1 then b else if i.val = 2 then c
    else if i.val = 3 then d else 0)

/-- The unit of thread t starts: of partition p, with the ASID in ASIDCUR (R349). -/
def State.startUnit (s : State) (t : Nat) (u : UnitInfo) (pc : Word) (job : BitVec 16) : State :=
  let s := { s with serial := s.serial + 1 }
  let u := { u with
    uid := s.serial, asid := (s.part u.part).asidcur.extractLsb' 0 16 }
  let id := s.tid t
  let s := s.setAgent id { s.agent id with ref := default }
  (s.updThr t (fun h => h.begin_ u pc job (s.time (coreOf t)))).newRegion id

/-- The unit of a launch or a task. -/
def mkUnit (kind : UKind) (p prio counter : Nat) : UnitInfo :=
  { (default : UnitInfo) with kind, part := p, prio, counter }

/-- Start a forked task on thread t (R263, R274). -/
def State.startTask (s : State) (t : Nat) (x : Task) : State :=
  (s.startUnit t (mkUnit .task x.part x.prio x.counter) x.entry x.c27).updThr t (fun h => { h with
    launch := x.c26
    frame := Vector.ofFn (fun i => if _ : i.val < 8 then x.pass[i.val] else 0) })

/-- Start the next unit of a launch on thread t (R263, R32). -/
def State.startLaunch (s : State) (t p slot : Nat) (l : Launch) : State :=
  let id := l.id slot
  let ix := BitVec.ofNat 32 l.next
  let s := s.setLaunch p slot { l with next := l.next + 1 }
  (s.startUnit t (mkUnit .launch p l.prio 0) l.entry l.job).updThr t (fun h => { h with
    launch := ix ++ id
    frame := frame4 l.args (ix.setWidth 64) (BitVec.ofNat 64 l.units) (id.setWidth 64) })

/-! ## Handler runs (R263, R285, R392) -/

/-- v0 of a handler run: the payload, and zero beyond. -/
def payVec (m : Msg) : VReg :=
  Vector.ofFn (fun i => BitVec.ofNat 32 (natOfBytes ((List.range 4).map (fun j =>
    if 4 * i.val + j < m.len.toNat then m.payload.getD (4 * i.val + j) 0 else 0))))

/-- The registers that a handler run loads at entry. -/
def Thread.enterRun (h : Thread) (m : Msg) (fline : Nat) (outc : BitVec 3) : Thread :=
  let base := BitVec.ofNat 64 (192 * fline)
  let hd := headerOf m
  { h with
    frame := frame4 m.key (m.sel.setWidth 64 ||| (m.len.setWidth 64 <<< 8)) base (m.sender.setWidth 64)
    v := Vector.ofFn (fun i => if i.val = 0 then payVec m else Vector.replicate 48 0)
    hdr0 := hd.extractLsb' 0 64, hdr1 := hd.extractLsb' 64 64, cframe := base,
    clsel := m.cls.setWidth 64 ||| (m.sel.setWidth 64 <<< 16), key := m.key,
    tapest := mkTapest 0 0 0 outc.toNat 0 }

/-- Tags at the entry of a run that records (R287): key, frame base, and what else the message gives. -/
def entryTags : Tbl Tag :=
  [(8, .tag .key 0), (9, .derived), (10, .tag .fbase 0), (11, .derived), (0x20, .derived)]

/-- A run that was to record seeks the right to; it is refused when the tape has been sealed since the delivery reached
the core (R285). -/
def State.seekRight (s : State) (t : Nat) (it : Item) : State :=
  match (s.thr t).unit with
  | none => s
  | some u =>
    if !it.record then s
    else if s.mayRecord u 0 && ((s.part u.part).tapeCtl? u.msg.cls u.msg.sel 0).seals == it.seals then
      s.beginRec t u { Recording.start 0 with tags := entryTags }
    else s.updThr t (fun h => h.endRec 6)

/-- The thread and the frame line of a shadow run on core c, whose cluster runs the partition (R366, R392). -/
def State.shadowRoom (s : State) (p c len : Nat) : Option (Nat × Nat) :=
  if s.runs (clusOfCore c) ≠ some p then none
  else
  match ((List.range 4).map (fun i => 4 * c + i)).find? (fun x =>
      (s.thr x).unit.isNone && (s.thr x).deque.isEmpty && (s.thr x).q.toList.all (fun q => q.cmds.isEmpty)),
    (s.core c).firstFit len with
  | some x, some l => some (x, l)
  | _, _ => none

/-- A handler run starts on thread t, from a frame line. -/
def State.enterAt_ (s : State) (t : Nat) (u : UnitInfo) (it : Item) (pc : Word) (fline : Nat) : State :=
  (s.startUnit t { u with fline } pc it.msg.job).updThr t (fun h => h.enterRun it.msg fline it.outc)

/-- The frame of a run copied to its shadow's core, marks included. -/
def State.copyFrame (s : State) (e : Entry) (c line : Nat) : State :=
  match (s.core e.core).frameOf e.key with
  | none => s
  | some f =>
    let s := s.updCore c (fun k => { k with frames := k.frames ++ [{ f with line := line }] })
    s.wrBytes (s.framePa c line) (s.rdBytes (s.framePa e.core f.line) (192 * f.len))

/-- Start the run of a delivery on thread t; none while it has no entry or no room for its shadow. -/
def State.startItem (s : State) (t : Nat) (it : Item) : Option State :=
  match s.entry? it.ekey, s.cls? it.ekey.part it.ekey.cls with
  | some e, some d =>
    match s.badLine (coreOf t) e.frame (cdLines d) with
    | some l => some (s.failDelivery (coreOf t) it l)
    | none =>
    let pc := cdCbase d + 12 * (cdEntry d (it.msg.sel.toNat % 16)).setWidth 64
    let u : UnitInfo := { (default : UnitInfo) with
      kind := .handler, part := it.ekey.part, prio := cdPrio d, msg := it.msg, ekey := it.ekey,
      fline := e.frame, flen := cdLines d, plain := it.plain }
    let s := s.updCore (coreOf t) (fun k => k.unplace it)
    if !cdDual d then some ((s.enterAt_ t u it pc e.frame).seekRight t it)
    else
      match (coreAfter (s.partCores it.ekey.part) e.core).bind (fun c => s.shadowRoom it.ekey.part c (cdLines d)) with
      | none => none
      | some (x, line) =>
        let (s, ok) := s.orderBefore it.msg.sender (s.tid x) it.msg.no
        if !ok then none
        else
          let s := s.copyFrame e (coreOf x) line
          let s := s.enterAt_ t { u with dual := some ⟨x, false, [], false⟩ } it pc e.frame
          some (s.enterAt_ x { u with dual := some ⟨t, true, [], false⟩ } it pc line)
  | _, _ => none

/-! ## UNIT_DISPATCH -/

/-- The agent whose accesses come before a unit, and the number that they are below (R123). -/
def State.workSource (s : State) (t p : Nat) : Work → BitVec 32 × Nat
  | .own => (s.tid t, ((s.thr t).deque.getLast?.map Task.no).getD 0)
  | .item it => (it.msg.sender, it.msg.no)
  | .task o => (s.tid o, ((s.thr o).deque.head?.map Task.no).getD 0)
  | .launch n => ((tget default (s.part p).launches n).ag, (tget default (s.part p).launches n).no)

/-- Start a piece of work on thread t. -/
def State.startWork (s : State) (t p : Nat) : Work → Option State
  | .own =>
    match (s.thr t).deque.getLast? with
    | some x => some ((s.updThr t (fun h => { h with deque := h.deque.dropLast })).startTask t x)
    | none => none
  | .task o =>
    match (s.thr o).deque with
    | x :: rest => some ((s.updThr o (fun h => { h with deque := rest })).startTask t x)
    | [] => none
  | .launch n => some (s.startLaunch t p n (tget default (s.part p).launches n))
  | .item it => s.startItem t it

/-- Is a thread free, with its engine queues empty (R45, R228)? -/
def Thread.isFree (h : Thread) : Bool := h.unit.isNone && h.q.toList.all (fun q => q.cmds.isEmpty)

/-- R365, R366: what a free thread's next unit makes of the state, if it can take one of the partition that its cluster
runs. -/
def State.dispatched (s : State) (t : Nat) : Option State :=
  if !(s.thr t).isFree then none
  else
    match s.runs (clusOf t) with
    | none => none
    | some p =>
      match s.chooseWork t p with
      | none => none
      | some w =>
        match s.orderBefore (s.workSource t p w).1 (s.tid t) (s.workSource t p w).2 with
        | (_, false) => none
        | (s', true) => s'.startWork t p w

/-- The lower threads of a thread's core that became free in the same cycle: they choose first (R365). -/
def State.lowerFree (s : State) (t : Nat) : List Nat :=
  (List.range (t % 4)).filterMap (fun i =>
    let x := 4 * coreOf t + i
    if (s.thr x).isFree ∧ (s.thr x).freed = (s.thr t).freed then some x else none)

/-- R365, R366: a free thread takes its next unit, when no lower thread that became free with it can take one. -/
def State.unitDispatch (s : State) (t : Nat) : State :=
  if (s.lowerFree t).any (fun x => (s.dispatched x).isSome) then s else (s.dispatched t).getD s

/-- UNIT_DISPATCH. -/
def execUnitDispatch (t : Nat) (s : State) : Host.Outcome State Fault Refusal :=
  eventAt (threadOk t) (s.unitDispatch t)

/-! ## The watchdog (R372, R373) -/

/-- R373. -/
def State.watchdogExpire (s : State) (t : Nat) : State :=
  match (s.thr t).unit with
  | none => s
  | some u =>
    if s.overdue t then s.failUnit t { s.threadRec t 0x20 0 with
      info0 := BitVec.ofNat 64 (s.budget u), info1 := BitVec.ofNat 64 (u.counted (s.time (coreOf t))) } false
    else s

/-- WATCHDOG_EXPIRE. -/
def execWatchdogExpire (t : Nat) (s : State) : Host.Outcome State Fault Refusal :=
  eventAt (threadOk t) (s.watchdogExpire t)

/-! ## Switching out (R376) -/

/-- A cluster begins to switch its partition out: its idle actors are retired; its activations that wait for room wait
for the partition to return. One whose messages wait for a place delivers them as its core has room (R363), and its
run ends with retirement requested. -/
def State.switchOut (s : State) (j : Nat) : State :=
  let s := s.setClus j { s.clus j with switching := true, switchAt := s.clusTime j }
  s.dir.foldl (fun (s : State) e =>
    if clusOfCore e.core ≠ j then s
    else if e.isIdle then s.retireIdle e.key
    else if e.st = .activating ∧ e.wait = .room then
      (s.updCore e.core (fun c => { c with wantRoom := c.wantRoom.filter (fun x => x != e.key) })).setEntry
        { e with wait := .switch }
    else s) s

/-- SLICE_END: with two or more enabled entries, in effect or as written, at the end of the slice (R374, R376, R378,
log 32). -/
def State.sliceEnd (s : State) (j : Nat) : State :=
  let k := s.clus j
  let n (r : Vector Word 4) : Nat := (r.toList.filter rotEn).length
  if k.switching ∨ (s.runs j).isNone ∨ (n k.rotEff < 2 ∧ n k.rot < 2) ∨ s.clusTime j < k.sliceBeg + k.sliceLen then s
  else s.switchOut j

/-- SLICE_END. -/
def execSliceEnd (j : Nat) (s : State) : Host.Outcome State Fault Refusal :=
  eventAt (decide (j < nClusters)) (s.sliceEnd j)

/-! ## Switching in (R45, R376-R378) -/

/-- Nothing of the partition is left on a cluster. -/
def State.drainedClus (s : State) (j : Nat) : Bool :=
  (clusThreads j).all (fun t =>
    let h := s.thr t
    (match h.unit with
      | some u => u.kind == .firmware
      | none => true) && h.deque.isEmpty && h.q.toList.all (fun q => q.cmds.isEmpty)) &&
  (List.range 8).all (fun i =>
    let c := s.core (8 * j + i)
    c.places.isEmpty && c.replay.isNone && c.frames.isEmpty && c.seqq.toList.all (fun q => q.cmds.isEmpty))

/-- Does an address lie in what a change of partition zeroes on cluster j: its scratchpads, arrays and memory? -/
def State.zeroed (s : State) (j a : Nat) : Bool :=
  let l := paLocal a
  decide (a < 2 ^ 52) && paPkg a == s.pkg.toNat &&
    ((decide (clusBase j ≤ l) && decide (l < clusBase j + clusBytes)) ||
     (decide (coreBase (8 * j) ≤ l) && decide (l < coreBase (8 * j + 8)) &&
       (decide ((l - coreWin) % 0x300000 < 0xC0000) || decide (0x180000 ≤ (l - coreWin) % 0x300000))))

/-- R45, R185, R376 step 3: the state of a cluster at a change of partition. -/
def State.zeroClus (s : State) (j : Nat) : State :=
  let s := { s with
    mem := s.mem.filter (fun c => !s.zeroed j c.1), poison := s.poison.filter (fun a => !s.zeroed j a) }
  let s := (List.range 8).foldl (fun (s : State) i => s.updCore (8 * j + i) (fun c => { c with
    desc := Vector.replicate 16 0, accInt := Vector.replicate 8 false, poisonT := [], poisonA := [],
    refused := [] })) s
  let s := (s.unpinCores (fun c => clusOfCore c == j)).setClus j { s.clus j with tapeCache := [] }
  (clusThreads j).foldl (fun (s : State) t =>
    s.updThr t (fun h => { h with status := withSeed h.status 1, spbase := 0, splim := 0 })) s

/-- The entry that follows: the next enabled one whose slice is not of length 0, with its length and the debts
left (R378). -/
def nextSlice (rot debt : Vector Word 4) (cur : Nat) : Nat → Option (Nat × Nat × Vector Word 4)
  | 0 => none
  | n + 1 =>
    let c := (cur + 1) % 4
    let w := rot.toList.getD c 0
    if !rotEn w then nextSlice rot debt c n
    else
      let d := (debt.toList.getD c 0).toNat
      let cut := min d (rotLen w)
      let debt := setAt debt c (BitVec.ofNat 64 (d - cut))
      if rotLen w - cut = 0 then nextSlice rot debt c n else some (c, rotLen w - cut, debt)

/-- Steps that are enough to find the next slice. -/
def sliceFuel (debt : Vector Word 4) : Nat :=
  8 + 4 * (debt.toList.foldl (fun (n : Nat) w => n + w.toNat / 1024 + 1) 0)

/-- A rotation without the entries of partitions that drain (R380). -/
def State.rotReady (s : State) (r : Vector Word 4) : Vector Word 4 :=
  Vector.ofFn (fun i => if rotEn r[i] ∧ (s.part (rotPart r[i])).pstate = 2 then 0 else r[i])

/-- The next entry of a cluster begins, with the rotation as it is now written, at step 24 (R376, R385). -/
def State.beginSlice (s : State) (j : Nat) : State :=
  let n := min 24 s.module.caps
  let s := s.setClock j n
  let k := s.clus j
  let old := k.rotEff
  let k := { k with switching := false, rotEff := k.rot, eqstep := n, eqNext := [], eqSince := s.mesh,
                    sliceBeg := s.clusTime j, inAt := some s.mesh }
  match nextSlice (s.rotReady k.rot) k.debt k.cur (sliceFuel k.debt) with
  | some (c, len, debt) =>
    let s := (s.setClus j { k with cur := c, sliceLen := len, debt }).relistAll old |>.relistAll k.rot
    s.replace_ (rotPart (k.rot.toList.getD c 0))
  | none => (s.setClus j { k with rotEff := Vector.replicate 4 0 }).relistAll old

/-- A rotation without a partition's entries. -/
def rotWithout (r : Vector Word 4) (p : Nat) : Vector Word 4 :=
  Vector.ofFn (fun i => if rotEn r[i] ∧ rotPart r[i] = p then 0 else r[i])
/-- A rotation with an entry in its first free place. -/
def rotWith (r : Vector Word 4) (w : Word) : Vector Word 4 :=
  match (List.range 4).find? (fun i => !rotEn (r.toList.getD i 0)) with
  | some i => setAt r i w
  | none => r
/-- The clusters whose written rotation names a partition. -/
def State.rotClusters (s : State) (p : Nat) : List Nat :=
  (s.clusters.filter (fun e => e.2.rot.toList.any (fun r => rotEn r && rotPart r == p))).map Prod.fst

/-- R380 steps 2 and 3: the rotation entries move to the new clusters, in ascending order, and the partition
runs there. Clusters that run nothing begin at once. -/
def State.finishMove (s : State) (p : Nat) : State :=
  let k := s.part p
  let old := s.rotClusters p
  let entry (j : Nat) : Word := ((s.clus j).rot.toList.find? (fun r => rotEn r && rotPart r == p)).getD 0
  let words := old.map entry
  let s := old.foldl (fun (s : State) j => s.setClus j { s.clus j with rot := rotWithout (s.clus j).rot p }) s
  let s := ((rising k.moveTo).zip words).foldl (fun (s : State) (x : Nat × Word) =>
    s.setClus x.1 { s.clus x.1 with rot := rotWith (s.clus x.1).rot x.2 }) s
  let s := s.updPart p (fun k => { k with pstate := 1 })
  let s := (rising (old ++ k.moveTo)).foldl (fun (s : State) j =>
    if (s.runs j).isNone ∧ !(s.clus j).switching then s.beginSlice j else s) s
  (s.relist p).replace_ p

/-- SWITCH_IN: the cluster is drained; its overrun is its debt; its state is zeroed and the next entry begins. A
partition that moves is not followed by another until it has left every cluster (R380). -/
def State.switchIn (s : State) (j : Nat) : State :=
  let k := s.clus j
  if !k.switching ∨ !s.drainedClus j then s
  else
    let d := k.debt.toList.getD k.cur 0 + BitVec.ofNat 64 (s.clusTime j - k.switchAt)
    let p := s.runs j
    let s := s.zeroClus j
    let s := s.setClus j { s.clus j with debt := setAt k.debt k.cur d }
    match p with
    | none => s.beginSlice j
    | some p =>
      if (s.part p).pstate = 2 then
        let s := s.setClus j { s.clus j with switching := false, rotEff := Vector.replicate 4 0 }
        if (s.part p).dying || (s.partClusters p).any (fun i => s.runs i == some p) then s
        else (s.updPart p (fun k => { k with pstate := 3 })).finishMove p
      else s.beginSlice j

/-- SWITCH_IN. -/
def execSwitchIn (j : Nat) (s : State) : Host.Outcome State Fault Refusal :=
  eventAt (decide (j < nClusters)) (s.switchIn j)

/-! ## Clocks (R384, R385) -/

/-- CLOCK_STEP_EFFECTIVE: the clock follows the step, 4096 mesh cycles later. -/
def State.clockEffective (s : State) (j : Nat) : State :=
  match (s.clus j).eqNext with
  | (n, at_) :: rest =>
    if at_ ≤ s.mesh then
      let s := s.setClock j n
      s.setClus j { s.clus j with eqNext := rest }
    else s
  | [] => s
/-- CLOCK_STEP_EFFECTIVE. -/
def execClockStepEffective (j : Nat) (s : State) : Host.Outcome State Fault Refusal :=
  eventAt (decide (j < nClusters)) (s.clockEffective j)

/-- STEP_DRIFT: a step unchanged for 2^24 mesh cycles moves towards 24, under its cap. -/
def State.stepDrift (s : State) (j : Nat) : State :=
  let k := s.clus j
  if s.mesh < k.eqSince + 2 ^ 24 then s
  else if 24 < k.eqstep then s.moveStep j (k.eqstep - 1)
  else if k.eqstep < min 24 s.module.caps then s.moveStep j (k.eqstep + 1)
  else s
/-- STEP_DRIFT. -/
def execStepDrift (j : Nat) (s : State) : Host.Outcome State Fault Refusal :=
  eventAt (decide (j < nClusters)) (s.stepDrift j)

end Sys2Proof.Machine
end

