-- ==== Sys2Proof/Machine/Maintain.lean ====
section
/-! DEFINITION. Soft errors and scrubbing, page responses and walks, translation invalidation and page migration
(R328, R348, R350, R353-R358, R386, R413). -/

namespace Sys2Proof.Machine

/-! ## Soft errors (R348, R386) -/

/-- Does the build have the place of an error? One of a thread is of its registers, its queues or its instruction
buffer (R389). -/
def siteOk : ErrSite → Bool
  | .corrected c | .l1 c | .seqr c => decide (c < nCores)
  | .thread t sub line => decide (t < nThreads) && (sub == 1 || sub == 5 || sub == 6) && decide (line < 4096)
  | .scratch c o => decide (c < nCores) && decide (o < 0xC0000)
  | .cluster j o => decide (j < nClusters) && decide (o < clusBytes)
  | .tapeCache j => decide (j < nClusters)
  | .tile c n => decide (c < nCores) && decide (n < 16)
  | .acc c n => decide (c < nCores) && decide (n < 8)
  | .l2 k => decide (k < nChips)
  | .hbm pa => decide (pa < hbmEnd)

/-- A sector is poisoned. -/
def State.poisonAt (s : State) (l : Nat) : State :=
  let a := secBase (mkPa s.pkg l)
  if s.poison.contains a then s else { s with poison := a :: s.poison }

/-- The thread of a core that runs an actor. -/
def State.runThread (s : State) (c : Nat) (k : AKey) : Option Nat :=
  ((List.range 4).map (fun i => 4 * c + i)).find? (fun t => match (s.thr t).handler with
    | some u => u.ekey == k
    | none => false)

/-- An uncorrectable error in a scratchpad: of the run in progress in a live frame; else the sector is poisoned,
and in a live frame the next delivery meets it (R386). -/
def State.scratchError (s : State) (c o : Nat) : State :=
  match (s.core c).frames.find? (fun f => decide (f.line ≤ o / 192) && decide (o / 192 < f.line + f.len)) with
  | none => s.poisonAt (coreBase c + o)
  | some f =>
    let line := BitVec.ofNat 64 (poolB0 (s.core c).poolcfg + o / 192)
    match s.runThread c f.owner with
    | some t => s.hwErr t 0x22 2 line
    | none =>
      match (s.core c).replay with
      | some r => if r.ekey = f.owner then s.replayHw c 0x22 2 line else s.poisonAt (coreBase c + o)
      | none => s.poisonAt (coreBase c + o)

/-- R386, R348: an error is detected. Copies in L1, in L2 and in a tape cache are dropped and refilled. The record of an
error of a thread's holds the pool line of the error (R389). Of corrected errors only those of a core are counted, in its
CERRCNT; R348 names no counter for those of L2, of the LLC and of HBM (log 53). -/
def State.softError (s : State) (e : ErrSite) : State :=
  match e with
  | .corrected c => s.updCore c (fun k => { k with cerrcnt := satInc32 k.cerrcnt })
  | .thread t sub line => s.hwErr t 0x22 sub.toNat (BitVec.ofNat 64 line)
  | .scratch c o => s.scratchError c o
  | .cluster j o => s.poisonAt (clusBase j + o)
  | .tile c n => s.updCore c (fun k => { k with poisonT := insertN n k.poisonT })
  | .acc c n => s.updCore c (fun k => { k with poisonA := insertN n k.poisonA })
  | .l1 c => s.flashL1 c
  | .tapeCache j => s.setClus j { s.clus j with tapeCache := [] }
  | .seqr c => s.replayHw c 0x22 7 0
  | .l2 k => s.setL2 k []
  | .hbm a => s.poisonAt a

/-- SOFT_ERROR. -/
def execSoftError (e : ErrSite) (s : State) : Host.Outcome State Fault Refusal :=
  eventAt (siteOk e) (s.softError e)

/-- Addressable sectors of a channel (R348). -/
def channelSectors : Nat := 52035584
/-- SCRUB: the scrubber of a stack reads one sector of every channel every 1024 mesh cycles; nothing else changes where
it holds no error (R348). -/
def State.scrubStack (s : State) (stack : Nat) : State :=
  let n := tget 0 s.scrub stack
  if s.mesh / 1024 % channelSectors = n then s
  else { s with scrub := tset s.scrub stack ((n + 1) % channelSectors) }
/-- SCRUB. -/
def execScrub (stack : Nat) (s : State) : Host.Outcome State Fault Refusal :=
  eventAt (decide (stack < 16)) (s.scrubStack stack)

/-! ## Page responses (R354, R355, R413, R319, R320) -/

/-- The port's agent. -/
def State.portAgent (s : State) (p : Nat) : BitVec 32 := agentId s.pkg (.port p)

/-- Is the PASID of a partition revoked: at some interface, or since it was bound last (R413)? -/
def State.pasidRevoked (s : State) (p : Nat) : Bool :=
  let b := (s.part p).hostbind
  b.getLsbD 63 && (s.module.revoked.contains (b.extractLsb' 0 20) || s.ports.any (fun q => q.2.ifs.any (fun f =>
    f.2.cfg.getLsbD 63 && f.2.cfg.getLsbD 62 && f.2.cfg.extractLsb' 0 20 == b.extractLsb' 0 20)))

/-- Every write that a port has accepted enters the package holding point; false while one waits in its issue
queue. -/
def State.portWrites (s : State) (p : Nat) : State × Bool :=
  let id := s.portAgent p
  let s := s.drain id 6
  (s, !((s.agent id).iq.any (fun e => match e with
    | .store .. => true
    | .load .. | .atom .. | .peer .. | .got .. => false)) && !((s.storeLevels id).any (fun x => decide (x.2 < 6))))

/-- What an answered request means for the entries whose state block waits for its page. -/
def State.answerEntries (s : State) (q : PageReq) (ok : Bool) : State :=
  s.dir.foldl (fun (s : State) e =>
    if e.wait ≠ .page then s
    else
      match e.st with
      | .activating =>
        match s.cls? e.key.part e.key.cls with
        | some d =>
          if !e.onReq d q then s
          else if ok then s.activate e.key
          else (s.ackMove e).failEntry e.key 1 (blockAddr d e.key.key)
        | none => s
      | .retiring =>
        if !e.onReq e.desc q then s
        else
          match ok, s.stateCheck e e.desc .write with
          | true, (_, .ok _) => s.setEntry { e with wait := .fetch }
          | _, _ => s.failEntry e.key 5 (blockAddr e.desc e.key.key)
      | .absent | .live | .forward | .failed => s) s

/-- The key under which an answered request is kept. -/
def answeredKey (t : Tbl PageReq) : Nat := t.foldl (fun (n : Nat) e => max n (e.1 + 1)) answered

/-- R354, R355: the response to page request i. -/
def State.pageResponse (s : State) (i : Nat) (ok : Bool) : State :=
  match s.pagereq.find? (fun e => decide (e.1 < answered) && e.1 == i) with
  | none => s
  | some (_, q) =>
    match s.portWrites q.port with
    | (_, false) => s
    | (s, true) =>
      let s := { s with pagereq := tdel s.pagereq i }
      let k := s.part q.part
      if q.gen ≠ k.pgen.extractLsb' 0 16 ∨ s.pasidRevoked q.part then
        s.setPart q.part { k with prdrop := satInc32 k.prdrop }
      else
        let s := if q.joined.isEmpty then s
          else { s with pagereq := tset s.pagereq (answeredKey s.pagereq) { q with ans := if ok then 1 else 2 } }
        (s.answerEntries q ok).retryAdds

/-- PAGE_RESPONSE. -/
def execPageResponse (i : Nat) (ok : Bool) (s : State) : Host.Outcome State Fault Refusal :=
  event (s.pageResponse i ok)

/-! ## Walks and invalidation (R342, R350, R353) -/

def nParts : Nat := 96
def partOk (p : Nat) : Bool := decide (p < nParts)

/-- A slice walks for a core's miss: the leaf enters its translation cache and the core's rights cache. -/
def State.walk (s : State) (c p : Nat) (asid : BitVec 16) (va : Word) : State :=
  let a := va.toNat
  if vaEnd ≤ a ∨ s.migrating p asid a ∨ (leafFind (s.core c).rights p asid a).isSome then s
  else
    match s.leafOf ⟨s.coreAgent c, c, some p, asid, privU, none, [], 0⟩ p a with
    | (s, some f) => if pteAway f.pte then s else s.rcFill c f
    | (s, none) => s

/-- WALK. -/
def execWalk (c p : Nat) (asid : BitVec 16) (va : Word) (s : State) : Host.Outcome State Fault Refusal :=
  eventAt (decide (c < nCores) && partOk p) (s.walk c p asid va)
/-- XINVCMD (R353). -/
def execXinvcmd (p : Nat) (x : Word) (s : State) : Host.Outcome State Fault Refusal :=
  eventAt (partOk p) (s.xinv p x)
/-- MIGCMD (R356, R357). -/
def execMigcmd (p : Nat) (x : Word) (s : State) : Host.Outcome State Fault Refusal :=
  eventAt (partOk p) (s.mig p x)

/-! ## The rest of a migration (R357 steps 3 to 6) -/

/-- An access left in an issue queue lies in a range of physical addresses. -/
def iqIn (e : IqEntry) (a n : Nat) : Bool :=
  match e.locs with
  | some ns => ns.any (fun x => decide (a ≤ x.1 / 2) && decide (x.1 / 2 < a + n))
  | none => false

/-- Has a queue a copy that has translated an address on the page of a migration, and has not faulted (R357 step 3)? -/
def Queue.copies (x : Queue) (p : Nat) (m : Migration) : Bool :=
  x.stopped.isNone && x.cmds.any (fun c => c.begun && c.part == some p && c.asid == m.asid && (copyMod c.i).isSome &&
    c.seen.any (fun n => decide (m.base < 49152 * (n + 1)) && decide (49152 * n < m.base + m.size)))
def State.copiesBegun (s : State) (p : Nat) (m : Migration) : Bool :=
  s.threads.any (fun t => t.2.q.toList.any (fun x => x.copies p m)) ||
    s.cores.any (fun c => c.2.seqq.toList.any (fun x => x.copies p m))

/-- Every store of the package reaches the root. -/
def State.drainRoot (s : State) : State :=
  s.agents.foldl (fun (s : State) (e : Nat × AgentMem) => s.drain (BitVec.ofNat 32 e.1) 7) s
/-- Has every store to a range of physical addresses reached the root? -/
def State.rooted (s : State) (a n : Nat) : Bool :=
  let inside (l : Nat) : Bool := decide (a ≤ l / 2) && decide (l / 2 < a + n)
  !(s.hold.any (fun e => inside e.loc)) && !(s.agents.any (fun x => x.2.sb.any (fun st => st.nibs.any (fun y => inside y.1))))

/-- The lines of a range of virtual addresses leave L1 and L2. -/
def State.dropLines (s : State) (p : Nat) (asid : BitVec 16) (base size : Nat) : State :=
  let out (l : CLine) : Bool := l.part == p && l.asid == asid && decide (base ≤ 192 * l.vline) &&
    decide (192 * l.vline < base + size)
  { s with
    cores := s.cores.map (fun e => (e.1, { e.2 with l1 := e.2.l1.filter (fun l => !out l) }))
    l2 := s.l2.map (fun e => (e.1, e.2.filter (fun l => !out l))) }

/-- The chiplet that copies a page: chiplet 0 of the reticle tile of the destination's stack (R347, R357 step 4). -/
def copyChip (dst : Nat) : Nat := 2 * tileOfStack (stackOf (paLocal dst))

/-- Where a migration's page lies, byte by byte in its old place: the runs that the copy reads, and whether all of it is
there (R357, R405, log 53). -/
def State.pageRuns (s : State) (p : Nat) (m : Migration) : State × Option (List Seg) :=
  let r := s.target (some p) privS (pteAddr m.pte) m.pte
  match r with
  | .ok t => if s.extent t < m.size then (s, none) else (s.hostXlate p r, some [⟨m.base, t, m.size⟩])
  | .unmapped | .prot _ | .wait => (s, none)

/-- What the copy reads of a run, by offset from its first byte: of memory through the LLC, of registers, or from a peer's
answers. -/
def State.runCells (s : State) (ans : List PeerAns) (g : Seg) : List Host.Cell :=
  if g.tgt.isReg then cellsOf 0 (s.regBytes g.tgt g.len)
  else if s.isPeer g.pa then
    cellsOf 0 ((g.cut.zip ans).flatMap (fun x => (List.range x.1.len).map (fun i => (match x.2 with
      | .reply d => d.getD i 0
      | .ack | .refuse _ => 0))))
  else (s.mem.filter (fun c => decide (g.pa ≤ c.1) && decide (c.1 < g.pa + g.len))).map (fun c => (c.1 - g.pa, c.2))

/-- A page of n bytes is copied to a physical address through the LLC, by the brush of a chiplet: the other chiplets lose
their copies of the destination (R345). -/
def State.copyPage (s : State) (dst n : Nat) (cells : List Host.Cell) : State :=
  let inside (a : Nat) : Bool := decide (dst ≤ a) && decide (a < dst + n)
  let s := { s with
    mem := s.mem.filter (fun c => !inside c.1)
    l2 := s.l2.map (fun e => (e.1, if e.1 = copyChip dst then e.2 else e.2.filter (fun l => !inside l.pline)))
    poison := s.poison.filter (fun a => !inside a) }
  let s := (List.range (n / 192)).foldl (fun (s : State) i => s.llcLine (dst + 192 * i) (fun x => { x with
    valid := 15, dirty := 15, pres := x.pres &&& (1#16 <<< copyChip dst) })) s
  cells.foldl (fun (s : State) c => s.wr (dst + c.1) c.2) s

/-- A migration ends with a RESULT. -/
def State.migEnd (s : State) (p : Nat) (lost result : Nat) : State :=
  s.updPart p (fun k => { k with
    pinlost := sat32 (k.pinlost.toNat + lost), migration := none,
    migcmd := (k.migcmd &&& 0x0000FFFF00000000#64) ||| BitVec.ofNat 64 (result * 2 ^ 16) })

/-- Steps 4 to 6, once the page is drained: its bytes are copied, its leaf is rewritten, and accesses resume; at the old
address with RESULT 5 where the copy meets poison, or cannot read the page (log 53). Bytes that another package owns are
loaded from there first. -/
def State.copyLeaf (s : State) (p : Nat) (m : Migration) (lost : Nat) : State :=
  match s.pageRuns p m with
  | (s, none) => s.migEnd p lost 5
  | (s, some gs) =>
    let peers := (s.peerSegs gs).flatMap Seg.cut
    match s.peerAll (agentId s.pkg (.brush (copyChip m.dst))) ⟨p, m.asid, none⟩ 2 (fun g => [BitVec.ofNat 8 g.len])
        peers with
    | (s, none) => s.updPart p (fun k => { k with pinlost := sat32 (k.pinlost.toNat + lost) })
    | (s, some ans) =>
      if (refusal peers ans).isSome || gs.any (fun g => !g.tgt.isReg && s.poisoned g.pa g.len) then s.migEnd p lost 5
      else
        let s := (s.migEnd p lost 0).copyPage m.dst m.size (gs.flatMap (s.runCells ans))
        let e := (m.pte &&& 0xFFF0000000000000#64) ||| BitVec.ofNat 64 m.dst
        (s.devWrite m.pteAt (bytesOfNat 8 e.toNat)).dropLeaves p (some m.asid) (some m.base)

/-- The physical address at which a migration's page is drained: of the host window, the host's (R405). -/
def State.pagePa (s : State) (p : Nat) (m : Migration) : Nat :=
  match s.target (some p) privS (pteAddr m.pte) m.pte with
  | .ok (.mem pa _) => pa
  | _ => pteAddr m.pte

/-- MIGRATION_COPY: the page is drained, its lines and pins are dropped, and it is copied. -/
def State.migrationCopy (s : State) (p : Nat) : State :=
  match (s.part p).migration with
  | none => s
  | some m =>
    let src := s.pagePa p m
    let drained := s.drainRoot
    if s.copiesBegun p m || s.agents.any (fun a => a.2.iq.any (fun e => iqIn e src m.size)) ||
        !drained.rooted src m.size then s
    else
      let s := drained.dropLines p m.asid m.base m.size
      let mine (x : Pin) : Bool := x.part == p && x.asid == m.asid && decide (m.base ≤ 192 * x.line) &&
        decide (192 * x.line < m.base + m.size)
      let lost := (s.pins.filter mine).length
      ({ s with pins := s.pins.filter (fun x => !mine x) } : State).copyLeaf p m lost

/-- MIGRATION_COPY. -/
def execMigrationCopy (p : Nat) (s : State) : Host.Outcome State Fault Refusal :=
  eventAt (partOk p) (s.migrationCopy p)

end Sys2Proof.Machine
end

