-- ==== Sys2Proof/Machine/Install.lean ====
section
/-! DEFINITION. Installing and clearing classes, job commands, debug steps and register writes (R7, R42, R265,
R316, R323-R325, R370, R381, R383, R391, R432). -/

namespace Sys2Proof.Machine

/-! ## Class commands (R324) -/

/-- Fields of CLSCMD. -/
def clsBusy (w : Word) : Bool := w.getLsbD 18
def clsOp (w : Word) : Nat := (w.extractLsb' 16 2).toNat
def clsClass (w : Word) : BitVec 16 := w.extractLsb' 0 16

/-- A class command ends: BUSY := 0 and REJ. -/
def State.clsEnd (s : State) (p : Nat) (refused : Bool) : State :=
  s.updPart p (fun k => { k with
    clscmd := (k.clscmd &&& 0x3FFFF#64) ||| (if refused then 0x80000#64 else 0) })

/-- The agent under which class commands wait for pages. -/
def State.clsAgent (s : State) : BitVec 32 := mkId s.pkg 0 0 0 0 0 0 6 0

/-- R265: a descriptor that an install refuses. -/
def State.badDesc (s : State) (p : Nat) (d : BitVec 768) : Bool :=
  (List.range 16).any (fun i =>
    cdEntry d i != 0xFFFFFF && decide (vaEnd ≤ (cdCbase d).toNat + 12 * (cdEntry d i).toNat)) ||
  (cdCbase d).toNat % 192 != 0 || (cdSmap d).toNat % 192 != 0 || decide (20 < cdHbits d) || cdTlim d == 0 ||
  (cdPol d == 1 && (List.range (s.partClusters p).length).all (fun i => !(cdParg d).getLsbD (i % 32))) ||
  ((cdPol d == 0 || cdPol d == 3) && cdParg d != 0)

/-- What reading the staged descriptor gives. -/
inductive Staged where
  | ok (d : BitVec 768)
  | wait
  | bad
deriving DecidableEq, Repr

/-- The context of the device's accesses to a partition's class table: its ASIDCUR, at privilege S. -/
def State.clsCtx (s : State) (p : Nat) : Ctx :=
  ⟨s.clsAgent, (s.partCores p).headD 0, some p, (s.part p).asidcur.extractLsb' 0 16, privS, none, [], 0⟩

/-- The staged descriptor at CLSARG; parts that another package owns are loaded from there (R324, R360). An address that
is no multiple of 48 and an image in registers are refused, which is the model's choice (log 53). -/
def State.staged (s : State) (p : Nat) : State × Staged :=
  let a := (s.part p).clsarg
  if a.toNat % 48 ≠ 0 then (s, .bad)
  else
    match s.check (s.clsCtx p) .read .g a 96 with
    | (s, .wait) => (s, .wait)
    | (s, .fail ..) => (s.pageSeen s.clsAgent, .bad)
    | (s, .ok segs) =>
      let s := s.pageSeen s.clsAgent
      if segs.any (fun g => g.tgt.isReg || (!s.isPeer g.pa && s.poisoned g.pa g.len)) then (s, .bad)
      else
        let peers := (s.peerSegs segs).flatMap Seg.cut
        match s.peerAll s.clsAgent ⟨p, (s.clsCtx p).asid, none⟩ 2 (fun g => [BitVec.ofNat 8 g.len]) peers with
        | (s, none) => (s, .wait)
        | (s, some ans) =>
          if (refusal peers ans).isSome then (s, .bad)
          else (s, .ok (BitVec.ofNat 768 (natOfBytes (s.blockBytes (s.clsCtx p) segs ans))))

/-- CLASS_INSTALL: the pending install command is refused, or freezes its class (R324, R325 step 1). A class number of
4096 or above is refused, which is the model's choice (log 53). -/
def State.classInstall (s : State) (p : Nat) (c : BitVec 16) : State :=
  let w := (s.part p).clscmd
  if !clsBusy w ∨ clsClass w ≠ c ∨ clsOp w = 1 ∨ s.isFrozen p c then s
  else if 2 ≤ clsOp w ∨ 4096 ≤ c.toNat then s.clsEnd p true
  else
    match s.staged p with
    | (s, .wait) => s
    | (s, .bad) => s.clsEnd p true
    | (s, .ok d) =>
      if s.badDesc p d then s.clsEnd p true
      else s.updPart p (fun k => { k with frozen := tset k.frozen c.toNat ⟨1, d, []⟩ })

/-! ## The rest of an install (R325) -/

/-- A run of a class is in progress, or delivered. -/
def State.classRuns (s : State) (p : Nat) (c : BitVec 16) : Bool :=
  s.dir.any (fun e => e.key.part == p && e.key.cls == c && e.st == .live && e.busy)

/-- Is there room for the answers to stores to the sectors of runs that other packages own (R398)? -/
def State.segsRoom (s : State) (gs : List Seg) : Bool :=
  let cuts := (s.peerSegs gs).flatMap Seg.cut
  cuts.all (fun c => decide ((s.outst.filter (fun o => s.routeTo o.dpkg == s.routeTo (paPkg c.pa))).length +
    cuts.length ≤ 96))
/-- Bytes are written to runs, at their owner where another package owns them (R360). -/
def State.writeSegs (s : State) (x : Ctx) (p : Nat) : List Seg → List Byte → State
  | [], _ => s
  | g :: gs, bs =>
    let here := bs.take g.len
    (match g.tgt with
      | .mem pa _ =>
        if s.isPeer pa then g.cut.foldl (fun (s : State) (c : Seg) =>
          let ns := nibsOf c.pa ((here.drop (c.pa - pa)).take c.len)
          (s.sendPeer x.ag 0 (BitVec.ofNat 64 c.va) c.pa 1 ns (nibData (2 * c.pa) ns) ⟨p, x.asid, none⟩).1) s
        else s.devWrite pa here
      | .ctl _ | .regp .. => s).writeSegs x p gs (bs.drop g.len)

/-- Step 3: the descriptor enters the table in memory, as a device access at privilege S to a table that software maps
read-only (R323); none while its page is not resident, or the answer of another package has no room (R398). Where an address of the table fails a check nothing is written
(log 40). -/
def State.writeTable (s : State) (p : Nat) (c : BitVec 16) (d : BitVec 768) : State × Bool :=
  let a := (s.part p).clsbase + BitVec.ofNat 64 (96 * c.toNat)
  match s.check (s.clsCtx p) .read .g a 96 with
  | (s, .ok segs) =>
    if s.segsRoom segs then ((s.pageSeen s.clsAgent).writeSegs (s.clsCtx p) p segs (bytesOfNat 96 d.toNat), true)
    else (s, false)
  | (s, .fail ..) => (s.pageSeen s.clsAgent, true)
  | (s, .wait) => (s, false)

/-- The reserved bits of a descriptor, which read as 0 (R8, R264). -/
def descReserved : BitVec 768 := (31#768 <<< 675) ||| (15#768 <<< 668) ||| (63#768 <<< 658)

/-- Step 3: the descriptor takes effect with its version advanced and its reserved bits 0, and the suppression of the class's tapes is lifted
(R294). False while the table's page is not resident. -/
def State.takeDesc (s : State) (p : Nat) (c : BitVec 16) (d : BitVec 768) : State × Bool :=
  let ver : BitVec 16 := (match s.cls? p c with
    | some o => cdVer o
    | none => 0) + 1
  let d : BitVec 768 := (ver ++ d.extractLsb' 0 752) &&& ~~~descReserved
  match s.writeTable p c d with
  | (s, false) => (s, false)
  | (s, true) => (s.updPart p (fun k => { k with
      classes := tset k.classes c.toNat d
      tapeCtl := k.tapeCtl.map (fun x => if x.cls = c ∧ x.supp then { x with fails := 0, supp := false } else x) }), true)

/-- Step 4: FLINES, SMAP or POL differ. -/
def descMoves (a b : BitVec 768) : Bool :=
  cdLines a != cdLines b || cdSmap a != cdSmap b || cdPol a != cdPol b

/-- Step 4: LIVE actors are retired, under the descriptor of their frames; activations begin again. -/
def State.moveActors (s : State) (p : Nat) (c : BitVec 16) : State :=
  s.dir.foldl (fun (s : State) e =>
    if e.key.part ≠ p ∨ e.key.cls ≠ c then s
    else
      match e.st with
      | .live => s.retireIdle e.key
      | .activating =>
        match e.wait with
        | .fetch | .room => (s.freeFrame e.core e.key).activate e.key
        | .page | .noCore => s.activate e.key
        | .carried | .switch => s
      | .absent | .retiring | .forward | .failed => s) s

/-- Step 5: a held message, which has been accepted, goes on as if it arrived now; none where no entry can be
had for it. With it an entry's messages are no longer provisional: those that are so are answered ACCEPT, PROV is
cleared, and an entry allocated for it has PROV = 0; which the spec leaves open (log 53). -/
def State.takeHeld (s : State) (m : Msg) : Option State :=
  let k := m.akey
  let home := if m.fwd then m.via else s.pkg
  match s.cls? m.part m.cls with
  | none => some (s.lateRefuse home m 7)
  | some d =>
    if 16 ≤ m.sel.toNat ∨ cdEntry d m.sel.toNat = 0xFFFFFF then some (s.lateRefuse home m 6)
    else
      let s := s.touch k
      let start (s : State) : Option State := (s.entry? k).map (fun e =>
        (s.setEntry { e with imp := false, prov := false, pend := [m], excl := none, home }).activate k)
      match s.entry? k with
      | none => (s.alloc k .absent).bind start
      | some e =>
        match e.st with
        | .absent => start s
        | .failed => some (s.lateRefuse home m 9)
        | .activating | .retiring | .live | .forward =>
          some ((s.acceptPend e).setEntry { e with prov := false, pend := e.pend ++ [m] })

/-- Release held messages, in order, as far as they can go. -/
def State.release_ (s : State) : List (Nat × Msg) → State × List (Nat × Msg)
  | [] => (s, [])
  | (n, m) :: rest =>
    match s.takeHeld m with
    | some s => s.release_ rest
    | none => (s, (n, m) :: rest)

/-- The freeze ends: entries of the class deliver and forward again. -/
def State.unfreeze (s : State) (p : Nat) (c : BitVec 16) : State :=
  let s := s.updPart p (fun k => { k with frozen := tdel k.frozen c.toNat })
  let s := s.clsEnd p false
  s.dir.foldl (fun (s : State) e =>
    if e.key.part ≠ p ∨ e.key.cls ≠ c then s
    else
      match e.st with
      | .live => s.deliverLate e.key
      | .forward => (s.touch e.key).forwardAll e.key
      | .absent | .activating | .retiring | .failed => s) s

/-- Steps 3 and 4; false while step 3 waits. -/
def State.installDesc (s : State) (p : Nat) (c : BitVec 16) (d : BitVec 768) : State × Bool :=
  let moves := match s.cls? p c with
    | some o => descMoves o d
    | none => false
  match s.takeDesc p c d with
  | (s, false) => (s, false)
  | (s, true) => (if moves then s.moveActors p c else s, true)

/-- INSTALL_RESUME: no run of the class is in progress; steps 3 to 5. -/
def State.installResume (s : State) (p : Nat) (c : BitVec 16) : State :=
  match (s.part p).frozen.find? (fun f => f.1 == c.toNat) with
  | none => s
  | some (_, f) =>
    if f.step = 1 ∧ s.classRuns p c then s
    else
      match (if f.step ≠ 1 then (s, true) else s.installDesc p c f.desc) with
      | (s, false) => s
      | (s, true) =>
        let (s, left) := s.release_ f.hold
        if left.isEmpty then s.unfreeze p c
        else s.updPart p (fun k => { k with frozen := tset k.frozen c.toNat { f with step := 3, hold := left } })

/-- CLASS_CLEAR: a FAILED entry is freed (R324). -/
def State.classClear (s : State) (p : Nat) (c : BitVec 16) : State :=
  let w := (s.part p).clscmd
  if !clsBusy w ∨ clsClass w ≠ c ∨ clsOp w ≠ 1 then s
  else
    let k : AKey := ⟨p, c, (s.part p).clsarg⟩
    match s.entry? k with
    | some e => if e.st = .failed then (s.delEntry k).clsEnd p false else s.clsEnd p true
    | none => s.clsEnd p true

/-- CLASS_INSTALL. -/
def execClassInstall (p : Nat) (c : BitVec 16) (s : State) : Host.Outcome State Fault Refusal :=
  eventAt (partOk p) (s.classInstall p c)
/-- INSTALL_RESUME. -/
def execInstallResume (p : Nat) (c : BitVec 16) (s : State) : Host.Outcome State Fault Refusal :=
  eventAt (partOk p) (s.installResume p c)
/-- CLASS_CLEAR. -/
def execClassClear (p : Nat) (c : BitVec 16) (s : State) : Host.Outcome State Fault Refusal :=
  eventAt (partOk p) (s.classClear p c)

/-! ## Registers, jobs and debug -/

/-- POOLCFG_WRITE (R42). -/
def execPoolcfgWrite (c : Nat) (x : Word) (s : State) : Host.Outcome State Fault Refusal :=
  eventAt (decide (c < nCores)) (s.poolcfg c x)
/-- FRAMECFG_WRITE (R316). -/
def execFramecfgWrite (c : Nat) (x : Word) (s : State) : Host.Outcome State Fault Refusal :=
  eventAt (decide (c < nCores)) (s.framecfg c x)
/-- EQCFG_WRITE (R383). -/
def execEqcfgWrite (p : Nat) (x : Word) (s : State) : Host.Outcome State Fault Refusal :=
  eventAt (partOk p) (s.eqcfg p x)
/-- JOB_RESET: of the job in JOBSEL (R370). -/
def execJobReset (p : Nat) (s : State) : Host.Outcome State Fault Refusal := eventAt (partOk p) (s.jobcmd p 1)
/-- JOB_CANCEL: of the job in JOBSEL (R370, R283). -/
def execJobCancel (p : Nat) (s : State) : Host.Outcome State Fault Refusal := eventAt (partOk p) (s.jobcmd p 2)
/-- DEBUG_LOOKUP (R391). -/
def execDebugLookup (n : Nat) (x : Word) (s : State) : Host.Outcome State Fault Refusal :=
  eventAt (decide (n < 16)) (s.dlookup n x)
/-- DEBUG_HALT (R381). -/
def execDebugHalt (t : Nat) (s : State) : Host.Outcome State Fault Refusal :=
  eventAt (threadOk t) (s.updThr t (fun h => h.reqHalt (s.time (coreOf t))))
/-- DEBUG_RESUME (R381). -/
def execDebugResume (t : Nat) (s : State) : Host.Outcome State Fault Refusal :=
  eventAt (threadOk t) (s.updThr t (fun h => h.resume (s.time (coreOf t))))
/-- DEBUG_STEP (R381). -/
def execDebugStep (t : Nat) (s : State) : Host.Outcome State Fault Refusal :=
  eventAt (threadOk t) (s.updThr t (fun h => h.reqStep (s.time (coreOf t))))

/-- May a thread's page name a block of the control window (R334)? Firmware's may name any. -/
def State.mayReach (s : State) (t : Nat) (off : Nat) : Bool :=
  (s.thr t).priv == privM ||
    (match blkOf off with
      | .part q _ => q == s.partOf t
      | .core c _ => s.ownsCore (s.partOf t) c
      | .build _ | .cluster .. | .slice .. | .link .. | .route _ | .port .. | .module _ | .none => false)

/-- R432: one write of a register, by whoever may perform it. -/
def State.registerWrite (s : State) (who : Requester) (off : Nat) (x : Word) : State :=
  let off := off / 8 * 8
  match who with
  | .thread t => if s.mayReach t off then s.ctlWrite (.level (s.thr t).priv) off x else s
  | .port p => s.ctlWrite (.port p) off x
  | .firmware => s.ctlWrite (.level privM) off x

/-- Does the build have the agent of a register access? -/
def requesterOk : Requester → Bool
  | .thread t => threadOk t
  | .port p => decide (p < 2)
  | .firmware => true

/-- REGISTER_WRITE. -/
def execRegisterWrite (who : Requester) (off : Nat) (x : Word) (s : State) :
    Host.Outcome State Fault Refusal :=
  eventAt (requesterOk who) (s.registerWrite who off x)

end Sys2Proof.Machine
end

