-- ==== Sys2Proof/Machine/Hosts.lean ====
section
/-! DEFINITION. Host ports and management: packets and completion rings, the semaphore, the management rings and
their commands (R380, R400, R406-R418, R421, R422, R430, R431). -/

namespace Sys2Proof.Machine

def portOk (p : Nat) : Bool := decide (p < 2)

/-! ## The semaphore (R414-R416) -/

/-- MSEM_ACQUIRE. -/
def execMsemAcquire (p : Nat) (x : Word) (s : State) : Host.Outcome State Fault Refusal :=
  eventAt (portOk p) (s.msemTake p x)
/-- MSEM_RELEASE. -/
def execMsemRelease (p : Nat) (s : State) : Host.Outcome State Fault Refusal := eventAt (portOk p) (s.msemDrop p)

/-- R414-R416: the lease of the holder has run out: it loses the semaphore, its ring stops, freezes end. -/
def State.leaseExpire (s : State) : State :=
  let m := s.module
  if !m.held ∨ s.mesh < m.reqAt + 1024 * max 1 m.lease.toNat then s
  else
    let s := { s with module := { m with held := false } }
    (s.setPort m.owner { s.port m.owner with mrstop := 1 }).thaw [0, 1]
/-- LEASE_EXPIRE. -/
def execLeaseExpire (s : State) : Host.Outcome State Fault Refusal := event s.leaseExpire

/-- BATCHREL: the writes of a frozen port are dropped (R410, R415). -/
def execBatchrel (p : Nat) (mask : Word) (s : State) : Host.Outcome State Fault Refusal :=
  eventAt (portOk p) (if (s.port p).frozen then s else s.batch p mask)
/-- MRBASE_WRITE (R416). -/
def execMrbaseWrite (p : Nat) (x : Word) (s : State) : Host.Outcome State Fault Refusal :=
  eventAt (portOk p) (if (s.port p).frozen then s else s.mrbase p x)

/-! ## Packets (R408, R409) -/

/-- Bytes lo to hi − 1 of a slot as a number. -/
def slotNat (b : List Byte) (lo hi : Nat) : Nat := natOfBytes ((b.drop lo).take (hi - lo))

/-- Change an interface. -/
def State.updIf (s : State) (p n : Nat) (f : Iface → Iface) : State :=
  let q := s.port p
  s.setPort p { q with ifs := tset q.ifs n (f (q.iface n)) }

/-- IFCFG's fields (R412). -/
def Iface.bound (f : Iface) : Bool := f.cfg.getLsbD 63
def Iface.revoked (f : Iface) : Bool := f.cfg.getLsbD 62
def Iface.part (f : Iface) : Nat := (f.cfg.extractLsb' 32 7).toNat
def Iface.pasid (f : Iface) : BitVec 20 := f.cfg.extractLsb' 0 20

def Packet.inline (k : Packet) : Bool := k.flags.getLsbD 0
def Packet.hold (k : Packet) : Bool := k.flags.getLsbD 1
def Packet.irq (k : Packet) : Bool := k.flags.getLsbD 2

/-- Reserved fields, FLAGS and lengths are valid. -/
def Packet.valid (k : Packet) : Bool :=
  k.flags.extractLsb' 3 5 == 0 && k.rsv7 == 0 && k.rsv60 == 0 && decide (k.len.toNat ≤ 192) &&
    (!Packet.inline k || decide (k.len.toNat ≤ 32))

/-- An I/O virtual address that the host can translate. -/
def iovaOk (a n : Nat) : Bool := decide (a + n ≤ 2 ^ 44)

/-- What the home map says for a packet (R308). -/
inductive HomeOf where
  | pkg (x : BitVec 9)
  | wait
  | bad
deriving DecidableEq, Repr

/-- The home package of a packet's key: the entry is read in the ASID held in ASIDCUR, at its owner where another
package owns it; one in registers is not read (log 53). -/
def State.portHome (s : State) (p : Nat) (k : AKey) : State × HomeOf :=
  match s.cls? k.part k.cls with
  | none => (s, .pkg s.pkg)
  | some d =>
    if cdHmap d = 0 then (s, .pkg s.pkg)
    else
      let ag := s.portAgent p
      let ea := cdHmap d + BitVec.ofNat 64 (2 * homeIx k.hash (cdHbits d))
      let asid := (s.part k.part).asidcur.extractLsb' 0 16
      let x : Ctx := ⟨ag, (s.partCores k.part).headD 0, some k.part, asid, privU, none, [], 0⟩
      match s.check x .read .g ea 2 with
      | (s, .wait) => (s, .wait)
      | (s, .fail ..) => (s.pageSeen ag, .bad)
      | (s, .ok segs) =>
        let s := s.pageSeen ag
        let peers := (s.peerSegs segs).flatMap Seg.cut
        if segs.any (fun g => g.tgt.isReg || (!s.isPeer g.pa && s.poisonSeg x g)) then (s, .bad)
        else
          match s.peerAll ag ⟨k.part, asid, none⟩ 2 (fun g => [BitVec.ofNat 8 g.len]) peers with
          | (s, none) => (s, .wait)
          | (s, some ans) =>
            if (refusal peers ans).isSome then (s, .bad)
            else (s, .pkg (BitVec.ofNat 9 (natOfBytes (s.blockBytes x segs ans))))

/-- The message of an accepted packet. -/
def State.packetMsg (s : State) (p n : Nat) (f : Iface) (k : Packet) (payload : List Byte) : Msg :=
  { (default : Msg) with
    cls := k.cls, sel := k.sel, len := k.len, job := k.job, host := true, ifn := BitVec.ofNat 6 n, key := k.key,
    sender := s.portAgent p, seq := k.hseq, payload, part := f.part, irq := Packet.irq k, via := s.pkg, no := s.serial,
    asid := (s.part f.part).asidcur.extractLsb' 0 16 }

/-- An accepted packet is dropped, or refused by the port for its message (R308, R409). -/
def State.packetGone (s : State) (p n : Nat) (drop : Bool) : State :=
  s.updIf p n (fun f => { f with
    acc := BitVec.ofNat 64 ((f.acc.toNat + 1) % 2 ^ 32), drop := if drop then satInc32 f.drop else f.drop })

/-- The home packages of an interface's packets are read, the oldest first, until a read waits for a page or for a peer; a
packet whose entry cannot be read is refused by the port (R308); `fuel` bounds the packets. -/
def State.findHomes (s : State) (p n : Nat) : Nat → State
  | 0 => s
  | fuel + 1 =>
    match ((s.port p).iface n).buf.find? (fun b => !b.known) with
    | none => s
    | some b =>
      match s.portHome p b.msg.akey with
      | (s, .wait) => s
      | (s, .bad) =>
        let s := s.updIf p n (fun f => { f with buf := f.buf.erase b })
        (((s.packetGone p n false).jobOut b.msg.part b.msg.job 1).refused b.msg s.pkg 10).findHomes p n fuel
      | (s, .pkg home) =>
        (s.updIf p n (fun f => { f with
          buf := f.buf.map (fun (x : BufPkt) => if x = b then { x with known := true, pkg := home } else x) })).findHomes
          p n fuel
/-- Messages of an interface leave together, once their homes are known. -/
def State.sendIf (s : State) (p n : Nat) : State :=
  let s := s.findHomes p n 32
  if ((s.port p).iface n).buf.any (fun b => b.st == .waiting) then (s.pumpIf p n).together s.flights.length else s
/-- The ports look again for the homes that they could not read. -/
def State.retryHomes (s : State) : State :=
  s.ports.foldl (fun (s : State) (e : Nat × Port) => e.2.ifs.foldl (fun (s : State) (f : Nat × Iface) =>
    if f.2.buf.any (fun b => !b.known) then s.sendIf e.1 f.1 else s) s) s

/-- R409: an accepted packet becomes a message in the interface's buffer. One without HOLD releases those that are held,
which leave with it. -/
def State.packetIn (s : State) (p n : Nat) (f : Iface) (k : Packet) : State :=
  let a := k.paddr.toNat
  let s := s.updIf p n (fun f => { f with next := BitVec.ofNat 64 ((f.next.toNat + 1) % 2 ^ 32) })
  if !Packet.inline k && !iovaOk a k.len.toNat then s.packetGone p n true
  else
    let payload := if Packet.inline k then (k.inl ++ List.replicate 32 0).take k.len.toNat
      else s.rdBytes (hostKey f.pasid.toNat a) k.len.toNat
    let s := if Packet.inline k then s else s.ats p f.pasid.toNat a
    let m := s.packetMsg p n f k payload
    let b : BufPkt := ⟨m, Packet.irq k, false, s.pkg, m.akey.slice, .held⟩
    let s := (s.updIf p n (fun f => { f with buf := f.buf ++ [b] })).jobIn m.part m.job 1
    if Packet.hold k then s.findHomes p n 32
    else (s.updIf p n Iface.release).sendIf p n

/-- PACKET_SUBMIT: a packet is dropped by a frozen port, or one that offers only the recovery function (R420), freezes a
port whose interface is not bound, is refused, or is accepted (R409, R415). -/
def State.packetSubmit (s : State) (p n : Nat) (k : Packet) : State :=
  if (s.port p).frozen ∨ s.module.boot = 7 then s
  else
    let f := (s.port p).iface n
    if !f.bound then s.freezePort p
    else if k.pasid ≠ some f.pasid ∨ f.revoked ∨ k.hseq.setWidth 64 ≠ f.next ∨ !Packet.valid k ∨
        32 ≤ f.buf.length then s.updIf p n (fun f => { f with drop := satInc32 f.drop })
    else s.packetIn p n f k

/-- The 64 bytes of a packet (R408). -/
def Packet.bytes (k : Packet) : List Byte :=
  bytesOfNat 2 k.cls.toNat ++ [k.sel, k.len] ++ bytesOfNat 2 k.job.toNat ++ [k.flags, k.rsv7] ++
    bytesOfNat 8 k.key.toNat ++ bytesOfNat 8 k.paddr.toNat ++ (k.inl ++ List.replicate 32 0).take 32 ++
    bytesOfNat 4 k.hseq.toNat ++ bytesOfNat 4 k.rsv60.toNat
/-- The packet that 64 bytes hold, under a PASID prefix. -/
def packetOf (b : List Byte) (pasid : Option (BitVec 20)) : Packet where
  cls := BitVec.ofNat 16 (slotNat b 0 2)
  sel := b.getD 2 0
  len := b.getD 3 0
  job := BitVec.ofNat 16 (slotNat b 4 6)
  flags := b.getD 6 0
  rsv7 := b.getD 7 0
  key := BitVec.ofNat 64 (slotNat b 8 16)
  paddr := BitVec.ofNat 64 (slotNat b 16 24)
  inl := (b.drop 24).take 32
  hseq := BitVec.ofNat 32 (slotNat b 56 60)
  rsv60 := BitVec.ofNat 32 (slotNat b 60 64)
  pasid := pasid
/-- R408: a 64-byte aligned write of 64 bytes in the notify page of an interface, at its offset in BAR2, submits the
packet that they hold; the port takes no other write there (log 53). -/
def State.notifyWrite (s : State) (p off : Nat) (pasid : Option (BitVec 20)) (b : List Byte) : State :=
  if b.length = 64 ∧ off % 64 = 0 ∧ off < 64 * 4096 then s.packetSubmit p (off / 4096) (packetOf b pasid) else s

/-- PACKET_SUBMIT: the write of a packet's bytes to the first place of the interface's notify page. -/
def execPacketSubmit (p n : Nat) (k : Packet) (s : State) : Host.Outcome State Fault Refusal :=
  eventAt (portOk p && decide (n < 64)) (s.notifyWrite p (4096 * n) k.pasid (Packet.bytes k))

/-! ## Completion rings (R411) -/

/-- COMPLETION_ENTRY: the oldest entry of an interface is written to its ring, and MSI-X sent; none while the
ring is full, and none written where it has no slots. -/
def State.completionEntry (s : State) (p n : Nat) : State :=
  let q := s.port p
  match q.ceq.find? (fun e => e.1 == n) with
  | none => s
  | some e =>
    let f := q.iface n
    let slots := f.csl.toNat
    let used := (f.ctr.toNat + 2 ^ 32 - f.chd.toNat) % 2 ^ 32
    let pop (s : State) : State := s.setPort p { s.port p with ceq := q.ceq.erase e }
    if slots = 0 then pop s
    else if used = slots then s
    else
      let a := f.crb.toNat + 8 * (f.ctr.toNat % slots)
      let s := ((pop s).ats p f.pasid.toNat a).wrNat (hostKey f.pasid.toNat (a % 2 ^ 44)) 8 e.2.toNat
      let s := s.updIf p n (fun f => { f with ctr := BitVec.ofNat 64 ((f.ctr.toNat + 1) % 2 ^ 32) })
      s.setPort p { s.port p with msix := (s.port p).msix ++ [n] }

/-- COMPLETION_ENTRY. -/
def execCompletionEntry (p n : Nat) (s : State) : Host.Outcome State Fault Refusal :=
  eventAt (portOk p && decide (n < 64)) (s.completionEntry p n)

/-! ## Management rings (R416-R418) -/

/-- What performing a command comes to: not yet, or a status with a count and inline result bytes. -/
inductive Done where
  | notYet (s : State)
  | status (s : State) (st n : Nat) (res : List Byte)

/-- Are bytes lo to hi − 1 of a slot zero? -/
def slotZero (b : List Byte) (lo hi : Nat) : Bool := ((b.drop lo).take (hi - lo)).all (fun x => x == 0)

/-- The response to the command at MRDONE is written; the ring goes on, or stops. -/
def State.respond (s : State) (p seq op st n : Nat) (res : List Byte) (stop : Bool) : State :=
  let q := s.port p
  let slots := q.mrslots.toNat
  let a := q.mrrbase.toNat + 64 * (q.mrdone.toNat % slots)
  let body := bytesOfNat 4 seq ++ bytesOfNat 2 op ++ bytesOfNat 1 st ++ [0] ++ bytesOfNat 4 n ++
    (res ++ List.replicate 52 0).take 52
  let s := s.wrBytes (busKey a) body
  let q := s.port p
  if stop then s.setPort p { q with mrstop := BitVec.ofNat 64 (1 + 256 * st) }
  else s.setPort p { q with mrdone := BitVec.ofNat 64 ((q.mrdone.toNat + 1) % 2 ^ 32) }

/-- Perform the command at MRDONE of a port's ring if it is an `op`. -/
def State.ringCmd (s : State) (p op : Nat) (owned : Bool) (f : State → List Byte → Done) : State :=
  let q := s.port p
  if q.mrslots = 0 ∨ q.mrstop.getLsbD 0 ∨ q.mrdone = q.mrtail then s
  else if q.mrrbase = 0 then s.setPort p { q with mrstop := 0x101 }
  else
    let b := s.rdBytes (busKey (q.mrbase.toNat + 64 * (q.mrdone.toNat % q.mrslots.toNat))) 64
    let seq := slotNat b 0 4
    let opc := slotNat b 4 6
    if seq ≠ q.mrdone.toNat % 2 ^ 32 then s.respond p seq opc 3 0 [] true
    else if opc = 0 ∨ 9 < opc ∨ (s.module.boot = 7 ∧ opc ≠ 7 ∧ opc ≠ 9) ∨ !slotZero b 6 8 then
      s.respond p seq opc 1 0 [] false
    else if opc ≠ op then s
    else if owned && !s.holds p then s.respond p seq op 2 0 [] false
    else
      match f s b with
      | .notYet s => s
      | .status s st n res => s.respond p seq op st n res false

/-- A status without a result. -/
def Done.st (s : State) (n : Nat) : Done := .status s n 0 []
/-- Bad arguments: nothing changes. -/
def Done.bad (s : State) : Done := .status s 1 0 []

/-- A result goes to the host buffer that the arguments name; one too short is a bad argument. -/
def State.toBuffer (s : State) (b res : List Byte) : Done :=
  if slotNat b 16 20 < res.length then .bad s
  else .status (s.wrBytes (busKey (slotNat b 8 16)) res) 0 res.length []

/-! ### Partitions (R419, R430) -/

/-- Does a partition exist? -/
def State.partExists (s : State) (p : Nat) : Bool := s.partLive p || (s.part p).pstate == 4

/-- The eight windows of an image. -/
def winImage (b : List Byte) : Vector (Word × Word) 8 :=
  Vector.ofFn (fun i => (BitVec.ofNat 64 (slotNat b (16 * i.val) (16 * i.val + 8)),
    BitVec.ofNat 64 (slotNat b (16 * i.val + 8) (16 * i.val + 16))))
/-- A window that a create refuses. -/
def winBad (w : Word × Word) : Bool :=
  let lo := (w.1.extractLsb' 0 43).toNat
  let hi := (w.2.extractLsb' 0 43).toNat
  w.1 &&& ~~~winMask0 != 0 || w.2 &&& ~~~winMask1 != 0 ||
  ((w.2.getLsbD 62 || w.2.getLsbD 63) &&
    (lo % 49152 != 0 || hi % 49152 != 0 || decide (hi < lo) || decide (hbmEnd < hi)))

/-- PGEN advanced by one, modulo 2^16 (R355). -/
def nextPgen (k : Part) : Word := BitVec.ofNat 64 ((k.pgen.toNat + 1) % 65536)

/-- R430: a create. An image whose address is no multiple of 64 is a bad argument (log 35). -/
def State.createPart (s : State) (b : List Byte) : Done :=
  let p := slotNat b 9 10
  let wimg := slotNat b 16 24
  let ws := winImage (s.rdBytes (busKey wimg) 128)
  if nParts ≤ p ∨ s.partExists p ∨ slotNat b 8 9 ≠ 0 ∨ !slotZero b 10 16 ∨ !slotZero b 24 64 ∨
      wimg % 64 ≠ 0 ∨ ws.toList.any winBad then .bad s
  else
    .st (s.setPart p { Part.init with
      pgen := nextPgen (s.part p), physw := ws, pstate := 1, tapeRoom := Config.tapeRoom p }) 0

/-- What a destroyed partition leaves in the package's tables goes, and its block's registers but PGEN are 0 (R419). -/
def State.forgetPart (s : State) (p : Nat) : State :=
  let old := s.rotClusters p
  let s := { s with
    dir := s.dir.filter (fun e => e.key.part != p), markers := s.markers.filter (fun m => m.key.part != p)
    notices := s.notices.filter (fun n => n.key.part != p), adds := s.adds.filter (fun a => a.part != p)
    tcache := s.tcache.filter (fun x => x.leaf.part != p), pins := s.pins.filter (fun x => x.part != p)
    l2 := s.l2.map (fun e => (e.1, e.2.filter (fun l => l.part != p)))
    clusters := s.clusters.map (fun (j : Nat × Cluster) => (j.1, { j.2 with
      tapeCache := j.2.tapeCache.filter (fun x => x.part != p) }))
    cores := s.cores.map (fun (c : Nat × Core) => (c.1, { c.2 with
      rights := c.2.rights.filter (fun f => f.part != p), l1 := c.2.l1.filter (fun l => l.part != p) })) }
  let s := old.foldl (fun (s : State) j => s.setClus j { s.clus j with rot := rotWithout (s.clus j).rot p }) s
  let s := s.setPart p { Part.init with pgen := nextPgen (s.part p), unitbudget := 0, eqcfg := 0 }
  old.foldl (fun (s : State) j =>
    if (s.runs j).isNone ∧ !(s.clus j).switching then s.beginSlice j else s) s

/-- A partition begins to leave its clusters. -/
def State.drainPart (s : State) (p : Nat) : State :=
  (s.partClusters p).foldl (fun (s : State) j =>
    if s.runs j = some p ∧ !(s.clus j).switching then s.switchOut j else s)
    (s.updPart p (fun k => { k with pstate := 2 }))
/-- Does a partition still run on a cluster? -/
def State.partRuns (s : State) (p : Nat) : Bool := (s.partClusters p).any (fun j => s.runs j == some p)

/-- R430, R419: a destroy, once the partition is drained. -/
def State.destroyPart (s : State) (b : List Byte) : Done :=
  let p := slotNat b 9 10
  if nParts ≤ p ∨ !s.partExists p then .bad s
  else
    let s := if (s.part p).dying then s else (s.updPart p (fun k => { k with dying := true })).drainPart p
    if s.partRuns p then .notYet s else .st (s.forgetPart p) 0

/-- CREATE_PARTITION: OP 1, ACT other than 1. -/
def execCreatePartition (p : Nat) (s : State) : Host.Outcome State Fault Refusal :=
  eventAt (portOk p) (s.ringCmd p 1 true (fun s b => if slotNat b 8 9 = 1 then .notYet s else s.createPart b))
/-- DESTROY_PARTITION: OP 1, ACT 1. -/
def execDestroyPartition (p : Nat) (s : State) : Host.Outcome State Fault Refusal :=
  eventAt (portOk p) (s.ringCmd p 1 true (fun s b => if slotNat b 8 9 = 1 then s.destroyPart b else .notYet s))

/-! ### Rotation and migration (R374, R375, R380) -/

/-- WRITE_ROTATION: OP 2, a rotation or permission register by its offset in the cluster's block. -/
def execWriteRotation (p j reg : Nat) (x : Word) (s : State) : Host.Outcome State Fault Refusal :=
  eventAt (portOk p) (s.ringCmd p 2 true (fun s _ =>
    if j < nClusters ∧ reg % 8 = 0 ∧ (reg < 0x20 ∨ 0x100 ≤ reg ∧ reg < 0x128) then .st (s.clusWrite j reg x) 0
    else .bad s))

/-- R380: may a partition move to the clusters? -/
def State.mayMove (s : State) (q : Nat) (cl : List Nat) : Bool :=
  let old := s.rotClusters q
  decide (q < nParts) && (s.part q).pstate == 1 && (rising cl).length == cl.length && cl.length == old.length &&
    cl.all (fun j => decide (j < nClusters) &&
      (old.contains j || (s.clus j).rot.toList.any (fun r => !rotEn r)))

/-- R380: the move begins, and is done when the partition runs on its new clusters. -/
def State.movePart (s : State) (q : Nat) (cl : List Nat) : Done :=
  if (s.part q).moveTo ≠ [] then
    if (s.part q).pstate = 1 then .st (s.updPart q (fun k => { k with moveTo := [] })) 0 else .notYet s
  else if !s.mayMove q cl then .bad s
  else
    let s := (s.updPart q (fun k => { k with moveTo := cl })).drainPart q
    if s.partRuns q then .notYet s
    else .st ((s.finishMove q).updPart q (fun k => { k with moveTo := [] })) 0

/-- MIGRATE_PARTITION: OP 3. -/
def execMigratePartition (p q : Nat) (cl : List Nat) (s : State) : Host.Outcome State Fault Refusal :=
  eventAt (portOk p) (s.ringCmd p 3 true (fun s _ => s.movePart q cl))

/-! ### Bindings (R407, R412, R413, R431) -/

/-- A PASID that is bound anew is no longer revoked (R413). -/
def State.unrevoke (s : State) (pasid : Option (BitVec 20)) : State :=
  { s with module := { s.module with revoked := s.module.revoked.filter (fun x => some x != pasid) } }

/-- R431: bind or unbind, once no page request of the partition is outstanding. -/
def State.bind_ (s : State) (b : List Byte) : Done :=
  let p := slotNat b 8 9
  let flg := slotNat b 9 10
  let pasid := slotNat b 12 16
  let unbind := flg / 128 == 1
  if nParts ≤ p ∨ !s.partExists p ∨ flg / 2 % 64 ≠ 0 ∨ !slotZero b 10 12 ∨ 2 ^ 20 ≤ pasid ∨ !slotZero b 16 64 ∨
      (unbind ∧ pasid ≠ 0) then .bad s
  else if s.pagereq.any (fun e => decide (e.1 < answered) && e.2.part == p) then
    .notYet (s.updPart p (fun k => { k with binding := true }))
  else
    .st ((s.unrevoke (if unbind then none else some (BitVec.ofNat 20 pasid))).updPart p (fun k => { k with
      binding := false, hostbind := if unbind then k.hostbind &&& 0x7FFFFFFFFFFFFFFF#64
      else 0x8000000000000000#64 ||| BitVec.ofNat 64 (flg % 2 * 2 ^ 48 + pasid) })) 0

/-- BIND_PORT: OP 4 without UNBIND. -/
def execBindPort (p : Nat) (s : State) : Host.Outcome State Fault Refusal :=
  eventAt (portOk p) (s.ringCmd p 4 true (fun s b => if slotNat b 9 10 / 128 = 1 then .notYet s else s.bind_ b))
/-- UNBIND_PORT: OP 4 with UNBIND. -/
def execUnbindPort (p : Nat) (s : State) : Host.Outcome State Fault Refusal :=
  eventAt (portOk p) (s.ringCmd p 4 true (fun s b => if slotNat b 9 10 / 128 = 1 then s.bind_ b else .notYet s))

/-- BIND_INTERFACE: OP 5 (R413). -/
def execBindInterface (p q n k : Nat) (pasid : BitVec 20) (s : State) : Host.Outcome State Fault Refusal :=
  eventAt (portOk p) (s.ringCmd p 5 true (fun s _ =>
    if portOk q ∧ n < 64 ∧ k < nParts ∧ s.partExists k then
      .st ((s.unrevoke (some pasid)).updIf q n (fun f => { f with
        cfg := 0x8000000000000000#64 ||| BitVec.ofNat 64 (k * 2 ^ 32 + pasid.toNat), next := 0 })) 0
    else .bad s))

/-- R413: the PASID is revoked, at every interface that carries it and for the partitions bound to it, and its
translations are dropped. -/
def State.revoke (s : State) (pasid : BitVec 20) : State :=
  s.ports.foldl (fun (s : State) (e : Nat × Port) =>
    let q := s.port e.1
    s.setPort e.1 { q with
      ifs := q.ifs.map (fun (f : Nat × Iface) =>
        if f.2.bound && f.2.pasid == pasid then (f.1, { f.2 with cfg := f.2.cfg ||| 0x4000000000000000#64 }) else f)
      xlat := q.xlat.filter (fun x => x.1 != pasid.toNat) })
    { s with module := { s.module with revoked := pasid :: s.module.revoked.filter (fun x => x != pasid) } }
/-- REVOKE: OP 5. -/
def execRevoke (p : Nat) (pasid : BitVec 20) (s : State) : Host.Outcome State Fault Refusal :=
  eventAt (portOk p) (s.ringCmd p 5 true (fun s _ => .st (s.revoke pasid) 0))

/-- WRITE_ROUTE: OP 6 (R400). -/
def execWriteRoute (p dst : Nat) (x : Word) (s : State) : Host.Outcome State Fault Refusal :=
  eventAt (portOk p) (s.ringCmd p 6 true (fun s _ =>
    if dst < 512 then .st (s.routeWrite dst (x &&& 0x800000000000003F#64)) 0 else .bad s))

/-! ### Firmware and attestation (R421, R422) -/

/-- Fields of an image: the header of 192 bytes, the body, the signature (log 6). -/
def imgLen (b : List Byte) : Nat := slotNat b 4 8
def imgSvn (b : List Byte) : Nat := slotNat b 8 12
def imgBody (b : List Byte) : List Byte := (b.drop 192).take (imgLen b)
def imgSig (b : List Byte) : List Byte := b.drop (192 + imgLen b)

/-- R421: the boot ROM accepts the image. -/
def imageOk (b : List Byte) (fused : Nat) : Bool :=
  b.take 4 == [0x5A, 0x46, 0x57, 0x01] && b.length == 192 + imgLen b + 7856 && decide (fused ≤ imgSvn b) &&
    Config.signatureOk (b.take 192) (imgSig b) &&
    (Config.sha256 (imgBody b)).toNat == slotNat b 12 44

/-- R421: an image is staged in a slot, and with `act` activated: the fused counter rises to its SVN. -/
def State.image (s : State) (slot : Nat) (act : Bool) (img : List Byte) : Done :=
  let m := s.module
  if 2 ≤ slot ∨ (act ∧ !imageOk img m.fused) then .bad s
  else .st { s with module := { m with
    slots := Vector.ofFn (fun i => if i.val = slot then img else m.slots[i])
    fused := if act then imgSvn img else m.fused } } 0
/-- FIRMWARE_IMAGE: OP 7. -/
def execFirmwareImage (p slot : Nat) (act : Bool) (img : List Byte) (s : State) :
    Host.Outcome State Fault Refusal :=
  eventAt (portOk p) (s.ringCmd p 7 true (fun s _ => s.image slot act img))

/-- The partition, rotation and binding registers, as a quote covers them. -/
def State.quoteRegs (s : State) : List Byte :=
  (List.range nParts).flatMap (fun p => (List.range 0x50).flatMap (fun i =>
    bytesOfNat 8 (s.partRead p (8 * i)).toNat)) ++
  (List.range nClusters).flatMap (fun j => (s.clus j).rot.toList.flatMap (fun w => bytesOfNat 8 w.toNat)) ++
  [0, 1].flatMap (fun p => (List.range 64).flatMap (fun n => bytesOfNat 8 ((s.port p).iface n).cfg.toNat))

/-- The 384 bytes of the build table (R140). -/
def State.buildBytes (s : State) : List Byte :=
  (List.range 48).flatMap (fun i => bytesOfNat 8 (s.build.getD i 0).toNat)
/-- R422: what a quote covers, and its signature. -/
def State.quote (s : State) (nonce : BitVec 256) : List Byte :=
  let sha (b : List Byte) : List Byte := bytesOfNat 32 (Config.sha256 b).toNat
  let x := bytesOfNat 32 nonce.toNat ++ bytesOfNat 2 s.pkg.toNat ++ bytesOfNat 8 s.timebase.toNat ++
    sha s.module.image ++ sha s.buildBytes ++ sha s.quoteRegs
  x ++ (Config.quoteSignature x).toList

/-- ATTESTATION_QUOTE: OP 8. -/
def execAttestationQuote (p : Nat) (nonce : BitVec 256) (s : State) : Host.Outcome State Fault Refusal :=
  eventAt (portOk p) (s.ringCmd p 8 false (fun s b => s.toBuffer b (s.quote nonce)))
/-- READ_ERROR_RING: OP 9. -/
def execReadErrorRing (p : Nat) (s : State) : Host.Outcome State Fault Refusal :=
  eventAt (portOk p) (s.ringCmd p 9 false (fun s b =>
    s.toBuffer b (s.module.ring.flatMap (fun r => bytesOfNat 96 r.toNat))))

end Sys2Proof.Machine
end

