-- ==== Sys2Proof/Machine/Fabric.lean ====
section
/-! DEFINITION. The fabric and the outside: flits and links, accesses by peers, CXL requests of a host, resets and
the caps of power and cooling (R134, R360, R361, R395-R406, R419, R420, R423). -/

namespace Sys2Proof.Machine

def nLinks : Nat := 36

/-! ## Accesses by peers (R360, R361) -/

/-- Do windows, each from its first address to its end, cover the addresses lo to hi − 1? -/
def coveredBy (ws : List (Nat × Nat)) (lo hi : Nat) : Nat → Bool
  | 0 => decide (hi ≤ lo)
  | n + 1 =>
    if hi ≤ lo then true
    else match ws.find? (fun w => decide (w.1 ≤ lo) && decide (lo < w.2)) with
      | some w => coveredBy ws w.2 hi n
      | none => false

/-- The local ranges that a partition owns: its enabled windows of HBM, and the windows of its clusters. -/
def State.ownRanges (s : State) (p : Nat) : List (Nat × Nat) :=
  ((s.part p).physw.toList.filter (fun w => w.2.getLsbD 62)).map (fun w =>
      ((w.1.extractLsb' 0 43).toNat, (w.2.extractLsb' 0 43).toNat)) ++
    (s.partClusters p).flatMap (fun j => [(coreBase (8 * j), coreBase (8 * j + 8)), (clusBase j, clusBase (j + 1))])

/-- R361: the windows of PEXP that are used for an access to the local bytes l to l + n − 1. -/
def State.exports (s : State) (p l n : Nat) : List (Word × Word) :=
  let own := s.ownRanges p
  (s.part p).pexp.toList.filter (fun w =>
    (w.2.getLsbD 62 || w.2.getLsbD 63) && winCovers w l (l + n) &&
      coveredBy own (w.1.extractLsb' 0 43).toNat (w.2.extractLsb' 0 43).toNat own.length)

/-- The reason with which a target refuses a peer access, or 0 (R361, R132). -/
def State.peerRefuses (s : State) (p : Nat) (wr : Bool) (pa n : Nat) : BitVec 4 :=
  let l := paLocal pa
  let ws := s.exports p l n
  if nParts ≤ p || !s.partLive p then 3
  else if ws.isEmpty then 1
  else if ws.all (fun w => !(if wr then w.2.getLsbD 63 else w.2.getLsbD 62)) then 2
  else if (List.range n).any (fun i => match s.target (some p) 0 (pa + i) 0 with
      | .ok (.mem ..) => false
      | _ => true) then 1
  else 0

/-- The locations that a store of a flit writes. -/
def storeNibs (base : Nat) : List Byte → Nibs
  | o :: x :: rest => (base + o.toNat, x.extractLsb' 0 4) :: storeNibs base rest
  | _ => []

/-- A peer's store is performed at the package holding point (R345). -/
def State.peerWrite (s : State) (ns : Nibs) : State := s.land none ns

/-- The new value of an atomic that a flit carries, or nothing where it writes nothing. -/
def peerAtomic (op n old : Nat) (b c : Word) : Option Nat :=
  match AmoOp.ofCode (BitVec.ofNat 8 op) with
  | some o => some (amoOp o n old (b.toNat % 2 ^ (8 * n)))
  | none =>
    match op with
    | 10 => if old = c.toNat % 2 ^ (8 * n) then some (b.toNat % 2 ^ (8 * n)) else none
    | 15 => some (futWrite (BitVec.ofNat 128 old) b).1.toNat
    | _ => (AmofOp.ofCode (BitVec.ofNat 8 (op - 10))).map (fun o => (amofOp o old (b.toNat % 2 ^ 32)).1)

/-- A store, load or atomic of another package. -/
def State.peerAccess (s : State) (f : Flit) : State :=
  let pa := f.addr.toNat
  let p := f.part.toNat
  let d := f.data
  match f.typ.toNat with
  | 1 =>
    let ns := storeNibs (2 * pa) d
    let n := ns.foldl (fun m x => max m (x.1 / 2 + 1 - pa)) 0
    let r := s.peerRefuses p true pa n
    if r ≠ 0 then s.reply f 0x06 r [] else (s.peerWrite ns).reply f 0x05 0 []
  | 2 =>
    let n := (d.headD 0).toNat
    let r := s.peerRefuses p false pa n
    if r ≠ 0 then s.reply f 0x06 r []
    else if s.poisoned pa n then s.reply f 0x06 5 []
    else s.reply f 0x04 0 (s.llcBytes pa n)
  | _ =>
    let op := (d.headD 0).toNat
    let n := (d.getD 1 0).toNat
    let b := BitVec.ofNat 64 (slotNat d 2 10)
    let c := BitVec.ofNat 64 (slotNat d 10 18)
    let r := s.peerRefuses p true pa n
    if r ≠ 0 then s.reply f 0x06 r []
    else if s.poisoned pa n then s.reply f 0x06 5 []
    else
      let old := s.llcBytes pa n
      let s := match peerAtomic op n (natOfBytes old) b c with
        | some x => s.peerWrite (nibsOf pa (bytesOfNat n x))
        | none => s
      s.reply f 0x04 0 old

/-! ## Flits (R395-R397, R402) -/

/-- An answer to a request of this package; one that nothing awaits is counted. -/
def State.flitAnswer (s : State) (l : Nat) (f : Flit) (ans : PeerAns) : State :=
  match s.outst? f.tag.toNat with
  | some o => (s.peerDone o ans).routeFlush
  | none => s.setLink l { s.link l with late := min 65535 ((s.link l).late + 1) }

/-- An answer to a message of this package. -/
def State.msgAnswered (s : State) (f : Flit) (a : Answer) : State :=
  match f.msgs with
  | m :: _ => { s with answers := s.answers ++ [⟨m, a, f.home⟩] }
  | [] => s

/-- A message from another package is on its way to its slice; the partition's jobs count it from here. -/
def State.msgIn (s : State) (f : Flit) : State :=
  match f.msgs with
  | m :: _ =>
    let m := { m with via := idPkg f.sagent, part := f.part.toNat }
    let s := if s.partLive m.part then s.jobIn m.part m.job 1 else s
    { s with flights := s.flights ++ [⟨m, m.akey.slice, 0⟩] }
  | [] => s

/-- The types that R397 gives a meaning. -/
def flitTypes : List Nat := [1, 2, 3, 4, 5, 6, 8, 9, 10, 16, 17, 18, 19, 20, 21, 24]

/-- A flit for this package. -/
def State.flitHere (s : State) (l : Nat) (f : Flit) : State :=
  let src := (idPkg f.sagent).toNat
  match f.typ.toNat with
  | 0x04 => s.flitAnswer l f (.reply f.data)
  | 0x05 =>
    if !f.msgs.isEmpty then s.msgAnswered f .accept
    else if f.data = [1] then s.moveDone f.key
    else s.flitAnswer l f .ack
  | 0x06 => s.flitAnswer l f (.refuse (f.reason.setWidth 8))
  | 0x08 => s.msgIn f
  | 0x09 => s.msgAnswered f .retry
  | 0x0A => s.msgAnswered f (.refuse (f.reason.setWidth 8))
  | 0x10 => s.moving f.key src
  | 0x11 => s.movingAck f.key
  | 0x12 => s.moved f.key src f.home.toNat
  | 0x13 => s.exportOffer f.key src
  | 0x14 => s.exportReply f.key (f.reason == 0)
  | 0x15 => s.carriedPart f src
  | 0x18 => s.withdraw f.key f.sagent ((f.data.headD 0).setWidth 6) (BitVec.ofNat 32 (slotNat f.data 1 5))
  | _ => s.peerAccess f

/-- A flit for another package goes on by this package's route table, without touching its memory (R400). -/
def State.flitOn (s : State) (f : Flit) : State :=
  match s.pass f with
  | (s, true) => s
  | (s, false) => s.noPath f

/-! ## Receive buffers (R395, R398) -/

/-- A buffer of a lane, and one replaced. -/
def Link.lane (k : Link) (vl : Nat) : List Flit := k.buf.toList.getD vl []
def Link.setLane (k : Link) (vl : Nat) (fs : List Flit) : Link :=
  { k with buf := Vector.ofFn (fun i => if i.val = vl then fs else k.buf[i]) }
/-- The receiver stops a lane whose buffer holds 64 flits, and lets it go on at 32 (R398). -/
def Link.signal (k : Link) (vl : Nat) : Link :=
  let n := (k.lane vl).length
  { k with stopped := Vector.ofFn (fun i =>
      if i.val = vl then decide (64 ≤ n) || (decide (32 < n) && k.stopped[i]) else k.stopped[i]) }

/-- A notice that is applied in R311's order at its key's slice. -/
def isNotice (f : Flit) : Bool :=
  (f.typ == 0x05 && f.msgs.isEmpty && f.data == [1]) || [0x10, 0x11, 0x12, 0x13, 0x15].contains f.typ.toNat

/-- Must a flit wait in its buffer? One for another package for its lane there (R398, R400); a notice for its turn at
the slice (R311), MOVING also for the messages that the home has forwarded to leave (R326), a carried message for a slot
(log 48). -/
def State.flitWaits (s : State) (f : Flit) : Bool :=
  if f.dpkg ≠ s.pkg then
    s.routeHeld f.dpkg.toNat f.vl ||
      (match s.routeTo f.dpkg.toNat with
        | some l => (s.link l).held f.vl
        | none => false)
  else
    (isNotice f && (s.takes f.key.slice (.notice 5 (idPkg f.sagent ++ (0 : BitVec 23)))).isNone) ||
      (f.typ == 0x10 && s.laneWaits (idPkg f.sagent).toNat) ||
      (f.typ == 0x15 && !f.msgs.isEmpty && !s.slotFree f.key.slice)

/-- The first flit of a message that has a second (R395). -/
def isFirst (f : Flit) : Bool := f.typ == 8 && f.msgs.any (fun m => decide (144 < m.len.toNat))
/-- The message of two flits. -/
def joinFlits (f g : Flit) : Flit :=
  { f with msgs := f.msgs.map (fun m => { m with payload := m.payload.take 144 ++ g.data }) }

/-- The flits at the head of a lane's buffer that go together, and the others. -/
def headFlits : List Flit → Option (List Flit × List Flit)
  | [] => none
  | f :: rest =>
    if isFirst f then
      match rest with
      | g :: rest => some ([f, g], rest)
      | [] => none
    else some ([f], rest)

/-- The head of a lane's buffer is taken, unless it has to wait. -/
def State.takeHead (s : State) (l vl : Nat) : Option State :=
  match headFlits ((s.link l).lane vl) with
  | none => none
  | some (fs, rest) =>
    if fs.any s.flitWaits then none
    else
      let s := s.setLink l (((s.link l).setLane vl rest).signal vl)
      match fs with
      | [f, g] => some (if f.dpkg = s.pkg then s.flitHere l (joinFlits f g) else (s.flitOn f).flitOn g)
      | _ => some (fs.foldl (fun (s : State) f => if f.dpkg = s.pkg then s.flitHere l f else s.flitOn f) s)

/-- A lane's buffer is taken from, as far as it goes. -/
def State.drainLane (s : State) (l vl : Nat) : Nat → State
  | 0 => s
  | n + 1 => match s.takeHead l vl with
    | none => s
    | some s => s.drainLane l vl n

/-- Every lane of every link is taken from; a stopped lane delays no other (R398). -/
def State.serve (s : State) : State :=
  s.links.foldl (fun (s : State) (e : Nat × Link) =>
    if e.2.buf.toList.all (fun b => b.isEmpty) then s
    else (List.range 4).foldl (fun (s : State) vl => s.drainLane e.1 vl 96) s) s

/-- A flit arrives on a link that is up, and is taken from its lane's buffer when its turn comes. A reserved type is
dropped and counted (R397); a full buffer receives none, since the far side has been stopped (R398). -/
def State.flitReceive (s : State) (l : Nat) (f : Flit) : State :=
  let k := s.link l
  let vl := f.vl.toNat
  if !k.up ∨ 96 ≤ (k.lane vl).length then s
  else if !flitTypes.contains f.typ.toNat then s.setLink l { k with bad := min 65535 (k.bad + 1) }
  else (s.setLink l ((k.setLane vl (k.lane vl ++ [f])).signal vl)).drainLane l vl 96

/-- FLIT_RECEIVE. -/
def execFlitReceive (link : Nat) (f : Flit) (s : State) : Host.Outcome State Fault Refusal :=
  eventAt (decide (link < nLinks)) (s.flitReceive link f)

/-! ## Links (R398, R399) -/

/-- The flits of a lane that waited leave, in order, if the link is up. -/
def Link.goOn (k : Link) (vl : BitVec 2) : Link :=
  if !k.up then k
  else (k.queue.filter (fun f => f.vl == vl)).foldl Link.send { k with queue := k.queue.filter (fun f => f.vl != vl) }

/-- A link goes down: the flits that wait on it are refused (R399, R400). -/
def State.takeDown (s : State) (l : Nat) : State :=
  let k := s.link l
  k.queue.foldl (fun (s : State) f => s.noPath f) (s.setLink l { k with up := false, queue := [] })
/-- FLIT_RESEND: flit n of the replay buffer fails its CRC, those before it having arrived. It is resent, which is
visible only in the counter; one that has failed 8 resends takes the link down (R399). -/
def State.flitResend (s : State) (l n : Nat) : State :=
  let k := s.link l
  if !k.up ∨ k.replay.length ≤ n then s
  else if n = 0 ∧ 8 ≤ k.fails then s.takeDown l
  else s.setLink l { k with
    replayed := min (2 ^ 24 - 1) (k.replayed + 1), replay := k.replay.drop n,
    fails := if n = 0 then k.fails + 1 else 1 }
/-- LINK_DOWN: after 8 failed resends of one flit. -/
def State.linkDown (s : State) (l : Nat) : State :=
  if (s.link l).fails < 8 ∨ !(s.link l).up then s else s.takeDown l
/-- LINK_TRAINED. -/
def State.linkTrained (s : State) (l : Nat) : State :=
  let k := s.link l
  if k.up then s
  else s.setLink l { k with up := true, fails := 0, replay := [], stop := Vector.replicate 4 false }

/-- FLOW_STOP_GO: the far side stops a lane, or lets it go on: what waits for the lane leaves. -/
def State.flowStopGo (s : State) (l : Nat) (vl : BitVec 2) (stop : Bool) : State :=
  let k := { s.link l with stop := Vector.ofFn (fun i => if i.val = vl.toNat then stop else (s.link l).stop[i]) }
  if stop then s.setLink l k else (s.setLink l (k.goOn vl)).markLeft.serve

/-- FLIT_RESEND. -/
def execFlitResend (f : SentFlit) (s : State) : Host.Outcome State Fault Refusal :=
  eventAt (decide (f.link < nLinks)) (s.flitResend f.link f.place)
/-- LINK_DOWN. -/
def execLinkDown (link : Nat) (s : State) : Host.Outcome State Fault Refusal :=
  eventAt (decide (link < nLinks)) (s.linkDown link)
/-- LINK_TRAINED. -/
def execLinkTrained (link : Nat) (s : State) : Host.Outcome State Fault Refusal :=
  eventAt (decide (link < nLinks)) (s.linkTrained link)
/-- FLOW_STOP_GO. -/
def execFlowStopGo (link : Nat) (vl : BitVec 2) (stop : Bool) (s : State) : Host.Outcome State Fault Refusal :=
  eventAt (decide (link < nLinks)) (s.flowStopGo link vl stop)

/-! ## CXL (R134, R404-R406) -/

/-- A host's write of registers through BAR0, word by word; `fuel` bounds the words. -/
def State.hostRegs (s : State) (p off : Nat) (bs : List Byte) : Nat → State
  | 0 => s
  | n + 1 =>
    if bs.isEmpty then s
    else
      let k := off % 8
      let here := bs.take (8 - k)
      (s.ctlPut (.port p) (off / 8 * 8) (placeBytes k here) (placeBytes k (List.replicate here.length 0xFF))).hostRegs p
        (off + (8 - k)) (bs.drop (8 - k)) n

/-- Is a physical address one of this package's HBM, or of its control window? -/
def State.ownHbm (s : State) (pa n : Nat) : Bool :=
  paPkg pa == s.pkg.toNat && decide (paLocal pa + n ≤ hbmEnd)
def State.ownCtl (s : State) (pa n : Nat) : Bool :=
  paPkg pa == s.pkg.toNat && decide (ctlWin ≤ paLocal pa) && decide (paLocal pa + n ≤ ctlEnd)

/-- A store of a port's agent joins its issue queue; the number of the store. -/
def State.hostStore (s : State) (p : Nat) (strict : Bool) (pa : Nat) (data : List Byte) : State × Nat :=
  let id := s.portAgent p
  let a := s.agent id
  let st : SbStore := ⟨⟨s.serial, 0, 0, BitVec.ofNat 64 pa, if strict then some 6 else none, default⟩, nibsOf pa data⟩
  ({ s.setAgent id { a with iq := a.iq ++ [.store st] } with serial := s.serial + 1 }, s.serial)
/-- A load of a port's agent joins its issue queue; the tag of its completion. -/
def State.hostLoad (s : State) (p pa n : Nat) : State × Nat :=
  let id := s.portAgent p
  let a := s.agent id
  let tag := s.tags
  ({ s.setAgent id { a with iq := a.iq ++ [.load s.serial 0 (.port tag) (BitVec.ofNat 64 pa) pa n none] } with
    serial := s.serial + 1, tags := tag + 1 }, tag)
/-- A read that is answered at once. -/
def State.hostNow (s : State) (p : Nat) (x : HostAns) : State :=
  { s.hostReply p s.tags x with tags := s.tags + 1 }

/-- What a port offers of the control window: where no image stands only the recovery function, whose rings' registers
and semaphore lie in the module block (R420). -/
def State.offers (s : State) (off : Nat) : Bool :=
  s.module.boot != 7 || (match blkOf off with
    | .module _ => true
    | .build _ | .part .. | .core .. | .cluster .. | .slice .. | .link .. | .route _ | .port .. | .none => false)

/-- CXL_POSTED_WRITE: a store of the port's agent, or a write of registers; a frozen port drops it (R415), and what is not
offered has no effect. -/
def State.postedWrite (s : State) (p : Nat) (strict : Bool) (pa : Nat) (data : List Byte) : State :=
  if (s.port p).frozen ∨ data.isEmpty then s
  else if s.ownCtl pa data.length then
    (if s.offers (paLocal pa - ctlWin) then s.hostRegs p (paLocal pa - ctlWin) data (data.length + 1) else s)
  else if s.ownHbm pa data.length && s.module.boot != 7 then (s.hostStore p strict pa data).1
  else s

/-- CXL_READ: a load of the port's agent, or a read of registers; a frozen port's is aborted (R415), and one of
nothing, or of what is not offered, is an unsupported request. -/
def State.hostRead (s : State) (p pa n : Nat) : State :=
  if (s.port p).frozen then s.hostNow p .abort
  else if s.ownCtl pa n && s.offers (paLocal pa - ctlWin) then
    s.hostNow p (.data (s.regBytes (.ctl (paLocal pa - ctlWin)) n))
  else if s.ownHbm pa n && s.module.boot != 7 then (s.hostLoad p pa n).1
  else s.hostNow p .unsupported

/-- A CXL.mem request: an offset in the port's range is local HBM from HDMBASE. Outside it, or where no memory is offered
(R420), every access is answered as an unsupported request (R405), and a write outside freezes the port (R415). -/
def State.memDo (s : State) (p : Nat) (r : MemReq) : State :=
  let q := s.port p
  let pa := mkPa s.pkg (q.hdmbase.toNat + r.off)
  if q.frozen then (if r.wr then s else s.hostNow p .abort)
  else if s.module.boot = 7 then s.hostNow p .unsupported
  else if q.hdmsize.toNat < r.off + r.data.length then
    (if r.wr then (s.hostNow p .unsupported).freezePort p else s.hostNow p .unsupported)
  else
    let (s, x) : State × (Bool × Nat) :=
      if r.wr then (let (s, n) := s.hostStore p false pa r.data; (s, (true, n)))
      else (let (s, n) := s.hostLoad p pa r.data.length; (s, (false, n)))
    s.setPort p { s.port p with memOut := (s.port p).memOut ++ [x] }

/-- R406: a range that waited takes effect once no CXL.mem request of the port is outstanding; the requests that have
waited for it go on. -/
def State.memFlush (s : State) (p : Nat) : State :=
  match (s.port p).hdmNew with
  | none => s
  | some r =>
    if (s.memLeft p).isEmpty then
      let q := s.port p
      q.memWait.foldl (fun (s : State) x => s.memDo p x)
        (s.setPort p { q with hdmbase := r.1, hdmsize := r.2, hdmNew := none, memOut := [], memWait := [] })
    else s

/-- CXL_MEM_ACCESS; one that arrives while a new range waits, waits too (R406). -/
def State.memAccess (s : State) (p : Nat) (wr : Bool) (off : Nat) (data : List Byte) : State :=
  let s := s.memFlush p
  let q := s.port p
  if q.hdmNew.isSome then s.setPort p { q with memWait := q.memWait ++ [⟨wr, off, data⟩] }
  else (s.setPort p { q with memOut := s.memLeft p }).memDo p ⟨wr, off, data⟩

/-- CXL_POSTED_WRITE. -/
def execCxlPostedWrite (port : Nat) (strict : Bool) (pa : Nat) (data : List Byte) (s : State) :
    Host.Outcome State Fault Refusal := eventAt (portOk port) (s.postedWrite port strict pa data)
/-- CXL_READ. -/
def execCxlRead (port : Nat) (pa n : Nat) (s : State) : Host.Outcome State Fault Refusal :=
  eventAt (portOk port) (s.hostRead port pa n)
/-- CXL_MEM_ACCESS. -/
def execCxlMemAccess (port : Nat) (wr : Bool) (off : Nat) (data : List Byte) (s : State) :
    Host.Outcome State Fault Refusal := eventAt (portOk port) (s.memAccess port wr off data)
/-- ATS_INVALIDATION. -/
def execAtsInvalidation (port : Nat) (s : State) : Host.Outcome State Fault Refusal :=
  eventAt (portOk port) (s.setPort port { s.port port with xlat := [] })

/-! ## Resets (R46, R419, R420) -/

/-- What a reset leaves of the module: its slots, its fused counter and the firmware error ring. -/
def Module.kept (m : Module) : Module :=
  { Module.init with slots := m.slots, fused := m.fused, ring := m.ring, ringSeq := m.ringSeq }

/-- R420: the boot ROM takes the image of slot 0, or of slot 1 where that fails; where both fail only the recovery
function stands. -/
def Module.bringUp (m : Module) : Module :=
  if imageOk m.slots[0] m.fused then { m with image := m.slots[0], boot := 6 }
  else if imageOk m.slots[1] m.fused then { m with image := m.slots[1], boot := 6 }
  else { m with boot := 7 }

/-- Steps 3 to 6 of R420: firmware populates the build table with P = 1 (R142), and sets the overflow tables and the
side tables; links are trained, routes filled and partitions created by steps of their own. -/
def State.bringUp (s : State) : State :=
  let m := s.module.bringUp
  if m.boot ≠ 6 then { s with module := m }
  else { s with
    module := m, build := buildTable 1
    overTab := (List.range 16).map (fun n => (n, Config.overflowTable n))
    sideTab := (List.range 16).map (fun n => (n, Config.sideTable n)) }

/-- A cold reset: everything of the package, and its HBM, but not the host's memory. -/
def State.coldReset (s : State) (pkgid : BitVec 9) : State :=
  { State.reset with
    pkg := pkgid, rom := s.rom, mem := s.mem.filter (fun c => decide (2 ^ 52 ≤ c.1)), module := s.module.kept }.bringUp

/-- A warm reset: the same, but HBM keeps its contents, and PGEN of every partition advances. Page requests wait for
their responses still, and no access with them (R355). -/
def State.warmReset (s : State) : State :=
  let keeps (a : Nat) : Bool := s.ownHbm a 1
  { State.reset with
    pkg := s.pkg, rom := s.rom, mem := s.mem.filter (fun c => decide (2 ^ 52 ≤ c.1) || keeps c.1)
    poison := s.poison.filter keeps, module := s.module.kept
    pagereq := (s.pagereq.filter (fun (e : Nat × PageReq) => decide (e.1 < answered))).map (fun (e : Nat × PageReq) =>
      (e.1, { e.2 with joined := [] }))
    parts := (List.range nParts).map (fun p => (p, { Part.init with pgen := nextPgen (s.part p) })) }.bringUp

/-- COLD_RESET. -/
def execColdReset (pkgid : BitVec 9) (s : State) : Host.Outcome State Fault Refusal := event (s.coldReset pkgid)
/-- WARM_RESET. -/
def execWarmReset (s : State) : Host.Outcome State Fault Refusal := event s.warmReset

/-! ## Power and cooling (R423) -/

/-- The highest step at an inlet temperature in °C. -/
def thermalStep (inlet : Nat) : Nat :=
  if inlet ≤ 30 then 36 else if inlet ≤ 35 then 24 else if inlet ≤ 40 then 16 else 8

/-- POWER_SAMPLE. -/
def State.powerSample (s : State) (inlet watts : Nat) : State :=
  if 45 < inlet then
    (s.putRecord none { (default : ERec) with cause := Config.thermalCause.toNat }).coldReset s.pkg
  else
    let extra := if 7500 < watts then s.module.extra + 1 else 0
    let cap := thermalStep inlet - extra
    let s := { s with module := { s.module with caps := cap, extra } }
    (List.range nClusters).foldl (fun (s : State) j =>
      if cap < (s.clus j).eqstep then s.moveStep j cap else s) s
/-- POWER_SAMPLE. -/
def execPowerSample (inlet watts : Nat) (s : State) : Host.Outcome State Fault Refusal :=
  event (s.powerSample inlet watts)

end Sys2Proof.Machine
end

