-- ==== Sys2Proof/Machine/Scalar.lean ====
section
/-! DEFINITION. Groups 0x02 to 0x05: integer arithmetic, logic, shifts, bit fields, moves, compares and
predicates (R145-R163). -/

namespace Sys2Proof.Machine

/-! ## Shared shapes -/

/-- D := f A b, with IMM32 sign-extended. -/
def alu (s : State) (h : Hdr) (i : Instr) (d a : SOp) (b : Src) (f : Word → Word → Word) :
    Host.Outcome State Fault Refusal :=
  run s h i (fun s t => .done (s.updThr t (fun th => th.ws d (f (th.rs a) (th.srcS b)))))
/-- D := f A b, with IMM32 zero-extended. -/
def aluU (s : State) (h : Hdr) (i : Instr) (d a : SOp) (b : Src) (f : Word → Word → Word) :
    Host.Outcome State Fault Refusal :=
  run s h i (fun s t => .done (s.updThr t (fun th => th.ws d (f (th.rs a) (th.srcU b)))))
/-- D := f A. -/
def alu1 (s : State) (h : Hdr) (i : Instr) (d a : SOp) (f : Word → Word) : Host.Outcome State Fault Refusal :=
  run s h i (fun s t => .done (s.updThr t (fun th => th.ws d (f (th.rs a)))))

/-! ## Group 0x02 (R147-R151) -/

/-- An exact sum or difference as D, by SM, and whether it was clamped (R148). -/
def clampSum (sm : Sat) (neg : Bool) (a b : Word) : Word × Bool :=
  match sm with
  | .wrap => (if neg then a - b else a + b, false)
  | .ss =>
    let t := if neg then a.toInt - b.toInt else a.toInt + b.toInt
    let (c, k) := clampI true 64 t
    (BitVec.ofInt 64 c, k)
  | .us =>
    let t : Int := if neg then (a.toNat : Int) - b.toNat else (a.toNat : Int) + b.toNat
    let (c, k) := clampI false 64 t
    (BitVec.ofInt 64 c, k)

/-- The second source of ADD and SUB: zero-extended for SM = 2 (R147). -/
def Thread.srcSm (th : Thread) (sm : Sat) (b : Src) : Word :=
  match sm with
  | .us => th.srcU b
  | .wrap | .ss => th.srcS b

/-- ADD and SUB (R148). -/
def Thread.addSub (th : Thread) (neg : Bool) (d a : SOp) (b : Src) (sm : Sat) : Thread :=
  let (x, k) := clampSum sm neg (th.rs a) (th.srcSm sm b)
  (th.ws d x).orFlags (flagIf k satF)

/-- R148. -/
def execAdd (h : Hdr) (d a : SOp) (b : Src) (sm : Sat) (s : State) : Host.Outcome State Fault Refusal :=
  run s h (.add h d a b sm) (fun s t => .done (s.updThr t (fun th => th.addSub false d a b sm)))
/-- R148. -/
def execSub (h : Hdr) (d a : SOp) (b : Src) (sm : Sat) (s : State) : Host.Outcome State Fault Refusal :=
  run s h (.sub h d a b sm) (fun s t => .done (s.updThr t (fun th => th.addSub true d a b sm)))

/-- The upper half of a product read as signed (R149). -/
def mulHi (a b : Word) : Word := BitVec.ofInt 64 (a.toInt * b.toInt / 2 ^ 64)
/-- The upper half of a product read as unsigned. -/
def mulHiU (a b : Word) : Word := BitVec.ofNat 64 (a.toNat * b.toNat / 2 ^ 64)

/-- R149. -/
def execMul (h : Hdr) (d a : SOp) (b : Src) (s : State) : Host.Outcome State Fault Refusal :=
  alu s h (.mul h d a b) d a b (fun x y => x * y)
/-- R149. -/
def execMulh (h : Hdr) (d a : SOp) (b : Src) (s : State) : Host.Outcome State Fault Refusal :=
  alu s h (.mulh h d a b) d a b mulHi
/-- R149. -/
def execMulhu (h : Hdr) (d a : SOp) (b : Src) (s : State) : Host.Outcome State Fault Refusal :=
  aluU s h (.mulhu h d a b) d a b mulHiU

/-- R150: quotients truncate towards zero; a divisor of zero gives all ones. -/
def divS (a b : Word) : Word := if b = 0 then BitVec.allOnes 64 else BitVec.ofInt 64 (a.toInt.tdiv b.toInt)
/-- R150: the remainder takes the sign of A; a divisor of zero gives A. -/
def remS (a b : Word) : Word := if b = 0 then a else BitVec.ofInt 64 (a.toInt.tmod b.toInt)
def divU (a b : Word) : Word := if b = 0 then BitVec.allOnes 64 else BitVec.ofNat 64 (a.toNat / b.toNat)
def remU (a b : Word) : Word := if b = 0 then a else BitVec.ofNat 64 (a.toNat % b.toNat)

/-- R150. -/
def execDiv (h : Hdr) (d a : SOp) (b : Src) (s : State) : Host.Outcome State Fault Refusal :=
  alu s h (.div h d a b) d a b divS
/-- R150. -/
def execDivu (h : Hdr) (d a : SOp) (b : Src) (s : State) : Host.Outcome State Fault Refusal :=
  aluU s h (.divu h d a b) d a b divU
/-- R150. -/
def execRem (h : Hdr) (d a : SOp) (b : Src) (s : State) : Host.Outcome State Fault Refusal :=
  alu s h (.rem h d a b) d a b remS
/-- R150. -/
def execRemu (h : Hdr) (d a : SOp) (b : Src) (s : State) : Host.Outcome State Fault Refusal :=
  aluU s h (.remu h d a b) d a b remU
/-- R149. -/
def execMadd (h : Hdr) (d a b c : SOp) (s : State) : Host.Outcome State Fault Refusal :=
  run s h (.madd h d a b c) (fun s t =>
    .done (s.updThr t (fun th => th.ws d (th.rs a * th.rs b + th.rs c))))

/-- R151: division by 3 · 2^k, or its remainder. -/
def divl (qr : Bool) (a : Word) (k : Nat) : Word :=
  let q := if 63 ≤ k then 0 else a.toNat / (3 * 2 ^ k)
  if qr then BitVec.ofNat 64 (if 63 ≤ k then a.toNat else a.toNat % (3 * 2 ^ k)) else BitVec.ofNat 64 q

/-- R151. -/
def execDivl (h : Hdr) (d a : SOp) (b : Src) (qr : Bool) (s : State) : Host.Outcome State Fault Refusal :=
  aluU s h (.divl h d a b qr) d a b (fun x y => divl qr x y.toNat)

/-! ## Group 0x03 (R152, R153) -/

/-- The count of a shift: the low six bits (R153). -/
def cnt6 (b : Word) : Nat := b.toNat % 64
def minS (a b : Word) : Word := if a.toInt < b.toInt then a else b
def maxS (a b : Word) : Word := if a.toInt < b.toInt then b else a
def minU (a b : Word) : Word := if a.toNat < b.toNat then a else b
def maxU (a b : Word) : Word := if a.toNat < b.toNat then b else a

/-- R152. -/
def execAnd (h : Hdr) (d a : SOp) (b : Src) (s : State) : Host.Outcome State Fault Refusal :=
  alu s h (.and h d a b) d a b (fun x y => x &&& y)
/-- R152. -/
def execOr (h : Hdr) (d a : SOp) (b : Src) (s : State) : Host.Outcome State Fault Refusal :=
  alu s h (.or h d a b) d a b (fun x y => x ||| y)
/-- R152. -/
def execXor (h : Hdr) (d a : SOp) (b : Src) (s : State) : Host.Outcome State Fault Refusal :=
  alu s h (.xor h d a b) d a b (fun x y => x ^^^ y)
/-- R152. -/
def execAndn (h : Hdr) (d a : SOp) (b : Src) (s : State) : Host.Outcome State Fault Refusal :=
  alu s h (.andn h d a b) d a b (fun x y => x &&& ~~~y)
/-- R152, R153. -/
def execShl (h : Hdr) (d a : SOp) (b : Src) (s : State) : Host.Outcome State Fault Refusal :=
  aluU s h (.shl h d a b) d a b (fun x y => x <<< cnt6 y)
/-- R152, R153. -/
def execShr (h : Hdr) (d a : SOp) (b : Src) (s : State) : Host.Outcome State Fault Refusal :=
  aluU s h (.shr h d a b) d a b (fun x y => x >>> cnt6 y)
/-- R152, R153. -/
def execSar (h : Hdr) (d a : SOp) (b : Src) (s : State) : Host.Outcome State Fault Refusal :=
  aluU s h (.sar h d a b) d a b (fun x y => x.sshiftRight (cnt6 y))
/-- R152, R153. -/
def execRol (h : Hdr) (d a : SOp) (b : Src) (s : State) : Host.Outcome State Fault Refusal :=
  aluU s h (.rol h d a b) d a b (fun x y => x.rotateLeft (cnt6 y))
/-- R152. -/
def execMin (h : Hdr) (d a : SOp) (b : Src) (s : State) : Host.Outcome State Fault Refusal :=
  alu s h (.min h d a b) d a b minS
/-- R152. -/
def execMax (h : Hdr) (d a : SOp) (b : Src) (s : State) : Host.Outcome State Fault Refusal :=
  alu s h (.max h d a b) d a b maxS
/-- R152. -/
def execMinu (h : Hdr) (d a : SOp) (b : Src) (s : State) : Host.Outcome State Fault Refusal :=
  aluU s h (.minu h d a b) d a b minU
/-- R152. -/
def execMaxu (h : Hdr) (d a : SOp) (b : Src) (s : State) : Host.Outcome State Fault Refusal :=
  aluU s h (.maxu h d a b) d a b maxU

/-! ## Group 0x04 (R154-R158) -/

/-- Zero bits above the highest 1; 64 for zero (R155). -/
def clz64 (a : Word) : Word := if a = 0 then 64 else BitVec.ofNat 64 (63 - Nat.log2 a.toNat)
/-- Bits in reverse order. -/
def brev64 (a : Word) : Word :=
  (List.range 64).foldl (fun (w : Word) i => if a.getLsbD i then w ||| (1#64 <<< (63 - i)) else w) 0
/-- Zero bits below the lowest 1. -/
def ctz64 (a : Word) : Word := clz64 (brev64 a)
/-- The number of 1 bits. -/
def popc {n : Nat} (a : BitVec n) : Nat := ((List.range n).filter (fun i => a.getLsbD i)).length

/-- The low n bits of a word (n from 1 to 64). -/
def loBits (n : Nat) (a : Word) : Word := BitVec.ofNat 64 (a.toNat % 2 ^ n)
/-- The low n bits, sign-extended. -/
def sextLo (n : Nat) (a : Word) : Word := BitVec.ofInt 64 (toI true n a.toNat)
/-- LEN from its field. -/
def lenOf (len : BitVec 6) : Nat := len.toNat + 1
/-- R156: bits AT + LEN − 1 to AT of a replaced by those of b. -/
def bitInsert (len at_ : Nat) (a b : Word) : Word :=
  let mask : Word := BitVec.ofNat 64 ((2 ^ len - 1) * 2 ^ at_)
  (a &&& ~~~mask) ||| ((b <<< at_) &&& mask)

/-- R155. -/
def execClz (h : Hdr) (d a : SOp) (s : State) : Host.Outcome State Fault Refusal :=
  alu1 s h (.clz h d a) d a clz64
/-- R155. -/
def execCtz (h : Hdr) (d a : SOp) (s : State) : Host.Outcome State Fault Refusal :=
  alu1 s h (.ctz h d a) d a ctz64
/-- R155. -/
def execPopc (h : Hdr) (d a : SOp) (s : State) : Host.Outcome State Fault Refusal :=
  alu1 s h (.popc h d a) d a (fun x => BitVec.ofNat 64 (popc x))
/-- R155. -/
def execBrev (h : Hdr) (d a : SOp) (s : State) : Host.Outcome State Fault Refusal :=
  alu1 s h (.brev h d a) d a brev64
/-- R156. -/
def execBfx (h : Hdr) (d a : SOp) (len pos : BitVec 6) (s : State) : Host.Outcome State Fault Refusal :=
  alu1 s h (.bfx h d a len pos) d a (fun x => loBits (lenOf len) (x >>> pos.toNat))
/-- R156. -/
def execBfi (h : Hdr) (d a b : SOp) (len pos : BitVec 6) (s : State) : Host.Outcome State Fault Refusal :=
  run s h (.bfi h d a b len pos) (fun s t =>
    .done (s.updThr t (fun th => th.ws d (bitInsert (lenOf len) pos.toNat (th.rs a) (th.rs b)))))
/-- R156. -/
def execSext (h : Hdr) (d a : SOp) (len : BitVec 6) (s : State) : Host.Outcome State Fault Refusal :=
  alu1 s h (.sext h d a len) d a (sextLo (lenOf len))
/-- R156. -/
def execZext (h : Hdr) (d a : SOp) (len : BitVec 6) (s : State) : Host.Outcome State Fault Refusal :=
  alu1 s h (.zext h d a len) d a (loBits (lenOf len))

/-- R157: base, scaled index and displacement. -/
def leaSum (x3 : Bool) (k : BitVec 6) (imm : BitVec 32) (a b : Word) : Word :=
  a + (b * (if x3 then 3 else 1)) <<< k.toNat + imm.signExtend 64

/-- R157. -/
def execLea (h : Hdr) (d a b : SOp) (x3 : Bool) (k : BitVec 6) (imm : BitVec 32) (s : State) :
    Host.Outcome State Fault Refusal :=
  run s h (.lea h d a b x3 k imm) (fun s t =>
    .done (s.updThr t (fun th => th.ws d (leaSum x3 k imm (th.rs a) (th.rs b)))))
/-- R158. -/
def execSel (h : Hdr) (d a b : SOp) (c : BitVec 3) (s : State) : Host.Outcome State Fault Refusal :=
  run s h (.sel h d a b c) (fun s t =>
    .done (s.updThr t (fun th => th.ws d (if th.rp c then th.rs a else th.rs b))))

/-! ## Group 0x05 (R159-R163) -/

/-- R160. -/
def execMovi (h : Hdr) (d : SOp) (zx : Bool) (imm : BitVec 32) (s : State) : Host.Outcome State Fault Refusal :=
  run s h (.movi h d zx imm) (fun s t =>
    .done (s.updThr t (fun th => th.ws d (if zx then imm.setWidth 64 else imm.signExtend 64))))
/-- R160. -/
def execMovhi (h : Hdr) (d a : SOp) (imm : BitVec 32) (s : State) : Host.Outcome State Fault Refusal :=
  run s h (.movhi h d a imm) (fun s t =>
    .done (s.updThr t (fun th => th.ws d (imm ++ (th.rs a).extractLsb' 0 32))))
/-- R160. -/
def execMov (h : Hdr) (d a : SOp) (s : State) : Host.Outcome State Fault Refusal :=
  alu1 s h (.mov h d a) d a (fun x => x)

/-- R161: a comparison of integers. -/
def ccHolds (cc : CC) (a b : Int) : Bool :=
  match cc with
  | .eq => a == b | .ne => a != b | .lt => decide (a < b) | .ge => decide (b ≤ a)
  | .le => decide (a ≤ b) | .gt => decide (b < a)
/-- R161: the combination with C. -/
def Thread.comb (th : Thread) (cb : Comb) (x : Bool) : Bool :=
  match cb with
  | .set => x
  | .and c => x && th.rp c
  | .or c => x || th.rp c

/-- R161. -/
def execCmp (h : Hdr) (d : BitVec 3) (a : SOp) (b : Src) (cc : CC) (cb : Comb) (s : State) :
    Host.Outcome State Fault Refusal :=
  run s h (.cmp h d a b cc cb) (fun s t =>
    .done (s.updThr t (fun th => th.wp d (th.comb cb (ccHolds cc (th.rs a).toInt (th.srcS b).toInt)))))
/-- R161. -/
def execCmpu (h : Hdr) (d : BitVec 3) (a : SOp) (b : Src) (cc : CC) (cb : Comb) (s : State) :
    Host.Outcome State Fault Refusal :=
  run s h (.cmpu h d a b cc cb) (fun s t =>
    .done (s.updThr t (fun th => th.wp d (th.comb cb (ccHolds cc (th.rs a).toNat (th.srcU b).toNat)))))

/-- R162: the bitwise function of the truth table TT. -/
def plog {n : Nat} (tt : BitVec 4) (a b : BitVec n) : BitVec n :=
  (if tt.getLsbD 0 then ~~~a &&& ~~~b else 0) ||| (if tt.getLsbD 1 then ~~~a &&& b else 0) |||
    (if tt.getLsbD 2 then a &&& ~~~b else 0) ||| (if tt.getLsbD 3 then a &&& b else 0)

/-- R162. -/
def execPlog (h : Hdr) (ops : PlogOps) (tt : BitVec 4) (s : State) : Host.Outcome State Fault Refusal :=
  run s h (.plog h ops tt) (fun s t =>
    .done (s.updThr t (fun th => match ops with
      | .p d a b => th.wp d ((plog tt (bit (th.rp a)) (bit (th.rp b))).getLsbD 0)
      | .m d a b => th.wm d (plog tt (th.rm a) (th.rm b)))))

/-- R163: a move between files. -/
def Thread.pmov (th : Thread) (d a : PMS) : Thread :=
  match d, a with
  | .p n, .p x => th.wp n (th.rp x)
  | .p n, .m x => th.wp n (th.rm x != 0)
  | .p n, .s x => th.wp n (th.rs x != 0)
  | .m n, .p x => th.wm n (if th.rp x then BitVec.allOnes 48 else 0)
  | .m n, .m x => th.wm n (th.rm x)
  | .m n, .s x => th.wm n ((th.rs x).extractLsb' 0 48)
  | .s r, .p x => th.ws r (if th.rp x then 1 else 0)
  | .s r, .m x => th.ws r ((th.rm x).setWidth 64)
  | .s _, .s _ => th

/-- R163. -/
def execPmov (h : Hdr) (d a : PMS) (s : State) : Host.Outcome State Fault Refusal :=
  run s h (.pmov h d a) (fun s t => .done (s.updThr t (fun th => th.pmov d a)))

end Sys2Proof.Machine
end

