-- ==== Sys2Proof/Machine/System.lean ====
section
/-! DEFINITION. Group 0x00: system instructions and control registers (R27-R34, R107, R204, R302-R304,
R307). -/

namespace Sys2Proof.Machine

/-- R302. -/
def execNop (h : Hdr) (s : State) : Host.Outcome State Fault Refusal :=
  run s h (.nop h) (fun s _ => .done s)

/-- R303: a debug halt where the thread's debug enable is set, else BREAKPOINT. -/
def execBrk (h : Hdr) (imm : BitVec 32) (s : State) : Host.Outcome State Fault Refusal :=
  run s h (.brk h imm) (fun s t =>
    let th := s.thr t
    if th.brken then .jump (s.setThr t (th.halt (th.pc + 12) (s.time (coreOf t)))) (th.pc + 12)
    else .trap s 0x04 0 0 (imm.setWidth 64) true)

/-- R303. -/
def execTrap (h : Hdr) (imm : BitVec 32) (s : State) : Host.Outcome State Fault Refusal :=
  run s h (.trap h imm) (fun s _ => .trap s 0x03 0 0 (imm.setWidth 64) true)

/-- R302, R307. -/
def execEret (h : Hdr) (a : SOp) (s : State) : Host.Outcome State Fault Refusal :=
  run s h (.eret h a) (fun s t =>
    let th := s.thr t
    if th.priv = privU then s.privTrap (.eret h a) else s.eret t (.eret h a) (th.rs a))

/-- R302: a debug halt, with DBGPC = PC + 12 (R381). -/
def execHalt (h : Hdr) (s : State) : Host.Outcome State Fault Refusal :=
  run s h (.halt h) (fun s t =>
    let th := s.thr t
    if th.priv = privM then .jump (s.setThr t (th.halt (th.pc + 12) (s.time (coreOf t)))) (th.pc + 12)
    else s.privTrap (.halt h))

/-- What a control register reads (R27). -/
def State.creg (s : State) (t : Nat) (c : CReg) : Word :=
  let h := s.thr t
  match c.toNat with
  | 0 => (s.tid t).setWidth 64
  | 1 => h.status
  | 2 => h.tcause | 3 => h.tpc | 4 => h.taddr | 5 => h.tinfo
  | 6 => h.hdr0 | 7 => h.hdr1
  | 8 => h.ls[0] | 9 => h.le[0] | 10 => (h.lc[0]).setWidth 64
  | 11 => h.ls[1] | 12 => h.le[1] | 13 => (h.lc[1]).setWidth 64
  | 14 => h.ls[2] | 15 => h.le[2] | 16 => (h.lc[2]).setWidth 64
  | 17 => h.ls[3] | 18 => h.le[3] | 19 => (h.lc[3]).setWidth 64
  | 20 => h.spbase | 21 => h.splim
  | 22 => h.cframe | 23 => h.clsel | 24 => h.key | 25 => h.tapestNow
  | 26 => h.launch | 27 => h.job.setWidth 64
  | 28 => s.cycle (coreOf t)
  | _ => 0

/-- R302. -/
def execMfc (h : Hdr) (d : SOp) (c : CReg) (s : State) : Host.Outcome State Fault Refusal :=
  run s h (.mfc h d c) (fun s t => .done (s.updThr t (fun th => th.ws d (s.creg t c))))

/-- A loop register by its offset in a group of three: start, end, count (R27). -/
def Thread.setLoop (h : Thread) (n : Fin 4) (k : Nat) (x : Word) : Thread :=
  match k with
  | 0 => { h with ls := h.ls.set n x }
  | 1 => { h with le := h.le.set n x }
  | _ => { h with lc := h.lc.set n (x.extractLsb' 0 32) }

/-- Registers writable at S or M only (R27). -/
def cregS (c : CReg) : Bool := decide (2 ≤ c.toNat ∧ c.toNat ≤ 5) || c == 20 || c == 21
/-- Read-only registers; c25 is written only by the device, and an MTC to it is ignored (R7, R27). -/
def cregRo (c : CReg) : Bool :=
  c == 0 || c == 6 || c == 7 || c == 22 || c == 23 || c == 24 || c == 26 || c == 27
/-- The loop and the place in its group of c8 to c19. -/
def cregLoop (c : CReg) : Option (Fin 4 × Nat) :=
  if 8 ≤ c.toNat ∧ c.toNat ≤ 19 then
    some (⟨(c.toNat - 8) / 3 % 4, Nat.mod_lt _ (by decide)⟩, (c.toNat - 8) % 3)
  else none

/-- R34: the refusals of MTC that trap ILLEGAL, once the privilege is there. -/
def Thread.mtcBad (h : Thread) (c : CReg) (x : Word) : Bool :=
  cregRo c || ((c == 20 || c == 21) && (h.sd != 0 || x.toNat % 8 != 0)) ||
    (match cregLoop c with
     | some (_, k) => k != 2 && x.toNat % 12 != 0
     | none => false)

/-- The write of a control register that MTC may make (R27, R28, R218). -/
def State.setCreg (s : State) (t : Nat) (c : CReg) (x : Word) : State :=
  let h := s.thr t
  match cregLoop c with
  | some (n, k) => s.setThr t (h.setLoop n k x)
  | none =>
    match c.toNat with
    | 1 => s.setThr t { h with status := mtcStatus h.status x, lfsr := seeded (stSeed x) }
    | 2 => s.setThr t { h with tcause := x &&& 0xFFFF#64 }
    | 3 => s.setThr t { h with tpc := x }
    | 4 => s.setThr t { h with taddr := x }
    | 5 => s.setThr t { h with tinfo := x }
    | 20 => s.setThr t { h with spbase := x }
    | 21 => s.setThr t { h with splim := x }
    | 28 => s.updCore (coreOf t) (fun k => { k with cycOff := k.cycOff + (x - s.cycle (coreOf t)) })
    | _ => s

/-- R302, R34. -/
def execMtc (h : Hdr) (c : CReg) (a : SOp) (s : State) : Host.Outcome State Fault Refusal :=
  run s h (.mtc h c a) (fun s t =>
    let th := s.thr t
    if (cregS c && th.priv == privU) || (c == 28 && th.priv != privM) then s.privTrap (.mtc h c a)
    else if th.mtcBad c (th.rs a) then s.illegal (.mtc h c a) 11
    else .done (s.setCreg t c (th.rs a)))

/-- R304: the thread's fetches see its stores, its instruction buffer is empty, and the partition's code
epoch advances, which lifts the suppression of recordings (R294). -/
def State.synci (s : State) (t : Nat) : State :=
  let s := s.updThr t (fun h => { h with ibuf := [] })
  match (s.ctx t).part with
  | none => s
  | some p => s.updPart p (fun k => { k with
      epoch := k.epoch + 1,
      tapeCtl := k.tapeCtl.map (fun (x : TapeCtl) => { x with supp := false }) })

/-- R304. -/
def execSynci (h : Hdr) (s : State) : Host.Outcome State Fault Refusal :=
  run s h (.synci h) (fun s t => .done (s.synci t))

/-- R204. -/
def execScopeof (h : Hdr) (d a b : SOp) (s : State) : Host.Outcome State Fault Refusal :=
  run s h (.scopeof h d a b) (fun s t =>
    .done (s.updThr t (fun th => th.ws d (BitVec.ofNat 64
      (scopeOf ((th.rs a).extractLsb' 0 32) ((th.rs b).extractLsb' 0 32))))))

/-- R302. -/
def execClkrd (h : Hdr) (d : SOp) (s : State) : Host.Outcome State Fault Refusal :=
  run s h (.clkrd h d) (fun s t => .done (s.updThr t (fun th => th.ws d s.timebase)))

end Sys2Proof.Machine
end

