-- ==== Sys2Proof/Machine/Vector.lean ====
section
/-! DEFINITION. Groups 0x0B to 0x0E: the vector instructions of a thread (R205-R223). -/

namespace Sys2Proof.Machine

/-- A vector instruction of the thread: a change of its registers and flags alone (R207). -/
def vop (s : State) (h : Hdr) (i : Instr) (f : Thread → Thread) : Host.Outcome State Fault Refusal :=
  run s h i (fun s t => .done (s.updThr t f))

/-- R210, R211. -/
def execVadd (h : Hdr) (d a : BitVec 5) (b : VSrc) (c : BitVec 3) (lt : LT) (rm : RM) (ss un : Bool) (s : State) :
    Host.Outcome State Fault Refusal :=
  vop s h (.vadd h d a b c lt rm ss un) (fun th => th.varith .add d a b c lt rm ss un)
/-- R210, R211. -/
def execVsub (h : Hdr) (d a : BitVec 5) (b : VSrc) (c : BitVec 3) (lt : LT) (rm : RM) (ss un : Bool) (s : State) :
    Host.Outcome State Fault Refusal :=
  vop s h (.vsub h d a b c lt rm ss un) (fun th => th.varith .sub d a b c lt rm ss un)
/-- R210, R211. -/
def execVmul (h : Hdr) (d a : BitVec 5) (b : VSrc) (c : BitVec 3) (lt : LT) (rm : RM) (ss un : Bool) (s : State) :
    Host.Outcome State Fault Refusal :=
  vop s h (.vmul h d a b c lt rm ss un) (fun th => th.varith .mul d a b c lt rm ss un)
/-- R210, R211. -/
def execVfma (h : Hdr) (d a : BitVec 5) (b : VSrc) (c : BitVec 3) (lt : LT) (rm : RM) (ss un : Bool) (s : State) :
    Host.Outcome State Fault Refusal :=
  vop s h (.vfma h d a b c lt rm ss un) (fun th => th.varith .fma d a b c lt rm ss un)
/-- R210, R211. -/
def execVmin (h : Hdr) (d a : BitVec 5) (b : VSrc) (c : BitVec 3) (lt : LT) (un : Bool) (s : State) :
    Host.Outcome State Fault Refusal :=
  vop s h (.vmin h d a b c lt un) (fun th => th.varith .min d a b c lt .rne false un)
/-- R210, R211. -/
def execVmax (h : Hdr) (d a : BitVec 5) (b : VSrc) (c : BitVec 3) (lt : LT) (un : Bool) (s : State) :
    Host.Outcome State Fault Refusal :=
  vop s h (.vmax h d a b c lt un) (fun th => th.varith .max d a b c lt .rne false un)
/-- R210, R211. -/
def execVabs (h : Hdr) (d a : BitVec 5) (c : BitVec 3) (lt : LT) (ss : Bool) (s : State) :
    Host.Outcome State Fault Refusal :=
  vop s h (.vabs h d a c lt ss) (fun th => th.vabsneg false d a c lt ss)
/-- R210, R211. -/
def execVneg (h : Hdr) (d a : BitVec 5) (c : BitVec 3) (lt : LT) (ss : Bool) (s : State) :
    Host.Outcome State Fault Refusal :=
  vop s h (.vneg h d a c lt ss) (fun th => th.vabsneg true d a c lt ss)
/-- R212. -/
def execVand (h : Hdr) (d a : BitVec 5) (b : VSrc) (c : BitVec 3) (s : State) :
    Host.Outcome State Fault Refusal :=
  vop s h (.vand h d a b c) (fun th => th.vlogic (fun x y => x &&& y) d a b c)
/-- R212. -/
def execVor (h : Hdr) (d a : BitVec 5) (b : VSrc) (c : BitVec 3) (s : State) :
    Host.Outcome State Fault Refusal :=
  vop s h (.vor h d a b c) (fun th => th.vlogic (fun x y => x ||| y) d a b c)
/-- R212. -/
def execVxor (h : Hdr) (d a : BitVec 5) (b : VSrc) (c : BitVec 3) (s : State) :
    Host.Outcome State Fault Refusal :=
  vop s h (.vxor h d a b c) (fun th => th.vlogic (fun x y => x ^^^ y) d a b c)
/-- R212. -/
def execVshl (h : Hdr) (d a : BitVec 5) (b : VSrc) (c : BitVec 3) (lt : LT) (s : State) :
    Host.Outcome State Fault Refusal :=
  vop s h (.vshl h d a b c lt) (fun th => th.vshift .shl d a b c lt)
/-- R212. -/
def execVshr (h : Hdr) (d a : BitVec 5) (b : VSrc) (c : BitVec 3) (lt : LT) (s : State) :
    Host.Outcome State Fault Refusal :=
  vop s h (.vshr h d a b c lt) (fun th => th.vshift .shr d a b c lt)
/-- R212. -/
def execVsar (h : Hdr) (d a : BitVec 5) (b : VSrc) (c : BitVec 3) (lt : LT) (s : State) :
    Host.Outcome State Fault Refusal :=
  vop s h (.vsar h d a b c lt) (fun th => th.vshift .sar d a b c lt)
/-- R213. -/
def execVcmp (h : Hdr) (d : BitVec 3) (a : BitVec 5) (b : VSrc) (c : BitVec 3) (lt : LT) (el : BitVec 2) (un : Bool)
    (cc : VCC) (s : State) :
    Host.Outcome State Fault Refusal :=
  vop s h (.vcmp h d a b c lt el un cc) (fun th => th.vcmp d a b c lt el un cc)
/-- R214. -/
def execVsel (h : Hdr) (d a b : BitVec 5) (c : BitVec 3) (s : State) :
    Host.Outcome State Fault Refusal :=
  vop s h (.vsel h d a b c) (fun th => th.vsel d a b c)
/-- R215. -/
def execVrcp (h : Hdr) (d a : BitVec 5) (c : BitVec 3) (lt : LT) (s : State) :
    Host.Outcome State Fault Refusal :=
  vop s h (.vrcp h d a c lt) (fun th => th.vfn .rcp d a c lt)
/-- R215. -/
def execVrsq (h : Hdr) (d a : BitVec 5) (c : BitVec 3) (lt : LT) (s : State) :
    Host.Outcome State Fault Refusal :=
  vop s h (.vrsq h d a c lt) (fun th => th.vfn .rsq d a c lt)
/-- R215. -/
def execVexp2 (h : Hdr) (d a : BitVec 5) (c : BitVec 3) (lt : LT) (s : State) :
    Host.Outcome State Fault Refusal :=
  vop s h (.vexp2 h d a c lt) (fun th => th.vfn .exp2 d a c lt)
/-- R215. -/
def execVlog2 (h : Hdr) (d a : BitVec 5) (c : BitVec 3) (lt : LT) (s : State) :
    Host.Outcome State Fault Refusal :=
  vop s h (.vlog2 h d a c lt) (fun th => th.vfn .log2 d a c lt)
/-- R215. -/
def execVtanh (h : Hdr) (d a : BitVec 5) (c : BitVec 3) (lt : LT) (s : State) :
    Host.Outcome State Fault Refusal :=
  vop s h (.vtanh h d a c lt) (fun th => th.vfn .tanh d a c lt)
/-- R216. -/
def execVcvt (h : Hdr) (d a : BitVec 5) (c : BitVec 3) (dt st : LT) (el : BitVec 2) (rm : RM) (ss : Bool) (s : State) :
    Host.Outcome State Fault Refusal :=
  vop s h (.vcvt h d a c dt st el rm ss) (fun th => th.vcvt d a c dt st el rm ss)
/-- R217, R218. -/
def execVquant (h : Hdr) (d a b : BitVec 5) (c : BitVec 3) (fmt : Fmt) (el : BitVec 3) (rm : RM) (sr : Bool) (s : State) :
    Host.Outcome State Fault Refusal :=
  vop s h (.vquant h d a b c fmt el rm sr) (fun th => th.vquant d a b c fmt el rm sr)
/-- R219. -/
def execVdeq (h : Hdr) (d a b : BitVec 5) (c : BitVec 3) (fmt : Fmt) (el : BitVec 3) (rm : RM) (s : State) :
    Host.Outcome State Fault Refusal :=
  vop s h (.vdeq h d a b c fmt el rm) (fun th => th.vdeq d a b c fmt el rm)
/-- R221. -/
def execVred (h : Hdr) (d : SOp) (a : BitVec 5) (c : BitVec 3) (lt : LT) (rm : RM) (op : RedOp) (un : Bool) (s : State) :
    Host.Outcome State Fault Refusal :=
  vop s h (.vred h d a c lt rm op un) (fun th => th.vred d a c lt rm op un)
/-- R221. -/
def execVscan (h : Hdr) (d a : BitVec 5) (c : BitVec 3) (lt : LT) (rm : RM) (op : RedOp) (un ex : Bool) (s : State) :
    Host.Outcome State Fault Refusal :=
  vop s h (.vscan h d a c lt rm op un ex) (fun th => th.vscan d a c lt rm op un ex)
/-- R222. -/
def execVperm (h : Hdr) (d a b : BitVec 5) (c : BitVec 3) (s : State) :
    Host.Outcome State Fault Refusal :=
  vop s h (.vperm h d a b c) (fun th => th.vperm d a b c)
/-- R222. -/
def execVbcast (h : Hdr) (d : BitVec 5) (a : SV) (c : BitVec 3) (lane : BitVec 6) (s : State) :
    Host.Outcome State Fault Refusal :=
  vop s h (.vbcast h d a c lane) (fun th => th.vbcast d a c lane)
/-- R222. -/
def execVins (h : Hdr) (d : BitVec 5) (a : SOp) (lane : BitVec 6) (s : State) :
    Host.Outcome State Fault Refusal :=
  vop s h (.vins h d a lane) (fun th => th.vins d a lane)
/-- R222. -/
def execVext (h : Hdr) (d : SOp) (a : BitVec 5) (lane : BitVec 6) (s : State) :
    Host.Outcome State Fault Refusal :=
  vop s h (.vext h d a lane) (fun th => th.vext d a lane)
/-- R223. -/
def execVmask (h : Hdr) (d : BitVec 3) (src : MaskSrc) (s : State) :
    Host.Outcome State Fault Refusal :=
  vop s h (.vmask h d src) (fun th => th.vmask d src)
/-- R223. -/
def execVpopm (h : Hdr) (d : SOp) (a : BitVec 3) (ff : Bool) (s : State) :
    Host.Outcome State Fault Refusal :=
  vop s h (.vpopm h d a ff) (fun th => th.vpopm d a ff)

end Sys2Proof.Machine
end

