-- ==== Sys2Proof/Machine/Dispatch.lean ====
section
/-! DEFINITION. The meaning of every instruction and device step: one arm for each constructor. -/

namespace Sys2Proof.Machine

/-- One instruction of the current thread, or one step of the device. -/
def exec (i : Instr) (s : State) : Host.Outcome State Fault Refusal :=
  match i with
  -- group 0x00, system (R302)
  | .nop h => Sys2Proof.Machine.execNop h s
  | .brk h imm => Sys2Proof.Machine.execBrk h imm s
  | .trap h imm => Sys2Proof.Machine.execTrap h imm s
  | .eret h a => Sys2Proof.Machine.execEret h a s
  | .halt h => Sys2Proof.Machine.execHalt h s
  | .mfc h d c => Sys2Proof.Machine.execMfc h d c s
  | .mtc h c a => Sys2Proof.Machine.execMtc h c a s
  | .synci h => Sys2Proof.Machine.execSynci h s
  | .scopeof h d a b => Sys2Proof.Machine.execScopeof h d a b s
  | .clkrd h d => Sys2Proof.Machine.execClkrd h d s
  -- group 0x02, integer A (R147)
  | .add h d a b sm => Sys2Proof.Machine.execAdd h d a b sm s
  | .sub h d a b sm => Sys2Proof.Machine.execSub h d a b sm s
  | .mul h d a b => Sys2Proof.Machine.execMul h d a b s
  | .mulh h d a b => Sys2Proof.Machine.execMulh h d a b s
  | .mulhu h d a b => Sys2Proof.Machine.execMulhu h d a b s
  | .div h d a b => Sys2Proof.Machine.execDiv h d a b s
  | .divu h d a b => Sys2Proof.Machine.execDivu h d a b s
  | .rem h d a b => Sys2Proof.Machine.execRem h d a b s
  | .remu h d a b => Sys2Proof.Machine.execRemu h d a b s
  | .madd h d a b c => Sys2Proof.Machine.execMadd h d a b c s
  | .divl h d a b qr => Sys2Proof.Machine.execDivl h d a b qr s
  -- group 0x03, integer B (R152)
  | .and h d a b => Sys2Proof.Machine.execAnd h d a b s
  | .or h d a b => Sys2Proof.Machine.execOr h d a b s
  | .xor h d a b => Sys2Proof.Machine.execXor h d a b s
  | .andn h d a b => Sys2Proof.Machine.execAndn h d a b s
  | .shl h d a b => Sys2Proof.Machine.execShl h d a b s
  | .shr h d a b => Sys2Proof.Machine.execShr h d a b s
  | .sar h d a b => Sys2Proof.Machine.execSar h d a b s
  | .rol h d a b => Sys2Proof.Machine.execRol h d a b s
  | .min h d a b => Sys2Proof.Machine.execMin h d a b s
  | .max h d a b => Sys2Proof.Machine.execMax h d a b s
  | .minu h d a b => Sys2Proof.Machine.execMinu h d a b s
  | .maxu h d a b => Sys2Proof.Machine.execMaxu h d a b s
  -- group 0x04, integer C (R154); `len` is the field LEN − 1
  | .clz h d a => Sys2Proof.Machine.execClz h d a s
  | .ctz h d a => Sys2Proof.Machine.execCtz h d a s
  | .popc h d a => Sys2Proof.Machine.execPopc h d a s
  | .brev h d a => Sys2Proof.Machine.execBrev h d a s
  | .bfx h d a len pos => Sys2Proof.Machine.execBfx h d a len pos s
  | .bfi h d a b len pos => Sys2Proof.Machine.execBfi h d a b len pos s
  | .sext h d a len => Sys2Proof.Machine.execSext h d a len s
  | .zext h d a len => Sys2Proof.Machine.execZext h d a len s
  | .lea h d a b x3 k imm => Sys2Proof.Machine.execLea h d a b x3 k imm s
  | .sel h d a b c => Sys2Proof.Machine.execSel h d a b c s
  -- group 0x05, move and compare (R159)
  | .movi h d zx imm => Sys2Proof.Machine.execMovi h d zx imm s
  | .movhi h d a imm => Sys2Proof.Machine.execMovhi h d a imm s
  | .mov h d a => Sys2Proof.Machine.execMov h d a s
  | .cmp h d a b cc cb => Sys2Proof.Machine.execCmp h d a b cc cb s
  | .cmpu h d a b cc cb => Sys2Proof.Machine.execCmpu h d a b cc cb s
  | .plog h ops tt => Sys2Proof.Machine.execPlog h ops tt s
  | .pmov h d a => Sys2Proof.Machine.execPmov h d a s
  -- group 0x06, control (R164)
  | .br h off => Sys2Proof.Machine.execBr h off s
  | .jmp h a => Sys2Proof.Machine.execJmp h a s
  | .call h off => Sys2Proof.Machine.execCall h off s
  | .callr h a => Sys2Proof.Machine.execCallr h a s
  | .ret h a => Sys2Proof.Machine.execRet h a s
  | .lsetup h a ic cnt l off => Sys2Proof.Machine.execLsetup h a ic cnt l off s
  | .lbrk h all l => Sys2Proof.Machine.execLbrk h all l s
  | .yield h => Sys2Proof.Machine.execYield h s
  | .waitc h lims => Sys2Proof.Machine.execWaitc h lims s
  | .sleep h a imm => Sys2Proof.Machine.execSleep h a imm s
  -- group 0x07, task (R273)
  | .fork h d a cmc off => Sys2Proof.Machine.execFork h d a cmc off s
  | .join h a cmc => Sys2Proof.Machine.execJoin h a cmc s
  | .finit h a sc space => Sys2Proof.Machine.execFinit h a sc space s
  | .frd h d a sc space => Sys2Proof.Machine.execFrd h d a sc space s
  | .fwr h d a b sc space => Sys2Proof.Machine.execFwr h d a b sc space s
  | .qpush h d a b sc space => Sys2Proof.Machine.execQpush h d a b sc space s
  | .qpop h d a c sc space => Sys2Proof.Machine.execQpop h d a c sc space s
  | .launch h d a space => Sys2Proof.Machine.execLaunch h d a space s
  | .cancel h d a jb => Sys2Proof.Machine.execCancel h d a jb s
  | .cntrd h d a what => Sys2Proof.Machine.execCntrd h d a what s
  -- group 0x08, scalar memory (R177)
  | .ld h d m sz acq => Sys2Proof.Machine.execLd h d m sz acq s
  | .st h b m sz rel => Sys2Proof.Machine.execSt h b m sz rel s
  | .pfetch h m l2 => Sys2Proof.Machine.execPfetch h m l2 s
  | .cache h d m op => Sys2Proof.Machine.execCache h d m op s
  | .amo h d b m w4 ord op => Sys2Proof.Machine.execAmo h d b m w4 ord op s
  | .cas h d b c m w4 ord => Sys2Proof.Machine.execCas h d b c m w4 ord s
  | .amof h d b m ord op => Sys2Proof.Machine.execAmof h d b m ord op s
  -- group 0x09, vector memory (R177)
  | .vld h d m c acq => Sys2Proof.Machine.execVld h d m c acq s
  | .vst h nib b m c rel => Sys2Proof.Machine.execVst h nib b m c rel s
  | .vlds h d b m c acq => Sys2Proof.Machine.execVlds h d b m c acq s
  | .vsts h d b m c rel => Sys2Proof.Machine.execVsts h d b m c rel s
  | .vgath h d b m c e acq => Sys2Proof.Machine.execVgath h d b m c e acq s
  | .vscat h d b m c e rel => Sys2Proof.Machine.execVscat h d b m c e rel s
  -- group 0x0A, sync (R177)
  | .waita h d b m w4 acq cond => Sys2Proof.Machine.execWaita h d b m w4 acq cond s
  | .bari h b m rel => Sys2Proof.Machine.execBari h b m rel s
  | .bara h d m => Sys2Proof.Machine.execBara h d m s
  | .barw h d b m => Sys2Proof.Machine.execBarw h d b m s
  | .barx h d m ar abandon => Sys2Proof.Machine.execBarx h d m ar abandon s
  | .rfchk h d wt => Sys2Proof.Machine.execRfchk h d wt s
  -- group 0x0B, vector arithmetic (R209)
  | .vadd h d a b c lt rm ss un => Sys2Proof.Machine.execVadd h d a b c lt rm ss un s
  | .vsub h d a b c lt rm ss un => Sys2Proof.Machine.execVsub h d a b c lt rm ss un s
  | .vmul h d a b c lt rm ss un => Sys2Proof.Machine.execVmul h d a b c lt rm ss un s
  | .vfma h d a b c lt rm ss un => Sys2Proof.Machine.execVfma h d a b c lt rm ss un s
  | .vmin h d a b c lt un => Sys2Proof.Machine.execVmin h d a b c lt un s
  | .vmax h d a b c lt un => Sys2Proof.Machine.execVmax h d a b c lt un s
  | .vabs h d a c lt ss => Sys2Proof.Machine.execVabs h d a c lt ss s
  | .vneg h d a c lt ss => Sys2Proof.Machine.execVneg h d a c lt ss s
  -- group 0x0C, vector logic (R212)
  | .vand h d a b c => Sys2Proof.Machine.execVand h d a b c s
  | .vor h d a b c => Sys2Proof.Machine.execVor h d a b c s
  | .vxor h d a b c => Sys2Proof.Machine.execVxor h d a b c s
  | .vshl h d a b c lt => Sys2Proof.Machine.execVshl h d a b c lt s
  | .vshr h d a b c lt => Sys2Proof.Machine.execVshr h d a b c lt s
  | .vsar h d a b c lt => Sys2Proof.Machine.execVsar h d a b c lt s
  | .vcmp h d a b c lt el un cc => Sys2Proof.Machine.execVcmp h d a b c lt el un cc s
  | .vsel h d a b c => Sys2Proof.Machine.execVsel h d a b c s
  -- group 0x0D, vector function (R215-R219)
  | .vrcp h d a c lt => Sys2Proof.Machine.execVrcp h d a c lt s
  | .vrsq h d a c lt => Sys2Proof.Machine.execVrsq h d a c lt s
  | .vexp2 h d a c lt => Sys2Proof.Machine.execVexp2 h d a c lt s
  | .vlog2 h d a c lt => Sys2Proof.Machine.execVlog2 h d a c lt s
  | .vtanh h d a c lt => Sys2Proof.Machine.execVtanh h d a c lt s
  | .vcvt h d a c dt st_ el rm ss => Sys2Proof.Machine.execVcvt h d a c dt st_ el rm ss s
  | .vquant h d a b c fmt el rm sr => Sys2Proof.Machine.execVquant h d a b c fmt el rm sr s
  | .vdeq h d a b c fmt el rm => Sys2Proof.Machine.execVdeq h d a b c fmt el rm s
  -- group 0x0E, vector lane (R220)
  | .vred h d a c lt rm op un => Sys2Proof.Machine.execVred h d a c lt rm op un s
  | .vscan h d a c lt rm op un ex => Sys2Proof.Machine.execVscan h d a c lt rm op un ex s
  | .vperm h d a b c => Sys2Proof.Machine.execVperm h d a b c s
  | .vbcast h d a c lane => Sys2Proof.Machine.execVbcast h d a c lane s
  | .vins h d a lane => Sys2Proof.Machine.execVins h d a lane s
  | .vext h d a lane => Sys2Proof.Machine.execVext h d a lane s
  | .vmask h d src => Sys2Proof.Machine.execVmask h d src s
  | .vpopm h d a ff => Sys2Proof.Machine.execVpopm h d a ff s
  -- group 0x0F, repeat (R224); `n` is the field N − 1
  | .repb h a b slot n cs st_ rs rb count => Sys2Proof.Machine.execRepb h a b slot n cs st_ rs rb count s
  -- group 0x10, tile (R235)
  | .tcfg h d src => Sys2Proof.Machine.execTcfg h d src s
  | .tld h d c m acq => Sys2Proof.Machine.execTld h d c m acq s
  | .tst h b c m rel => Sys2Proof.Machine.execTst h b c m rel s
  | .tzero h d int => Sys2Proof.Machine.execTzero h d int s
  | .ttrn h d a => Sys2Proof.Machine.execTtrn h d a s
  | .acvt h d a ss rm => Sys2Proof.Machine.execAcvt h d a ss rm s
  | .ast h b c m rel => Sys2Proof.Machine.execAst h b c m rel s
  | .atov h d a b c col row => Sys2Proof.Machine.execAtov h d a b c col row s
  | .vtoa h d a b c col row => Sys2Proof.Machine.execVtoa h d a b c col row s
  -- group 0x11, matrix (R243)
  | .tmma h d a b slot za sat ko kc => Sys2Proof.Machine.execTmma h d a b slot za sat ko kc s
  | .tsca h d a b cv slot za fs => Sys2Proof.Machine.execTsca h d a b cv slot za fs s
  -- group 0x12, copy (R249, R255, R256); `q2` chooses Q2 over Q1
  | .cpy h d a b q2 slot k => Sys2Proof.Machine.execCpy h d a b q2 slot k s
  | .cpy2d h d a b q2 slot k => Sys2Proof.Machine.execCpy2d h d a b q2 slot k s
  | .cpyg h d a b q2 slot k => Sys2Proof.Machine.execCpyg h d a b q2 slot k s
  | .cpys h d a b q2 slot k => Sys2Proof.Machine.execCpys h d a b q2 slot k s
  | .qjoin h q slot set => Sys2Proof.Machine.execQjoin h q slot set s
  | .gset h k op => Sys2Proof.Machine.execGset h k op s
  -- group 0x13, actor (R266-R272)
  | .send h d a b c => Sys2Proof.Machine.execSend h d a b c s
  | .sendm h d a b c space => Sys2Proof.Machine.execSendm h d a b c space s
  | .reply h d b c => Sys2Proof.Machine.execReply h d b c s
  | .adone h => Sys2Proof.Machine.execAdone h s
  | .aretire h => Sys2Proof.Machine.execAretire h s
  | .aexport h d a => Sys2Proof.Machine.execAexport h d a s
  | .aimport h d a b cn => Sys2Proof.Machine.execAimport h d a b cn s
  | .aself h d what => Sys2Proof.Machine.execAself h d what s
  -- group 0x14, tape (R290)
  | .trec h var => Sys2Proof.Machine.execTrec h var s
  | .tpatch h d a src imm => Sys2Proof.Machine.execTpatch h d a src imm s
  | .tguard h d b src => Sys2Proof.Machine.execTguard h d b src s
  | .tseal h d => Sys2Proof.Machine.execTseal h d s
  | .tplay h d var => Sys2Proof.Machine.execTplay h d var s
  | .tinv h a b all => Sys2Proof.Machine.execTinv h a b all s
  -- the ordering machine (R114-R117)
  | .performLoad ag n => Sys2Proof.Machine.execPerformLoad ag n s
  | .issueStore ag n => Sys2Proof.Machine.execIssueStore ag n s
  | .storeLeaveBuffer ag id => Sys2Proof.Machine.execStoreLeaveBuffer ag id s
  | .storeClimb id lvl => Sys2Proof.Machine.execStoreClimb id lvl s
  | .discardSettled lvl inst loc => Sys2Proof.Machine.execDiscardSettled lvl inst loc s
  -- wakes
  | .waitcReturn t => Sys2Proof.Machine.execWaitcReturn t s
  | .waitaWake t => Sys2Proof.Machine.execWaitaWake t s
  | .barwWake t => Sys2Proof.Machine.execBarwWake t s
  | .joinWake t => Sys2Proof.Machine.execJoinWake t s
  | .frdRetry t => Sys2Proof.Machine.execFrdRetry t s
  | .sleepExpire t => Sys2Proof.Machine.execSleepExpire t s
  | .adoneDrained t => Sys2Proof.Machine.execAdoneDrained t s
  | .rfchkWaitEnd t => Sys2Proof.Machine.execRfchkWaitEnd t s
  | .exportAnswer t accepted => Sys2Proof.Machine.execExportAnswer t accepted s
  | .tplayDrained t => Sys2Proof.Machine.execTplayDrained t s
  -- engine commands
  | .commandAtHead o q => Sys2Proof.Machine.execCommandAtHead o q s
  | .commandBegin o q => Sys2Proof.Machine.execCommandBegin o q s
  | .copyUnit o q n => Sys2Proof.Machine.execCopyUnit o q n s
  | .repeatIteration o q => Sys2Proof.Machine.execRepeatIteration o q s
  | .commandComplete o q => Sys2Proof.Machine.execCommandComplete o q s
  -- peers
  | .peerAnswer tag ans => Sys2Proof.Machine.execPeerAnswer tag ans s
  | .answerTimeout tag => Sys2Proof.Machine.execAnswerTimeout tag s
  -- dispatch and replay
  | .unitDispatch t => Sys2Proof.Machine.execUnitDispatch t s
  | .replayTake core => Sys2Proof.Machine.execReplayTake core s
  | .replayIssue core => Sys2Proof.Machine.execReplayIssue core s
  | .replayDrained core => Sys2Proof.Machine.execReplayDrained core s
  -- the directory
  | .messageArrival n => Sys2Proof.Machine.execMessageArrival n s
  | .importRecord k => Sys2Proof.Machine.execImportRecord k s
  | .importCancel k => Sys2Proof.Machine.execImportCancel k s
  | .exportOffer k src => Sys2Proof.Machine.execExportOffer k src s
  | .activationDone k => Sys2Proof.Machine.execActivationDone k s
  | .statePageNotResident k => Sys2Proof.Machine.execStatePageNotResident k s
  | .stateBlockFailed k => Sys2Proof.Machine.execStateBlockFailed k s
  | .runEnded k => Sys2Proof.Machine.execRunEnded k s
  | .roomNotice core => Sys2Proof.Machine.execRoomNotice core s
  | .hardwareErrorNotice k => Sys2Proof.Machine.execHardwareErrorNotice k s
  | .runFailed k => Sys2Proof.Machine.execRunFailed k s
  | .writeBackDone k => Sys2Proof.Machine.execWriteBackDone k s
  | .writeBackFailed k => Sys2Proof.Machine.execWriteBackFailed k s
  | .moveDone k => Sys2Proof.Machine.execMoveDone k s
  | .moving k src => Sys2Proof.Machine.execMoving k src s
  | .movingAck k => Sys2Proof.Machine.execMovingAck k s
  | .carriedState k src home secs msgs => Sys2Proof.Machine.execCarriedState k src home secs msgs s
  | .moved k src dst => Sys2Proof.Machine.execMoved k src dst s
  | .withdraw k sender ifn seq => Sys2Proof.Machine.execWithdraw k sender ifn seq s
  | .idleRetirement k => Sys2Proof.Machine.execIdleRetirement k s
  | .capacityRetirement core => Sys2Proof.Machine.execCapacityRetirement core s
  | .messageAnswer n => Sys2Proof.Machine.execMessageAnswer n s
  | .retryResend who n => Sys2Proof.Machine.execRetryResend who n s
  -- failure, switching, clocks, errors
  | .watchdogExpire t => Sys2Proof.Machine.execWatchdogExpire t s
  | .sliceEnd cl => Sys2Proof.Machine.execSliceEnd cl s
  | .switchIn cl => Sys2Proof.Machine.execSwitchIn cl s
  | .clockStepEffective cl => Sys2Proof.Machine.execClockStepEffective cl s
  | .stepDrift cl => Sys2Proof.Machine.execStepDrift cl s
  | .softError e => Sys2Proof.Machine.execSoftError e s
  | .scrub stack => Sys2Proof.Machine.execScrub stack s
  -- translation and migration
  | .pageResponse idx ok => Sys2Proof.Machine.execPageResponse idx ok s
  | .walk core part asid va => Sys2Proof.Machine.execWalk core part asid va s
  | .xinvcmd part value => Sys2Proof.Machine.execXinvcmd part value s
  | .migcmd part value => Sys2Proof.Machine.execMigcmd part value s
  | .migrationCopy part => Sys2Proof.Machine.execMigrationCopy part s
  -- register writes with behaviour of their own
  | .poolcfgWrite core value => Sys2Proof.Machine.execPoolcfgWrite core value s
  | .framecfgWrite core value => Sys2Proof.Machine.execFramecfgWrite core value s
  | .eqcfgWrite part value => Sys2Proof.Machine.execEqcfgWrite part value s
  | .classInstall part cls => Sys2Proof.Machine.execClassInstall part cls s
  | .installResume part cls => Sys2Proof.Machine.execInstallResume part cls s
  | .classClear part cls => Sys2Proof.Machine.execClassClear part cls s
  | .jobReset part => Sys2Proof.Machine.execJobReset part s
  | .jobCancel part => Sys2Proof.Machine.execJobCancel part s
  | .debugLookup slice value => Sys2Proof.Machine.execDebugLookup slice value s
  | .debugHalt t => Sys2Proof.Machine.execDebugHalt t s
  | .debugResume t => Sys2Proof.Machine.execDebugResume t s
  | .debugStep t => Sys2Proof.Machine.execDebugStep t s
  | .registerWrite who off value => Sys2Proof.Machine.execRegisterWrite who off value s
  -- the host and management
  | .msemAcquire port value => Sys2Proof.Machine.execMsemAcquire port value s
  | .msemRelease port => Sys2Proof.Machine.execMsemRelease port s
  | .leaseExpire => Sys2Proof.Machine.execLeaseExpire s
  | .batchrel port mask => Sys2Proof.Machine.execBatchrel port mask s
  | .packetSubmit port ifn pk => Sys2Proof.Machine.execPacketSubmit port ifn pk s
  | .completionEntry port ifn => Sys2Proof.Machine.execCompletionEntry port ifn s
  | .mrbaseWrite port value => Sys2Proof.Machine.execMrbaseWrite port value s
  | .createPartition port => Sys2Proof.Machine.execCreatePartition port s
  | .destroyPartition port => Sys2Proof.Machine.execDestroyPartition port s
  | .writeRotation port cl reg value => Sys2Proof.Machine.execWriteRotation port cl reg value s
  | .migratePartition port part clusters => Sys2Proof.Machine.execMigratePartition port part clusters s
  | .bindPort port => Sys2Proof.Machine.execBindPort port s
  | .unbindPort port => Sys2Proof.Machine.execUnbindPort port s
  | .bindInterface port ifport ifn part pasid => Sys2Proof.Machine.execBindInterface port ifport ifn part pasid s
  | .revoke port pasid => Sys2Proof.Machine.execRevoke port pasid s
  | .writeRoute port dst value => Sys2Proof.Machine.execWriteRoute port dst value s
  | .firmwareImage port slot activate image => Sys2Proof.Machine.execFirmwareImage port slot activate image s
  | .attestationQuote port nonce => Sys2Proof.Machine.execAttestationQuote port nonce s
  | .readErrorRing port => Sys2Proof.Machine.execReadErrorRing port s
  -- links
  | .flitReceive link f => Sys2Proof.Machine.execFlitReceive link f s
  | .flitResend f => Sys2Proof.Machine.execFlitResend f s
  | .linkTrained link => Sys2Proof.Machine.execLinkTrained link s
  | .linkDown link => Sys2Proof.Machine.execLinkDown link s
  | .flowStopGo link vl stop => Sys2Proof.Machine.execFlowStopGo link vl stop s
  -- CXL
  | .cxlPostedWrite port strict pa data => Sys2Proof.Machine.execCxlPostedWrite port strict pa data s
  | .cxlRead port pa n => Sys2Proof.Machine.execCxlRead port pa n s
  | .cxlMemAccess port wr off data => Sys2Proof.Machine.execCxlMemAccess port wr off data s
  | .atsInvalidation port => Sys2Proof.Machine.execAtsInvalidation port s
  -- resets and power
  | .coldReset pkgid => Sys2Proof.Machine.execColdReset pkgid s
  | .warmReset => Sys2Proof.Machine.execWarmReset s
  | .powerSample inlet watts => Sys2Proof.Machine.execPowerSample inlet watts s

end Sys2Proof.Machine
end

