-- ==== Sys2Proof/Machine/Agenda.lean ====
section
/-! DEFINITION. Which step of the device comes next where the agenda names none: the selector's choice of a thread
(R368), and the steps that the state calls for (log 1). -/

namespace Sys2Proof.Machine

/-- Mesh cycles pass (R6); what waited for them goes on: a new CXL.mem range (R406), flits of a route that was written
(R400), those in receive buffers, the updates of counters (R123), and packets whose home is read (R308). -/
def State.passTime (s : State) (n : Nat) : State :=
  (((({ s with mesh := s.mesh + n } : State).memFlush 0).memFlush 1).routeFlush).serve.retryAdds.retryHomes

/-! ## The selector (R368) -/

/-- A thread that runs a unit, is neither halted nor waiting, is not within a stall count or its dispatch (R93, R366),
and whose watchdog has not expired (R373). Interlocks show where it tries to issue. -/
def State.eligible (s : State) (t : Nat) : Bool :=
  (s.thr t).canIssue && decide ((s.thr t).notBefore ≤ s.time (coreOf t)) && !s.overdue t
/-- The threads of a core in the selector's order. -/
def State.inOrder (s : State) (c : Nat) : List Nat := (s.core c).order.map (fun i => 4 * c + i)
/-- The eligible thread earliest in the order. -/
def State.chosen (s : State) (c : Nat) : Option Nat := (s.inOrder c).find? s.eligible

/-- R372: the unit of thread t has issued its first instruction, at a time of its core. -/
def State.firstIssue (s : State) (t now : Nat) : State :=
  match (s.thr t).unit with
  | some u =>
    if u.start.isSome then s
    else s.updThr t (fun h => { h with unit := some { u with start := some now } })
  | none => s

/-- R368, R93, R372: what thread t's issue of i leaves, where `h` is the thread before it and `now` the time: the
selector's order, the end of the stall count, and the start of the watchdog. One that could not issue leaves all as it
is. -/
def State.selected (s : State) (h : Thread) (t now : Nat) (i : Instr) : State :=
  if s.stalled then s
  else
    let k := (hdrOf i).stall.toNat
    let s := s.firstIssue t now
    let s := if k = 0 then s else s.updThr t (fun x => { x with notBefore := now + 1 + k })
    if h.yields i then s.yieldThr t else s.updCore (coreOf t) (fun c => c.issued (t % 4))

/-- The outcome of an instruction of a thread, with the selector's order after it. -/
def thenSelect (h : Thread) (t now : Nat) (i : Instr) :
    Host.Outcome State Fault Refusal → Host.Outcome State Fault Refusal
  | .next s => .next (s.selected h t now i)
  | .fault f => .fault f
  | .refused r => .refused r

/-- A thread's trap before it has an instruction: its word is illegal, or cannot be fetched. -/
def State.fetchTrap (s : State) (t now cause sub : Nat) (c4 c5 : Word) : Host.Outcome State Fault Refusal :=
  .next ((s.trapFrom s t cause sub c4 c5 false).selected (s.thr t) t now (.nop Hdr.plain))

/-- The current thread fetches, decodes and issues its next instruction (R101-R106). -/
def stepThread (s : State) : Host.Outcome State Fault Refusal :=
  let t := s.cur
  let now := s.time (coreOf t)
  match s.fetch t with
  | .word u w =>
    match decode w with
    | .ok i => thenSelect (s.thr t) t now i (exec i u)
    | .error e => u.fetchTrap t now 0x01 e.check (wordLo w) (wordHi w)
  | .trap u cause sub c5 => u.fetchTrap t now cause sub (u.thr t).pc c5
  | .stall u => .next u.stallIt
  | .ended u => .next u

/-- Thread t issues, or could not. -/
def State.tryIssue (s : State) (t : Nat) (late : Bool) : Host.Outcome State Fault Refusal :=
  stepThread { s with cur := t, late, stalled := false }
/-- Does an interlock, a claim, a full queue or a page hold an eligible thread back (R368)? -/
def State.heldBack (s : State) (t : Nat) : Bool :=
  match s.tryIssue t false with
  | .next u => u.stalled
  | .fault _ | .refused _ => false
/-- May thread t issue: is it eligible, and every thread earlier in its core's order not (R368)? -/
def State.mayTake (s : State) (t : Nat) : Bool :=
  s.eligible t && ((s.inOrder (coreOf t)).takeWhile (fun x => x != t)).all (fun x => !s.eligible x || s.heldBack x)

/-! ## What the state calls for -/

/-- The event that may end a thread's wait. -/
def wakeOf (t : Nat) : Wait → List Instr
  | .waitc _ => [.waitcReturn t]
  | .waita .. => [.waitaWake t]
  | .barw .. => [.barwWake t]
  | .join .. => [.joinWake t]
  | .frd .. => [.frdRetry t]
  | .sleep _ => [.sleepExpire t]
  | .adone => [.adoneDrained t]
  | .rfchk _ => [.rfchkWaitEnd t]
  | .aexport .. => []
  | .tplay .. => [.tplayDrained t]
/-- The same of a thread, if it waits. -/
def Thread.wakes (h : Thread) (t : Nat) : List Instr :=
  match h.waiting with
  | some w => wakeOf t w
  | none => []

/-- What the device may do with the queues of an owner. -/
def queueEvents (o : QOwner) : List Instr :=
  (List.range 4).flatMap (fun q =>
    [.commandComplete o q, .repeatIteration o q, .copyUnit o q 0, .commandBegin o q, .commandAtHead o q])

/-- The agent of an ID (R11, R12). -/
def agentOf (id : BitVec 32) : Agent :=
  match idKind id with
  | 0 => .thread (idThread id)
  | 1 => .seqr (idCore id)
  | 2 => .queue (idThread id) (id.extractLsb' 0 6).toNat
  | 3 => .quill (idCluster id)
  | 4 => .brush (idCluster id / 18)
  | _ => .port (id.extractLsb' 0 6).toNat

/-- Loads and stores of an agent that wait in its issue queue, and stores in its buffer. -/
def AgentMem.events (a : AgentMem) (ag : Agent) : List Instr :=
  (List.range a.iq.length).flatMap (fun n => [.performLoad ag n, .issueStore ag n]) ++
    a.sb.map (fun st => .storeLeaveBuffer ag st.id)

/-- What a notice calls for. -/
def Notice.event (n : Notice) : Instr :=
  match n.kind with
  | .runEnded .. => .runEnded n.key
  | .hwError .. => .hardwareErrorNotice n.key
  | .commitFailed _ => .writeBackFailed n.key
  | .runFailed .. => .runFailed n.key

/-- The notices that an entry of the directory may have from its core. -/
def Entry.reports (e : Entry) : List Instr :=
  let k := e.key
  match e.st with
  | .activating => [.activationDone k, .statePageNotResident k, .stateBlockFailed k]
  | .retiring => [.writeBackDone k, .writeBackFailed k]
  | .absent | .live | .forward | .failed => []
/-- What an entry's timers may call for. -/
def Entry.timers (e : Entry) : List Instr :=
  match e.st with
  | .live => [.idleRetirement e.key]
  | .forward => [.retryResend (.slice e.key) 0]
  | .absent | .activating | .retiring | .failed => []

/-- What a partition calls for: its class command, installs in progress, a migration. -/
def Part.events (k : Part) (p : Nat) : List Instr :=
  (if clsBusy k.clscmd then [.classInstall p (clsClass k.clscmd), .classClear p (clsClass k.clscmd)] else []) ++
    k.frozen.map (fun f => .installResume p (BitVec.ofNat 16 f.1)) ++ (if k.migration.isSome then [.migrationCopy p] else [])

/-- The threads that may take a unit: those of the clusters that run a partition. -/
def State.takers (s : State) : List Nat :=
  (s.clusters.filter (fun c => (s.runs c.1).isSome)).flatMap (fun c => (List.range 32).map (fun i => 32 * c.1 + i))

/-- Everything that the state calls for, in the order in which it is tried: at the slices notices go before timers, and
those before messages (R311). -/
def State.calls (s : State) : List Instr :=
  s.threads.map (fun h => .watchdogExpire h.1) ++
  (s.thr s.cur).wakes s.cur ++
  s.agents.flatMap (fun a => a.2.events (agentOf (BitVec.ofNat 32 a.1))) ++
  s.threads.flatMap (fun h => queueEvents (.thread h.1)) ++
  s.cores.flatMap (fun c => queueEvents (.seqr c.1) ++ [.replayDrained c.1, .replayIssue c.1, .replayTake c.1]) ++
  s.dir.flatMap Entry.reports ++ s.notices.map Notice.event ++ s.cores.map (fun c => .roomNotice c.1) ++
  s.dir.flatMap Entry.timers ++ s.cores.map (fun c => .capacityRetirement c.1) ++
  (List.range s.answers.length).map .messageAnswer ++ (List.range s.flights.length).map .messageArrival ++
  s.threads.flatMap (fun h => h.2.wakes h.1) ++
  s.takers.map .unitDispatch ++
  s.hold.map (fun e => .storeClimb e.id e.lvl) ++
  s.threads.flatMap (fun h => (List.range h.2.outq.length).map (.retryResend (.agent (.thread h.1)))) ++
  s.ports.flatMap (fun p => (rising (p.2.ceq.map Prod.fst)).map (.completionEntry p.1)) ++
  s.parts.flatMap (fun p => p.2.events p.1) ++
  s.clusters.flatMap (fun c => [.switchIn c.1, .sliceEnd c.1, .clockStepEffective c.1, .stepDrift c.1]) ++
  s.outst.map (fun o => .answerTimeout o.tag) ++ (List.range 16).map .scrub ++ [.leaseExpire]

/-- The settled copies that may be discarded (R117): of each sector of L1 and L2. -/
def State.discards (s : State) : List Instr :=
  let out (lvl inst : Nat) (l : CLine) : List Instr :=
    l.secs.map (fun x => .discardSettled lvl inst (2 * (l.pline + 48 * x.1)))
  s.cores.flatMap (fun c => c.2.l1.flatMap (out 1 (idAt (s.coreAgent c.1) 1))) ++
    s.l2.flatMap (fun k => k.2.flatMap (out 4 (idAt (agentId s.pkg (.brush k.1)) 4)))

/-- Does an event change the state? -/
def State.moves (s : State) (i : Instr) : Bool :=
  match exec i s with
  | .next s' => decide ({ s' with stalled := s.stalled } ≠ s)
  | _ => false

/-- The first of a list of events that changes the state happens. -/
def State.firstMove (s : State) (l : List Instr) : Option (Host.Outcome State Fault Refusal) :=
  (l.find? s.moves).map (fun i => exec i { s with stalled := false })

/-- The cores that have threads, from the one after core c on, core c last. -/
def State.coresAfter (s : State) (c : Nat) : List Nat :=
  let l := rising (s.threads.map (fun h => coreOf h.1))
  l.filter (fun x => decide (c < x)) ++ l.filter (fun x => decide (x ≤ c))

/-- The first thread of another core, or one later in its core's order, that can issue. -/
def State.anyIssue (s : State) : Option (Host.Outcome State Fault Refusal) :=
  (((s.coresAfter (coreOf s.cur)).flatMap s.inOrder).find? (fun t => s.eligible t && !s.heldBack t)).map
    (fun t => s.tryIssue t false)

/-- A mesh cycle passes, after which a thread that could not issue tries again. -/
def State.idleCycle (s : State) : Host.Outcome State Fault Refusal := .next ({ s with stalled := false }.passTime 1)

/-- No thread of the current core can issue: an event that the state calls for happens; else another thread issues;
else a mesh cycle passes. -/
def State.otherwise (s : State) : Host.Outcome State Fault Refusal :=
  match s.firstMove s.calls with
  | some r => r
  | none => s.anyIssue.getD s.idleCycle

/-- The current core's turn: the selector's choice issues (R368). -/
def State.coreTurn (s : State) : Host.Outcome State Fault Refusal :=
  match (if s.stalled then none else s.chosen (coreOf s.cur)) with
  | some t => s.tryIssue t false
  | none => s.otherwise

/-- An empty agenda's turns, by their number: of eight, one goes to the device, which begins its search each time at
another event, discards of settled copies among them (R117), one to another core, one to a mesh cycle, and five to the
current core (log 1). -/
def State.turn (s : State) : Host.Outcome State Fault Refusal :=
  match s.fair % 8 with
  | 0 =>
    let l := s.calls ++ s.discards
    let k := s.fair / 8 % l.length
    (s.firstMove (l.drop k ++ l.take k)).getD s.coreTurn
  | 4 =>
    match (s.coresAfter (coreOf s.cur)).findSome? s.chosen with
    | some t => s.tryIssue t false
    | none => s.coreTurn
  | 6 => s.idleCycle
  | _ => s.coreTurn

/-- The line that holds a thread's PC, with a word put there. -/
def lineWith (h : Thread) (w : Nat) : List Byte :=
  let o := h.pc.toNat % 192
  let old := (match h.ibuf.find? (fun e => e.1 == h.pc.toNat / 192) with
    | some (_, bs) => bs
    | none => []) ++ List.replicate 192 0
  old.take o ++ bytesOfNat 12 w ++ (old.drop (o + 12)).take (180 - o)

end Sys2Proof.Machine
end

