-- ==== Sys2Proof/Machine/Step.lean ====
section
/-! DEFINITION. One step of the package, and placing an instruction where the next step fetches. -/

namespace Sys2Proof.Machine

/-- One step: what the agenda names, where it may happen; else the next turn of an empty agenda. -/
def step (s : State) : Host.Outcome State Fault Refusal :=
  match s.agenda with
  | .event i :: rest =>
    let s := { s with agenda := rest }
    if (encode i).isNone then exec i s else .next s
  | .issue t late :: rest =>
    let s := { s with agenda := rest }
    if s.mayTake t then s.tryIssue t late else .next s
  | .tick n :: rest => .next ({ s with agenda := rest }.passTime n)
  | [] => { s with fair := s.fair + 1 }.turn

/-- A thread that can issue at once: it runs a unit whose watchdog has time left, and nothing holds it. -/
def Thread.goes (h : Thread) (overdue : Bool) : Thread :=
  let u := h.unit.getD bootUnit
  { h with
    unit := some (if overdue then { u with start := none } else u), waiting := none, halted := false, notBefore := 0 }

/-- s with an instruction where the next step fetches: in the current thread's instruction buffer, that thread the
selector's choice. -/
def State.withFetchWord (s : State) (_nbits w : Nat) : State :=
  let h := s.thr s.cur
  let n := h.pc.toNat / 192
  let s : State := { s.setThr s.cur { h.goes (s.overdue s.cur) with
      ibuf := (n, lineWith h w) :: (h.ibuf.filter (fun e => e.1 != n)).take 3 } with
    agenda := [], stalled := false, fair := 0 }
  if s.chosen (coreOf s.cur) = some s.cur then s
  else s.updCore (coreOf s.cur) (fun k => { k with order := s.cur % 4 :: k.order.filter (fun i => i != s.cur % 4) })

end Sys2Proof.Machine
end

