-- ==== Sys2Proof/Safety.lean ====
section
/-! DEFINITION. What counts as a safe step and a safe run, and the terms in which claims speak of an
instruction: when it issues, and how it completes. -/

namespace Sys2Proof.Machine

/-- A step that goes on. -/
def Runs (s : State) : Prop := ∃ t, step s = .next t

/-- A run of n steps that goes on. -/
def RunsFor : Nat → State → Prop
  | 0, _ => True
  | n + 1, s => ∃ t, step s = .next t ∧ RunsFor n t

/-- The memory of a state is in its canonical form. -/
def State.MemWf (s : State) : Prop := Memory.wf s.mem = true

/-- The current thread. -/
def State.me (s : State) : Thread := s.thr s.cur

/-- The current thread can issue i: no load left in its issue queue and no claim holds it back, its guard lets
it take effect, and no tape is being recorded. -/
structure Ready (s : State) (h : Hdr) (i : Instr) : Prop where
  free  : s.mayIssue s.cur i = true
  guard : s.me.guard h = true
  plain : s.me.recording = none

/-- Instruction i answers the state u, after which the thread goes on with the next word, or round a loop. -/
def GoesOn (s : State) (i : Instr) (u : State) : Prop := exec i s = .next (u.complete s.cur (reach i))

/-- Instruction i changes the current thread by f and nothing else, and the thread goes on. -/
def Does (s : State) (i : Instr) (f : Thread → Thread) : Prop := GoesOn s i (s.updThr s.cur f)

/-- Instruction i answers the state u, after which the thread is at a target. -/
def JumpsTo (s : State) (i : Instr) (u : State) (pc : Word) : Prop := exec i s = .next (u.jumpTo s.cur pc)

end Sys2Proof.Machine
end

