-- ==== Sys2Proof/Certificates/Slice0/Obligations.lean ====
section
/-! DEFINITION. The statements for the provers. -/

open Sys2Proof Sys2Proof.Machine

/-! ## Encoding -/

/-- R95, R101: the word of every well-formed instruction decodes to that instruction, every operand kept. -/
def Obligations.EncodeDecode : Prop :=
  ∀ (i : Instr) (w : IWord), i.wf = true → encode i = some w → decode w = .ok i

/-- R101: a word that decodes is the word of its instruction, which is well formed: no bit of a word is ignored. -/
def Obligations.DecodeExact : Prop :=
  ∀ (w : IWord) (i : Instr), decode w = .ok i → i.wf = true ∧ encode i = some w

/-- Words of the spec's encoding tables (R164, R302 and their neighbours) decode to the instructions they stand for. -/
def Obligations.WordsDecode : Prop :=
  decode 0x4C000410_8200C000_00000000#96 = .ok (.send Hdr.plain 1 (.r 8) 0 (.r 12)) ∧
  decode 0x4CC00E0E_0E0E0000_00000000#96 = .ok (.adone Hdr.plain) ∧
  decode 0x1C000421_4E000000_00000005#96 = .ok (.fork Hdr.plain 2 (.r 20) false 5) ∧
  decode 0x1D000430_405E0019_00000000#96 = .ok (.fwr Hdr.plain 3 (.r 4) (.r 5) 6 .sp) ∧
  decode 0x1DC00040_6E0E0001_00000000#96 = .ok (.launch Hdr.plain (.r 4) (.r 6) .sp) ∧
  decode 0x5040014E_0E0E0008_00000040#96 = .ok (.tpatch Hdr.plain (.r 20) .zr ⟨.pay, 2⟩ 64) ∧
  decode 0x00800E0E_0E0E0000_00000007#96 = .ok (.trap Hdr.plain 7) ∧
  decode 0x0140010C_3E0E0000_00000000#96 = .ok (.mfc Hdr.plain (.r 16) 3) ∧
  decode 0x00C00E01_0E0E0000_00000000#96 = .ok (.eret Hdr.plain (.r 16))

/-! ## The step -/

/-- A step at s lets thread t issue, in the state v: the agenda names a thread that may issue, or is empty, the turn the
current core's, and t its selector's choice (R368). The agenda and its turns are the model's own (log 1). -/
def Claim.Issues (s : State) (t : Nat) (v : State) : Prop :=
  (∃ late rest, s.agenda = .issue t late :: rest ∧ ({ s with agenda := rest } : State).mayTake t = true ∧
    v = { s with agenda := rest, cur := t, late := late, stalled := false }) ∨
  (s.agenda = [] ∧ (s.fair + 1) % 8 ∉ [0, 4, 6] ∧ s.stalled = false ∧ s.chosen (coreOf s.cur) = some t ∧
    v = { s with fair := s.fair + 1, cur := t, late := false })

/-- R92, R103, R368: a step that lets a thread issue fetches the word at its PC, and the instruction that the word
decodes to is executed, in the state that the fetch leaves; the issue selector's order is then that of a core whose
thread has issued. -/
def Obligations.StepRunsDecoded : Prop :=
  ∀ (s v u : State) (t : Nat) (w : IWord) (i : Instr), Claim.Issues s t v → v.fetch t = .word u w → decode w = .ok i →
    step s = thenSelect (s.thr t) t (s.time (coreOf t)) i (exec i u)

/-- R104: a line that the thread's instruction buffer holds is fetched from the buffer: the word there, and no
state changed but that the line is now the last used. What the buffer keeps is the model's reading (log 17). -/
def Claim.FetchFromBuffer : Prop :=
  ∀ (s : State) (t n : Nat) (bs : List Byte), (s.thr t).pc.toNat < vaEnd →
    (s.thr t).ibuf.find? (fun e => e.1 == (s.thr t).pc.toNat / 192) = some (n, bs) →
    s.fetch t = .word (s.setThr t { s.thr t with ibuf := ((n, bs) :: (s.thr t).ibuf.filter (fun e => e.1 != n)).take 4 })
      (wordOfBytes ((bs.drop ((s.thr t).pc.toNat % 192)).take 12))

/-- R101, R306: a word that fails a check traps ILLEGAL with the number of the check, c4 and c5 holding the word. -/
def Claim.StepIllegal : Prop :=
  ∀ (s v u : State) (t : Nat) (w : IWord) (e : DecodeError), Claim.Issues s t v → v.fetch t = .word u w →
    decode w = .error e →
    step s = .next ((u.trapFrom u t 0x01 e.check (w.extractLsb' 0 64) ((w.extractLsb' 64 32).setWidth 64) false).selected
      (u.thr t) t (s.time (coreOf t)) (.nop Hdr.plain))

/-- The instruction that withFetchWord places is the one that the next step executes, as long as the PC leaves
room for its word in a line (R103). Where the word is placed is the model's choice (log 14). -/
def Claim.PlacedWordRuns : Prop :=
  ∀ (s : State) (i : Instr) (w : IWord), (s.me.pc.toNat % 192) % 12 = 0 → s.me.pc.toNat < vaEnd → decode w = .ok i →
    let u : State := { s.withFetchWord 96 w.toNat with fair := 1, late := false }
    step (s.withFetchWord 96 w.toNat) = thenSelect u.me s.cur (u.time (coreOf s.cur)) i (exec i u)

/-- The word that a thread fetches, and one that fails a check: `Claim.FetchFromBuffer`, `Claim.StepIllegal`, `Claim.PlacedWordRuns`. -/
def Obligations.FetchResult : Prop := Claim.FetchFromBuffer ∧ Claim.StepIllegal ∧ Claim.PlacedWordRuns

/-! ## How an instruction completes (R33, R35, R92) -/

/-- R35: at an instruction whose PC ends no active loop, the next PC is PC plus the instruction's reach. -/
def Claim.PcAdvances : Prop :=
  ∀ (h : Thread) (d : Word), (∀ n : Fin 4, h.lc[n] ≠ 0 → h.le[n] ≠ h.pc) →
    h.advance d = { h with pc := h.pc + d }

/-- R35: at the end of the innermost active loop with a count above 1 the count falls by 1 and the PC goes to the
loop's start; with a count of 1 the loop ends and the outer loops are tested. -/
def Claim.LoopGoesRound : Prop :=
  ∀ (h : Thread) (d : Word) (n : Fin 4), (∀ k : Fin 4, k < n → h.lc[k] ≠ 0 → h.le[k] ≠ h.pc) →
    h.le[n] = h.pc →
    (1 < (h.lc[n]).toNat → h.advance d = { h with lc := h.lc.set n (h.lc[n] - 1), pc := h.ls[n] }) ∧
    (h.lc[n] = 1 → h.advance d = { h with lc := h.lc.set n 0 }.advance d)

/-- The next PC, and the end of a hardware loop: `Claim.PcAdvances`, `Claim.LoopGoesRound`. -/
def Obligations.NextPc : Prop := Claim.PcAdvances ∧ Claim.LoopGoesRound

/-- R33, R92: an instruction of any kind that has a word, whose guard fails, changes nothing but the PC, the loop counts,
the core's cycle and what its boundary does: the next PC is PC + 12, and behind a REPB the word after its body of n + 1. -/
def Obligations.GuardedOff : Prop :=
  ∀ (s : State) (i : Instr) (w : IWord) (d : Word), encode i = some w → s.mayIssue s.cur i = true →
    s.me.guard (hdrOf i) = false → s.me.recording = none →
    (match i with
      | .repb _ _ _ _ n _ _ _ _ _ => d = 12 * (BitVec.ofNat 64 n.toNat + 2)
      | _ => d = 12) →
    exec i s = .next (s.complete s.cur d)

/-! ## Groups 0x02 and 0x03: integer arithmetic and logic (R147-R153) -/

/-- t of ADD and SUB by SM: D, and whether it was clamped (R148). -/
def Claim.sumAs (sm : Sat) (neg : Bool) (th : Thread) (a : SOp) (b : Src) : Word × Bool :=
  match sm with
  | .wrap =>
    let t := if neg then (th.rs a).toInt - (th.srcS b).toInt else (th.rs a).toInt + (th.srcS b).toInt
    (BitVec.ofInt 64 t, false)
  | .ss =>
    let t := if neg then (th.rs a).toInt - (th.srcS b).toInt else (th.rs a).toInt + (th.srcS b).toInt
    (BitVec.ofInt 64 (max (-2 ^ 63) (min (2 ^ 63 - 1) t)), decide (t < -2 ^ 63) || decide (2 ^ 63 - 1 < t))
  | .us =>
    let t : Int := if neg then ((th.rs a).toNat : Int) - (th.srcU b).toNat
      else ((th.rs a).toNat : Int) + (th.srcU b).toNat
    (BitVec.ofInt 64 (max 0 (min (2 ^ 64 - 1) t)), decide (t < 0) || decide (2 ^ 64 - 1 < t))

/-- c1 with its sticky SAT flag, bit 8, set (R28). -/
def Claim.setSat (w : Word) (b : Bool) : Word := if b then w ||| 0x100 else w

/-- R148: ADD and SUB compute the sum or difference exactly; SM makes it D, and a clamp sets SAT. -/
def Claim.AddSubResult : Prop :=
  ∀ (s : State) (h : Hdr) (d a : SOp) (b : Src) (sm : Sat),
    (Ready s h (.add h d a b sm) → Does s (.add h d a b sm) (fun th =>
      { th.ws d (Claim.sumAs sm false th a b).1 with status := Claim.setSat th.status (Claim.sumAs sm false th a b).2 })) ∧
    (Ready s h (.sub h d a b sm) → Does s (.sub h d a b sm) (fun th =>
      { th.ws d (Claim.sumAs sm true th a b).1 with status := Claim.setSat th.status (Claim.sumAs sm true th a b).2 }))

/-- R149: the products. -/
def Claim.MultiplyResult : Prop :=
  ∀ (s : State) (h : Hdr) (d a : SOp) (b : Src) (x c : SOp),
    (Ready s h (.mul h d a b) → Does s (.mul h d a b) (fun th =>
      th.ws d (BitVec.ofNat 64 ((th.rs a).toNat * (th.srcS b).toNat)))) ∧
    (Ready s h (.mulh h d a b) → Does s (.mulh h d a b) (fun th =>
      th.ws d ((((th.rs a).signExtend 128) * ((th.srcS b).signExtend 128)).extractLsb' 64 64))) ∧
    (Ready s h (.mulhu h d a b) → Does s (.mulhu h d a b) (fun th =>
      th.ws d ((((th.rs a).setWidth 128) * ((th.srcU b).setWidth 128)).extractLsb' 64 64))) ∧
    (Ready s h (.madd h d a x c) → Does s (.madd h d a x c) (fun th =>
      th.ws d (BitVec.ofNat 64 ((th.rs a).toNat * (th.rs x).toNat + (th.rs c).toNat))))

/-- R150: DIV, DIVU, REM and REMU write a quotient and a remainder of one division, with its boundary cases. -/
def Claim.DivideResult : Prop :=
  ∀ (s : State) (h : Hdr) (d a : SOp) (b : Src),
    (Ready s h (.div h d a b) → Does s (.div h d a b) (fun th =>
      th.ws d (if th.srcS b = 0 then BitVec.allOnes 64 else (th.rs a).sdiv (th.srcS b)))) ∧
    (Ready s h (.rem h d a b) → Does s (.rem h d a b) (fun th =>
      th.ws d (if th.srcS b = 0 then th.rs a else (th.rs a).srem (th.srcS b)))) ∧
    (Ready s h (.divu h d a b) → Does s (.divu h d a b) (fun th =>
      th.ws d (if th.srcU b = 0 then BitVec.allOnes 64 else th.rs a / th.srcU b))) ∧
    (Ready s h (.remu h d a b) → Does s (.remu h d a b) (fun th =>
      th.ws d (if th.srcU b = 0 then th.rs a else th.rs a % th.srcU b)))

/-- R151: DIVL divides by 3 · 2^k, for every k, or gives the remainder. -/
def Claim.DivlResult : Prop :=
  ∀ (s : State) (h : Hdr) (d a : SOp) (b : Src) (qr : Bool),
    Ready s h (.divl h d a b qr) → Does s (.divl h d a b qr) (fun th =>
      let n := (th.rs a).toNat
      let m := 3 * 2 ^ (th.srcU b).toNat
      th.ws d (BitVec.ofNat 64 (if qr then n - n / m * m else n / m)))

/-- The products and the quotients: `Claim.MultiplyResult`, `Claim.DivideResult`, `Claim.DivlResult`. -/
def Obligations.MultiplyDivide : Prop := Claim.MultiplyResult ∧ Claim.DivideResult ∧ Claim.DivlResult

/-- R152, R153: logic, shifts by the low six bits of b, rotation, and the lesser and greater. -/
def Claim.LogicResult : Prop :=
  ∀ (s : State) (h : Hdr) (d a : SOp) (b : Src),
    (Ready s h (.and h d a b) → Does s (.and h d a b) (fun th => th.ws d (th.rs a &&& th.srcS b))) ∧
    (Ready s h (.or h d a b) → Does s (.or h d a b) (fun th => th.ws d (th.rs a ||| th.srcS b))) ∧
    (Ready s h (.xor h d a b) → Does s (.xor h d a b) (fun th => th.ws d (th.rs a ^^^ th.srcS b))) ∧
    (Ready s h (.andn h d a b) → Does s (.andn h d a b) (fun th => th.ws d (th.rs a &&& ~~~th.srcS b))) ∧
    (Ready s h (.shl h d a b) → Does s (.shl h d a b) (fun th =>
      th.ws d (th.rs a <<< ((th.srcU b).extractLsb' 0 6).toNat))) ∧
    (Ready s h (.shr h d a b) → Does s (.shr h d a b) (fun th =>
      th.ws d (th.rs a >>> ((th.srcU b).extractLsb' 0 6).toNat))) ∧
    (Ready s h (.sar h d a b) → Does s (.sar h d a b) (fun th =>
      th.ws d ((th.rs a).sshiftRight ((th.srcU b).extractLsb' 0 6).toNat))) ∧
    (Ready s h (.rol h d a b) → Does s (.rol h d a b) (fun th =>
      th.ws d ((th.rs a).rotateLeft ((th.srcU b).extractLsb' 0 6).toNat))) ∧
    (Ready s h (.min h d a b) → Does s (.min h d a b) (fun th =>
      th.ws d (BitVec.ofInt 64 (min (th.rs a).toInt (th.srcS b).toInt)))) ∧
    (Ready s h (.max h d a b) → Does s (.max h d a b) (fun th =>
      th.ws d (BitVec.ofInt 64 (max (th.rs a).toInt (th.srcS b).toInt)))) ∧
    (Ready s h (.minu h d a b) → Does s (.minu h d a b) (fun th =>
      th.ws d (BitVec.ofNat 64 (min (th.rs a).toNat (th.srcU b).toNat)))) ∧
    (Ready s h (.maxu h d a b) → Does s (.maxu h d a b) (fun th =>
      th.ws d (BitVec.ofNat 64 (max (th.rs a).toNat (th.srcU b).toNat))))

/-- ADD, SUB, logic, shifts and limits: `Claim.AddSubResult`, `Claim.LogicResult`. -/
def Obligations.AddSubLogic : Prop := Claim.AddSubResult ∧ Claim.LogicResult

/-! ## Group 0x04: bits, fields, addresses, select (R155-R158) -/

/-- n is the number of zero bits of a above its highest 1, or 64. -/
def Claim.zerosAbove (a : Word) (n : Nat) : Prop :=
  n ≤ 64 ∧ (∀ k < n, a.getLsbD (63 - k) = false) ∧ (n < 64 → a.getLsbD (63 - n) = true)

/-- n is the number of zero bits of a below its lowest 1, or 64. -/
def Claim.zerosBelow (a : Word) (n : Nat) : Prop :=
  n ≤ 64 ∧ (∀ k < n, a.getLsbD k = false) ∧ (n < 64 → a.getLsbD n = true)

/-- R155: CLZ, CTZ, POPC and BREV. -/
def Claim.BitCounts : Prop :=
  ∀ (s : State) (h : Hdr) (d a : SOp),
    (Ready s h (.clz h d a) → ∃ n, Claim.zerosAbove (s.me.rs a) n ∧
      Does s (.clz h d a) (fun th => th.ws d (BitVec.ofNat 64 n))) ∧
    (Ready s h (.ctz h d a) → ∃ n, Claim.zerosBelow (s.me.rs a) n ∧
      Does s (.ctz h d a) (fun th => th.ws d (BitVec.ofNat 64 n))) ∧
    (Ready s h (.popc h d a) → Does s (.popc h d a) (fun th =>
      th.ws d (BitVec.ofNat 64 ((List.range 64).countP (fun k => (th.rs a).getLsbD k))))) ∧
    (Ready s h (.brev h d a) → ∃ x : Word, (∀ k < 64, x.getLsbD k = (s.me.rs a).getLsbD (63 - k)) ∧
      Does s (.brev h d a) (fun th => th.ws d x))

/-- R156: the bit fields, bit by bit, for AT + LEN at most 64. -/
def Claim.BitFields : Prop :=
  ∀ (s : State) (h : Hdr) (d a b : SOp) (len pos : BitVec 6),
    (Ready s h (.bfx h d a len pos) → pos.toNat + len.toNat + 1 ≤ 64 → ∃ x : Word,
      (∀ k < 64, x.getLsbD k = (decide (k ≤ len.toNat) && (s.me.rs a).getLsbD (pos.toNat + k))) ∧
      Does s (.bfx h d a len pos) (fun th => th.ws d x)) ∧
    (Ready s h (.bfi h d a b len pos) → pos.toNat + len.toNat + 1 ≤ 64 → ∃ x : Word,
      (∀ k < 64, x.getLsbD k = if pos.toNat ≤ k ∧ k ≤ pos.toNat + len.toNat then (s.me.rs b).getLsbD (k - pos.toNat)
        else (s.me.rs a).getLsbD k) ∧
      Does s (.bfi h d a b len pos) (fun th => th.ws d x)) ∧
    (Ready s h (.sext h d a len) → ∃ x : Word,
      (∀ k < 64, x.getLsbD k = (s.me.rs a).getLsbD (min k len.toNat)) ∧
      Does s (.sext h d a len) (fun th => th.ws d x)) ∧
    (Ready s h (.zext h d a len) → ∃ x : Word,
      (∀ k < 64, x.getLsbD k = (decide (k ≤ len.toNat) && (s.me.rs a).getLsbD k)) ∧
      Does s (.zext h d a len) (fun th => th.ws d x))

/-- Bit counts and bit fields: `Claim.BitCounts`, `Claim.BitFields`. -/
def Obligations.BitResult : Prop := Claim.BitCounts ∧ Claim.BitFields

/-- R157, R158, R160, R302: addresses, selects, moves, the timebase, and NOP. -/
def Obligations.MoveResult : Prop :=
  ∀ (s : State) (h : Hdr) (d a b : SOp) (x3 : Bool) (k : BitVec 6) (imm : BitVec 32) (c : BitVec 3) (zx : Bool),
    (Ready s h (.lea h d a b x3 k imm) → Does s (.lea h d a b x3 k imm) (fun th =>
      th.ws d (BitVec.ofInt 64 ((th.rs a).toNat + (th.rs b).toNat * (if x3 then 3 else 1) * 2 ^ k.toNat
        + imm.toInt)))) ∧
    (Ready s h (.sel h d a b c) → Does s (.sel h d a b c) (fun th =>
      th.ws d (if c = 0 ∨ th.p.getLsbD c.toNat = true then th.rs a else th.rs b))) ∧
    (Ready s h (.movi h d zx imm) → Does s (.movi h d zx imm) (fun th =>
      th.ws d (if zx then BitVec.ofNat 64 imm.toNat else BitVec.ofInt 64 imm.toInt))) ∧
    (Ready s h (.movhi h d a imm) → Does s (.movhi h d a imm) (fun th =>
      th.ws d (BitVec.ofNat 64 (imm.toNat * 2 ^ 32 + (th.rs a).toNat % 2 ^ 32)))) ∧
    (Ready s h (.mov h d a) → Does s (.mov h d a) (fun th => th.ws d (th.rs a))) ∧
    (Ready s h (.clkrd h d) → Does s (.clkrd h d) (fun th => th.ws d (BitVec.ofNat 64 s.mesh))) ∧
    (Ready s h (.nop h) → GoesOn s (.nop h) s)

/-! ## Group 0x05: compares, predicates and masks (R161-R163) -/

/-- The condition of a compare (R161). -/
def Claim.holds (cc : CC) (a b : Int) : Prop :=
  match cc with
  | .eq => a = b | .ne => a ≠ b | .lt => a < b | .ge => a ≥ b | .le => a ≤ b | .gt => a > b

/-- A predicate as a proposition; p0 reads true (R15). -/
def Claim.isTrue (th : Thread) (c : BitVec 3) : Prop := c = 0 ∨ th.p.getLsbD c.toNat = true

/-- The combination with C (R161). -/
def Claim.combined (th : Thread) (cb : Comb) (x : Prop) : Prop :=
  match cb with
  | .set => x
  | .and c => x ∧ Claim.isTrue th c
  | .or c => x ∨ Claim.isTrue th c

/-- R161: CMP reads its operands as signed and CMPU as unsigned; the predicate takes the combined condition. -/
def Claim.CompareResult : Prop :=
  ∀ (s : State) (h : Hdr) (d : BitVec 3) (a : SOp) (b : Src) (cc : CC) (cb : Comb),
    (Ready s h (.cmp h d a b cc cb) → ∃ x : Bool,
      (x = true ↔ Claim.combined s.me cb (Claim.holds cc (s.me.rs a).toInt (s.me.srcS b).toInt)) ∧
      Does s (.cmp h d a b cc cb) (fun th => th.wp d x)) ∧
    (Ready s h (.cmpu h d a b cc cb) → ∃ x : Bool,
      (x = true ↔ Claim.combined s.me cb (Claim.holds cc (s.me.rs a).toNat (s.me.srcU b).toNat)) ∧
      Does s (.cmpu h d a b cc cb) (fun th => th.wp d x))

/-- R162: PLOG looks each bit up in TT. -/
def Claim.PlogResult : Prop :=
  ∀ (s : State) (h : Hdr) (d a b : BitVec 3) (tt : BitVec 4),
    (Ready s h (.plog h (.p d a b) tt) → Does s (.plog h (.p d a b) tt) (fun th =>
      th.wp d (tt.getLsbD (2 * (th.rp a).toNat + (th.rp b).toNat)))) ∧
    (Ready s h (.plog h (.m d a b) tt) → ∃ x : Mask,
      (∀ k < 48, x.getLsbD k = tt.getLsbD (2 * ((s.me.rm a).getLsbD k).toNat + ((s.me.rm b).getLsbD k).toNat)) ∧
      Does s (.plog h (.m d a b) tt) (fun th => th.wm d x))

/-- R163: PMOV, for every pair of files that it accepts. -/
def Claim.PmovResult : Prop :=
  ∀ (s : State) (h : Hdr) (n k : BitVec 3) (r x : SOp),
    (Ready s h (.pmov h (.p n) (.p k)) → Does s (.pmov h (.p n) (.p k)) (fun th => th.wp n (th.rp k))) ∧
    (Ready s h (.pmov h (.p n) (.m k)) → Does s (.pmov h (.p n) (.m k)) (fun th => th.wp n (decide (th.rm k ≠ 0)))) ∧
    (Ready s h (.pmov h (.p n) (.s x)) → Does s (.pmov h (.p n) (.s x)) (fun th => th.wp n (decide (th.rs x ≠ 0)))) ∧
    (Ready s h (.pmov h (.m n) (.p k)) → Does s (.pmov h (.m n) (.p k)) (fun th =>
      th.wm n (if th.rp k then BitVec.allOnes 48 else 0))) ∧
    (Ready s h (.pmov h (.m n) (.m k)) → Does s (.pmov h (.m n) (.m k)) (fun th => th.wm n (th.rm k))) ∧
    (Ready s h (.pmov h (.m n) (.s x)) → Does s (.pmov h (.m n) (.s x)) (fun th =>
      th.wm n (BitVec.ofNat 48 (th.rs x).toNat))) ∧
    (Ready s h (.pmov h (.s r) (.p k)) → Does s (.pmov h (.s r) (.p k)) (fun th =>
      th.ws r (if th.rp k then 1 else 0))) ∧
    (Ready s h (.pmov h (.s r) (.m k)) → Does s (.pmov h (.s r) (.m k)) (fun th =>
      th.ws r (BitVec.ofNat 64 (th.rm k).toNat)))

/-- Compares, PLOG and PMOV: `Claim.CompareResult`, `Claim.PlogResult`, `Claim.PmovResult`. -/
def Obligations.PredicateResult : Prop := Claim.CompareResult ∧ Claim.PlogResult ∧ Claim.PmovResult

/-! ## Group 0x00: control registers, traps and returns (R27, R28, R34, R302-R307) -/

/-- What a control register reads (R27); c29 to c31 read zero. -/
def Claim.creg (s : State) (c : CReg) : Word :=
  let h := s.me
  match c.toNat with
  | 0 => (agentId s.pkg (.thread s.cur)).setWidth 64
  | 1 => h.status | 2 => h.tcause | 3 => h.tpc | 4 => h.taddr | 5 => h.tinfo | 6 => h.hdr0 | 7 => h.hdr1
  | 8 => h.ls[0] | 9 => h.le[0] | 10 => BitVec.ofNat 64 (h.lc[0]).toNat
  | 11 => h.ls[1] | 12 => h.le[1] | 13 => BitVec.ofNat 64 (h.lc[1]).toNat
  | 14 => h.ls[2] | 15 => h.le[2] | 16 => BitVec.ofNat 64 (h.lc[2]).toNat
  | 17 => h.ls[3] | 18 => h.le[3] | 19 => BitVec.ofNat 64 (h.lc[3]).toNat
  | 20 => h.spbase | 21 => h.splim | 22 => h.cframe | 23 => h.clsel | 24 => h.key | 25 => h.tapest
  | 26 => h.launch | 27 => BitVec.ofNat 64 h.job.toNat
  | 28 => BitVec.ofNat 64 (s.time (coreOf s.cur)) + (s.core (coreOf s.cur)).cycOff
  | _ => 0

/-- R27, R204: MFC reads each control register, and SCOPEOF the scope of two agent IDs. -/
def Claim.ReadControl : Prop :=
  ∀ (s : State) (h : Hdr) (d a b : SOp) (c : CReg),
    (Ready s h (.mfc h d c) → Does s (.mfc h d c) (fun th => th.ws d (Claim.creg s c))) ∧
    (Ready s h (.scopeof h d a b) → Does s (.scopeof h d a b) (fun th =>
      th.ws d (BitVec.ofNat 64 (scopeOf ((th.rs a).extractLsb' 0 32) ((th.rs b).extractLsb' 0 32)))))

/-- c1 after an MTC of x: SEED and bits 8 to 3 are x's, bits 31 to 14 read zero, the HW fields stay (R28). -/
def Claim.statusWritten (w x y : Word) : Prop :=
  ∀ k < 64, y.getLsbD k =
    if 32 ≤ k ∨ 3 ≤ k ∧ k ≤ 8 then x.getLsbD k else if 14 ≤ k then false else w.getLsbD k

/-- R27, R28, R34, R35: what MTC writes where it is not refused. -/
def Claim.WriteControl : Prop :=
  ∀ (s : State) (h : Hdr) (c : CReg) (a : SOp) (n : Fin 4), Ready s h (.mtc h c a) →
    (c = 1 → ∃ y, Claim.statusWritten s.me.status (s.me.rs a) y ∧ Does s (.mtc h c a) (fun th =>
      { th with status := y, lfsr := Vector.ofFn (fun i =>
          let e := (th.rs a).extractLsb' 32 32
          seedLane (if e = 0 then 1 else e) i.val) })) ∧
    (c.toNat = 8 + 3 * n.val → (s.me.rs a).toNat % 12 = 0 → Does s (.mtc h c a) (fun th =>
      { th with ls := th.ls.set n (th.rs a) })) ∧
    (c.toNat = 9 + 3 * n.val → (s.me.rs a).toNat % 12 = 0 → Does s (.mtc h c a) (fun th =>
      { th with le := th.le.set n (th.rs a) })) ∧
    (c.toNat = 10 + 3 * n.val → Does s (.mtc h c a) (fun th =>
      { th with lc := th.lc.set n (BitVec.ofNat 32 (th.rs a).toNat) })) ∧
    (c = 2 → s.me.priv ≠ privU → Does s (.mtc h c a) (fun th => { th with tcause := th.rs a &&& 0xFFFF })) ∧
    (c = 3 → s.me.priv ≠ privU → Does s (.mtc h c a) (fun th => { th with tpc := th.rs a })) ∧
    (c = 4 → s.me.priv ≠ privU → Does s (.mtc h c a) (fun th => { th with taddr := th.rs a })) ∧
    (c = 5 → s.me.priv ≠ privU → Does s (.mtc h c a) (fun th => { th with tinfo := th.rs a })) ∧
    (c = 20 → s.me.priv ≠ privU → s.me.sd = 0 → (s.me.rs a).toNat % 8 = 0 →
      Does s (.mtc h c a) (fun th => { th with spbase := th.rs a })) ∧
    (c = 21 → s.me.priv ≠ privU → s.me.sd = 0 → (s.me.rs a).toNat % 8 = 0 →
      Does s (.mtc h c a) (fun th => { th with splim := th.rs a })) ∧
    (c = 28 → s.me.priv = privM → ∃ u : State, GoesOn s (.mtc h c a) u ∧ u.threads = s.threads ∧ u.mem = s.mem ∧
      u.cycle (coreOf s.cur) = s.me.rs a) ∧
    (29 ≤ c.toNat → GoesOn s (.mtc h c a) s)

/-- R34: an MTC that is refused traps, ILLEGAL with sub-cause 11 or PRIVILEGE, before it writes anything. -/
def Claim.WriteRefused : Prop :=
  ∀ (s : State) (h : Hdr) (c : CReg) (a : SOp), Ready s h (.mtc h c a) →
    let w := (encode (.mtc h c a)).getD 0
    let ill := exec (.mtc h c a) s =
      .next (s.trapFrom s s.cur 0x01 11 (w.extractLsb' 0 64) ((w.extractLsb' 64 32).setWidth 64) false)
    let prv := exec (.mtc h c a) s =
      .next (s.trapFrom s s.cur 0x02 0 (w.extractLsb' 0 64) ((w.extractLsb' 64 32).setWidth 64) false)
    ((c = 0 ∨ c = 6 ∨ c = 7 ∨ c = 22 ∨ c = 23 ∨ c = 24 ∨ c = 26 ∨ c = 27) → ill) ∧
    ((2 ≤ c.toNat ∧ c.toNat ≤ 5 ∨ c = 20 ∨ c = 21) → s.me.priv = privU → prv) ∧
    (c = 28 → s.me.priv ≠ privM → prv) ∧
    ((c = 20 ∨ c = 21) → s.me.priv ≠ privU → (s.me.sd ≠ 0 ∨ (s.me.rs a).toNat % 8 ≠ 0) → ill) ∧
    (8 ≤ c.toNat → c.toNat ≤ 19 → c.toNat % 3 ≠ 1 → (s.me.rs a).toNat % 12 ≠ 0 → ill)

/-- MFC, SCOPEOF and MTC, with the writes that are refused: `Claim.ReadControl`, `Claim.WriteControl`, `Claim.WriteRefused`. -/
def Obligations.ControlRegisters : Prop := Claim.ReadControl ∧ Claim.WriteControl ∧ Claim.WriteRefused

/-- R306: thread h has taken a trap and is now k: the saved registers, the new frame, the status, the PC; the
globals, pass registers, vectors, predicates, masks, loops, guard slots and queues as they were. -/
structure Claim.Trapped (h k : Thread) (cause sub : Nat) (c3 c4 c5 vec : Word) : Prop where
  c2     : k.tcause = BitVec.ofNat 64 (cause + 256 * sub)
  c3     : k.tpc = c3
  c4     : k.taddr = c4
  c5     : k.tinfo = c5
  pc     : k.pc = vec
  frame  : k.frame = Vector.replicate 16 0
  outer  : k.outer = h.frame :: h.outer
  th     : k.status.getLsbD 2 = true
  ppriv  : k.status.extractLsb' 12 2 = h.priv
  priv   : k.priv = if h.priv = privU then privS else h.priv
  flags  : k.status.extractLsb' 3 6 = h.status.extractLsb' 3 6
  seed   : k.status.extractLsb' 32 32 = h.status.extractLsb' 32 32
  regs   : k.globals = h.globals ∧ k.pass = h.pass ∧ k.v = h.v ∧ k.p = h.p ∧ k.m = h.m
  loops  : k.ls = h.ls ∧ k.le = h.le ∧ k.lc = h.lc
  queues : k.slots = h.slots ∧ k.q = h.q ∧ k.sd = h.sd

/-- The current thread may take a trap: TH is 0, it has a resident frame to spare, no load left in its issue
queue writes a register of its frame, no debug step is under way, and there is a handler for the privilege that the trap is taken to (R28, R306). -/
structure Claim.MayTrap (s : State) : Prop where
  th   : s.me.status.getLsbD 2 = false
  room : s.me.outer.length < 7
  idle : claimsFrame (s.agent (s.tid s.cur)).iq = false
  step : s.me.stepReq = false
  vec  : s.me.priv = privM ∨ (s.part (s.partOf s.cur)).trapvec ≠ 0

/-- Where a trap goes (R306): the partition's TRAPVEC, or the firmware's vector at M. -/
def Claim.vectorOf (s : State) : Word :=
  if s.me.priv = privM then Config.firmwareVector else (s.part (s.partOf s.cur)).trapvec

/-- R303, R306: TRAP takes SYSCALL and BRK, with debug disabled, BREAKPOINT: c3 is PC + 12 and c5 the immediate;
memory keeps every byte. The vector at M is a free constant (log 6). -/
def Claim.TrapTaken : Prop :=
  ∀ (s : State) (h : Hdr) (imm : BitVec 32), Claim.MayTrap s →
    (Ready s h (.trap h imm) → ∃ t, exec (.trap h imm) s = .next t ∧ t.mem = s.mem ∧
      Claim.Trapped s.me (t.thr s.cur) 0x03 0 (s.me.pc + 12) 0 (imm.setWidth 64) (Claim.vectorOf s)) ∧
    (Ready s h (.brk h imm) → s.me.brken = false → ∃ t, exec (.brk h imm) s = .next t ∧ t.mem = s.mem ∧
      Claim.Trapped s.me (t.thr s.cur) 0x04 0 (s.me.pc + 12) 0 (imm.setWidth 64) (Claim.vectorOf s))

/-- R28, R306: a trap taken while TH is 1, or at S where TRAPVEC is 0, is not taken: the unit fails. -/
def Claim.TrapLost : Prop :=
  ∀ (s : State) (cause sub : Nat) (c3 c4 c5 : Word), s.me.recording = none →
    (s.me.status.getLsbD 2 = true → s.takeTrap s.cur cause sub c3 c4 c5 =
      .ok (s.trapLost s.cur 1 (BitVec.ofNat 64 (cause + 256 * sub)) c4) ()) ∧
    (s.me.status.getLsbD 2 = false → s.me.outer.length < 7 → s.me.priv ≠ privM →
      (s.part (s.partOf s.cur)).trapvec = 0 → ∃ u : State, s.takeTrap s.cur cause sub c3 c4 c5 =
        .ok (u.trapLost s.cur 2 (BitVec.ofNat 64 (cause + 256 * sub)) c4) ())

/-- What taking a trap saves, where it goes, and when the unit fails instead: `Claim.TrapTaken`, `Claim.TrapLost`. -/
def Obligations.TrapEntry : Prop := Claim.TrapTaken ∧ Claim.TrapLost

/-- R307: ERET, with TH set, a target that is a multiple of 12, above U, and the caller's frame resident: TH
falls, PRIV returns from PPRIV, the frame closes, and the thread is at the target. -/
def Claim.TrapBack : Prop :=
  ∀ (s : State) (h : Hdr) (a : SOp) (f : Vector Word 16) (fs : List (Vector Word 16)),
    Ready s h (.eret h a) → s.me.priv ≠ privU → s.me.status.getLsbD 2 = true → (s.me.rs a).toNat % 12 = 0 →
    s.me.outer = f :: fs →
    ∃ k : Thread, JumpsTo s (.eret h a) (s.setThr s.cur k) (s.me.rs a) ∧
      k.frame = f ∧ k.outer = fs ∧ k.status.getLsbD 2 = false ∧ k.priv = s.me.status.extractLsb' 12 2 ∧
      k.status.extractLsb' 3 6 = s.me.status.extractLsb' 3 6 ∧
      k.globals = s.me.globals ∧ k.pass = s.me.pass ∧ k.v = s.me.v ∧ k.p = s.me.p ∧ k.m = s.me.m

/-- R302, R303, R381: HALT at M, and BRK with debug enabled, halt the thread with DBGPC at the next word; and
R302: HALT below M and ERET at U take PRIVILEGE with the word in c4 and c5. DBGPC after HALT is the model's reading (log 41). -/
def Claim.HaltAndPrivilege : Prop :=
  ∀ (s : State) (h : Hdr) (a : SOp) (imm : BitVec 32),
    (Ready s h (.halt h) → s.me.priv = privM → ∃ k : Thread,
      JumpsTo s (.halt h) (s.setThr s.cur k) (s.me.pc + 12) ∧ k.halted = true ∧ k.dbgpc = s.me.pc + 12) ∧
    (Ready s h (.brk h imm) → s.me.brken = true → ∃ k : Thread,
      JumpsTo s (.brk h imm) (s.setThr s.cur k) (s.me.pc + 12) ∧ k.halted = true ∧ k.dbgpc = s.me.pc + 12) ∧
    (Ready s h (.halt h) → s.me.priv ≠ privM → exec (.halt h) s =
      .next (s.trapFrom s s.cur 0x02 0 (wordLo (wordOf (.halt h))) (wordHi (wordOf (.halt h))) false)) ∧
    (Ready s h (.eret h a) → s.me.priv = privU → exec (.eret h a) s =
      .next (s.trapFrom s s.cur 0x02 0 (wordLo (wordOf (.eret h a))) (wordHi (wordOf (.eret h a))) false))

/-- ERET, HALT, BRK with debug enabled, and the privilege of each: `Claim.TrapBack`, `Claim.HaltAndPrivilege`. -/
def Obligations.TrapReturn : Prop := Claim.TrapBack ∧ Claim.HaltAndPrivilege

/-- R304: SYNCI empties the thread's instruction buffer and advances the code epoch of its partition, which lifts
the suppression of recordings; firmware has no partition. -/
def Obligations.SynciResult : Prop :=
  ∀ (s : State) (h : Hdr) (x : UnitInfo), Ready s h (.synci h) → s.me.unit = some x → ∃ u : State,
    GoesOn s (.synci h) u ∧ (u.thr s.cur).ibuf = [] ∧ u.mem = s.mem ∧
    (x.kind ≠ .firmware → (u.part x.part).epoch = (s.part x.part).epoch + 1 ∧
      (u.part x.part).tapeCtl = (s.part x.part).tapeCtl.map (fun (r : TapeCtl) => { r with supp := false }))

/-! ## Group 0x06: transfers, loops and waits (R165-R173) -/

/-- R165, R166: BR and JMP go to their target; CALL and CALLR open a frame with the return PC in s23, while fewer
than eight frames are resident, and leave the pass registers as they are. -/
def Claim.TransferTaken : Prop :=
  ∀ (s : State) (h : Hdr) (a : SOp) (off : BitVec 32),
    (Ready s h (.br h off) → JumpsTo s (.br h off) s (s.me.pc + BitVec.ofInt 64 (12 * off.toInt))) ∧
    (Ready s h (.jmp h a) → (s.me.rs a).toNat % 12 = 0 → JumpsTo s (.jmp h a) s (s.me.rs a)) ∧
    (Ready s h (.call h off) → s.me.outer.length < 7 → JumpsTo s (.call h off)
      (s.setThr s.cur { s.me with
        frame := (Vector.replicate 16 (0 : Word)).set 15 (s.me.pc + 12), outer := s.me.frame :: s.me.outer })
      (s.me.pc + BitVec.ofInt 64 (12 * off.toInt))) ∧
    (Ready s h (.callr h a) → s.me.outer.length < 7 → (s.me.rs a).toNat % 12 = 0 → JumpsTo s (.callr h a)
      (s.setThr s.cur { s.me with
        frame := (Vector.replicate 16 (0 : Word)).set 15 (s.me.pc + 12), outer := s.me.frame :: s.me.outer })
      (s.me.rs a))

/-- R165-R167: a target that is not a multiple of 12 traps ILLEGAL with sub-cause 7 and the target in c4; RET at
depth 0 traps with sub-cause 8. -/
def Claim.TransferRefused : Prop :=
  ∀ (s : State) (h : Hdr) (a : SOp),
    (Ready s h (.jmp h a) → (s.me.rs a).toNat % 12 ≠ 0 → exec (.jmp h a) s =
      .next (s.trapFrom s s.cur 0x01 7 (s.me.rs a) (wordHi (wordOf (.jmp h a))) false)) ∧
    (Ready s h (.callr h a) → (s.me.rs a).toNat % 12 ≠ 0 → exec (.callr h a) s =
      .next (s.trapFrom s s.cur 0x01 7 (s.me.rs a) (wordHi (wordOf (.callr h a))) false)) ∧
    (Ready s h (.ret h a) → s.me.sd + s.me.outer.length = 0 → exec (.ret h a) s =
      .next (s.trapFrom s s.cur 0x01 8 (wordLo (wordOf (.ret h a))) (wordHi (wordOf (.ret h a))) false)) ∧
    (Ready s h (.ret h a) → 0 < s.me.sd + s.me.outer.length → (s.me.rs a).toNat % 12 ≠ 0 → exec (.ret h a) s =
      .next (s.trapFrom s s.cur 0x01 7 (s.me.rs a) (wordHi (wordOf (.ret h a))) false))

/-- BR, JMP, CALL and CALLR, with the targets that trap: `Claim.TransferTaken`, `Claim.TransferRefused`. -/
def Obligations.TransferResult : Prop := Claim.TransferTaken ∧ Claim.TransferRefused

/-- R167: RET with the caller's frame resident closes the frame and goes to A as the callee's frame holds it. -/
def Claim.ReturnTaken : Prop :=
  ∀ (s : State) (h : Hdr) (a : SOp) (f : Vector Word 16) (fs : List (Vector Word 16)),
    Ready s h (.ret h a) → s.me.outer = f :: fs → (s.me.rs a).toNat % 12 = 0 →
    JumpsTo s (.ret h a) (s.setThr s.cur { s.me with frame := f, outer := fs }) (s.me.rs a)

/-- R166-R168: CALL, then RET at once through s23, comes back to the word after the CALL with every scalar
register as it was, whatever the frame holds. -/
def Claim.CallThenReturn : Prop :=
  ∀ (s : State) (h : Hdr) (off : BitVec 32), Ready s h (.call h off) → s.me.outer.length < 7 →
    (s.me.pc + 12).toNat % 12 = 0 → s.me.stepReq = false →
    (∀ t, exec (.call h off) s = .next t → t.mayIssue t.cur (.ret Hdr.plain (.r 23)) = true) →
    ∃ t u : State, exec (.call h off) s = .next t ∧ exec (.ret Hdr.plain (.r 23)) t = .next u ∧
      u.me.pc = s.me.pc + 12 ∧ ∀ n, u.me.sreg n = s.me.sreg n

/-- RET, and a CALL that returns at once: `Claim.ReturnTaken`, `Claim.CallThenReturn`. -/
def Obligations.ReturnResult : Prop := Claim.ReturnTaken ∧ Claim.CallThenReturn

/-- R168, R169: LSETUP writes the three registers of its loop, and skips the body where the count is 0; LBRK
clears one count, or all; the other loops keep theirs. That an LSETUP of count 0 makes no loop test at another loop's end is
the model's reading (log 16). -/
def Claim.LoopSetup : Prop :=
  ∀ (s : State) (h : Hdr) (a : SOp) (ic all : Bool) (cnt : BitVec 16) (l : BitVec 2) (off : BitVec 32),
    let n : BitVec 32 := if ic then BitVec.ofNat 32 cnt.toNat else BitVec.ofNat 32 (s.me.rs a).toNat
    let le := s.me.pc + BitVec.ofInt 64 (12 * off.toInt)
    let k : Thread := { s.me with
      ls := s.me.ls.set l.toNat (s.me.pc + 12) l.isLt, le := s.me.le.set l.toNat le l.isLt, lc := s.me.lc.set l.toNat n l.isLt }
    (Ready s h (.lsetup h a ic cnt l off) → n ≠ 0 → GoesOn s (.lsetup h a ic cnt l off) (s.setThr s.cur k)) ∧
    (Ready s h (.lsetup h a ic cnt l off) → n = 0 →
      JumpsTo s (.lsetup h a ic cnt l off) (s.setThr s.cur k) (le + 12)) ∧
    (Ready s h (.lbrk h all l) → Does s (.lbrk h all l) (fun th =>
      { th with lc := if all then Vector.replicate 4 0 else th.lc.set l.toNat 0 l.isLt }))

/-- R171-R173, R368: YIELD, and SLEEP of 0 cycles, only put the thread last in its core's order; another SLEEP waits until that many cycles of the core
have passed, or, where a halt has abandoned it, until it would have ended (R173); WAITC, here where no queue at all has stopped, goes on where every covered counter is at its limit, and waits where
one is above it. That YIELD moves the thread at once is R368; hidden time is the model's (log 9). -/
def Claim.WaitResult : Prop :=
  ∀ (s : State) (h : Hdr) (a : SOp) (imm lims : BitVec 32),
    let back := s.updCore (coreOf s.cur) (fun k => { k with
      order := k.order.filter (fun x => x != s.cur % 4) ++ [s.cur % 4], consec := 0 })
    (Ready s h (.yield h) → GoesOn s (.yield h) back) ∧
    (Ready s h (.sleep h a imm) → (s.me.rs a).toNat + imm.toNat = 0 → GoesOn s (.sleep h a imm) back) ∧
    (Ready s h (.sleep h a imm) → 0 < (s.me.rs a).toNat + imm.toNat →
      (s.me.slept = none → exec (.sleep h a imm) s =
        .next (s.updThr s.cur (fun th => { th with waiting := some (.sleep (s.time (coreOf s.cur) +
          min ((s.me.rs a).toNat + imm.toNat) 0xFFFFFFFF)) }))) ∧
      (∀ x, s.me.slept = some x →
        (x ≤ s.time (coreOf s.cur) → Does s (.sleep h a imm) (fun th => { th with slept := none })) ∧
        (s.time (coreOf s.cur) < x → exec (.sleep h a imm) s =
          .next (s.updThr s.cur (fun th => { th with slept := none, waiting := some (.sleep x) }))))) ∧
    (Ready s h (.waitc h lims) → (∀ q : Fin 4, (s.me.q[q]).stopped = none) →
      (∀ q : Fin 4, (limit lims q.val).toNat ≤ 32 → (s.me.q[q]).cmds.length ≤ (limit lims q.val).toNat) →
      ∃ u : State, GoesOn s (.waitc h lims) u ∧ u.mem = s.mem ∧ (u.thr s.cur).q = s.me.q) ∧
    (Ready s h (.waitc h lims) → (∀ q : Fin 4, (s.me.q[q]).stopped = none) →
      (∃ q : Fin 4, (limit lims q.val).toNat ≤ 32 ∧ (limit lims q.val).toNat < (s.me.q[q]).cmds.length) →
      exec (.waitc h lims) s = .next (s.updThr s.cur (fun th => { th with waiting := some (.waitc lims) })))

/-- LSETUP, LBRK, YIELD, SLEEP and WAITC: `Claim.LoopSetup`, `Claim.WaitResult`. That an LSETUP of count 0 makes no loop test is
the model's reading (log 16), and hidden time its own (log 9); of WAITC only the case in which no queue has stopped is stated. -/
def Obligations.LoopAndWait : Prop := Claim.LoopSetup ∧ Claim.WaitResult

/-! ## Group 0x07: tasks, futures, queues, launches (R273-R284) -/

/-- The checks of one access of the current thread pass (R175): the state after them, and the pieces. -/
def Claim.Passes (s : State) (acc : Acc) (wr sync : Bool) (sp_ : Space) (kind : BitVec 4) (n al : Nat) (ea : Word)
    (u : State) (ps : List Piece) : Prop :=
  s.check1 s.cur acc wr sync sp_ kind n al ea = .ok u ps

/-- The physical address of the first byte of an access. -/
def Claim.home (ps : List Piece) : Nat := ((ps.headD default).segs.headD default).pa

/-- R274, R276: FORK with room in the deque adds 1 to the counter and pushes the task at the deque's end, D
false; with 64 entries it only sets D. JOIN goes on at a counter of 0, ending the region, and waits at another. -/
def Obligations.ForkJoinResult : Prop :=
  ∀ (s u v w : State) (ps : List Piece) (h : Hdr) (d : BitVec 3) (a : SOp) (cmc : Bool) (off : BitVec 32) (old : Nat),
    (Ready s h (.fork h d a cmc off) → s.dual? s.cur = none →
      Claim.Passes s .atomic true true (if cmc then .cm else .sp) (kindBits (.fork h d a cmc off)) 4 4 (s.me.rs a) u ps →
      ((u.thr s.cur).deque.length < 64 → u.atomic s.cur (ps.headD default) 4 (.amo .add 1) = .ok v old →
        ∃ w x, GoesOn s (.fork h d a cmc off) w ∧ w.mem = v.mem ∧ (w.thr s.cur).rp d = decide (d = 0) ∧
          (w.thr s.cur).deque = (v.thr s.cur).deque ++ [x] ∧ x.counter = Claim.home ps ∧
          x.entry = (v.thr s.cur).pc + BitVec.ofInt 64 (12 * off.toInt) ∧ x.pass = (v.thr s.cur).pass) ∧
      (64 ≤ (u.thr s.cur).deque.length →
        GoesOn s (.fork h d a cmc off) (u.updThr s.cur (fun th => th.wp d true)))) ∧
    (Ready s h (.join h a cmc) →
      Claim.Passes s .read false true (if cmc then .cm else .sp) (kindBits (.join h a cmc)) 4 4 (s.me.rs a) u ps →
      u.objAddr s.cur [⟨0xFF, s.me.rs a, [⟨(s.me.rs a).toNat, .mem (Claim.home ps) 0, 4⟩]⟩] = .ok w (Claim.home ps) →
      (natOfBytes (w.rdBytes (Claim.home ps) 4) = 0 → ∃ x, GoesOn s (.join h a cmc) x ∧
        x.mem = w.mem ∧ x.threads = w.threads) ∧
      (natOfBytes (w.rdBytes (Claim.home ps) 4) ≠ 0 →
        exec (.join h a cmc) s =
          .next (w.updThr s.cur (fun th => { th with waiting := some (.join (s.me.rs a) (Claim.home ps)) }))))

/-- R277: a future's bits: VALUE in bits 63 to 0, FULL bit 64, bits 95 to 65 zero, the count in bits 127 to 96. -/
def Claim.future (value : Word) (full : Bool) (count : BitVec 32) : BitVec 128 :=
  count ++ (0 : BitVec 31) ++ bit full ++ value

/-- R278: FWR fills an empty future with B, D false, and only counts at a full one, the count stopping at its
greatest, D true; FRD waits for a full one and gives its value; FINIT stores 16 zero bytes. An FWR that may be performed
later is left in the issue queue (R110), which is one choice of the agenda (log 3). -/
def Obligations.FutureResult : Prop :=
  ∀ (s u v w : State) (ps : List Piece) (h : Hdr) (d : BitVec 3) (x a b : SOp) (sc : BitVec 3) (space : Space)
    (old : Nat),
    (∀ value n y, futWrite (Claim.future value false n) y = (Claim.future y true n, false) ∧
      futWrite (Claim.future value true n) y =
        (Claim.future value true (if n = 0xFFFFFFFF then n else n + 1), true)) ∧
    (Ready s h (.fwr h d a b sc space) → s.dual? s.cur = none →
      Claim.Passes s .atomic true true space (kindBits (.fwr h d a b sc space)) 16 16 (s.me.rs a) u ps →
      (u.mayWait s.cur [ps.headD default] = true → sc ≠ 7 → GoesOn s (.fwr h d a b sc space)
        ((u.leaveAtom s.cur (.p d) [ps.headD default] 16 (some sc.toNat) (.futWrite (s.me.rs b))).newRegion
          (u.tid s.cur))) ∧
      ((u.mayWait s.cur [ps.headD default] = false ∨ sc = 7) → u.releaseAt s.cur sc.toNat = .ok v () →
        v.atomic s.cur (ps.headD default) 16 (.futWrite (s.me.rs b)) = .ok w old →
        GoesOn s (.fwr h d a b sc space) ((w.newRegion (w.tid s.cur)).updThr s.cur (fun th =>
          th.wp d ((BitVec.ofNat 128 old).getLsbD 64))))) ∧
    (Ready s h (.frd h x a sc space) →
      Claim.Passes s .read false true space (kindBits (.frd Hdr.plain x a sc space)) 16 16 (s.me.rs a) u ps →
      u.atomic s.cur (ps.headD default) 16 .futRead = .ok v old →
      let n := natOfBytes (v.overlaySegs (v.dual? s.cur) (ps.headD default).segs (bytesOfNat 16 old))
      ((BitVec.ofNat 128 n).getLsbD 64 = true → ∃ y, GoesOn s (.frd h x a sc space) y ∧ y.mem = v.mem ∧
        y.thr s.cur = (v.thr s.cur).ws x (BitVec.ofNat 64 n)) ∧
      ((BitVec.ofNat 128 n).getLsbD 64 = false → exec (.frd h x a sc space) s =
        .next (v.updThr s.cur (fun th => { th with waiting := some (.frd x a sc space) })))) ∧
    (Ready s h (.finit h a sc space) →
      Claim.Passes s .write true false space (kindBits (.finit h a sc space)) 16 16 (s.me.rs a) u ps →
      let us := ps.flatMap (fun p => unitsOf p (List.replicate 16 0) 0xFFFFFFFF)
      u.storeReady s.cur none us = (w, true) → (w.watchStore s.cur ps).storeAll s.cur space none us = .ok v () →
      GoesOn s (.finit h a sc space) v)

/-- R280: QPUSH releases, stores B in the slot of TAIL and adds 1 to TAIL, D false, or finds the queue full, D true; QPOP
loads the slot of HEAD, adds 1 to HEAD and acquires, D false, or finds it empty and leaves its destination, D true. -/
def Claim.QueueTaken : Prop :=
  ∀ (s u v w x' : State) (ps : List Piece) (pa slot : Nat) (h : Hdr) (d : BitVec 3) (x a b : SOp) (sc : BitVec 3)
    (space : Space),
    (Ready s h (.qpush h d a b sc space) → s.dual? s.cur = none →
      Claim.Passes s .atomic true true space (kindBits (.qpush h d a b sc space)) 16 16 (s.me.rs a) u ps →
      u.objAddr s.cur [ps.headD default] = .ok v pa →
      let i := Instr.qpush h d a b sc space
      let q := v.obj pa
      (wqCap q ≤ wqCount q → GoesOn s i ((v.newRegion (v.tid s.cur)).updThr s.cur (fun th => th.wp d true))) ∧
      (wqCount q < wqCap q → v.slotCheck s.cur i true space (wqSlot q (wqTail q)) = .ok w slot →
        w.releaseAt s.cur sc.toNat = .ok x' () →
        let y := x'.rootWrite (nibsOf slot (bytesOfNat 8 (s.me.rs b).toNat))
        let z := y.setObj pa (wqSetTail (y.obj pa) (wqTail q + 1))
        GoesOn s i ((z.newRegion (z.tid s.cur)).updThr s.cur (fun th => th.wp d false)))) ∧
    (Ready s h (.qpop h x a d sc space) → s.dual? s.cur = none →
      Claim.Passes s .atomic true true space (kindBits (.qpop h x a d sc space)) 16 16 (s.me.rs a) u ps →
      u.objAddr s.cur [ps.headD default] = .ok v pa →
      let i := Instr.qpop h x a d sc space
      let q := v.obj pa
      (wqCount q = 0 → GoesOn s i ((v.newRegion (v.tid s.cur)).updThr s.cur (fun th => th.wp d true))) ∧
      (wqCount q ≠ 0 → v.slotCheck s.cur i false space (wqSlot q (wqHead q)) = .ok w slot →
        let y := w.setObj pa (wqSetHead (w.obj pa) (wqHead q + 1))
        let z := y.acquire (y.tid s.cur) sc.toNat
        GoesOn s i ((z.newRegion (z.tid s.cur)).updThr s.cur (fun th =>
          (th.ws x (BitVec.ofNat 64 (w.rdNat slot 8))).wp d false))))

/-- R279: COUNT is TAIL minus HEAD, and the slot of a number lies 8 · (number mod CAP) bytes above SBASE. The slot of a queue with CAP 0 is free (log 10). -/
def Claim.QueueObject : Prop :=
  ∀ (head tail base : BitVec 32) (cap : BitVec 16),
    let q : BitVec 128 := (0 : BitVec 16) ++ cap ++ base ++ tail ++ head
    wqHead q = head ∧ wqTail q = tail ∧ wqCap q = cap.toNat ∧ wqCount q = (tail - head).toNat ∧
    (∀ n : BitVec 32, wqSetTail q n = (0 : BitVec 16) ++ cap ++ base ++ n ++ head ∧
      wqSetHead q n = (0 : BitVec 16) ++ cap ++ base ++ tail ++ n) ∧
    ∀ n : BitVec 32, cap ≠ 0 → wqSlot q n = BitVec.ofNat 64 (base.toNat + 8 * (n.toNat % cap.toNat))

/-- Work queues and what a queue object holds: `Claim.QueueTaken`, `Claim.QueueObject`. -/
def Obligations.QueueResult : Prop := Claim.QueueTaken ∧ Claim.QueueObject

/-- R281-R284: LAUNCH takes the lowest free entry of the launch table and gives its ID, generation in bits 31 to
12 and entry in bits 11 to 0, or 0 where none is free; CANCEL says in D whether there was nothing to cancel; CNTRD
reads a counter of a live launch or of a job, and all ones for an ID that names nothing live. A job is live, as the model reads it, while a launch of it is or units of it
are outstanding (log 34). -/
def Obligations.LaunchResult : Prop :=
  ∀ (s u v : State) (ps : List Piece) (bs : List (List Byte)) (h : Hdr) (d a : SOp) (p : BitVec 3) (space : Space)
    (what : CntWhat),
    (Ready s h (.launch h d a space) →
      Claim.Passes s .read false false space (kindBits (.launch h d a space)) 48 48 (s.me.rs a) u ps →
      u.readPieces s.cur true 0 ps = .ok v bs →
      let x := BitVec.ofNat 384 (natOfBytes (bs.getD 0 []))
      v.badLaunch (v.partOf s.cur) x = false →
      ((v.part (v.partOf s.cur)).launchFree = none →
        GoesOn s (.launch h d a space) (v.updThr s.cur (fun th => th.ws d 0))) ∧
      (∀ n, (v.part (v.partOf s.cur)).launchFree = some n →
        ((v.part (v.partOf s.cur)).job (v.thr s.cur).job).canc = false → ∃ w, ∃ g : BitVec 20, g ≠ 0 ∧
        GoesOn s (.launch h d a space) w ∧ w.mem = v.mem ∧
        w.thr s.cur = (v.thr s.cur).ws d ((g ++ BitVec.ofNat 12 n).setWidth 64))) ∧
    (Ready s h (.cancel h p a false) → GoesOn s (.cancel h p a false)
      ((s.cancelLaunch (s.partOf s.cur) ((s.me.rs a).extractLsb' 0 32)).updThr s.cur (fun th =>
        th.wp p ((s.part (s.partOf s.cur)).launch? ((s.me.rs a).extractLsb' 0 32)).isNone))) ∧
    (Ready s h (.cancel h p a true) → ∃ w x, s.cancelJob (s.partOf s.cur) ((s.me.rs a).extractLsb' 0 16) = (w, x) ∧
      GoesOn s (.cancel h p a true) (w.updThr s.cur (fun th => th.wp p (!x)))) ∧
    (Ready s h (.cntrd h d a what) → Does s (.cntrd h d a what) (fun th =>
      let k := s.part (s.partOf s.cur)
      let l := k.launch? ((th.rs a).extractLsb' 0 32)
      let id := (th.rs a).extractLsb' 0 16
      let j := k.job id
      let lives := k.launches.any (fun e => e.2.live && e.2.job == id) || decide (0 < j.out)
      th.ws d (match what with
        | .lrem => l.elim (BitVec.allOnes 64) (fun x => BitVec.ofNat 64 (x.units - x.ended - x.canc))
        | .ldone => l.elim (BitVec.allOnes 64) (fun x => BitVec.ofNat 64 x.ended)
        | .lcan => l.elim (BitVec.allOnes 64) (fun x => BitVec.ofNat 64 x.canc)
        | .jout => if lives then BitVec.ofNat 64 j.out else BitVec.allOnes 64
        | .jdrop => if lives then BitVec.ofNat 64 j.drop else BitVec.allOnes 64)))

/-! ## Groups 0x08 and 0x09: loads, stores, atomics (R174-R194) -/

/-- The acquire side of an access at a scope, with the region that it ends (R118, R136). -/
def Claim.acquired (s : State) (acq : Bool) (sc : Nat) : State :=
  if acq then (s.acquire (s.tid s.cur) sc).newRegion ((s.acquire (s.tid s.cur) sc).tid s.cur) else s

/-- What CACHE answers for a line of a context whose address passes its checks (R185, R344): a pin finds fewer than 2,560
lines of the L2 slice pinned, and fewer than five of the line's set. -/
def Claim.cacheAnswer (s : State) (t : Nat) (op : CacheOp) (line : Nat) (cached : Bool) : Prop :=
  let chip := chipOfClus (clusOf t)
  let c := s.ctx t
  let pinned : Prop := ∃ x ∈ s.pins, x.chip = chip ∧ x.part = s.partOf t ∧ x.asid = c.asid ∧ x.line = line
  let mine := s.pins.filter (fun y => y.chip == chip &&
    sliceOf y.part y.asid (y.line * 192) == sliceOf (s.partOf t) c.asid (line * 192))
  match op with
  | .inv1 | .evict2 => True
  | .unpin => pinned
  | .pin => cached = true ∧ (pinned ∨ mine.length < 2560 ∧ (mine.filter (fun y => lineSet y.line == lineSet line)).length < 5)

/-- R182-R185: LD writes the little-endian value of its bytes, zero-extended; ST puts the low bytes of its
operand where its checks say; PFETCH fills caches only; CACHE gives true for .inv1 and .evict2, for .unpin of a pinned
line, and for .pin of a line that was pinned or finds room (R344), false for another and for an address that fails a
check, and waits to pin a page that is being migrated (R358). An access performed as it issues is one choice of the
agenda (log 3). That a line of a window is not pinned is the model's reading (log 53). -/
def Claim.LoadStoreIssue : Prop :=
  ∀ (s u v : State) (ps : List Piece) (bs : List (List Byte)) (h : Hdr) (d b : SOp) (m : MemOp) (sz : Size)
    (acq l2 : Bool) (z : PZ) (op : CacheOp),
    let n := szBytes sz
    let ea := s.me.rs m.base + m.off.signExtend 64
    (Ready s h (.ld h d m sz acq) →
      Claim.Passes s .read false acq m.space (kindOf m.space (szCode sz)) n (if acq then n else 1) ea u ps →
      (acq = true ∨ u.mayWait s.cur ps = false) → u.readPieces s.cur (!acq) m.hint ps = .ok v bs → v.cur = s.cur →
      GoesOn s (.ld h d m sz acq) ((Claim.acquired v acq m.sc.toNat).updThr s.cur (fun th =>
        th.ws d (BitVec.ofNat 64 (natOfBytes (bs.getD 0 [])))))) ∧
    (Ready s h (.ld h d m sz false) →
      Claim.Passes s .read false false m.space (kindOf m.space (szCode sz)) n 1 ea u ps →
      u.mayWait s.cur ps = true → GoesOn s (.ld h d m sz false)
        (ps.foldl (fun (y : State) p => y.leaveScalar s.cur d m.hint p) (u.updThr s.cur (fun th => th.ws d 0)))) ∧
    (Ready s h (.st h b m sz false) →
      Claim.Passes s .write true false m.space (kindOf m.space (szCode sz)) n 1 ea u ps →
      let us := ps.flatMap (fun p => unitsOf p (bytesOfNat n (s.me.rs b).toNat) 0xFFFFFFFF)
      ∀ x, u.storeReady s.cur none us = (x, true) → (x.watchStore s.cur ps).storeAll s.cur m.space none us = .ok v () →
      GoesOn s (.st h b m sz false) v) ∧
    (Ready s h (.st h b m sz true) →
      Claim.Passes s .write true true m.space (kindOf m.space (szCode sz)) n n ea u ps →
      u.releaseStore s.cur true m.sc.toNat = .ok v () →
      ∀ w, v.storeAll s.cur m.space (some m.sc.toNat)
        (ps.flatMap (fun p => unitsOf p (bytesOfNat n (s.me.rs b).toNat) 0xFFFFFFFF)) = .ok w () →
      GoesOn s (.st h b m sz true) (w.newRegion (w.tid s.cur))) ∧
    (Ready s h (.pfetch h m l2) → ∃ w : State, GoesOn s (.pfetch h m l2) w ∧ w.mem = s.mem ∧ w.threads = s.threads ∧
      (m.space ≠ .g → w = s)) ∧
    (let moving : Prop := op = .pin ∧ ∃ p, (s.ctx s.cur).part = some p ∧ s.migrating p (s.ctx s.cur).asid ea.toNat = true;
      (Ready s h (.cache h z m op) → ¬ moving → ∃ (w : State) (x : Bool),
        GoesOn s (.cache h z m op) (w.updThr s.cur (fun th => th.wpz z x)) ∧ w.mem = s.mem ∧ w.threads = s.threads ∧
        ((∀ y g rest, s.check (s.ctx s.cur) .read .g ea 1 ≠ (y, .ok (g :: rest))) → x = false ∧ w = s) ∧
        ∀ y g rest, s.check (s.ctx s.cur) .read .g ea 1 = (y, .ok (g :: rest)) →
          (x = true ↔ Claim.cacheAnswer y s.cur op (ea.toNat / 192) (y.cacheTag (y.ctx s.cur) 0 g).isSome)) ∧
      (Ready s h (.cache h z m op) → moving → ea.toNat < vaEnd →
        exec (.cache h z m op) s = .next s.stallIt))

/-- A plain access is over ordinary memory: every run is memory of this package, on pages not watched, and the thread has
nothing in its issue queue, holds no loads or stores back, and runs alone (R114, R115, R135, R392). -/
structure Claim.Ordinary (s : State) (ps : List Piece) : Prop where
  runs : ∀ p ∈ ps, ∀ g ∈ p.segs, ∃ pa pte, g.tgt = .mem pa pte ∧ pteWatch pte = false ∧ s.isPeer pa = false
  free : (s.agent (s.tid s.cur)).iq = []
  late : s.late = false
  dual : s.dual? s.cur = none

/-- R114, R340: a plain load over ordinary memory without poison fills the caches, run by run, and gives the bytes that the
thread's own stores, the holding points and the copies on its path leave there, which filling a sector does not change; no
memory, no store and no register changes. An access performed as it issues is one choice of the agenda (log 3). -/
def Claim.PlainLoadBytes : Prop :=
  ∀ (s : State) (p : Piece) (hint : BitVec 3), Claim.Ordinary s [p] → s.poisonedIn (s.ctx s.cur) [p] = none →
    p.segs.findSome? s.arrPoison = none →
    let id := s.tid s.cur
    let tag (v : State) (g : Seg) : Option CTag := v.cacheTag (s.ctx s.cur) hint g
    let r := p.segs.foldl (fun (r : State × List Byte) g =>
      let v := r.1.fillRun id (tag r.1 g) g.pa g.len
      (v, r.2 ++ v.loadBytes id (tag r.1 g) g.pa g.len)) (s, [])
    s.readPieces s.cur true hint [p] = .ok r.1 [r.2] ∧ r.1.mem = s.mem ∧ r.1.hold = s.hold ∧ r.1.agents = s.agents ∧
    r.1.threads = s.threads ∧
    ∀ g ∈ p.segs, g.va % 192 = paLocal g.pa % 192 → ∀ a n, (∀ i < n, secBase (a + i) = secBase g.pa) →
      (s.fillRun id (tag s g) g.pa 1).loadBytes id (tag s g) a n = s.loadBytes id (tag s g) a n

/-- LD and ST and the bytes that a plain load takes: `Claim.LoadStoreIssue`, `Claim.PlainLoadBytes`. -/
def Obligations.LoadStoreResult : Prop := Claim.LoadStoreIssue ∧ Claim.PlainLoadBytes

/-- The accesses of two states agree outside the bytes of the pieces: for loads of every agent, and at the root. -/
def Claim.KeptOutside (u t : State) (ps : List Piece) : Prop :=
  ∀ (id : BitVec 32) (tag : Option CTag) (a : Nat), (∀ p ∈ ps, ∀ g ∈ p.segs, a < g.pa ∨ g.pa + g.len ≤ a) →
    t.loadByte id tag a = u.loadByte id tag a ∧ t.rd a = u.rd a

/-- The store buffer of a thread, of 16 sectors, has room for stores to the bytes listed; another agent's is not limited
(R339). -/
def Claim.Room (s : State) (id : BitVec 32) (bytes : List Nat) : Prop :=
  idKind id ≠ 0 ∨
    (rising ((s.agent id).sb.map (fun st => secBase ((st.nibs.headD (0, 0)).1 / 2)) ++ bytes.map secBase)).length ≤ 16

/-- The bytes that pieces name. -/
def Claim.bytesOf (ps : List Piece) : List Nat :=
  ps.flatMap (fun p => p.segs.flatMap (fun g => (List.range g.len).map (fun i => g.pa + i)))

/-- R115, R182, R191: a plain store over ordinary memory, its buffer with room for it, leaves every byte outside those it
stores to, the addresses computed as its checks compute them, and the registers; a load of the thread then gives what ST
stored. An access performed as it issues is one choice of the agenda (log 3). -/
def Claim.StoreLeaves : Prop :=
  ∀ (s u : State) (ps : List Piece) (h : Hdr) (b : SOp) (m : MemOp) (sz : Size) (nib : Option (BitVec 5))
    (x : BitVec 5) (c : BitVec 3),
    let ea := s.me.rs m.base + m.off.signExtend 64
    (Ready s h (.st h b m sz false) →
      Claim.Passes s .write true false m.space (kindOf m.space (szCode sz)) (szBytes sz) 1 ea u ps →
      Claim.Ordinary u ps → Claim.Room u (u.tid s.cur) (Claim.bytesOf ps) → u.cur = s.cur →
      ∃ t, exec (.st h b m sz false) s = .next t ∧
        Claim.KeptOutside u t ps ∧ (∀ n, (t.thr s.cur).sreg n = (u.thr s.cur).sreg n) ∧
        ∀ g, ps = [⟨0xFF, ea, [g]⟩] → g.len = szBytes sz →
          ∀ tag, t.loadBytes (u.tid s.cur) tag g.pa g.len = bytesOfNat g.len (s.me.rs b).toNat) ∧
    (Ready s h (.vst h nib x m c false) →
      s.alignVec (laneAddrs (s.me.rm c) (fun i => ea + BitVec.ofNat 64 (4 * i))) ea 0 true
        (kindOf m.space (if nib.isSome then 1 else 0)) = .ok s () →
      s.checks s.cur .write true false m.space (kindOf m.space (if nib.isSome then 1 else 0)) 4 4
        (laneAddrs (s.me.rm c) (fun i => ea + BitVec.ofNat 64 (4 * i))) = .ok u ps →
      Claim.Ordinary u ps → Claim.Room u (u.tid s.cur) (Claim.bytesOf ps) → u.cur = s.cur →
      ∃ t, exec (.vst h nib x m c false) s = .next t ∧
        Claim.KeptOutside u t ps ∧ ∀ n, (t.thr s.cur).sreg n = (u.thr s.cur).sreg n)

/-- R115: bytes that enter an agent's store buffer are what its own loads give, and, while it has room, nothing else of
memory changes for any agent. -/
def Claim.OwnStoreSeen : Prop :=
  ∀ (s : State) (id : BitVec 32) (va : Word) (pa : Nat) (bs : List Byte) (wipe : Nat)
      (rel : Option Nat) (of : Whose),
    let t := s.buffer id va (nibsOf pa bs) wipe rel of
    (∀ tag, t.loadBytes id tag pa bs.length = bs) ∧
    (Claim.Room s id ((List.range bs.length).map (fun i => pa + i)) → bs ≠ [] → ∀ k tag a,
      (k ≠ id ∨ a < pa ∨ pa + bs.length ≤ a) → t.loadByte k tag a = s.loadByte k tag a ∧ t.rd a = s.rd a)

/-- What a store leaves, and what its own thread sees: `Claim.StoreLeaves`, `Claim.OwnStoreSeen`. -/
def Obligations.StoreFrame : Prop := Claim.StoreLeaves ∧ Claim.OwnStoreSeen

/-- R186-R188: the atomics write the old value into D and the new value into memory in one step: AMO by its
operation, CAS where the old value is the expected one, AMOF by its operation on floats, with its flags; one that may be performed later is left in the issue queue (R110). Where an atomic is performed is the model's reading (log 22). -/
def Claim.AtomicIssue : Prop :=
  ∀ (s u v w : State) (ps : List Piece) (old : Nat) (h : Hdr) (d b c : SOp) (m : MemOp) (w4 : Bool) (ord : Ord)
    (op : AmoOp) (fo : AmofOp),
    let n := if w4 then 4 else 8
    let ea := s.me.rs m.base + m.off.signExtend 64
    let x := (s.me.rs b).toNat
    let acq := decide (ord = .acq ∨ ord = .ar)
    let rel := decide (ord = .rel ∨ ord = .ar)
    let out (w : State) : State := (w.acquireIf s.cur acq m.sc.toNat).newRegion
      ((w.acquireIf s.cur acq m.sc.toNat).tid s.cur)
    let left (i : Instr) (o : AtomOp) : Prop := u.atomWaits s.cur m ord ps = true → GoesOn s i
      ((u.leaveAtom s.cur (.s d 0) ps n (if rel then some m.sc.toNat else none) o).newRegion (u.tid s.cur))
    (∀ o y z, (AtomOp.amo op y).apply n o = (some (amoOp op n o y.toNat), 0) ∧
      (AtomOp.cas y z).apply n o =
        (if o = z.toNat % 2 ^ (8 * n) then some (y.toNat % 2 ^ (8 * n)) else none, 0)) ∧
    (Ready s h (.amo h d b m w4 ord op) → s.dual? s.cur = none →
      Claim.Passes s .atomic true true m.space (kindOf m.space (if w4 then 1 else 0)) n n ea u ps →
      left (.amo h d b m w4 ord op) (.amo op (s.me.rs b)) ∧ (u.atomWaits s.cur m ord ps = false →
      u.releaseIf s.cur rel m.sc.toNat = .ok v () →
      v.atomic s.cur (ps.headD default) n (.amo op (s.me.rs b)) = .ok w old →
      GoesOn s (.amo h d b m w4 ord op) ((out w).updThr s.cur (fun th => th.ws d (BitVec.ofNat 64 old))))) ∧
    (Ready s h (.cas h d b c m w4 ord) → s.dual? s.cur = none →
      Claim.Passes s .atomic true true m.space (kindOf m.space (if w4 then 1 else 0)) n n ea u ps →
      left (.cas h d b c m w4 ord) (.cas (s.me.rs b) (s.me.rs c)) ∧ (u.atomWaits s.cur m ord ps = false →
      u.releaseIf s.cur rel m.sc.toNat = .ok v () →
      v.atomic s.cur (ps.headD default) n (.cas (s.me.rs b) (s.me.rs c)) = .ok w old →
      GoesOn s (.cas h d b c m w4 ord) ((out w).updThr s.cur (fun th => th.ws d (BitVec.ofNat 64 old))))) ∧
    (Ready s h (.amof h d b m ord fo) → s.dual? s.cur = none →
      Claim.Passes s .atomic true true m.space (kindOf m.space 1) 4 4 ea u ps →
      (u.atomWaits s.cur m ord ps = true → GoesOn s (.amof h d b m ord fo)
        ((u.leaveAtom s.cur (.s d 0) ps 4 (if rel then some m.sc.toNat else none) (.amof fo (s.me.rs b))).newRegion
          (u.tid s.cur))) ∧
      (u.atomWaits s.cur m ord ps = false → u.releaseIf s.cur rel m.sc.toNat = .ok v () →
      v.atomic s.cur (ps.headD default) 4 (.amof fo (s.me.rs b)) = .ok w old →
      GoesOn s (.amof h d b m ord fo) ((out w).updThr s.cur (fun th =>
        (th.ws d (BitVec.ofNat 64 old)).orFlags (amofOp fo old (x % 2 ^ 32)).2))))

/-- The value that an AMO stores, on words of w bits (R186). -/
def Claim.amo {w : Nat} (op : AmoOp) (x y : BitVec w) : BitVec w :=
  match op with
  | .add => x + y | .and => x &&& y | .or => x ||| y | .xor => x ^^^ y | .swap => y
  | .min => if x.toInt ≤ y.toInt then x else y
  | .max => if x.toInt ≤ y.toInt then y else x
  | .minu => if x.toNat ≤ y.toNat then x else y
  | .maxu => if x.toNat ≤ y.toNat then y else x

/-- R120, R186, R338, R339: an AMO on a word of this package's memory, the thread's earlier stores done, is one step on
the memory itself: D has the old word, the root has the new one, and every other byte stays. Where an atomic is performed is the model's reading (log 22). -/
def Claim.AmoAtRoot : Prop :=
  ∀ (s u : State) (va pa : Nat) (pte : Word) (h : Hdr) (d b : SOp) (m : MemOp) (w4 : Bool) (op : AmoOp),
    let n := if w4 then 4 else 8
    let ea := s.me.rs m.base + m.off.signExtend 64
    let id := u.tid s.cur
    Ready s h (.amo h d b m w4 .pl op) → s.dual? s.cur = none →
    Claim.Passes s .atomic true true m.space (kindOf m.space (if w4 then 1 else 0)) n n ea u
      [⟨0xFF, ea, [⟨va, .mem pa pte, n⟩]⟩] →
    u.MemWf → u.poisoned pa n = false → u.isPeer pa = false → u.late = false →
    (u.agent id).iq = [] → (u.agent id).sb = [] → (∀ e ∈ u.hold, e.ag ≠ id ∧ ∀ x ∈ e.past, x.1 ≠ id) →
    (u.thr s.cur).stepReq = false →
    ∃ t, exec (.amo h d b m w4 .pl op) s = .next t ∧
      t.thr s.cur = ((u.thr s.cur).ws d (BitVec.ofNat 64 (u.rdNat pa n))).advance 12 ∧
      t.rdNat pa n = (Claim.amo op (BitVec.ofNat (8 * n) (u.rdNat pa n)) (BitVec.ofNat (8 * n) (s.me.rs b).toNat)).toNat ∧
      ∀ a, (a < pa ∨ pa + n ≤ a) → t.rd a = u.rd a

/-- AMO, CAS and AMOF: `Claim.AtomicIssue`, `Claim.AmoAtRoot`. -/
def Obligations.AtomicResult : Prop := Claim.AtomicIssue ∧ Claim.AmoAtRoot

/-- R190-R193: the vector loads write the active lanes of D, the others kept; the vector stores store the active
lanes; lanes lie 4 bytes apart, a stride apart, or at the offsets of B. An access performed as it issues is one choice of the agenda (log 3). -/
def Claim.VectorMemoryIssue : Prop :=
  ∀ (s u v : State) (ps : List Piece) (bs : List (List Byte)) (h : Hdr) (nib : Option (BitVec 5)) (d b : BitVec 5)
    (sb : SOp) (m : MemOp) (c : BitVec 3) (e : ESize) (acq : Bool),
    let ea := s.me.rs m.base + m.off.signExtend 64
    let unit := laneAddrs (s.me.rm c) (fun i => ea + BitVec.ofNat 64 (4 * i))
    let stride := laneAddrs (s.me.rm c) (fun i => ea + BitVec.ofNat 64 i * s.me.rs sb)
    let each := laneAddrs (s.me.rm c) (fun i => ea + (laneOf (s.me.rv b) i).signExtend 64)
    let loads (i : Instr) (kind : BitVec 4) (n : Nat) (lanes : List (Nat × Word)) : Prop :=
      s.checks s.cur .read false acq m.space kind n n lanes = .ok u ps → (acq = true ∨ u.mayWait s.cur ps = false) →
      u.readPieces s.cur (!acq) m.hint ps = .ok v bs → v.cur = s.cur →
      GoesOn s i ((Claim.acquired v acq m.sc.toNat).updThr s.cur (fun th =>
        th.wv d (loadLanes (th.rv d) ((ps.map Piece.lane).zip bs))))
    let stores (i : Instr) (kind : BitVec 4) (n : Nat) (data : VReg) (nm : Nat → BitVec 32)
        (lanes : List (Nat × Word)) : Prop :=
      s.checks s.cur .write true false m.space kind n n lanes = .ok u ps →
      let us := ps.flatMap (fun p => unitsOf p (bytesOfNat n (laneOf data p.lane).toNat) (nm p.lane))
      ∀ x, u.storeReady s.cur none us = (x, true) → (x.watchStore s.cur ps).storeAll s.cur m.space none us = .ok v () →
      GoesOn s i v
    let aligned (l : List (Nat × Word)) (st : Word) : Prop := l = [] ∨ ea.toNat % 4 = 0 ∧ st.toNat % 4 = 0
    let all (_ : Nat) : BitVec 32 := 0xFFFFFFFF
    (Ready s h (.vld h d m c acq) → aligned unit 0 → loads (.vld h d m c acq) (kindOf m.space 0) 4 unit) ∧
    (Ready s h (.vlds h d sb m c acq) → aligned stride (s.me.rs sb) →
      loads (.vlds h d sb m c acq) (kindOf m.space 0) 4 stride) ∧
    (Ready s h (.vgath h d b m c e acq) → loads (.vgath h d b m c e acq) (kindOf m.space (esCode e)) (esBytes e) each) ∧
    (Ready s h (.vst h none b m c false) → aligned unit 0 →
      stores (.vst h none b m c false) (kindOf m.space 0) 4 (s.me.rv b) all unit) ∧
    (∀ k, Ready s h (.vst h (some k) b m c false) → aligned unit 0 →
      stores (.vst h (some k) b m c false) (kindOf m.space 1) 4 (s.me.rv b)
        (fun i => ((laneOf (s.me.rv k) i).extractLsb' 0 8).setWidth 32) unit) ∧
    (Ready s h (.vsts h d sb m c false) → aligned stride (s.me.rs sb) →
      stores (.vsts h d sb m c false) (kindOf m.space 0) 4 (s.me.rv d) all stride) ∧
    (Ready s h (.vscat h d b m c e false) →
      stores (.vscat h d b m c e false) (kindOf m.space (esCode e)) (esBytes e) (s.me.rv d) all each)

/-- The lanes that a vector load writes: an active lane has its bytes, another keeps what it held (R190). -/
def Claim.LoadedLanes : Prop :=
  ∀ (old : VReg) (m : Mask) (f : Nat → List Byte) (i : Fin 48),
    (loadLanes old (((List.range 48).filter (fun k => m.getLsbD k)).map (fun k => (k, f k))))[i] =
      if m.getLsbD i then BitVec.ofNat 32 (natOfBytes (f i)) else old[i]

/-- The vector loads and stores, and the lanes that a load writes: `Claim.VectorMemoryIssue`, `Claim.LoadedLanes`. -/
def Obligations.VectorMemoryResult : Prop := Claim.VectorMemoryIssue ∧ Claim.LoadedLanes

/-! ## Group 0x0A: waits and barrier objects (R195-R203) -/

/-- What WAITA waits for, of the word x and the operand y (R195). -/
def Claim.waitedFor (cond : WaitCond) (x y : Nat) : Prop :=
  match cond with
  | .eq => x = y | .ne => x ≠ y | .geu => y ≤ x | .ltu => x < y | .any => x &&& y ≠ 0

/-- A store of the thread to another package is in its issue queue or its buffer, on its way, or not yet answered (R203). -/
def Claim.peerStoreLeft (s : State) : Prop :=
  let id := s.tid s.cur
  (∃ st, (st ∈ (s.agent id).sb ∨ IqEntry.store st ∈ (s.agent id).iq) ∧ ∃ p ∈ st.nibs.head?, s.isPeer (p.1 / 2) = true) ∨
  (∃ e ∈ s.hold, e.ag = id ∧ s.isPeer (e.loc / 2) = true) ∨ ∃ o ∈ s.outst, o.store = true ∧ o.ag = id

/-- R195, R200, R203: WAITA goes on with the word where its condition holds, and waits where it does not; BARW
goes on where the generation is another than B's, and waits where it is B's; RFCHK with no refusal to report gives
whether peer stores are left, and RFCHK.wait waits while they are. -/
def Claim.WaitOnMemory : Prop :=
  ∀ (s u v : State) (ps : List Piece) (bs : List (List Byte)) (pa : Nat) (h : Hdr) (d b : SOp) (m : MemOp)
    (w4 acq wt : Bool) (cond : WaitCond) (z : PZ),
    let n := if w4 then 4 else 8
    let ea := s.me.rs m.base + m.off.signExtend 64
    (Ready s h (.waita h d b m w4 acq cond) →
      Claim.Passes s .read false true m.space (kindOf m.space (if w4 then 1 else 0)) n n ea u ps →
      u.readPieces s.cur false 0 ps = .ok v bs → v.cur = s.cur →
      let x := natOfBytes (bs.getD 0 [])
      let holds := Claim.waitedFor cond x ((s.me.rs b).toNat % 2 ^ (8 * n))
      (holds → GoesOn s (.waita h d b m w4 acq cond)
        ((Claim.acquired v acq m.sc.toNat).updThr s.cur (fun th => th.ws d (BitVec.ofNat 64 x)))) ∧
      (¬ holds → exec (.waita h d b m w4 acq cond) s = .next (v.updThr s.cur (fun th =>
        { th with waiting := some (.waita d ea m.space w4 acq m.sc cond (s.me.rs b)) })))) ∧
    (Ready s h (.barw h d b m) →
      Claim.Passes s .read false true m.space (kindOf m.space 0) 16 16 ea u ps →
      u.objAddr s.cur ps = .ok v pa →
      let x := v.bar pa
      let g := (s.me.rs b).extractLsb' 0 4
      x.err = false →
      (x.gen ≠ g → ∃ t : State, GoesOn s (.barw h d b m) (t.updThr s.cur (fun th => th.ws d (x.gen.setWidth 64))) ∧
        t.mem = v.mem ∧ t.threads = v.threads) ∧
      (x.gen = g → exec (.barw h d b m) s = .next (v.updThr s.cur (fun th =>
        { th with waiting := some (.barw d ea m.space m.sc g) })))) ∧
    (Ready s h (.rfchk h z wt) → (s.agent (s.tid s.cur)).ref.count = 0 →
      (wt = false → ∃ x : Bool, (x = true ↔ Claim.peerStoreLeft s) ∧ Does s (.rfchk h z wt) (fun th => th.wpz z x)) ∧
      (wt = true → ¬ Claim.peerStoreLeft s → Does s (.rfchk h z wt) (fun th => th.wpz z false)) ∧
      (wt = true → Claim.peerStoreLeft s → exec (.rfchk h z wt) s = .next (s.updThr s.cur (fun th =>
        { th with waiting := some (.rfchk z) }))))

/-- R196-R201: BARI makes the object of its count; BARA counts an arrival and gives the generation before it;
BARX goes to the next generation where nothing is under way, and gives the record; BARA at an object with ERR
traps BARRIER with sub-cause 1, and BARX at a busy one with sub-cause 2. -/
def Claim.BarrierIssue : Prop :=
  ∀ (s u v w : State) (ps : List Piece) (pa : Nat) (h : Hdr) (d b : SOp) (m : MemOp) (rel ar ab : Bool),
    let ea := s.me.rs m.base + m.off.signExtend 64
    let passes := Claim.Passes s .write true true m.space (kindOf m.space 0) 16 16 ea u ps
    let x := w.bar pa
    s.dual? s.cur = none → v.objAddr s.cur ps = .ok w pa →
    (Ready s h (.bari h b m rel) → passes → u.releaseIf s.cur rel m.sc.toNat = .ok v () →
      ∃ t : State, GoesOn s (.bari h b m rel) t ∧
        t.mem = (w.setBar pa ⟨0, 0, 0, (s.me.rs b).extractLsb' 0 16, (s.me.rs b).extractLsb' 0 16, false, 0⟩).mem ∧
        t.threads = w.threads) ∧
    (Ready s h (.bara h d m) → passes → u.releaseAt s.cur m.sc.toNat = .ok v () →
      (x.err = false → ∃ t : State, GoesOn s (.bara h d m) (t.updThr s.cur (fun th => th.ws d (x.gen.setWidth 64))) ∧
        t.mem = (w.setBar pa x.arrive).mem ∧ t.threads = w.threads) ∧
      (x.err = true → exec (.bara h d m) s =
        .next (s.trapFrom w s.cur 0x0E 1 ea ((w.obj pa).extractLsb' 0 64) false))) ∧
    (Ready s h (.barx h d m ar ab) → passes → u.releaseAt s.cur m.sc.toNat = .ok v () →
      ((ab = true ∨ x.err = false ∧ x.inb = 0 ∧ x.out = 0) → ∃ t : State,
        GoesOn s (.barx h d m ar ab) (t.updThr s.cur (fun th => th.ws d x.record)) ∧
        t.mem = (w.setBar pa (x.cross ab)).mem ∧ t.threads = w.threads) ∧
      (ab = false → ¬ (x.err = false ∧ x.inb = 0 ∧ x.out = 0) → exec (.barx h d m ar ab) s =
        .next (s.trapFrom w s.cur 0x0E 2 ea ((w.obj pa).extractLsb' 0 64) false)))

/-- The thread has no access under way and no refusal to report, no store is on its way, nothing is poisoned, and the
run is no dual one: nothing holds an access of its own back. -/
structure Claim.Idle (s : State) : Prop where
  iq     : (s.agent (s.tid s.cur)).iq = []
  sb     : (s.agent (s.tid s.cur)).sb = []
  ref    : (s.agent (s.tid s.cur)).ref.count = 0
  hold   : s.hold = []
  peers  : ∀ o ∈ s.outst, o.store = true → o.ag ≠ s.tid s.cur
  poison : s.poison = []
  dual   : s.dual? s.cur = none

/-- n bytes of the thread's scratchpad, aligned and inside it (R174-R176), at physical address pa. -/
def Claim.InScratch (s : State) (m : MemOp) (n pa : Nat) : Prop :=
  let ea := (s.me.rs m.base + m.off.signExtend 64).toNat
  let sp_ := s.spaceBase (coreOf s.cur) .sp
  m.space = .sp ∧ ea % n = 0 ∧ ea + n ≤ sp_.1 ∧ pa = sp_.2 + ea

/-- R175, R195-R203: where each of these instructions executes normally: on an idle thread, at a word or an object of its
scratchpad, WAITA whose condition holds, BARI, BARA at an object without ERR, BARW of another generation, BARX of a quiet
object or with .abandon, and RFCHK answer a next state, with the object and the register that the rules give. -/
def Claim.BarrierCompletes : Prop :=
  ∀ (s : State) (pa : Nat) (h : Hdr) (d b : SOp) (m : MemOp) (w4 acq rel ar ab wt : Bool) (cond : WaitCond) (z : PZ),
    Claim.Idle s → s.MemWf →
    let n := if w4 then 4 else 8
    let x := s.rdNat pa n
    let o := s.bar pa
    let count := (s.me.rs b).extractLsb' 0 16
    (Ready s h (.waita h d b m w4 acq cond) → Claim.InScratch s m n pa →
      Claim.waitedFor cond x ((s.me.rs b).toNat % 2 ^ (8 * n)) → ∃ u, GoesOn s (.waita h d b m w4 acq cond) u ∧
        u.thr s.cur = s.me.ws d (BitVec.ofNat 64 x) ∧ u.mem = s.mem) ∧
    (Ready s h (.bari h b m rel) → Claim.InScratch s m 16 pa → ∃ u, GoesOn s (.bari h b m rel) u ∧
      u.threads = s.threads ∧ u.bar pa = ⟨0, 0, 0, count, count, false, 0⟩) ∧
    (Ready s h (.bara h d m) → Claim.InScratch s m 16 pa → o.err = false → ∃ u, GoesOn s (.bara h d m) u ∧
      u.thr s.cur = s.me.ws d (o.gen.setWidth 64) ∧ u.bar pa = o.arrive) ∧
    (Ready s h (.barw h d b m) → Claim.InScratch s m 16 pa → o.err = false → o.gen ≠ (s.me.rs b).extractLsb' 0 4 →
      ∃ u, GoesOn s (.barw h d b m) u ∧ u.thr s.cur = s.me.ws d (o.gen.setWidth 64) ∧ u.mem = s.mem) ∧
    (Ready s h (.barx h d m ar ab) → Claim.InScratch s m 16 pa → (ab = true ∨ o.err = false ∧ o.inb = 0 ∧ o.out = 0) →
      ∃ u, GoesOn s (.barx h d m ar ab) u ∧ u.thr s.cur = s.me.ws d o.record ∧ u.bar pa = o.cross ab) ∧
    (Ready s h (.rfchk h z wt) → Does s (.rfchk h z wt) (fun th => th.wpz z false))

/-- R196, R197: the fields of a barrier object lie where the map says. An arrival, or the completion of a tagged copy of
the phase, lowers its counter, and ends the phase exactly when ERR is 0 and nothing of the phase is left; an arrival at
PEND 0, and a completion at counter 0 or of a later generation, sets ERR, and one of an older generation is dropped and
counted. The issue of a tagged copy raises its counter, or sets ERR at 2^20 − 1, and BARX begins the next phase. -/
def Claim.BarrierPhase : Prop :=
  (∀ (x : BitVec 128), (Bar.ofBits x).gen = x.extractLsb' 0 4 ∧ (Bar.ofBits x).err = x.getLsbD 4 ∧
    (Bar.ofBits x).pend = x.extractLsb' 8 16 ∧ (Bar.ofBits x).init = x.extractLsb' 24 16 ∧
    (Bar.ofBits x).inb = x.extractLsb' 40 20 ∧ (Bar.ofBits x).out = x.extractLsb' 60 20 ∧
    (Bar.ofBits x).stale = x.extractLsb' 80 16) ∧
  (∀ b : Bar, Bar.ofBits b.bits = b ∧ b.bits.getLsbD 5 = false ∧ b.bits.getLsbD 6 = false ∧ b.bits.getLsbD 7 = false ∧
    b.bits.extractLsb' 96 32 = 0) ∧
  (∀ b : Bar, b.pend ≠ 0 →
    (b.err = false ∧ b.pend = 1 ∧ b.inb = 0 ∧ b.out = 0 → b.arrive = { b with gen := b.gen + 1, pend := b.init }) ∧
    (¬ (b.err = false ∧ b.pend = 1 ∧ b.inb = 0 ∧ b.out = 0) → b.arrive = { b with pend := b.pend - 1 })) ∧
  (∀ b : Bar, b.pend = 0 → b.arrive = { b with err := true }) ∧
  (∀ b : Bar, b.inb ≠ 0 →
    (b.err = false ∧ b.pend = 0 ∧ b.inb = 1 ∧ b.out = 0 →
      b.land false b.gen = { b with gen := b.gen + 1, pend := b.init, inb := 0 }) ∧
    (¬ (b.err = false ∧ b.pend = 0 ∧ b.inb = 1 ∧ b.out = 0) → b.land false b.gen = { b with inb := b.inb - 1 })) ∧
  (∀ b : Bar, b.out ≠ 0 →
    (b.err = false ∧ b.pend = 0 ∧ b.out = 1 ∧ b.inb = 0 →
      b.land true b.gen = { b with gen := b.gen + 1, pend := b.init, out := 0 }) ∧
    (¬ (b.err = false ∧ b.pend = 0 ∧ b.out = 1 ∧ b.inb = 0) → b.land true b.gen = { b with out := b.out - 1 })) ∧
  (∀ b : Bar, (b.inb = 0 → b.land false b.gen = { b with err := true }) ∧
    (b.out = 0 → b.land true b.gen = { b with err := true })) ∧
  (∀ (b : Bar) (o : Bool) (g : BitVec 4),
    (1 ≤ (b.gen - g).toNat → (b.gen - g).toNat ≤ 7 →
      b.land o g = { b with stale := BitVec.ofNat 16 (min (b.stale.toNat + 1) 0xFFFF) }) ∧
    (8 ≤ (b.gen - g).toNat → b.land o g = { b with err := true })) ∧
  (∀ b : Bar, (b.inb ≠ 0xFFFFF → b.raise false = { b with inb := b.inb + 1 }) ∧
    (b.inb = 0xFFFFF → b.raise false = { b with err := true }) ∧
    (b.out ≠ 0xFFFFF → b.raise true = { b with out := b.out + 1 }) ∧
    (b.out = 0xFFFFF → b.raise true = { b with err := true })) ∧
  (∀ b : Bar, b.cross false = { b with gen := b.gen + 1, pend := b.init } ∧
    b.cross true = { b with gen := b.gen + 1, pend := b.init, inb := 0, out := 0, err := false })

/-- WAITA, the barrier objects and RFCHK: `Claim.BarrierCompletes`, `Claim.WaitOnMemory`, `Claim.BarrierIssue`,
`Claim.BarrierPhase`. -/
def Obligations.BarrierResult : Prop :=
  Claim.BarrierCompletes ∧ Claim.WaitOnMemory ∧ Claim.BarrierIssue ∧ Claim.BarrierPhase

/-! ## Groups 0x0B to 0x0E: vector instructions (R205-R223) -/

/-- R205, R63: instruction i computes the lanes x of v[d] under mask c, its active lanes raising the flags fl:
inactive lanes of v[d], the other vectors, the scalars, predicates and masks stay. -/
def Claim.Lanes (s : State) (i : Instr) (d : BitVec 5) (c : BitVec 3) (x : Fin 48 → Lane) (fl : Fin 48 → Flags) :
    Prop :=
  ∃ k : Thread, GoesOn s i (s.setThr s.cur k) ∧
    (∀ j : Fin 48, (k.rv d)[j] = if (s.me.rm c).getLsbD j then x j else (s.me.rv d)[j]) ∧
    (∀ n, n ≠ d → k.rv n = s.me.rv n) ∧
    (∀ b, b < 6 → (k.status.getLsbD (3 + b) = true ↔
      s.me.status.getLsbD (3 + b) = true ∨ ∃ j : Fin 48, (s.me.rm c).getLsbD j = true ∧ (fl j).getLsbD b = true)) ∧
    (∀ b, b < 3 ∨ 9 ≤ b → k.status.getLsbD b = s.me.status.getLsbD b) ∧
    k.globals = s.me.globals ∧ k.frame = s.me.frame ∧ k.pass = s.me.pass ∧ k.p = s.me.p ∧ k.m = s.me.m

/-! ### Floating point by the rules' own words (R50, R57-R62) -/

/-- The exponent field of a number with eb exponent and mb mantissa bits below its sign (R50). -/
def Claim.expo (eb mb x : Nat) : Nat := x / 2 ^ mb % 2 ^ eb
/-- Its sign bit is 1. -/
def Claim.minus (eb mb x : Nat) : Bool := x / 2 ^ (mb + eb) % 2 == 1
/-- It is finite, an infinity, a NaN, a signalling NaN (R50). -/
def Claim.isFin (eb mb x : Nat) : Bool := Claim.expo eb mb x != 2 ^ eb - 1
def Claim.isInf (eb mb x : Nat) : Bool := !Claim.isFin eb mb x && x % 2 ^ mb == 0
def Claim.isNan (eb mb x : Nat) : Bool := !Claim.isFin eb mb x && x % 2 ^ mb != 0
def Claim.isSig (eb mb x : Nat) : Bool := Claim.isNan eb mb x && decide (x % 2 ^ mb < 2 ^ (mb - 1))
/-- The canonical NaN, and the infinity of sign 0 (R50). -/
def Claim.quiet (eb mb : Nat) : Nat := (2 ^ eb - 1) * 2 ^ mb + 2 ^ (mb - 1)
def Claim.infinity (eb mb : Nat) : Nat := (2 ^ eb - 1) * 2 ^ mb

/-- The exact value of a finite number (R50). -/
def Claim.real (eb mb x : Nat) : ℚ :=
  let m := x % 2 ^ mb
  let e := Claim.expo eb mb x
  let v : ℚ := if e = 0 then (m : ℚ) * 2 ^ (2 - 2 ^ (eb - 1) - (mb : ℤ))
    else ((2 ^ mb + m : ℕ) : ℚ) * 2 ^ ((e : ℤ) + 1 - 2 ^ (eb - 1) - mb)
  if Claim.minus eb mb x then -v else v

/-- r is the finite number to which mode rm rounds x: the nearest, the even one of two as near, or the next toward zero,
below or above (R49, R57). -/
def Claim.nearest (eb mb : Nat) (rm : RM) (x : ℚ) (r : Nat) : Prop :=
  let v := Claim.real eb mb
  match rm with
  | .rne => ∀ z, Claim.isFin eb mb z = true → |v r - x| ≤ |v z - x| ∧ (v z ≠ v r → |v z - x| = |v r - x| → r % 2 = 0)
  | .rtz => |v r| ≤ |x| ∧ 0 ≤ v r * x ∧ ∀ z, Claim.isFin eb mb z = true → |v z| ≤ |x| → |v z| ≤ |v r|
  | .rdn => v r ≤ x ∧ ∀ z, Claim.isFin eb mb z = true → v z ≤ x → v z ≤ v r
  | .rup => x ≤ v r ∧ ∀ z, Claim.isFin eb mb z = true → x ≤ v z → v r ≤ v z

/-- R57, R58, R60, R62: r is the exact value x rounded once under rm, with its flags. Up to the largest finite value it is
the number that the mode asks for, NX set where it is not x, UF with it where it is below the smallest normal value; where
the rounded result lies beyond, it is what the mode makes of an overflow, with OF and NX. -/
def Claim.Rounded (eb mb : Nat) (rm : RM) (x : ℚ) (r : Nat × Flags) : Prop :=
  let v := Claim.real eb mb
  let big : ℚ := 2 ^ 2 ^ (eb - 1)
  let top : ℚ := big - 2 ^ (2 ^ (eb - 1) - 1 - mb)
  let inf := Claim.infinity eb mb
  let limit := if rm = .rne then (big + top) / 2 else big
  (|x| ≤ top → r.1 < 2 ^ (1 + eb + mb) ∧ Claim.isFin eb mb r.1 = true ∧ Claim.nearest eb mb rm x r.1 ∧
    (x ≠ 0 → Claim.minus eb mb r.1 = decide (x < 0)) ∧
    r.2 = if v r.1 = x then 0 else if |v r.1| < 2 ^ (2 - 2 ^ (eb - 1) : ℤ) then 0x03 else 0x01) ∧
  (limit ≤ |x| → r = ((if x < 0 then 2 ^ (eb + mb) else 0) + (match rm with
    | .rne => inf
    | .rtz => inf - 1
    | .rdn => if x < 0 then inf else inf - 1
    | .rup => if x < 0 then inf - 1 else inf), 0x05))

/-- R57-R62, R210: each element of a float lane type is computed exactly and rounded once; a NaN operand gives the
canonical NaN, with NV where one is signalling or the operation is 0 × ∞; ∞ − ∞ and 0 × ∞ give it with NV; ∞ and a finite
number add to ∞. VABS and VNEG of a number only set its sign. -/
def Claim.FloatArithmetic : Prop :=
  ∀ (op : Arith) (neg : Bool) (lt : LT) (eb mb : Nat) (rm : RM) (ss un : Bool) (a b d : Lane),
    (lt, eb, mb) ∈ [(LT.f32, 8, 23), (LT.bf16x2, 8, 7), (LT.f16x2, 5, 10)] →
    let w := 1 + eb + mb
    let el (x : Lane) (k : Nat) : Nat := x.toNat / 2 ^ (w * k) % 2 ^ w
    let v := Claim.real eb mb
    let isFin := Claim.isFin eb mb
    let isInf := Claim.isInf eb mb
    let isNan := Claim.isNan eb mb
    let isSig := Claim.isSig eb mb
    let minus := Claim.minus eb mb
    let zeroInf (x y : Nat) : Bool := isFin x && v x == 0 && isInf y || isInf x && isFin y && v y == 0
    let r := arithLane op lt rm ss un a b d
    (∃ g : Nat → Flags, r.2 = (List.range (32 / w)).foldl (fun f k => f ||| g k) 0 ∧ ∀ k < 32 / w,
      let x := el a k
      let y := el b k
      let z := el d k
      let out := (el r.1 k, g k)
      let exact : ℚ := match op with
        | .add => v x + v y
        | .sub => v x - v y
        | .mul => v x * v y
        | .fma => v x * v y + v z
        | .min => min (v x) (v y)
        | .max => max (v x) (v y)
      (isFin x = true → isFin y = true → (op = .fma → isFin z = true) → Claim.Rounded eb mb rm exact out) ∧
      ((isNan x || isNan y || op == .fma && isNan z) = true → out = (Claim.quiet eb mb,
        if isSig x || isSig y || op == .fma && (isSig z || zeroInf x y) then 0x10 else 0)) ∧
      ((op = .add ∧ isInf x = true ∧ isInf y = true ∧ minus x ≠ minus y ∨
          op = .sub ∧ isInf x = true ∧ isInf y = true ∧ minus x = minus y ∨ op = .mul ∧ zeroInf x y = true) →
        out = (Claim.quiet eb mb, 0x10)) ∧
      ((op = .add ∨ op = .sub) → isInf x = true → isFin y = true → out = (x, 0))) ∧
    ((∀ k < 32 / w, isNan (el a k) = false) → (absNegLane neg lt ss a).2 = 0 ∧ ∀ k < 32 / w,
      el (absNegLane neg lt ss a).1 k = el a k % 2 ^ (eb + mb) + (if neg && !minus (el a k) then 2 ^ (eb + mb) else 0))

/-- R205, R210, R211: the arithmetic of group 0x0B, lane by lane, D the third operand of VFMA; VMIN and VMAX
neither round nor saturate. -/
def Claim.ArithmeticLanes : Prop :=
  ∀ (s : State) (h : Hdr) (d a : BitVec 5) (b : VSrc) (c : BitVec 3) (lt : LT) (rm : RM) (ss un : Bool),
    let three (i : Instr) (op : Arith) (rm : RM) (ss : Bool) : Prop :=
      let f (j : Fin 48) := arithLane op lt rm ss un (s.me.rv a)[j] (s.me.rvs b)[j] (s.me.rv d)[j]
      Ready s h i → Claim.Lanes s i d c (fun j => (f j).1) (fun j => (f j).2)
    let one (i : Instr) (neg : Bool) : Prop :=
      let f (j : Fin 48) := absNegLane neg lt ss (s.me.rv a)[j]
      Ready s h i → Claim.Lanes s i d c (fun j => (f j).1) (fun j => (f j).2)
    three (.vadd h d a b c lt rm ss un) .add rm ss ∧ three (.vsub h d a b c lt rm ss un) .sub rm ss ∧
    three (.vmul h d a b c lt rm ss un) .mul rm ss ∧ three (.vfma h d a b c lt rm ss un) .fma rm ss ∧
    three (.vmin h d a b c lt un) .min .rne false ∧ three (.vmax h d a b c lt un) .max .rne false ∧
    one (.vabs h d a c lt ss) false ∧ one (.vneg h d a c lt ss) true

/-- The arithmetic of group 0x0B, and of its float lane types what each element comes to: `Claim.ArithmeticLanes`,
`Claim.FloatArithmetic`. -/
def Obligations.VectorArithmetic : Prop := Claim.ArithmeticLanes ∧ Claim.FloatArithmetic

/-- The n-bit half or quarter k of a lane. -/
def Claim.part (n k : Nat) (x : Lane) : BitVec n := x.extractLsb' (n * k) n

/-- R48, R211: wrapping integer lanes: a lane of I32 is one sum, difference or product modulo 2^32, and each half
of I16X2 and each quarter of I8X4 is one of its own, no carry passing between them; VMIN and VMAX take the lesser and the
greater; no flag is raised. -/
def Obligations.IntegerLanes : Prop :=
  ∀ (op : Arith) (lt : LT) (rm : RM) (un : Bool) (a b d : Lane),
    let wrap {n : Nat} (op : Arith) (x y z : BitVec n) : BitVec n :=
      let less : Bool := if un then decide (x.toNat < y.toNat) else decide (x.toInt < y.toInt)
      match op with
      | .add => x + y
      | .sub => x - y
      | .mul => x * y
      | .fma => x * y + z
      | .min => if less then x else y
      | .max => if less then y else x
    (lt = .i32 ∨ lt = .i16x2 ∨ lt = .i8x4 → (arithLane op lt rm false un a b d).2 = 0) ∧
    (arithLane op .i32 rm false un a b d).1 = wrap op a b d ∧
    (∀ k < 2, Claim.part 16 k (arithLane op .i16x2 rm false un a b d).1 =
      wrap op (Claim.part 16 k a) (Claim.part 16 k b) (Claim.part 16 k d)) ∧
    (∀ k < 4, Claim.part 8 k (arithLane op .i8x4 rm false un a b d).1 =
      wrap op (Claim.part 8 k a) (Claim.part 8 k b) (Claim.part 8 k d))

/-- The conditions of VCMP on integers (R213); .un is reserved there. -/
def Claim.laneHolds (cc : VCC) (a b : Int) : Prop :=
  match cc with
  | .eq => a = b | .ne => a ≠ b | .lt => a < b | .ge => a ≥ b | .le => a ≤ b | .gt => a > b | .un => False

/-- R212, R213: each element is shifted by the low bits of the same element of B, and compared as a signed or an unsigned
number. -/
def Claim.ElementBits : Prop :=
  ∀ (x y : Lane) (cc : VCC),
    (shiftLane .shl .i32 x y = (x <<< (y.toNat % 32), 0) ∧ shiftLane .shr .i32 x y = (x >>> (y.toNat % 32), 0) ∧
      shiftLane .sar .i32 x y = (x.sshiftRight (y.toNat % 32), 0)) ∧
    (∀ k < 2, let a := Claim.part 16 k x
      let n := (Claim.part 16 k y).toNat % 16
      Claim.part 16 k (shiftLane .shl .i16x2 x y).1 = a <<< n ∧ Claim.part 16 k (shiftLane .shr .i16x2 x y).1 = a >>> n ∧
      Claim.part 16 k (shiftLane .sar .i16x2 x y).1 = a.sshiftRight n) ∧
    (∀ k < 4, let a := Claim.part 8 k x
      let n := (Claim.part 8 k y).toNat % 8
      Claim.part 8 k (shiftLane .shl .i8x4 x y).1 = a <<< n ∧ Claim.part 8 k (shiftLane .shr .i8x4 x y).1 = a >>> n ∧
      Claim.part 8 k (shiftLane .sar .i8x4 x y).1 = a.sshiftRight n) ∧
    (cmpLane .i32 0 false cc x y).2 = 0 ∧
    ((cmpLane .i32 0 false cc x y).1 = true ↔ Claim.laneHolds cc x.toInt y.toInt) ∧
    ((cmpLane .i32 0 true cc x y).1 = true ↔ Claim.laneHolds cc x.toNat y.toNat) ∧
    (∀ k < 2, (cmpLane .i16x2 k false cc x y).1 = true ↔
      Claim.laneHolds cc (Claim.part 16 k x).toInt (Claim.part 16 k y).toInt) ∧
    (∀ k < 4, (cmpLane .i8x4 k true cc x y).1 = true ↔
      Claim.laneHolds cc (Claim.part 8 k x).toNat (Claim.part 8 k y).toNat)

/-- R212-R214: logic on whole lanes, the shifts, VCMP into a mask under a mask, and VSEL, which writes every lane. -/
def Claim.VectorBits : Prop :=
  ∀ (s : State) (h : Hdr) (d a b' : BitVec 5) (b : VSrc) (c n : BitVec 3) (lt : LT) (el : BitVec 2) (un : Bool) (cc : VCC),
    let lanes (i : Instr) (f : Lane → Lane → Lane) : Prop := Ready s h i →
      Claim.Lanes s i d c (fun j => f (s.me.rv a)[j] (s.me.rvs b)[j]) (fun _ => 0)
    lanes (.vand h d a b c) (fun x y => x &&& y) ∧ lanes (.vor h d a b c) (fun x y => x ||| y) ∧
    lanes (.vxor h d a b c) (fun x y => x ^^^ y) ∧
    lanes (.vshl h d a b c lt) (fun x y => (shiftLane .shl lt x y).1) ∧
    lanes (.vshr h d a b c lt) (fun x y => (shiftLane .shr lt x y).1) ∧
    lanes (.vsar h d a b c lt) (fun x y => (shiftLane .sar lt x y).1) ∧
    (Ready s h (.vcmp h n a b c lt el un cc) → n ≠ 0 → ∃ k : Thread,
      GoesOn s (.vcmp h n a b c lt el un cc) (s.setThr s.cur k) ∧
      (∀ j : Fin 48, (k.rm n).getLsbD j = if (s.me.rm c).getLsbD j
        then (cmpLane lt el.toNat un cc (s.me.rv a)[j] (s.me.rvs b)[j]).1 else (s.me.rm n).getLsbD j) ∧
      (∀ q, q ≠ n → k.rm q = s.me.rm q) ∧
      (∀ b', b' < 6 → (k.status.getLsbD (3 + b') = true ↔ s.me.status.getLsbD (3 + b') = true ∨
        ∃ j : Fin 48, (s.me.rm c).getLsbD j = true ∧
          (cmpLane lt el.toNat un cc (s.me.rv a)[j] (s.me.rvs b)[j]).2.getLsbD b' = true)) ∧
      k.v = s.me.v ∧ k.p = s.me.p ∧ k.globals = s.me.globals ∧ k.frame = s.me.frame ∧ k.pass = s.me.pass) ∧
    (Ready s h (.vcmp h 0 a b c lt el un cc) → ∃ k : Thread,
      GoesOn s (.vcmp h 0 a b c lt el un cc) (s.setThr s.cur k) ∧ k.m = s.me.m ∧ k.v = s.me.v ∧ k.p = s.me.p ∧
      k.globals = s.me.globals ∧ k.frame = s.me.frame ∧ k.pass = s.me.pass) ∧
    (Ready s h (.vsel h d a b' c) → Does s (.vsel h d a b' c) (fun th => th.wv d (Vector.ofFn (fun j : Fin 48 =>
      if (th.rm c).getLsbD j then (th.rv a)[j] else (th.rv b')[j]))))

/-- i is the integer to which mode rm rounds x (R49, R58). -/
def Claim.toInteger (rm : RM) (x : ℚ) (i : ℤ) : Prop :=
  match rm with
  | .rne => |x - i| ≤ 1 / 2 ∧ (|x - i| = 1 / 2 → i % 2 = 0)
  | .rtz => i = if 0 ≤ x then ⌊x⌋ else ⌈x⌉
  | .rdn => i = ⌊x⌋
  | .rup => i = ⌈x⌉

/-- R57, R58, R216: VCVT between I32 and F32, and between F32 and the halves of BF16X2 and F16X2: an integer is rounded into
F32 by the mode; a finite number into an integer too, clamped with NV outside its range, else with NX where it is no integer;
a NaN gives 0 with NV; a number of 32 bits is rounded into the half that EL names, the other half kept, and a half widens
exactly. -/
def Claim.FloatConversions : Prop :=
  ∀ (lt : LT) (eb mb el : Nat) (rm : RM) (a old : Lane), el < 2 →
    (lt, eb, mb) ∈ [(LT.bf16x2, 8, 7), (LT.f16x2, 5, 10)] →
    let v := Claim.real 8 23 a.toNat
    let half (x : Lane) (k : Nat) : Nat := x.toNat / 2 ^ (16 * k) % 2 ^ 16
    let toF := cvtLane .f32 .i32 0 rm false a old
    let toH := cvtLane lt .f32 el rm false a old
    let wide := cvtLane .f32 lt el rm false a old
    Claim.Rounded 8 23 rm a.toInt (toF.1.toNat, toF.2) ∧
    (Claim.isFin 8 23 a.toNat = true → ∃ i : ℤ, Claim.toInteger rm v i ∧ cvtLane .i32 .f32 0 rm false a old =
      (BitVec.ofInt 32 (max (-2 ^ 31) (min (2 ^ 31 - 1) i)),
        if i < -2 ^ 31 ∨ 2 ^ 31 - 1 < i then 0x10 else if (i : ℚ) = v then 0 else 0x01)) ∧
    (Claim.isNan 8 23 a.toNat = true → cvtLane .i32 .f32 0 rm false a old = (0, 0x10)) ∧
    (Claim.isFin 8 23 a.toNat = true → Claim.Rounded eb mb rm v (half toH.1 el, toH.2)) ∧
    half toH.1 (1 - el) = half old (1 - el) ∧
    (Claim.isFin eb mb (half a el) = true → Claim.isFin 8 23 wide.1.toNat = true ∧
      Claim.real 8 23 wide.1.toNat = Claim.real eb mb (half a el) ∧ wide.2 = 0)

/-- R215: VRCP is the reciprocal rounded to nearest even; the special inputs of each function give what the rule's table
says; VEXP2 of an integer whose result is normal, VLOG2 of a power of 2 and VRSQ of a power of 4 are exact. -/
def Claim.FloatFunctions : Prop :=
  ∀ (f : FF) (eb mb x : Nat), (f, eb, mb) ∈ [(FF.f32, 8, 23), (FF.bf16, 8, 7), (FF.f16, 5, 10)] → x < 2 ^ (1 + eb + mb) →
    let v := Claim.real eb mb
    let fin := Claim.isFin eb mb x = true
    let s := if Claim.minus eb mb x then 2 ^ (eb + mb) else 0
    let inf := Claim.infinity eb mb
    let bad := (Claim.quiet eb mb, (0x10 : Flags))
    let one := (2 ^ (eb - 1) - 1) * 2 ^ mb
    let is (n : Fn) (y : ℚ) : Prop := ∃ r, f.fn n x = (r, 0) ∧ Claim.isFin eb mb r = true ∧ v r = y
    (fin → v x ≠ 0 → Claim.Rounded eb mb .rne (1 / v x) (f.fn .rcp x)) ∧
    (fin → v x = 0 → f.fn .rcp x = (s + inf, 0x08) ∧ f.fn .rsq x = (s + inf, 0x08) ∧ f.fn .exp2 x = (one, 0) ∧
      f.fn .log2 x = (2 ^ (eb + mb) + inf, 0x08) ∧ f.fn .tanh x = (x, 0)) ∧
    (x = inf → f.fn .rcp x = (0, 0) ∧ f.fn .rsq x = (0, 0) ∧ f.fn .exp2 x = (inf, 0) ∧ f.fn .log2 x = (inf, 0) ∧
      f.fn .tanh x = (one, 0)) ∧
    (x = 2 ^ (eb + mb) + inf → f.fn .rcp x = (2 ^ (eb + mb), 0) ∧ f.fn .rsq x = bad ∧ f.fn .exp2 x = (0, 0) ∧
      f.fn .log2 x = bad ∧ f.fn .tanh x = (2 ^ (eb + mb) + one, 0)) ∧
    (fin → v x < 0 → f.fn .rsq x = bad ∧ f.fn .log2 x = bad) ∧
    (Claim.isNan eb mb x = true → ∀ n, f.fn n x = (Claim.quiet eb mb, if Claim.isSig eb mb x then 0x10 else 0)) ∧
    (∀ n : ℤ, fin → (v x = n → 2 - 2 ^ (eb - 1) ≤ n → n < 2 ^ (eb - 1) → is .exp2 (2 ^ n)) ∧
      (v x = 2 ^ n → is .log2 n) ∧ (v x = 4 ^ n → is .rsq (2 ^ (-n))))

/-- R215-R219: the functions and conversions, lane by lane; VQUANT with .sr draws from the active lanes' own
registers of R218 and leaves the others' as they were. How the exact value is computed is log 43. -/
def Claim.FunctionLanes : Prop :=
  ∀ (s : State) (h : Hdr) (d a b : BitVec 5) (c : BitVec 3) (lt dt st_ : LT) (el : BitVec 2) (e3 : BitVec 3) (rm : RM)
    (ss sr : Bool) (fmt : Fmt),
    let lanes (i : Instr) (f : Fin 48 → Lane × Flags) : Prop := Ready s h i →
      Claim.Lanes s i d c (fun j => (f j).1) (fun j => (f j).2)
    let fn (n : Fn) (j : Fin 48) : Lane × Flags := mapLane lt (fun k =>
      ((floatOf lt).getD .f32).fn n (elemOf lt.width (s.me.rv a)[j] k))
    lanes (.vrcp h d a c lt) (fn .rcp) ∧ lanes (.vrsq h d a c lt) (fn .rsq) ∧ lanes (.vexp2 h d a c lt) (fn .exp2) ∧
    lanes (.vlog2 h d a c lt) (fn .log2) ∧ lanes (.vtanh h d a c lt) (fn .tanh) ∧
    lanes (.vcvt h d a c dt st_ el rm ss) (fun j => cvtLane dt st_ el.toNat rm ss (s.me.rv a)[j] (s.me.rv d)[j]) ∧
    lanes (.vdeq h d a b c fmt e3 rm) (fun j => deqLane fmt e3.toNat rm (s.me.rv a)[j] (s.me.rv b)[j]) ∧
    lanes (.vquant h d a b c fmt e3 rm sr) (fun j => quantLane fmt e3.toNat rm sr (s.me.rv a)[j] (s.me.rv b)[j] (s.me.rv d)[j]
      (if sr && (s.me.rm c).getLsbD j then lfsrStep s.me.lfsr[j] else s.me.lfsr[j])) ∧
    (Ready s h (.vquant h d a b c fmt e3 rm sr) → ∃ k : Thread,
      GoesOn s (.vquant h d a b c fmt e3 rm sr) (s.setThr s.cur k) ∧ ∀ j : Fin 48,
        k.lfsr[j] = if sr = true ∧ (s.me.rm c).getLsbD j = true then lfsrStep s.me.lfsr[j] else s.me.lfsr[j])

/-- The functions and conversions of group 0x0D, and what they come to: `Claim.FunctionLanes`, `Claim.FloatConversions`,
`Claim.FloatFunctions`. -/
def Obligations.VectorFunctions : Prop := Claim.FunctionLanes ∧ Claim.FloatConversions ∧ Claim.FloatFunctions

/-- The running value of a scan before lane n, with the flags so far: inactive lanes leave it (R221). -/
def Claim.running (f : Lane × Flags → Lane × Flags → Lane × Flags) (m : Mask) (v : VReg) (z : Lane) : Nat → Lane × Flags
  | 0 => (z, 0)
  | n + 1 =>
    let s := Claim.running f m v z n
    if m.getLsbD n then f s (laneOf v n, 0) else s

/-- Neighbours of a list combined in pairs. -/
def Claim.pairs (f : Lane × Flags → Lane × Flags → Lane × Flags) : List (Lane × Flags) → List (Lane × Flags)
  | x :: y :: l => f x y :: Claim.pairs f l
  | l => l

/-- R221: VRED combines its leaves in the rule's tree, an inactive lane the identity; of I32 with .add that is the sum of
the active lanes modulo 2^32. -/
def Claim.ReductionTree : Prop :=
  ∀ (v : VReg) (m : Mask) (lt : LT) (rm : RM) (op : RedOp) (un : Bool),
    let f := redPair op lt rm un
    let leaves := (List.range 48).map (fun i => (if m.getLsbD i then laneOf v i else identLane op lt un, (0 : Flags)))
    (∃ x y z, Claim.pairs f (Claim.pairs f (Claim.pairs f (Claim.pairs f leaves))) = [x, y, z] ∧
      vredLane v m lt rm op un = f (f x y) z) ∧
    vredLane v m .i32 rm .add false =
      ((((List.range 48).filter (fun i => m.getLsbD i)).map (fun i => laneOf v i)).foldl (· + ·) 0, 0)

/-- R220-R223: reductions and scans, and the moves between lanes, scalars and masks. -/
def Claim.VectorLaneMoves : Prop :=
  ∀ (s : State) (h : Hdr) (d a b : BitVec 5) (r : SOp) (v : SV) (c n : BitVec 3) (lane : BitVec 6) (lt : LT) (rm : RM)
    (op : RedOp) (un ex : Bool),
    (Ready s h (.vred h r a c lt rm op un) → Does s (.vred h r a c lt rm op un) (fun th =>
      (th.ws r ((vredLane (th.rv a) (th.rm c) lt rm op un).1.setWidth 64)).orFlags
        (vredLane (th.rv a) (th.rm c) lt rm op un).2)) ∧
    (Ready s h (.vscan h d a c lt rm op un ex) → Does s (.vscan h d a c lt rm op un ex) (fun th =>
      let r := Claim.running (redPair op lt rm un) (th.rm c) (th.rv a) (identLane op lt un)
      (th.wv d (Vector.ofFn (fun j : Fin 48 =>
        if (th.rm c).getLsbD j then (if ex then (r j).1 else (r (j + 1)).1) else (th.rv d)[j]))).orFlags (r 48).2)) ∧
    (Ready s h (.vperm h d a b c) → Claim.Lanes s (.vperm h d a b c) d c (fun j =>
      if hj : ((s.me.rv b)[j]).toNat < 48 then (s.me.rv a)[((s.me.rv b)[j]).toNat] else 0) (fun _ => 0)) ∧
    (Ready s h (.vbcast h d v c lane) → Claim.Lanes s (.vbcast h d v c lane) d c (fun _ =>
      match v with
      | .s x => BitVec.ofNat 32 (s.me.rs x).toNat
      | .v x => laneOf (s.me.rv x) lane.toNat) (fun _ => 0)) ∧
    (Ready s h (.vins h d r lane) → Does s (.vins h d r lane) (fun th => th.wv d (Vector.ofFn (fun j : Fin 48 =>
      if j.val = lane.toNat then BitVec.ofNat 32 (th.rs r).toNat else (th.rv d)[j])))) ∧
    (Ready s h (.vext h r a lane) → Does s (.vext h r a lane) (fun th =>
      th.ws r (BitVec.ofNat 64 (laneOf (th.rv a) lane.toNat).toNat))) ∧
    (∀ src, Ready s h (.vmask h n src) → ∃ x : Mask, Does s (.vmask h n src) (fun th => th.wm n x) ∧
      ∀ j : Fin 48, x.getLsbD j = match src with
        | .lt y => decide (j.val < (s.me.rs y).toNat)
        | .nz y => decide ((s.me.rv y)[j] ≠ 0)
        | .first y => (s.me.rm y).getLsbD j && decide (∀ q < j.val, (s.me.rm y).getLsbD q = false)) ∧
    (Ready s h (.vpopm h r n false) → Does s (.vpopm h r n false) (fun th =>
      th.ws r (BitVec.ofNat 64 ((List.range 48).countP (fun q => (th.rm n).getLsbD q))))) ∧
    (Ready s h (.vpopm h r n true) → ∃ x, x ≤ 48 ∧ (∀ q < x, (s.me.rm n).getLsbD q = false) ∧
      (x < 48 → (s.me.rm n).getLsbD x = true) ∧ Does s (.vpopm h r n true) (fun th => th.ws r (BitVec.ofNat 64 x)))

/-- Vector logic, shifts, compares, reductions, scans and lane moves: `Claim.ElementBits`, `Claim.VectorBits`,
`Claim.ReductionTree`, `Claim.VectorLaneMoves`. -/
def Obligations.VectorLogic : Prop :=
  Claim.ElementBits ∧ Claim.VectorBits ∧ Claim.ReductionTree ∧ Claim.VectorLaneMoves

/-! ## Groups 0x0F, 0x11 and 0x12: commands (R38, R224-R228, R243-R259) -/

/-- The guard slot that a command reads. -/
def Claim.slotOf (u : State) (t : Nat) (i : Instr) : GSlot :=
  (u.thr t).slots.toList.getD (slotField i).toNat .empty

/-- R37, R38, R257: instruction i of the current thread is queued: one command more, the last, in queue q of the thread, not
begun and with the property p, its fate decided where it has no slot or comes to the head with its slot PASS; one that
comes to the head with its slot DISCARD is discarded at once. The head before it is decided or waits for its slot, and the
other queues are as they were. -/
def Claim.Queues (s u : State) (i : Instr) (q : Nat) (p : Cmd → Prop) : Prop :=
  let o := QOwner.thread s.cur
  let x := u.queue o q
  let first := slotField i ≠ 0 ∧ x.cmds = [] ∧ x.stopped = none
  let others (w : State) : Prop := ∀ r < 4, r ≠ q → w.queue o r = u.queue o r
  (∀ c0 rest, x.cmds = c0 :: rest → x.stopped = none → c0.decided = true ∨ Claim.slotOf u s.cur c0.i = .empty) →
  (u.thr s.cur).slotsClosed = false →
  (¬ (first ∧ Claim.slotOf u s.cur i = .discard) → ∃ (w : State) (c : Cmd), GoesOn s i w ∧ w.mem = u.mem ∧
    (w.queue o q).cmds = x.cmds ++ [c] ∧ c.i = i ∧ c.begun = false ∧ c.iter = 0 ∧
    (c.decided = true ↔ slotField i = 0 ∨ first ∧ Claim.slotOf u s.cur i = .pass) ∧ p c ∧ others w) ∧
  (first → Claim.slotOf u s.cur i = .discard → ∃ w : State, GoesOn s i w ∧ (w.queue o q).cmds = [] ∧ others w)

/-- R38, R243-R255: TMMA and TSCA enter Q0, QJOIN the queue that it names, and a copy Q1 or Q2, while fewer than 32
commands are there, in a run that is not dual; a command of any of these that finds 32 is not issued, and the thread tries
again; GSET sets its slot at once, and a command that waits on it at the head of its queue decides. -/
def Claim.CommandIssued : Prop :=
  ∀ (s : State) (h : Hdr) (d3 a3 : BitVec 3) (a4 b4 slot set : BitVec 4) (b5 cv : BitVec 5) (za sat fs q2 : Bool)
    (ko kc : BitVec 8) (q : BitVec 2) (d a b : SOp) (k : CpyMod) (op : GsetOp),
    let room (n : Nat) : Prop := (s.queue (.thread s.cur) n).cmds.length < 32
    let n := if q2 then 2 else 1
    let o := QOwner.thread s.cur
    let x : GSlot := match op with
      | .pred p => if s.me.rp p then .pass else .discard
      | .pass => .pass
      | .disc => .discard
      | .empty => .empty
    let enters (i : Instr) (n : Nat) : Prop := Ready s h i → s.dual? s.cur = none → room n →
      Claim.Queues s s i n (fun c => c.part = (s.ctx s.cur).part ∧ c.body = [])
    let copy (i : Instr) : Prop := k.ck = .none → enters i n
    let full (i : Instr) (n : Nat) : Prop := Ready s h i → s.dual? s.cur = none → ¬ room n →
      exec i s = .next s.stallIt
    enters (.tmma h d3 a4 b4 slot za sat ko kc) 0 ∧ enters (.tsca h d3 a3 b5 cv slot za fs) 0 ∧
    enters (.qjoin h q slot set) q.toNat ∧
    copy (.cpy h d a b q2 slot k) ∧ copy (.cpy2d h d a b q2 slot k) ∧ copy (.cpyg h d a b q2 slot k) ∧
    copy (.cpys h d a b q2 slot k) ∧
    full (.tmma h d3 a4 b4 slot za sat ko kc) 0 ∧ full (.tsca h d3 a3 b5 cv slot za fs) 0 ∧
    full (.qjoin h q slot set) q.toNat ∧ full (.cpy h d a b q2 slot k) n ∧ full (.cpy2d h d a b q2 slot k) n ∧
    full (.cpyg h d a b q2 slot k) n ∧ full (.cpys h d a b q2 slot k) n ∧
    (Ready s h (.gset h slot op) →
      (∀ r < 4, ∀ c cs, s.queue o r = ⟨c :: cs, none⟩ → c.decided = true ∨
        (slotField c.i ≠ slot ∧ Claim.slotOf s s.cur c.i = .empty ∧ s.me.slotsClosed = false)) →
      Does s (.gset h slot op) (fun th => { th with slots := th.slots.set slot.toNat x })) ∧
    (Ready s h (.gset h slot op) → s.poison = [] → ∀ r < 4, ∀ c, s.queue o r = ⟨[c], none⟩ → c.decided = false →
      slotField c.i = slot →
      ∃ w : State, GoesOn s (.gset h slot op) w ∧ (w.thr s.cur).slots = s.me.slots.set slot.toNat x ∧
        (x = .pass → w.queue o r = ⟨[{ c with decided := true }], none⟩) ∧
        (x = .discard → w.queue o r = ⟨[], none⟩) ∧
        (x = .empty → s.me.slotsClosed = false → w.queue o r = ⟨[c], none⟩))

/-- R253: a copy with a completion target whose offset is aligned and inside its space is queued with the target's address;
a barrier object's IN or OUT counter is raised first, which ends the thread's region (R136, R178); an offset that is not
aligned, or outside, traps. What c4 and c5 show for such a target is the model's reading (log 24). -/
def Claim.CopyTarget : Prop :=
  ∀ (s u : State) (h : Hdr) (d a b : SOp) (slot : BitVec 4) (k : CpyMod) (q2 : Bool) (sp_ : CSpace) (o : Word) (n : Nat),
    let i := Instr.cpy h d a b q2 slot k
    let q := if q2 then 2 else 1
    let size := (s.spaceBase (coreOf s.cur) sp_).1
    let pa := (s.spaceBase (coreOf s.cur) sp_).2 + o.toNat
    Ready s h i → s.dual? s.cur = none → (s.queue (.thread s.cur) q).cmds.length < 32 →
    copyTarget k s.me.cframe = some (sp_, o, n) →
    (o.toNat % n = 0 → o.toNat + n ≤ size → (k.ck = .cwsp ∨ k.ck = .cwcm) →
      Claim.Queues s s i q (fun c => c.tgt = BitVec.ofNat 64 pa)) ∧
    (o.toNat % n = 0 → o.toNat + n ≤ size → (k.ck = .barsp ∨ k.ck = .barcm) →
      s.objAddr s.cur [⟨0xFF, o, [⟨o.toNat, .mem pa 0, 16⟩]⟩] = .ok u pa →
      let w := u.barStep pa none ((u.bar pa).raise k.dir)
      Claim.Queues s (w.newRegion (w.tid s.cur)) i q (fun c =>
        c.tgt = BitVec.ofNat 64 pa ∧ c.gen = (u.bar pa).gen)) ∧
    (o.toNat % n ≠ 0 → exec i s = .next (s.trapFrom s s.cur 0x06 0 o (accInfo 0xFF true (kindBits i)) false)) ∧
    (o.toNat % n = 0 → size < o.toNat + n →
      exec i s = .next (s.trapFrom s s.cur 0x08 0 o (accInfo 0xFF true (kindBits i)) false))

/-- R225, R226: REPB fetches its body, and with every word of it allowed, room in Q3 and in the repetition buffer of 64
words, no register claimed and none that a load left in the issue queue will write, it is queued in Q3 with the body and a
snapshot of the scalar registers, and the thread goes on behind the body; where room is missing or a register is claimed
the thread tries again. The first word that does not decode traps ILLEGAL with the number of its check, and where all
decode the first that a body may not hold traps with sub-cause 9; c5 then has the word's number in bits 35 to 32. -/
def Claim.RepeatQueued : Prop :=
  ∀ (s u : State) (ws : List IWord) (body : List Instr) (h : Hdr) (a b : SOp) (slot n : BitVec 4) (cs : BitVec 3)
    (st_ : BitVec 5) (rs : BitVec 6) (rb : BitVec 5) (count : BitVec 16),
    let i := Instr.repb h a b slot n cs st_ rs rb count
    let traps (sub k : Nat) (w : IWord) : Prop := exec i s = .next (s.trapFrom u s.cur 0x01 sub
      (w.extractLsb' 0 64) ((w.extractLsb' 64 32).setWidth 64 ||| BitVec.ofNat 64 (k * 2 ^ 32)) false)
    let free : Prop := (u.queue (.thread s.cur) 3).cmds.length < 32 ∧ u.repWordsUsed s.cur + body.length ≤ 64 ∧
      (∀ x ∈ body, (u.thr s.cur).claimed x = false) ∧ u.bodyPending s.cur rs rb body = false
    Ready s h i → s.bodyFetch s.cur (s.me.pc + 12) (n.toNat + 1) = .ok u ws → u.cur = s.cur → u.dual? s.cur = none →
    (ws.map decode = body.map .ok → (u.thr s.cur).recording = none → (∀ x ∈ body, bodyOk x (hdrOf x) = true) →
      (free → reach i = BitVec.ofNat 64 (12 * (n.toNat + 2)) ∧ Claim.Queues s u i 3 (fun c =>
        c.body = body ∧ c.snap = (List.range 32).map (fun r => (r, (u.thr s.cur).sreg (BitVec.ofNat 5 r))))) ∧
      (¬ free → exec i s = .next u.stallIt)) ∧
    (∀ k w e, ws[k]? = some w → decode w = .error e → (∀ j < k, ∀ x, ws[j]? = some x → ∃ y, decode x = .ok y) →
      traps e.check k w) ∧
    (∀ k w x, ws.map decode = body.map .ok → ws[k]? = some w → body[k]? = some x → bodyOk x (hdrOf x) = false →
      (∀ j < k, ∀ y, body[j]? = some y → bodyOk y (hdrOf y) = true) → traps 9 k w)

/-- Engine commands enter their queues, and find them full: `Claim.CommandIssued`, `Claim.CopyTarget`, `Claim.RepeatQueued`.
What the record of a copy whose target traps shows is log 24. -/
def Obligations.CommandQueued : Prop := Claim.CommandIssued ∧ Claim.CopyTarget ∧ Claim.RepeatQueued

/-! ## Group 0x10: tiles and accumulators (R231-R241) -/

/-- The rows and columns that a tile's descriptor gives, and its format (R24, R231). -/
def Claim.Shape (s : State) (n : BitVec 4) (f : Fmt) (rows cols : Nat) : Prop :=
  s.tileShape s.cur n = .ok s (f, rows, cols)

/-- Element j of width w of a row of a tile. -/
def Claim.element (row w j : Nat) : Nat := row / 2 ^ (w * j) % 2 ^ w

/-- What an instruction's results raise is added to the sticky flags (R28, R62): those of the elements (i, j) of a shape. -/
def Claim.raised (x y : Word) (rows cols : Nat) (fl : Nat → Nat → Flags) : Prop :=
  ∀ b < 6, y.getLsbD (3 + b) = true ↔
    x.getLsbD (3 + b) = true ∨ ∃ i < rows, ∃ j < cols, (fl i j).getLsbD b = true

/-- R57, R58, R240: Conv of ACVT. An INT32 element is copied to INT32, keeps its low bits in an 8-bit integer format or is
clamped with SAT, and is rounded into a float format; an FP32 number is rounded into a float format, and into an integer
format, clamped with NV outside its range. -/
def Claim.ConvElements : Prop :=
  ∀ (ss : Bool) (rm : RM) (x : BitVec 32) (f : Fmt) (eb mb : Nat) (lo hi : Int),
    let v := Claim.real 8 23 x.toNat
    convElemTo true ss rm .int32 x.toNat = (x.toNat, 0) ∧
    ((f, lo, hi) ∈ [(Fmt.int8, -128, 127), (Fmt.uint8, 0, 255)] →
      convElemTo true false rm f x.toNat = (x.toNat % 2 ^ 8, 0) ∧
      convElemTo true true rm f x.toNat = ((BitVec.ofInt 8 (max lo (min hi x.toInt))).toNat,
        if x.toInt < lo ∨ hi < x.toInt then 0x20 else 0)) ∧
    ((f, lo, hi) ∈ [(Fmt.int8, -128, 127), (Fmt.uint8, 0, 255), (Fmt.int32, -2 ^ 31, 2 ^ 31 - 1)] →
      Claim.isFin 8 23 x.toNat = true → ∃ i : ℤ, Claim.toInteger rm v i ∧ convElemTo false ss rm f x.toNat =
        ((BitVec.ofInt f.width (max lo (min hi i))).toNat,
          if i < lo ∨ hi < i then 0x10 else if (i : ℚ) = v then 0 else 0x01)) ∧
    ((f, eb, mb) ∈ [(Fmt.fp32, 8, 23), (Fmt.bf16, 8, 7), (Fmt.fp16, 5, 10)] →
      Claim.Rounded eb mb rm x.toInt (convElemTo true ss rm f x.toNat) ∧
      (Claim.isFin 8 23 x.toNat = true → Claim.Rounded eb mb rm v (convElemTo false ss rm f x.toNat)))

/-- R231-R241, the thread's own stores to the array window done: TCFG writes the descriptor, or traps on one that is
reserved, with what log 25 says in c4 and c5; TZERO makes every row of a tile, or every element of an accumulator, zero,
and tags it; TTRN moves element (i, j) to (j, i) and swaps the sides of the shape; ACVT converts each element of an
accumulator and flips its tag, or each element of a tile's shape, the shape kept, and raises their flags; ATOV and VTOA
move a row or a column. When a matrix command computes its result is the model's reading (log 24); which register c5 names
for a row that is too large is its choice (log 53). -/
def Claim.TileIssue : Prop :=
  ∀ (s : State) (h : Hdr) (d a : BitVec 4) (n m : BitVec 3) (v : BitVec 5) (x : SOp) (src : TcfgSrc) (int ss col : Bool)
    (rm : RM) (c : BitVec 3) (row : BitVec 6) (f : Fmt) (rows cols : Nat),
    let k := coreOf s.cur
    let desc : BitVec 32 := match src with
      | .r y => BitVec.ofNat 32 (s.me.rs y).toNat
      | .i imm => imm
    s.MemWf → (s.agent (s.tid s.cur)).sb = [] →
    (Ready s h (.tcfg h d src) → descOk desc = true → ∃ t, GoesOn s (.tcfg h d src) t ∧ t.mem = s.mem ∧
      t.threads = s.threads ∧ ∀ e : BitVec 4, t.desc k e.toNat = if e = d then desc else s.desc k e.toNat) ∧
    (Ready s h (.tcfg h d src) → descOk desc = false → exec (.tcfg h d src) s =
      .next (s.trapFrom s s.cur 0x0F 2 (desc.setWidth 64) ((0x80 + d.setWidth 8 : BitVec 8).setWidth 64) false)) ∧
    (Ready s h (.tzero h (.t d) int) → ∃ t, GoesOn s (.tzero h (.t d) int) t ∧
      (∀ r < 48, t.tileRow k d.toNat r = 0) ∧ ∀ e : BitVec 4, t.desc k e.toNat = s.desc k e.toNat) ∧
    (Ready s h (.tzero h (.a n) int) → ∃ t, GoesOn s (.tzero h (.a n) int) t ∧ t.tagInt k n = int ∧
      ∀ i < 48, ∀ j < 48, t.acc k n.toNat i j = 0) ∧
    (Ready s h (.ttrn h d a) → Claim.Shape s a f rows cols → rows ≤ 48 → cols ≤ 48 → (s.core k).poisonT = [] →
      ∃ t, GoesOn s (.ttrn h d a) t ∧
        t.desc k d.toNat = BitVec.ofNat 32 ((rows - 1) * 1024 + (cols - 1) * 16 + f.code.toNat) ∧
        ∀ i < rows, ∀ j < cols, Claim.element (t.tileRow k d.toNat j) f.width i =
          Claim.element (s.tileRow k a.toNat i) f.width j) ∧
    (Ready s h (.acvt h (.t d) n ss rm) → Claim.Shape s d f rows cols → rows ≤ 48 → cols ≤ 48 → f ≠ .d2s8 →
      (s.core k).poisonA = [] → ∃ t, GoesOn s (.acvt h (.t d) n ss rm) t ∧ t.desc k d.toNat = s.desc k d.toNat ∧
        (∀ e, t.tagInt k e = s.tagInt k e) ∧
        (∀ i < rows, ∀ j < cols, Claim.element (t.tileRow k d.toNat i) f.width j =
          (convElemTo (s.tagInt k n) ss rm f (s.acc k n.toNat i j)).1) ∧
        Claim.raised s.me.status (t.thr s.cur).status rows cols (fun i j =>
          (convElemTo (s.tagInt k n) ss rm f (s.acc k n.toNat i j)).2)) ∧
    (Ready s h (.acvt h (.a m) n ss rm) → (s.core k).poisonA = [] → ∃ t, GoesOn s (.acvt h (.a m) n ss rm) t ∧
      let g : Fmt := if s.tagInt k n then .fp32 else .int32
      t.tagInt k m = !s.tagInt k n ∧
      (∀ i < 48, ∀ j < 48, t.acc k m.toNat i j = (convElemTo (s.tagInt k n) ss rm g (s.acc k n.toNat i j)).1) ∧
      Claim.raised s.me.status (t.thr s.cur).status 48 48 (fun i j =>
        (convElemTo (s.tagInt k n) ss rm g (s.acc k n.toNat i j)).2)) ∧
    (Ready s h (.atov h v n x c col row) → row.toNat + (s.me.rs x).toNat < 48 → (s.core k).poisonA = [] →
      let r := row.toNat + (s.me.rs x).toNat
      Claim.Lanes s (.atov h v n x c col row) v c (fun j => BitVec.ofNat 32
        (if col then s.acc k n.toNat j.val r else s.acc k n.toNat r j.val)) (fun _ => 0)) ∧
    (Ready s h (.vtoa h n v x c col row) → row.toNat + (s.me.rs x).toNat < 48 →
      let r := row.toNat + (s.me.rs x).toNat
      ∃ t, GoesOn s (.vtoa h n v x c col row) t ∧ t.threads = s.threads ∧ ∀ j < 48,
        (if col then t.acc k n.toNat j r else t.acc k n.toNat r j) =
          if (s.me.rm c).getLsbD j then (laneOf (s.me.rv v) j).toNat
          else if col then s.acc k n.toNat j r else s.acc k n.toNat r j) ∧
    (Ready s h (.vtoa h n v x c col row) → 48 ≤ row.toNat + (s.me.rs x).toNat → exec (.vtoa h n v x c col row) s =
      .next (s.trapFrom s s.cur 0x0F 6 (BitVec.ofNat 64 (row.toNat + (s.me.rs x).toNat))
        ((0xA0 + n.setWidth 8 : BitVec 8).setWidth 64) false))

/-- R237: TLD fills a tile with the rows that it loads, TST and AST store the rows of a tile and of an accumulator,
word by word, where the shape is configured, the addresses aligned and every check passes. -/
def Claim.TileMemory : Prop :=
  ∀ (s u v w : State) (ps : List Piece) (bs : List (List Byte)) (h : Hdr) (d : BitVec 4) (n : BitVec 3) (c : SOp)
    (m : MemOp) (f : Fmt) (rows cols : Nat),
    let ea := s.me.rs m.base + m.off.signExtend 64
    let rb := 4 * ((cols * f.width + 31) / 32)
    let k := coreOf s.cur
    let aligned := ea.toNat % 4 = 0 ∧ (s.me.rs c).toNat % 4 = 0
    let stored (data : List (List Byte)) (rb : Nat) : Prop :=
      let words := ps.zip (data.flatMap (fun l => (List.range (rb / 4)).map (fun q => (l.drop (4 * q)).take 4)))
      let us := words.flatMap (fun p => unitsOf p.1 p.2 0xFFFFFFFF)
      u.storeReady s.cur none us = (w, true) ∧
      (w.watchStore s.cur (words.map Prod.fst)).storeAll s.cur m.space none us = .ok v ()
    (Ready s h (.tld h d c m false) → Claim.Shape s d f rows cols → aligned →
      s.checks s.cur .read false false m.space (kindOf m.space 0) 4 4 (rowWords ea (s.me.rs c) rows rb) = .ok u ps →
      u.readPieces s.cur true m.hint ps = .ok v bs → GoesOn s (.tld h d c m false)
        ((v.arrDrain s.cur).setTile k d.toNat (cutRows rb (cols * f.width) bs.flatten rows))) ∧
    ((s.agent (s.tid s.cur)).sb = [] → Ready s h (.tst h d c m false) → Claim.Shape s d f rows cols →
      (s.core k).poisonT = [] → aligned →
      s.checks s.cur .write true false m.space (kindOf m.space 0) 4 4 (rowWords ea (s.me.rs c) rows rb) = .ok u ps →
      stored ((List.range rows).map (fun r => bytesOfNat 192 (s.tileRow k d.toNat r))) rb →
      GoesOn s (.tst h d c m false) v) ∧
    ((s.agent (s.tid s.cur)).sb = [] → Ready s h (.ast h n c m false) → (s.core k).poisonA = [] → aligned →
      s.checks s.cur .write true false m.space (kindOf m.space 0) 4 4 (rowWords ea (s.me.rs c) 48 192) = .ok u ps →
      stored ((s.accAll k n.toNat).map (fun row => row.flatMap (fun x => bytesOfNat 4 x))) 192 →
      GoesOn s (.ast h n c m false) v)

/-- Tile and accumulator instructions: `Claim.TileIssue`, `Claim.ConvElements`, `Claim.TileMemory`. What c4 and c5 show of a
refused descriptor is log 25. -/
def Obligations.TileResult : Prop := Claim.TileIssue ∧ Claim.ConvElements ∧ Claim.TileMemory

/-! ## Group 0x13: messages and units of work (R262-R272) -/

/-- The current thread has nothing under way: no access, no command, no message, no refusal to report. -/
structure Claim.Quiet (s : State) : Prop where
  iq   : (s.agent (s.tid s.cur)).iq = []
  sb   : (s.agent (s.tid s.cur)).sb = []
  hold : ∀ e ∈ s.hold, e.ag ≠ s.tid s.cur ∧ ∀ x ∈ e.past, x.1 ≠ s.tid s.cur
  peer : ∀ o ∈ s.outst, o.store = true → o.ag ≠ s.tid s.cur
  ref  : (s.agent (s.tid s.cur)).ref.count = 0
  cmds : ∀ q : Fin 4, (s.me.q[q]).cmds = [] ∧ (s.me.q[q]).stopped = none
  outq : s.me.outq = []

/-- The message of a SEND with a descriptor word (R262, R267): class in bits 15 to 0, selector in 23 to 16, length
in 31 to 24; the sender, its job and its partition are the thread's. -/
structure Claim.SentAs (s : State) (m : Msg) (c : BitVec 16) (sl : BitVec 8) (k : Word) (n : BitVec 8)
    (bytes : List Byte) : Prop where
  cls     : m.cls = c
  sel     : m.sel = sl
  key     : m.key = k
  len     : m.len = n
  payload : m.payload = bytes.take n.toNat
  sender  : m.sender = s.tid s.cur
  job     : m.job = s.me.job
  part    : m.part = s.partOf s.cur

/-- R262, R267, R308: SEND, SENDM and REPLY build their message and put it into the thread's outbound queue of 16,
D false, or, where the queue is full, only set D. Log 21 says which regions end. -/
def Claim.SendIssue : Prop :=
  ∀ (s u v w : State) (pkg : BitVec 9) (ps : List Piece) (bs : List (List Byte)) (h : Hdr) (d : BitVec 3) (a c b' : SOp)
    (b : BitVec 5) (space : Space) (x : UnitInfo),
    let desc := s.me.rs c
    let cls := desc.extractLsb' 0 16
    let len := desc.extractLsb' 24 8
    let sent (i : Instr) (u : State) (m : Msg) : Prop :=
      (u.thr s.cur).outq.length < 16 → ∃ w, GoesOn s i w ∧ u.accept s.cur d m pkg = .done w ∧
        ((w.thr s.cur).rp d = decide (d = 0)) ∧ (w.thr s.cur).outq.length = (u.thr s.cur).outq.length + 1
    let full (i : Instr) (u : State) : Prop := 16 ≤ (u.thr s.cur).outq.length →
      GoesOn s i (u.updThr s.cur (fun th => th.wp d true))
    len.toNat ≤ 192 →
    (Ready s h (.send h d a b c) → (desc.getLsbD 40 = true → s.me.handler.isSome = true) →
      s.homeOf s.cur (.send h d a b c) cls (s.me.rs a) = .ok u pkg → u.cur = s.cur →
      u.thr s.cur = s.me → u.partOf s.cur = s.partOf s.cur → u.pkg = s.pkg →
      full (.send h d a b c) u ∧ ∃ m, sent (.send h d a b c) u m ∧
        Claim.SentAs s m cls (desc.extractLsb' 16 8) (s.me.rs a) len (vecBytes (s.me.rv b))) ∧
    (Ready s h (.sendm h d a b' c space) → (desc.getLsbD 40 = true → s.me.handler.isSome = true) → len.toNat ≠ 0 →
      Claim.Passes s .read false false space (kindBits (.sendm h d a b' c space)) len.toNat 4 (s.me.rs b') u ps →
      u.readPieces s.cur true 0 ps = .ok v bs →
      v.homeOf s.cur (.sendm h d a b' c space) cls (s.me.rs a) = .ok w pkg → w.cur = s.cur →
      w.thr s.cur = s.me → w.partOf s.cur = s.partOf s.cur → w.pkg = s.pkg →
      full (.sendm h d a b' c space) w ∧ ∃ m, sent (.sendm h d a b' c space) w m ∧
        Claim.SentAs s m cls (desc.extractLsb' 16 8) (s.me.rs a) len (bs.getD 0 [])) ∧
    (Ready s h (.reply h d b c) → s.me.handler = some x → x.msg.rv = true →
      s.homeOf s.cur (.reply h d b c) x.msg.rcls x.msg.rkey = .ok u pkg → u.cur = s.cur →
      u.thr s.cur = s.me → u.partOf s.cur = s.partOf s.cur → u.pkg = s.pkg →
      full (.reply h d b c) u ∧ ∃ m, sent (.reply h d b c) u m ∧
        Claim.SentAs s m x.msg.rcls x.msg.rsel x.msg.rkey len (vecBytes (s.me.rv b)))

/-- R262, R305: what a SEND may not do traps ACTOR: a length above 192 sub-cause 3, a reply-to outside a handler
run sub-cause 1, a REPLY to a message without one sub-cause 2; ARETIRE and ASELF outside a handler run sub-cause 1. -/
def Claim.ActorTraps : Prop :=
  ∀ (s : State) (h : Hdr) (d : BitVec 3) (a c r : SOp) (b : BitVec 5) (what : SelfWhat),
    let trap (i : Instr) (sub : Nat) : Prop := exec i s = .next (s.trapFrom s s.cur 0x10 sub 0 0 false)
    let len := ((s.me.rs c).extractLsb' 24 8).toNat
    (Ready s h (.send h d a b c) → 192 < len → trap (.send h d a b c) 3) ∧
    (Ready s h (.send h d a b c) → len ≤ 192 → (s.me.rs c).getLsbD 40 = true → s.me.handler = none →
      trap (.send h d a b c) 1) ∧
    (Ready s h (.reply h d b c) → len ≤ 192 → (∀ x, s.me.handler = some x → x.msg.rv = false) → trap (.reply h d b c) 2) ∧
    (Ready s h (.aretire h) → s.me.handler = none → trap (.aretire h) 1) ∧
    (Ready s h (.aself h r what) → s.me.handler = none → trap (.aself h r what) 1)

/-- Sends, and the actor instructions that trap: `Claim.SendIssue`, `Claim.ActorTraps`. -/
def Obligations.SendResult : Prop := Claim.SendIssue ∧ Claim.ActorTraps

/-- R269: ADONE of a thread with nothing under way ends the unit: the thread is free, its guard slots empty, and the
end of a handler run is told to the actor's home slice, with what the run asked for, where its watchdog has not expired (R373). How far ADONE drains is log 49. -/
def Claim.UnitEnds : Prop :=
  ∀ (s : State) (h : Hdr) (x : UnitInfo), Ready s h (.adone h) → Claim.Quiet s → s.me.unit = some x →
    x.dual = none → x.step3 = false → s.overdue s.cur = false → s.restartable x = false → s.poison = [] →
    ∃ t, exec (.adone h) s = .next t ∧ (t.thr s.cur).unit = none ∧ (t.thr s.cur).waiting = none ∧
      (t.thr s.cur).slots = Vector.replicate 16 .empty ∧
      (x.kind = .handler → (⟨.runEnded x.retire x.export_, x.ekey⟩ : Notice) ∈ t.notices)

/-- R270-R272: ARETIRE marks the run; ASELF reads the run's key, class, frame, or its class's lines or home; AEXPORT to the
thread's own package, or a second one, only sets D, and one to a package with no path has D true; AIMPORT records an import, or removes
its record, and says in D whether it could not. Log 27 says what moves leave open. -/
def Claim.ActorIssue : Prop :=
  ∀ (s u : State) (pkg : BitVec 9) (h : Hdr) (d : BitVec 3) (r a b : SOp) (x : UnitInfo),
    let k : AKey := ⟨s.partOf s.cur, (s.me.rs b).extractLsb' 0 16, s.me.rs a⟩
    (Ready s h (.aretire h) → s.me.handler = some x → Does s (.aretire h) (fun th =>
      { th with unit := th.unit.map (fun y => { y with retire := true }) })) ∧
    (s.me.handler = some x →
      (Ready s h (.aself h r .key) → Does s (.aself h r .key) (fun th => th.ws r th.key)) ∧
      (Ready s h (.aself h r .cls) → Does s (.aself h r .cls) (fun th => th.ws r th.clsel)) ∧
      (Ready s h (.aself h r .frame) → Does s (.aself h r .frame) (fun th => th.ws r th.cframe)) ∧
      (Ready s h (.aself h r .lines) → Does s (.aself h r .lines) (fun th =>
        th.ws r (((s.cls? x.ekey.part x.ekey.cls).map (fun c => BitVec.ofNat 64 (cdLines c))).getD 0))) ∧
      (Ready s h (.aself h r .home) → s.homeOf s.cur (.aself h r .home) x.ekey.cls x.ekey.key = .ok u pkg →
        GoesOn s (.aself h r .home) (u.updThr s.cur (fun th => th.ws r (pkg.setWidth 64)))) ∧
      (Ready s h (.aexport h d a) → ((s.me.rs a).extractLsb' 0 9 = s.pkg ∨ x.export_.isSome = true) →
        Does s (.aexport h d a) (fun th => th.wp d true)) ∧
      (Ready s h (.aexport h d a) → (s.me.rs a).extractLsb' 0 9 ≠ s.pkg → x.export_ = none →
        (s.routeTo ((s.me.rs a).extractLsb' 0 9).toNat = none →
          s.routeHeld ((s.me.rs a).extractLsb' 0 9).toNat 3 = false → Does s (.aexport h d a) (fun th => th.wp d true)) ∧
        ((s.routeTo ((s.me.rs a).extractLsb' 0 9).toNat ≠ none ∨
          s.routeHeld ((s.me.rs a).extractLsb' 0 9).toNat 3 = true) → ∃ t, exec (.aexport h d a) s = .next t ∧
          (t.thr s.cur).waiting = some (.aexport d ((s.me.rs a).extractLsb' 0 9))))) ∧
    (Ready s h (.aimport h d a b false) → GoesOn s (.aimport h d a b false)
      ((s.importRec k).1.updThr s.cur (fun th => th.wp d (!(s.importRec k).2)))) ∧
    (Ready s h (.aimport h d a b true) → GoesOn s (.aimport h d a b true)
      ((s.importCan k).1.updThr s.cur (fun th => th.wp d (!(s.importCan k).2)))) ∧
    (s.entry? k ≠ none → (s.importRec k).2 = false ∧ (s.importRec k).1 = s.touch k) ∧
    (∀ e, s.entry? k = some e → ¬ (e.st = .absent ∧ e.imp = true) → (s.importCan k).2 = false ∧ (s.importCan k).1 = s.touch k)

/-- The ends of units, and the actor instructions: `Claim.UnitEnds`, `Claim.ActorIssue`. -/
def Obligations.ActorResult : Prop := Claim.UnitEnds ∧ Claim.ActorIssue

/-! ## Group 0x14: tapes (R285-R297) -/

/-- R287: the value of a source of the current run: a word of the payload, a word of the frame, the key, or the base
of the frame. -/
def Claim.source (s : State) (x : UnitInfo) (src : PSrc) : Word :=
  match src.kind with
  | .pay => payWord x.msg src.ix.toNat
  | .frm => BitVec.ofNat 64 (natOfBytes (s.loadBytes (s.tid s.cur) none (s.framePa (coreOf s.cur) x.fline + 8 * src.ix.toNat) 8))
  | .key => s.me.key
  | .fbase => BitVec.ofNat 64 (192 * x.fline)

/-- A recording has ended with an outcome: c25 has it in bits 4 to 2, and MODE is 0 (R31, R286, R294). -/
def Claim.RecEnded (th : Thread) (outc : BitVec 3) : Prop :=
  th.recording = none ∧ th.tapest.extractLsb' 2 3 = outc ∧ th.tapest.extractLsb' 0 2 = 0

/-- R290-R296, outside a recording but for TREC, which begins one: TPATCH and TGUARD read their source, TSEAL has
nothing to seal, TREC takes the right to record, or without it does nothing but set outcome 6, TINV discards the tapes of a class, and
outside a handler run TREC, TPATCH, TGUARD and TPLAY trap TAPE with sub-cause 2. Log 26 says what recording and replay leave open. -/
def Claim.TapeIssue : Prop :=
  ∀ (s : State) (h : Hdr) (d : BitVec 3) (r a b : SOp) (src : PSrc) (imm : BitVec 32) (var : BitVec 4) (all : Bool)
    (x : UnitInfo),
    let readable := ¬ (src.kind = .frm ∧ 192 * x.flen < 8 * src.ix.toNat + 8) ∧
      (src.kind = .frm → s.poisoned (s.framePa (coreOf s.cur) x.fline + 8 * src.ix.toNat) 8 = false)
    (Ready s h (.tpatch h r a src imm) → s.me.handler = some x → readable →
      Does s (.tpatch h r a src imm) (fun th => th.ws r (Claim.source s x src + imm.signExtend 64))) ∧
    (Ready s h (.tguard h r b src) → s.me.handler = some x → readable →
      Does s (.tguard h r b src) (fun th => th.ws r (Claim.source s x src &&& th.rs b))) ∧
    (Ready s h (.tseal h d) → Does s (.tseal h d) (fun th => th.wp d true)) ∧
    (Ready s h (.trec h var) → s.me.handler = some x → s.mayRecord x var = false → ∃ k : Thread,
      GoesOn s (.trec h var) (s.setThr s.cur k) ∧ Claim.RecEnded k 6 ∧ k = { s.me with tapest := k.tapest }) ∧
    (Ready s h (.trec h var) → s.me.handler = some x → s.mayRecord x var = true →
      s.recUsed (coreOf s.cur) + recLines 0 ≤ s.recArea (coreOf s.cur) → ∃ t, GoesOn s (.trec h var) t ∧
        t.mem = s.mem ∧ (t.thr s.cur).tapest = 0 ∧ (t.thr s.cur).recording = some (Recording.start var)) ∧
    (Ready s h (.tinv h a b all) → ∃ t, GoesOn s (.tinv h a b all) t ∧ t.mem = s.mem ∧ t.threads = s.threads ∧
      ∀ y ∈ (t.part (s.partOf s.cur)).tapes, y ∈ (s.part (s.partOf s.cur)).tapes ∧
        ¬ (y.cls = (s.me.rs a).extractLsb' 0 16 ∧ (all = true ∨ y.sel = (s.me.rs b).extractLsb' 0 8))) ∧
    (s.me.handler = none →
      let trap (i : Instr) : Prop := exec i s = .next (s.trapFrom s s.cur 0x11 2 0 0 false)
      (Ready s h (.trec h var) → trap (.trec h var)) ∧ (Ready s h (.tpatch h r a src imm) → trap (.tpatch h r a src imm)) ∧
      (Ready s h (.tguard h r b src) → trap (.tguard h r b src)) ∧ (Ready s h (.tplay h d var) → trap (.tplay h d var)))

/-- R286-R294, while a tape is recorded: TREC traps TAPE with sub-cause 1; the first TPATCH of a source fixes its pair, and
the SPAN of a slot that the pair has, and tags D, one that reads another value ends the recording with outcome 2; TGUARD records its guard, and a ninth ends the
recording with outcome 7; TSEAL seals the image in the partition's tape store with outcome 1 and gives the right back, or,
where the store has no room, ends the recording with outcome 7. The size of the store is the model's choice (log 26). -/
def Claim.TapeRecorded : Prop :=
  ∀ (s : State) (h : Hdr) (d : BitVec 3) (n : BitVec 5) (a b : SOp) (src : PSrc) (imm : BitVec 32) (var : BitVec 4)
    (x : UnitInfo) (r : Recording),
    let free (i : Instr) : Prop := s.mayIssue s.cur i = true ∧ s.me.guard h = true
    let readable := ¬ (src.kind = .frm ∧ 192 * x.flen < 8 * src.ix.toNat + 8) ∧
      (src.kind = .frm → s.poisoned (s.framePa (coreOf s.cur) x.fline + 8 * src.ix.toNat) 8 = false)
    let v := Claim.source s x src
    let k := (s.part x.part).dropTape x.msg.cls x.msg.sel r.var
    let used := (k.tapeStore.map (fun y => y.bytes.length)).sum + 768 + 48 * r.recs.length
    let patch := Instr.tpatch h (.r n) a src imm
    let guard_ := Instr.tguard h (.r n) b src
    h.gp = 0 → s.me.handler = some x → s.me.recording = some r →
    (free (.trec h var) → exec (.trec h var) s = .next (s.trapFrom s s.cur 0x11 1 0 0 false)) ∧
    (free patch → readable → ∃ t, exec patch s = .next t ∧ t.mem = s.mem ∧
      (t.thr s.cur).rs (.r n) = v + imm.signExtend 64 ∧
      ((∀ y ∈ r.pairs, y.src ≠ src) → ∃ r' : Recording, (t.thr s.cur).recording = some r' ∧
        r'.recs = r.recs ∧ r'.grds = r.grds ∧
        r'.slots = r.slots.map (fun (y : PSlot) => if y.src = src then { y with span := s.me.rs a } else y) ∧
        r'.pairs = r.pairs ++ [⟨src, v, s.me.rs a⟩] ∧ r'.tag n.toNat = .tag src.kind src.ix) ∧
      (∀ y, r.pairs.find? (fun y => y.src == src) = some y → y.recval ≠ v → Claim.RecEnded (t.thr s.cur) 2)) ∧
    (free guard_ → readable → ∃ t, exec guard_ s = .next t ∧ t.mem = s.mem ∧
      (t.thr s.cur).rs (.r n) = v &&& s.me.rs b ∧
      (r.grds.length < 8 → ∃ r' : Recording, (t.thr s.cur).recording = some r' ∧ r'.recs = r.recs ∧
        r'.grds = r.grds ++ [⟨src, s.me.rs b, v &&& s.me.rs b⟩] ∧ r'.tag n.toNat = .none) ∧
      (8 ≤ r.grds.length → Claim.RecEnded (t.thr s.cur) 7)) ∧
    (free (.tseal h d) → r.slots.length ≤ 16 → r.grds.length ≤ 8 → used ≤ k.tapeRoom → ∃ t, ∃ y : Tape,
      exec (.tseal h d) s = .next t ∧ t.mem = s.mem ∧ Claim.RecEnded (t.thr s.cur) 1 ∧
      ((t.thr s.cur).rp d = decide (d = 0)) ∧ (t.part x.part).tape? x.msg.cls x.msg.sel r.var = some y ∧
      y.recs = r.recs ∧ y.slots = r.slots ∧ y.grds = r.grds ∧ y.epoch = (s.part x.part).epoch ∧
      (∃ z ∈ (t.part x.part).tapeStore, z.bytes = y.image) ∧
      ((t.part x.part).tapeCtl? x.msg.cls x.msg.sel r.var).right = none) ∧
    (free (.tseal h d) → r.slots.length ≤ 16 → r.grds.length ≤ 8 → k.tapeRoom < used → ∃ t,
      exec (.tseal h d) s = .next t ∧ t.mem = s.mem ∧ Claim.RecEnded (t.thr s.cur) 7 ∧ ((t.thr s.cur).rp d = true))

/-- R295, R300, R301: TPLAY of a run with nothing under way, the sequencer free: a tape that passes its checks takes the
run's place at the sequencer and frees the thread; without a tape, or with one that is stale and discarded, or that a guard
refuses, the run goes on, D true, with outcome 6, 5 or 4; a run that follows a failed replay replays nothing. Log 26
says what recording and replay leave open. -/
def Claim.TapePlayed : Prop :=
  ∀ (s : State) (h : Hdr) (d : BitVec 3) (var : BitVec 4) (x : UnitInfo) (y : Tape) (c : BitVec 768),
    Ready s h (.tplay h d var) → Claim.Quiet s → s.me.handler = some x → x.dual = none →
    (s.core (coreOf s.cur)).replay = none → s.cls? x.part x.msg.cls = some c →
    let falls (outc : BitVec 3) (t : State) : Prop := GoesOn s (.tplay h d var) t ∧ t.mem = s.mem ∧
      ((t.thr s.cur).rp d = true) ∧ (t.thr s.cur).unit = s.me.unit ∧ Claim.RecEnded (t.thr s.cur) outc
    let current := y.epoch = (s.part x.part).epoch ∧ y.cver = cdVer c
    (x.plain = true → ∃ t, falls 6 t) ∧
    ((s.part x.part).tape? x.msg.cls x.msg.sel var = none → ∃ t, falls 6 t) ∧
    (x.plain = false → (s.part x.part).tape? x.msg.cls x.msg.sel var = some y → ¬ current → ∃ t, falls 5 t ∧
      (t.part x.part).tape? x.msg.cls x.msg.sel var = none) ∧
    (x.plain = false → (s.part x.part).tape? x.msg.cls x.msg.sel var = some y → current →
      (∃ g ∈ y.grds, g.src.kind = .pay ∧ payWord x.msg g.src.ix.toNat &&& g.mask ≠ g.value) → ∃ t, falls 4 t) ∧
    (x.plain = false → (s.part x.part).tape? x.msg.cls x.msg.sel var = some y → y.epoch = (s.part x.part).epoch → y.cver = cdVer c →
      y.grds = [] → ∃ t, ∃ r : Replay, exec (.tplay h d var) s = .next t ∧ (t.thr s.cur).unit = none ∧
        (t.core (coreOf s.cur)).replay = some r ∧ r.tape = y ∧ r.uid = x.uid ∧ r.next = 0)

/-- Recording and playing tapes: `Claim.TapeIssue`, `Claim.TapeRecorded`, `Claim.TapePlayed`. -/
def Obligations.TapeResult : Prop := Claim.TapeIssue ∧ Claim.TapeRecorded ∧ Claim.TapePlayed

/-! ## The device's own steps: the ordering machine, waits, commands, peers, dispatch -/

/-- R114-R117, R183, R340: the steps of the ordering machine. A load that no older access of its queue overlaps takes the
bytes that its agent sees, its caches filled; a store enters its buffer once every older load is performed; a store leaves
its buffer, and climbs by a level, a release only as R119 lets it, the bytes of one unaligned access in order; a copy that a
cache keeps of a sector may be discarded, a pending entry may not. The steps of the issue queue are the model's form of R114 and
R115 (log 3). -/
def Obligations.OrderingSteps : Prop :=
  ∀ (s : State) (t n no grp pa len lvl inst loc : Nat) (d : LDst) (va : Word) (tag : Option CTag) (st_ : SbStore),
    let id := s.tid t
    let a := s.agent id
    let rest : State := s.setAgent id { a with iq := ldel a.iq n }
    let filled := rest.fillRun id tag pa len
    let line := lineBase (loc / 2)
    let kept (x y : List CLine) : Prop := ∀ l ∈ x, l.pline ≠ line → l ∈ y
    let gone (y : List CLine) : Prop := ∀ l ∈ y, l.pline = line → ∀ z ∈ l.secs, z.1 ≠ secOf (loc / 2)
    t < nThreads →
    (a.iq[n]? = some (.load no grp d va pa len tag) →
      iqOverlap (a.iq.take n) (nibsOf pa (List.replicate len 0)) = false →
      (grp = 0 ∨ ∀ e ∈ a.iq.take n, ∀ no' d' va' pa' len' tag', e ≠ .load no' grp d' va' pa' len' tag') →
      s.arrPoison ⟨va.toNat, .mem pa 0, len⟩ = none → s.poisonHit id tag pa len = false →
      exec (.performLoad (.thread t) n) s = .next (filled.loadTo (.thread t) d (filled.loadBytes id tag pa len))) ∧
    (a.iq[n]? = some (.store st_) →
      (∀ e ∈ a.iq.take n, (∃ x, e = .store x ∧ (st_.tag.grp = 0 ∨ x.tag.grp ≠ st_.tag.grp)) ∨
        ∃ va pa n x, e = .got va pa n x) →
      iqOverlap (a.iq.take n) st_.nibs = false →
      exec (.issueStore (.thread t) n) s = .next (rest.bufferSt id st_)) ∧
    (a.sb = [st_] → s.rootRoom id st_ (homeLevel (idKind id)) = true →
      (st_.tag.rel = none ∨ ∃ r, st_.tag.rel = some r ∧ s.olderAbove id (some st_.id) st_.id r = true) →
      exec (.storeLeaveBuffer (.thread t) st_.id) s =
        .next ((s.setAgent id { a with sb := [] }).enterAt (homeLevel (idKind id)) id st_ [])) ∧
    (∀ (e : HEntry) (es : List HEntry), s.pendingAt n lvl = e :: es →
      (e.tag.grp = 0 ∨ ∀ x ∈ s.hold, x.tag.grp = e.tag.grp → n ≤ x.id ∨ lvl < x.lvl) →
      let st : SbStore := ⟨e.tag, (e :: es).map (fun (x : HEntry) => (x.loc, x.val))⟩
      s.rootRoom e.ag st (lvl + 1) = true → (e.tag.rel = none ∨ ∃ r, e.tag.rel = some r ∧ s.olderAbove e.ag (some e.id) e.id r = true) →
      exec (.storeClimb n lvl) s = .next
        ({ s with hold := s.hold.filter (fun (x : HEntry) => !(x.id == n && x.lvl == lvl)) }.enterAt (lvl + 1) e.ag st
          ((e :: es).flatMap HEntry.past))) ∧
    (∃ u : State, exec (.discardSettled lvl inst loc) s = .next u ∧ u.mem = s.mem ∧ u.hold = s.hold ∧
      u.agents = s.agents ∧ u.threads = s.threads ∧ (∀ c, kept (s.core c).l1 (u.core c).l1) ∧
      (∀ k, kept (s.l2Of k) (u.l2Of k)) ∧
      (lvl = 1 → gone (u.core (idCore (BitVec.ofNat 32 (inst * 2 ^ 11)))).l1) ∧
      (lvl = 4 → gone (u.l2Of (chipOfId (BitVec.ofNat 32 (inst * 2 ^ 19))))))

/-- Thread t stops waiting in the state u, and goes on with the next word. -/
def Claim.Woken (s : State) (t : Nat) (i : Instr) (u : State) : Prop :=
  exec i s = .next ((u.updThr t (fun th => { th with waiting := none })).complete t 12)

/-- R128, R172, R195, R200, R203, R269-R278, R295, R373: a waiting thread that looks again goes on where what it waits for
is so, waits on where it is not, and leaves its unit where its ADONE or TPLAY gets through; one whose watchdog has expired
goes on nowhere. -/
def Obligations.WakeSteps : Prop :=
  ∀ (s : State) (t n pa : Nat) (lims : BitVec 32) (d a : SOp) (ea b : Word) (sp_ : Space) (w4 acq : Bool) (sc : BitVec 3)
    (cond : WaitCond) (g : BitVec 4) (p : BitVec 3) (z : PZ) (var : BitVec 4) (dst : BitVec 9) (yes : Bool),
    let looks (w : Wait) (i : Instr) (e : Eff) : Prop := (s.thr t).waiting = some w →
      (∀ u, e = .done u → Claim.Woken s t i u) ∧
      (∀ u w', e = .wait u w' → exec i s = .next (u.updThr t (fun th => { th with waiting := some w' })))
    t < nThreads →
    (s.overdue t = true → ∀ i ∈ [Instr.waitcReturn t, .waitaWake t, .barwWake t, .joinWake t, .frdRetry t, .sleepExpire t,
      .adoneDrained t, .rfchkWaitEnd t, .exportAnswer t yes, .tplayDrained t], exec i s = .next s) ∧
    (s.overdue t = false → (s.thr t).recording = none →
    looks (.waitc lims) (.waitcReturn t) (s.waitcTry t lims) ∧
    looks (.waita d ea sp_ w4 acq sc cond b) (.waitaWake t) (s.waitaTry t d ea sp_ w4 acq sc cond b) ∧
    looks (.barw d ea sp_ sc g) (.barwWake t) (s.barwTry t d ea sp_ sc g) ∧
    looks (.join ea pa) (.joinWake t) (s.joinTry t ea pa) ∧
    looks (.frd d a sc sp_) (.frdRetry t) (s.frdTry t d a sc sp_) ∧
    looks .adone (.adoneDrained t) (s.adoneTry t) ∧ looks (.tplay p var) (.tplayDrained t) (s.tplayTry t p var) ∧
    ((s.thr t).waiting = some (.sleep n) → (n ≤ s.time (coreOf t) → Claim.Woken s t (.sleepExpire t) s) ∧
      (s.time (coreOf t) < n → exec (.sleepExpire t) s = .next s)) ∧
    ((s.thr t).waiting = some .adone → ∀ u, s.adoneTry t = .ended u → exec (.adoneDrained t) s = .next u) ∧
    ((s.thr t).waiting = some (.rfchk z) → (s.peerStoresLeft (s.tid t) = true → exec (.rfchkWaitEnd t) s = .next s) ∧
      (s.peerStoresLeft (s.tid t) = false → (s.agent (s.tid t)).ref.count = 0 →
        Claim.Woken s t (.rfchkWaitEnd t) (s.updThr t (fun th => th.wpz z false)))) ∧
    ((s.thr t).waiting = some (.aexport p dst) → ∃ v : State, Claim.Woken s t (.exportAnswer t yes) v ∧
      ((v.thr t).rp p = (decide (p = 0) || !yes)) ∧ (yes = true → ∀ x, (s.thr t).unit = some x →
        (v.thr t).unit = some { x with export_ := some dst.toNat })) ∧
    ((s.thr t).waiting = some (.tplay p var) → ∀ u, s.tplayTry t p var = .ended u →
      exec (.tplayDrained t) s = .next u) ∧
    ((s.thr t).waiting = none → exec (.waitcReturn t) s = .next s ∧ exec (.sleepExpire t) s = .next s ∧
      exec (.adoneDrained t) s = .next s))

/-- R37, R124-R127, R136, R247-R257: the steps of commands. One whose guard slot holds PASS is decided, one whose slot
holds DISCARD leaves its queue, its barrier served, and the head that is left is decided or waits for its slot; a QJOIN begins, at its
core's turn where it is in Q0, and with it a region, and completes once none of the queues that it names holds an
earlier command; a copy performs a unit at its engine's turn for its queue, and waits while it is another's; a REPB
performs the words of an iteration from the one that it has come to. Commands in pieces are the model's reading (log 24). -/
def Claim.QueueSteps : Prop :=
  ∀ (s : State) (t q : Nat) (c : Cmd) (cs : List Cmd),
    let o := QOwner.thread t
    let id := s.tid t
    let slot (u : State) (x : Cmd) : GSlot := (u.thr t).slots.toList.getD (slotField x.i).toNat .empty
    let settled (u : State) (x : Cmd) : Prop := x.decided = true ∨ slot u x = .empty ∧ (u.thr t).slotsClosed = false
    let turn := s.inTurn (matrixKey (coreOf t)) (ownerRank o) (s.matrixUsers o)
    let me := 4 * ownerRank o + q
    let key := engineKey o c.i
    t < nThreads → q < 4 → s.queue o q = ⟨c :: cs, none⟩ → s.poison = [] →
    (c.decided = false → slot s c = .pass →
      ∃ u, exec (.commandAtHead o q) s = .next u ∧ u.queue o q = ⟨{ c with decided := true } :: cs, none⟩ ∧ u.mem = s.mem) ∧
    (c.decided = false → slot s c = .discard → (∀ x xs, cs = x :: xs → x.decided = true) →
      exec (.commandAtHead o q) s = .next ((s.popHead o q).barComplete o c)) ∧
    (c.decided = false → slot s c = .empty → (s.thr t).slotsClosed = false →
      exec (.commandAtHead o q) s = .next s) ∧
    (cs.length ≤ 32 → ∃ u, exec (.commandAtHead o q) s = .next u ∧
      ∀ x xs, (u.queue o q).cmds = x :: xs → settled u x) ∧
    (c.decided = true → c.begun = false → (∃ h n slot set, c.i = .qjoin h n slot set) → (s.agent id).iq = [] →
      (s.agent id).sb = [] → (∀ e ∈ s.hold, e.ag ≠ id ∧ ∀ x ∈ e.past, x.1 ≠ id) →
      (q = 0 → turn = false → exec (.commandBegin o q) s = .next s) ∧
      ((q = 0 → turn = true) → ∃ (u : State) (st_ : BitVec 16), exec (.commandBegin o q) s = .next u ∧ u.mem = s.mem ∧
        u.queue o q = ⟨{ c with begun := true, stamp := st_ } :: cs, none⟩ ∧
        st_ ∈ (u.agent (s.cmdCtx o q c).ag).opened)) ∧
    (∀ h n slot set, c.begun = true → c.i = .qjoin h n slot set →
      (∀ r < 4, set.getLsbD r = true → ∀ x ∈ (s.queue o r).cmds, c.order ≤ x.order) →
      (∀ x xs, cs = x :: xs → settled s x) → ∃ u, exec (.commandComplete o q) s = .next u ∧
        u.queue o q = ⟨cs, none⟩ ∧ u.mem = s.mem ∧ c.stamp ∉ (u.agent (s.cmdCtx o q c).ag).opened) ∧
    (∀ h n slot set, c.begun = true → c.i = .qjoin h n slot set →
      (∃ r < 4, set.getLsbD r = true ∧ ∃ x ∈ (s.queue o r).cmds, x.order < c.order) →
      exec (.commandComplete o q) s = .next s) ∧
    (∀ (n : Nat) (x : CUnit) (u : State) (c' : Cmd), c.begun = true → (copyMod c.i).isSome = true → (q = 1 ∨ q = 2) →
      c.todo[n]? = some x → s.copyStep o q c x = some (.ok u c') →
      (s.inTurn key me (s.copyUsers key me) = true → exec (.copyUnit o q n) s =
        .next ((u.setHead o q { c' with todo := ldel c'.todo n }).tookTurn key me)) ∧
      (s.inTurn key me (s.copyUsers key me) = false → exec (.copyUnit o q n) s = .next s)) ∧
    (c.begun = true → (∃ h a b slot n k st_ rs rb count, c.i = .repb h a b slot n k st_ rs rb count) →
      c.iter < c.body.length * repCount c →
      exec (.repeatIteration o q) s = .next (s.repWords t o q c (c.iter / c.body.length)
        (c.body.zipIdx.drop (c.iter % c.body.length))))

/-! ### What matrix commands and copies come to -/

/-- 64 times a D2S8 weight (R55). -/
def Claim.weight (x : Nat) : Int :=
  let term (t : Nat) : Int :=
    if t % 8 = 7 then 0 else (if t / 8 % 2 = 1 then -1 else 1) * 2 ^ (6 - t % 8)
  term (x / 16 % 16) + term (x % 16)

/-- The number that an element of a format of TMMA stands for, a D2S8 byte 64 times its weight (R50, R55, R56); none for
an infinity or a NaN. -/
def Claim.number (f : Fmt) (x : Nat) : Option ℚ :=
  let float (eb mb : Nat) : Option ℚ := if Claim.isFin eb mb x then some (Claim.real eb mb x) else none
  match f with
  | .bf16 => float 8 7
  | .fp16 => float 5 10
  | .fp32 => float 8 23
  | .e5m2 => float 5 2
  | .e4m3 => if x % 128 = 127 then none else some (Claim.real 4 3 x)
  | .fp4 => some (Claim.real 2 1 x)
  | .int8 => some (BitVec.ofNat 8 x).toInt
  | .uint8 => some ((BitVec.ofNat 8 x).toNat : ℤ)
  | .int32 => some (BitVec.ofNat 32 x).toInt
  | .d2s8 => some (Claim.weight x)

/-- The pairs of formats that TMMA takes, with their block of K and whether they accumulate in INT32 (R244). -/
def Claim.matrixPairs : List (Fmt × Fmt × Nat × Bool) :=
  [(.bf16, .bf16, 16, false), (.fp16, .fp16, 16, false), (.e4m3, .e4m3, 32, false), (.e4m3, .e5m2, 32, false),
    (.e5m2, .e4m3, 32, false), (.e5m2, .e5m2, 32, false), (.fp4, .fp4, 32, false), (.int8, .int8, 32, true),
    (.int8, .uint8, 32, true), (.uint8, .int8, 32, true), (.uint8, .uint8, 32, true), (.d2s8, .int8, 32, true),
    (.d2s8, .uint8, 32, true), (.int8, .d2s8, 32, true), (.uint8, .d2s8, 32, true)]

/-- x becomes y as block sums are rounded to binary32 and added to it, each sum rounded again (R64); what follows an
overflow is not told. -/
def Claim.Accumulated : List ℚ → Nat → Nat → Prop
  | [], x, y => y = x
  | b :: bs, x, y => ∃ (r z : Nat) (f g : Flags), Claim.Rounded 8 23 .rne b (r, f) ∧
    (Claim.isFin 8 23 r = true → Claim.Rounded 8 23 .rne (Claim.real 8 23 x + Claim.real 8 23 r) (z, g) ∧
      (Claim.isFin 8 23 z = true → Claim.Accumulated bs z y))

/-- A thread's Q0 has a decided command c at its head that has not begun, and may begin it: nothing that it must follow is
under way, no unfinished command holds its accumulator, it is its turn, and no array is poisoned. -/
structure Claim.AtMatrix (s : State) (t : Nat) (c : Cmd) (cs : List Cmd) : Prop where
  thr   : t < nThreads
  wf    : s.MemWf
  head  : s.queue (.thread t) 0 = ⟨c :: cs, none⟩
  fresh : c.decided = true ∧ c.begun = false
  iq    : (s.agent (s.tid t)).iq = []
  sb    : (s.agent (s.tid t)).sb = []
  hold  : ∀ e ∈ s.hold, e.ag ≠ s.tid t ∧ ∀ x ∈ e.past, x.1 ≠ s.tid t
  busy  : s.accBusy (.thread t) c.i = false
  turn  : s.inTurn (matrixKey (coreOf t)) (ownerRank (.thread t)) (s.matrixUsers (.thread t)) = true
  clean : (s.core (coreOf t)).poisonT = [] ∧ (s.core (coreOf t)).poisonA = []

/-- R64-R66, R244, R248: TMMA adds to each element (i, j) of its shape the products of row i of A and row j of B over the
blocks of K that it covers: of integers exactly, modulo 2^32, or clamped after each block with .sat; of finite floats each
block's exact sum, rounded, with the sum rounded again. Other elements keep their values, or are zero with .za, which sets
the tag. When it computes its result is the model's reading (log 24). -/
def Claim.MatrixProduct : Prop :=
  ∀ (s : State) (t : Nat) (c : Cmd) (cs : List Cmd) (h : Hdr) (d : BitVec 3) (a b slot : BitVec 4) (za sat : Bool)
    (ko kc : BitVec 8) (fa fb : Fmt) (block : Nat) (int : Bool),
    let k := coreOf t
    let da := s.desc k a.toNat
    let db := s.desc k b.toNat
    let n := descCols da + 1
    let nbt := (n + block - 1) / block
    let nb := if kc = 0 then nbt - ko.toNat else kc.toNat
    Claim.AtMatrix s t c cs → c.i = .tmma h d a b slot za sat ko kc → (fa, fb, block, int) ∈ Claim.matrixPairs →
    descFmt da = some fa → descFmt db = some fb → descCols db = descCols da → descRows da < 48 → descRows db < 48 →
    n * fa.width ≤ 1536 → n * fb.width ≤ 1536 → (za = true ∨ s.tagInt k d = int) →
    ko.toNat < nbt → ko.toNat + nb ≤ nbt →
    let ea (i m : Nat) : Nat := Claim.element (s.tileRow k a.toNat i) fa.width m
    let eb (j m : Nat) : Nat := Claim.element (s.tileRow k b.toNat j) fb.width m
    let old (i j : Nat) : Nat := if za then 0 else s.acc k d.toNat i j
    let of (x : Nat) : List Nat := (List.range block).filterMap (fun y => if x * block + y < n then some (x * block + y) else none)
    let prod (i j m : Nat) : ℚ := ((Claim.number fa (ea i m)).getD 0) * ((Claim.number fb (eb j m)).getD 0)
    let sum (i j x : Nat) : ℚ := ((of x).map (prod i j)).sum
    let blocks := (List.range nb).map (fun x => ko.toNat + x)
    ∃ (u : State) (st_ : BitVec 16) (fl : Flags), exec (.commandBegin (.thread t) 0) s = .next u ∧
      u.queue (.thread t) 0 = ⟨{ c with begun := true, stamp := st_, fl := fl } :: cs, none⟩ ∧ u.tagInt k d = int ∧
      ∀ i < 48, ∀ j < 48, let new := u.acc k d.toNat i j
        (descRows da < i ∨ descRows db < j → new = old i j) ∧
        (i ≤ descRows da → j ≤ descRows db →
          (int = true → sat = false → ∃ z : ℤ, (z : ℚ) = (blocks.map (sum i j)).sum ∧
            new = (BitVec.ofNat 32 (old i j) + BitVec.ofInt 32 z).toNat) ∧
          (int = true → sat = true → ∃ z : ℤ, (z : ℚ) = blocks.foldl (fun (x : ℚ) y =>
              max (-2 ^ 31) (min (2 ^ 31 - 1) (x + sum i j y))) ((BitVec.ofNat 32 (old i j)).toInt : ℚ) ∧
            new = (BitVec.ofInt 32 z).toNat) ∧
          (int = false → Claim.isFin 8 23 (old i j) = true →
            (∀ y ∈ blocks, ∀ m ∈ of y, (Claim.number fa (ea i m)).isSome = true ∧ (Claim.number fb (eb j m)).isSome = true) →
            Claim.Accumulated (blocks.map (sum i j)) (old i j) new))

/-- R67, R68, R246: TSCA adds to each element of D its element of P times the scales of its row and column: in the E8M0
form with one rounding, a scale of 0xFF giving the canonical NaN, in the float form after the product of the scales is
rounded. When it computes its result is the model's reading (log 24). -/
def Claim.ScaledSum : Prop :=
  ∀ (s : State) (t : Nat) (c : Cmd) (cs : List Cmd) (h : Hdr) (d a : BitVec 3) (b cv : BitVec 5) (slot : BitVec 4)
    (za fs : Bool),
    let k := coreOf t
    Claim.AtMatrix s t c cs → c.i = .tsca h d a b cv slot za fs → (za = true ∨ s.tagInt k d = false) →
    let old (i j : Nat) : Nat := if za then 0 else s.acc k d.toNat i j
    let p (i j : Nat) : Option ℚ := Claim.number (if s.tagInt k a then .int32 else .fp32) (s.acc k a.toNat i j)
    ∃ (u : State) (st_ : BitVec 16) (fl : Flags), exec (.commandBegin (.thread t) 0) s = .next u ∧
      u.queue (.thread t) 0 = ⟨{ c with begun := true, stamp := st_, fl := fl } :: cs, none⟩ ∧ u.tagInt k d = false ∧
      ∀ i < 48, ∀ j < 48,
        let new := u.acc k d.toNat i j
        let sa := (laneOf c.rows i).toNat
        let sb := (laneOf c.cols j).toNat
        (fs = false → (sa % 256 = 255 ∨ sb % 256 = 255) → new = 0x7FC00000 ∧ fl.getLsbD 4 = true) ∧
        (Claim.isFin 8 23 (old i j) = true → ∀ x, p i j = some x →
          (fs = false → sa % 256 ≠ 255 → sb % 256 ≠ 255 → ∃ f : Flags, f &&& fl = f ∧ Claim.Rounded 8 23 .rne
            (Claim.real 8 23 (old i j) + x * 2 ^ ((sa % 256 : ℤ) + (sb % 256 : ℤ) - 254)) (new, f)) ∧
          (fs = true → Claim.isFin 8 23 sa = true → Claim.isFin 8 23 sb = true → ∃ (r : Nat) (f g : Flags), f &&& fl = f ∧
            Claim.Rounded 8 23 .rne (Claim.real 8 23 sa * Claim.real 8 23 sb) (r, f) ∧
            (Claim.isFin 8 23 r = true → g &&& fl = g ∧
              Claim.Rounded 8 23 .rne (Claim.real 8 23 (old i j) + x * Claim.real 8 23 r) (new, g))))

/-- R63, R248: a matrix command that has begun completes: its place is freed, and its flags are added to the status of the
thread that issued it, if its unit still runs. -/
def Claim.MatrixCompletes : Prop :=
  ∀ (s : State) (t : Nat) (c : Cmd) (cs : List Cmd), t < nThreads → s.queue (.thread t) 0 = ⟨c :: cs, none⟩ →
    c.begun = true → ((∃ h d a b slot za sat ko kc, c.i = .tmma h d a b slot za sat ko kc) ∨
      ∃ h d a b cv slot za fs, c.i = .tsca h d a b cv slot za fs) → (∀ x xs, cs = x :: xs → x.decided = true) →
    ∃ u, exec (.commandComplete (.thread t) 0) s = .next u ∧ u.queue (.thread t) 0 = ⟨cs, none⟩ ∧ u.mem = s.mem ∧
      ∀ b < 6, ((u.thr t).status.getLsbD (3 + b) = true ↔ (s.thr t).status.getLsbD (3 + b) = true ∨
        (∃ x, (s.thr t).unit = some x ∧ x.uid = c.uid) ∧ c.fl.getLsbD b = true)

/-- R124, R126, R251, R253, R257: a decided copy begins with all its units to do, or, with an operand that is not a multiple
of 4, stops its queue; one with no unit and no store left completes and frees its place, its word then at its target, or
added to it, or its barrier told of it. That it begins with its units listed is the model's form (log 24). -/
def Claim.CopyCommand : Prop :=
  ∀ (s : State) (t q : Nat) (c : Cmd) (cs : List Cmd) (k : CpyMod) (q2 : Bool),
    let o := QOwner.thread t
    let ag := (s.cmdCtx o q c).ag
    let aligned := c.opa.toNat % 4 = 0 ∧ c.opd.toNat % 4 = 0 ∧
      ((∃ h d a b q2 slot k, c.i = .cpy h d a b q2 slot k) → c.opb.toNat % 4 = 0)
    let done (u : State) : Prop := exec (.commandComplete o q) s = .next u ∧ u.queue o q = ⟨cs, none⟩
    let x := c.tgt.toNat
    t < nThreads → (q = 1 ∨ q = 2) → s.queue o q = ⟨c :: cs, none⟩ → copyMod c.i = some (k, q2) →
    (∀ x xs, cs = x :: xs → x.decided = true) → s.hold = [] →
    (c.decided = true → c.begun = false → (s.agent (s.tid t)).iq = [] → (s.agent (s.tid t)).sb = [] →
      (aligned → ∃ (u : State) (st_ : BitVec 16), exec (.commandBegin o q) s = .next u ∧ u.mem = s.mem ∧
        u.queue o q = ⟨{ c with begun := true, stamp := st_, todo := copyUnits c } :: cs, none⟩ ∧
        st_ ∈ (u.agent ag).opened) ∧
      (¬ aligned → (s.thr t).unit.map UnitInfo.uid = some c.uid → ∃ (u : State) (r : EngRec),
        exec (.commandBegin o q) s = .next u ∧ u.mem = s.mem ∧ (u.queue o q).stopped = some r ∧ r.order = c.order ∧
        (u.thr t).status.getLsbD 11 = true)) ∧
    (c.begun = true → c.todo = [] → (s.agent ag).iq = [] → (s.agent ag).sb = [] → s.outst = [] → s.poison = [] → s.MemWf →
      (k.ck = .none → ∃ u, done u ∧ u.mem = s.mem) ∧
      (k.ck = .cwsp → (s.spaceBase (coreOf t) .sp).2 ≤ x → x + 4 ≤ (s.spaceBase (coreOf t) .sp).2 + (s.spaceBase (coreOf t) .sp).1 → x % 4 = 0 →
        ∃ u, done u ∧ u.rdNat x 4 = (if k.cadd then s.rdNat x 4 + k.cval.toNat else k.cval.toNat) % 2 ^ 32) ∧
      ((k.ck = .barsp ∨ k.ck = .barcm) → ∃ u, done u ∧ u.bar x = (s.bar x).land k.dir c.gen))

/-- The steps of commands, and what matrix commands and copies come to: `Claim.QueueSteps`, `Claim.MatrixProduct`,
`Claim.ScaledSum`, `Claim.MatrixCompletes`, `Claim.CopyCommand`. -/
def Obligations.CommandSteps : Prop :=
  Claim.QueueSteps ∧ Claim.MatrixProduct ∧ Claim.ScaledSum ∧ Claim.MatrixCompletes ∧ Claim.CopyCommand

/-- R131-R133, R254, R402: an answer takes its request off the list: a refusal of a store is recorded against its agent, or
stops the queue of the command that made it, complete or not, and sets EFP; an answer to a load or an atomic goes to the agent's
queue; a request whose flit left 2^20 mesh cycles ago is refused with reason 4, and one that has not left, or left later, waits
on; an answer that nothing awaits changes nothing. In a queue that has stopped the record of the older command stands. What an
unawaited answer does is the model's reading (log 2), and so is it that a refusal after its command has completed stops the queue
(log 24). -/
def Obligations.PeerSteps : Prop :=
  ∀ (s : State) (tag n : Nat) (ans : PeerAns) (o : Outst) (k : CmdRef) (y : EngRec),
    (s.outst.find? (fun x => x.tag == tag) = none → exec (.peerAnswer tag ans) s = .next s ∧
      exec (.answerTimeout tag) s = .next s) ∧
    (s.outst.find? (fun x => x.tag == tag) = some o →
      (s.rhold = [] → ∃ u, exec (.peerAnswer tag ans) s = .next u ∧ u.outst = s.outst.erase o ∧ u.mem = s.mem ∧
        (o.store = true → ans = .ack → u = { s with outst := s.outst.erase o }) ∧
        (∀ r, o.store = true → o.of.cmd = none → ans = .refuse r → (u.agent o.ag).ref =
          (s.agent o.ag).ref.add o.va (BitVec.ofNat 9 o.dpkg) r) ∧
        (∀ r, o.store = true → o.of.cmd = some k → ans = .refuse r → k.q < 4 → s.ownerUid k.own = some k.uid →
          (s.queue k.own k.q).stopped = none → (u.queue k.own k.q).cmds = (s.queue k.own k.q).cmds ∧
          (u.queue k.own k.q).stopped = some ⟨k.order, if k.q = 3 then 1 else 0, o.va, k.info r, false⟩ ∧
          ∀ t, k.own = .thread t → (u.thr t).status = withEfp (s.thr t).status true) ∧
        (∀ r, o.store = true → o.of.cmd = some k → ans = .refuse r → k.q < 4 → s.ownerUid k.own = some k.uid →
          (s.queue k.own k.q).stopped = some y →
          (y.order ≤ k.order → u.queue k.own k.q = s.queue k.own k.q ∧ ∀ t, (u.thr t).status = (s.thr t).status) ∧
          (k.order < y.order → (u.queue k.own k.q).cmds = (s.queue k.own k.q).cmds ∧
            (u.queue k.own k.q).stopped = some ⟨k.order, if k.q = 3 then 1 else 0, o.va, k.info r, false⟩ ∧
            ∀ t, k.own = .thread t →
              let any (c : Bool) : Bool := (u.thr t).q.toList.any (fun q => q.stopped.any (fun z => z.conflict == c))
              (u.thr t).status = withCp (withEfp (s.thr t).status (any false)) (any true))) ∧
        (o.store = false → ∀ va pa n, .peer va pa n o.tag ∈ (s.agent o.ag).iq → .got va pa n ans ∈ (u.agent o.ag).iq)) ∧
      (o.left = none → exec (.answerTimeout tag) s = .next s) ∧
      (o.left = some n → s.mesh < n + 2 ^ 20 → exec (.answerTimeout tag) s = .next s) ∧
      (o.left = some n → n + 2 ^ 20 ≤ s.mesh → exec (.answerTimeout tag) s = exec (.peerAnswer tag (.refuse 4)) s))

/-- R45, R365, R366, R263, R274: a free thread whose queues are empty takes the newest task of its own deque before anything else:
its registers as a dispatch leaves them, the task's pass registers in s8 to s15, at the task's entry, U, the masks all
ones, and 24 cycles pass before its first instruction; a thread that has a unit, or commands left, takes nothing, nor does one while
a lower thread that became free with it can take a unit. That a dispatch waits until the queues are empty is the model's choice
(log 53). -/
def Claim.DispatchStep : Prop :=
  ∀ (s v : State) (t p : Nat) (x : Task) (rest : List Task), t < nThreads →
    ((s.thr t).unit ≠ none → exec (.unitDispatch t) s = .next s) ∧
    ((∃ q : Fin 4, ((s.thr t).q[q]).cmds ≠ []) → exec (.unitDispatch t) s = .next s) ∧
    ((∃ y ∈ s.lowerFree t, s.dispatched y ≠ none) → exec (.unitDispatch t) s = .next s) ∧
    ((∀ y ∈ s.lowerFree t, s.dispatched y = none) → (s.thr t).unit = none → (∀ q : Fin 4, ((s.thr t).q[q]).cmds = []) → s.runs (clusOf t) = some p →
      (s.thr t).deque = rest ++ [x] → s.orderBefore (s.tid t) (s.tid t) x.no = (v, true) → v.thr t = s.thr t →
      (s.thr t).haltReq = false →
      ∃ u, exec (.unitDispatch t) s = .next u ∧ (u.thr t).pc = x.entry ∧ (u.thr t).deque = rest ∧
        (u.thr t).priv = privU ∧ (u.thr t).sd = 0 ∧ (u.thr t).outer = [] ∧
        (∀ i : Fin 8, (u.thr t).frame[i.val] = x.pass[i]) ∧ (∀ n, (u.thr t).rm n = BitVec.allOnes 48) ∧
        (u.thr t).launch = x.c26 ∧ (u.thr t).job = x.c27 ∧ (u.thr t).waiting = none ∧
        (u.thr t).notBefore = v.time (coreOf t) + 24 ∧ ((u.thr t).unit.map UnitInfo.kind) = some UKind.task)

/-- R300, R301, R367: an idle sequencer takes the first replay delivery that its tape lets it play, and issues its records in order
while their queue has room; a replay with no record left and nothing queued commits; a busy sequencer takes nothing. A replay in steps is the model's reading (log 26). -/
def Claim.ReplaySteps : Prop :=
  ∀ (s : State) (c : Nat) (r : Replay) (x : Rec), c < nCores →
    ((s.core c).replay = none → exec (.replayIssue c) s = .next s ∧ exec (.replayDrained c) s = .next s ∧
      ((s.core c).places = [] → exec (.replayTake c) s = .next s)) ∧
    ((s.core c).replay = some r → exec (.replayTake c) s = .next s ∧
      (r.tape.recs[r.next]? = some x → (s.queue (.seqr c) x.queue.toNat).cmds.length < 32 → copyMod x.i = none →
        x.pd = none → x.pa = none → x.pb = none → ∃ u : State, exec (.replayIssue c) s = .next u ∧ u.mem = s.mem ∧
          ∃ y : Cmd, (u.queue (.seqr c) x.queue.toNat).cmds = (s.queue (.seqr c) x.queue.toNat).cmds ++ [y] ∧
            y.i = x.i ∧ y.opd = x.opd ∧ y.opa = x.opa ∧ y.opb = x.opb ∧
            (u.core c).replay = some { r with next := r.next + 1 }) ∧
      (r.tape.recs.length ≤ r.next → (∀ q : Fin 4, (s.core c).seqq[q] = Queue.init) →
        exec (.replayDrained c) s = .next (s.replayCommit c r))) ∧
    (∀ it : Item, (s.core c).replay = none → (s.core c).places = [it] → it.replay = true →
      s.runs (clusOfCore c) = some it.msg.part → ∀ v e y, s.orderBefore it.msg.sender (s.seqrId c) it.msg.no = (v, true) →
      s.entry? it.ekey = some e → v.badLine c e.frame ((v.cls? it.msg.part it.msg.cls).map cdLines |>.getD 0) = none →
      ∀ w, v.checkTape it.msg.part it.msg 0 (v.srcValue (v.seqrId c) c it.msg it.ekey.key e.frame
        ((v.cls? it.msg.part it.msg.cls).map cdLines |>.getD 0)) = (w, .go y) →
      ∃ u, ∃ z : Replay, exec (.replayTake c) s = .next u ∧ (u.core c).replay = some z ∧ z.tape = y ∧ z.next = 0 ∧
        z.msg = it.msg ∧ z.ekey = it.ekey ∧ z.fline = e.frame)

/-- Dispatch of a task, and the steps of a replay: `Claim.DispatchStep`, `Claim.ReplaySteps`. That a dispatch waits until the
thread's queues are empty is the model's choice (log 53); a replay in steps is its reading (log 26). -/
def Obligations.DispatchSteps : Prop := Claim.DispatchStep ∧ Claim.ReplaySteps

/-! ## The device's own steps: the directory (R308-R330, R433) -/

/-- R268, R308, R311, R320-R322, R433: a message reaches its slice in the order sent, unless the slice has taken in this mesh
cycle what comes after it; one to a partition that is not live, of a class that does not exist, or with a selector without a
handler is refused with 3, 7 or 6, and clears its own marker; one for which another's marker stands is answered RETRY; an
ACCEPT or a refusal frees the sender's entry and a RETRY parks it; a refusal is recorded against a run that still goes on; a parked
message whose time has come is sent again, marked; a withdraw clears the marker. Log 2 says what a step does that cannot happen,
and log 28 how refusals travel. -/
def Claim.MessageAnswered : Prop :=
  ∀ (s v : State) (f : Flight) (fs : List Flight) (x : AnsFlight) (xs : List AnsFlight) (t at_ : Nat) (o : OutMsg)
    (k : AKey) (sender : BitVec 32) (ifn : BitVec 6) (seq : BitVec 32),
    let m := f.msg
    let answered (a : Answer) (u : State) : Prop := exec (.messageArrival 0) s = .next u ∧ u.flights = fs ∧ u.dir = s.dir ∧
      u.answers = s.answers ++ [⟨m, a, s.pkg⟩]
    let refused (r : BitVec 8) : Prop := ∃ u, answered (.refuse r) u ∧
      ∀ y, s.marker? m = some y → y.seq = m.seq → y ∉ u.markers
    (s.flights = f :: fs → f.batch = 0 → s.takes f.slice (.message m) = none → exec (.messageArrival 0) s = .next s) ∧
    (s.flights = f :: fs → f.batch = 0 → s.takes f.slice (.message m) = some v →
      let r := (({ v with flights := fs } : State).arrive_ f.slice m).trySend m.akey
      (r ≠ v → exec (.messageArrival 0) s = .next r) ∧
      (m.via = s.pkg → m.fwd = false → (∀ e, s.entry? m.akey = some e → e.dest = none) →
        (s.partLive m.part = false → refused 3) ∧
        (s.partLive m.part = true → (∀ y, s.marker? m = some y → y.seq = m.seq) →
          ((s.part m.part).job m.job).canc = false → s.isFrozen m.part m.cls = false →
          (s.cls? m.part m.cls = none → refused 7) ∧
          (∀ d, s.cls? m.part m.cls = some d → 16 ≤ m.sel.toNat → refused 6)) ∧
        (s.partLive m.part = true → (∃ y, s.marker? m = some y ∧ y.seq ≠ m.seq) →
          ∃ u, answered .retry u ∧ u.markers = s.markers))) ∧
    (s.answers = x :: xs → x.msg.host = false → x.msg.fwd = false → idThread x.msg.sender = t → s.rhold = [] →
      (s.thr t).outq = [o] → o.st = .sent → o.msg.seq = x.msg.seq → o.msg.akey = x.msg.akey → o.pkg = s.pkg →
      (x.ans = .accept → ∃ u, exec (.messageAnswer 0) s = .next u ∧ (u.thr t).outq = [] ∧ u.answers = xs ∧ u.mem = s.mem) ∧
      (∀ r y, x.ans = .refuse r → (s.thr t).unit = some y → y.uid = x.msg.uid → y.step3 = false →
        ∃ u, exec (.messageAnswer 0) s = .next u ∧ (u.thr t).outq = [] ∧ u.answers = xs ∧ u.mem = s.mem ∧
          (u.agent x.msg.sender).ref = (s.agent x.msg.sender).ref.add x.msg.key o.pkg r) ∧
      (x.ans = .retry → ∃ u, exec (.messageAnswer 0) s = .next u ∧ (u.thr t).outq = [{ o with st := .parked s.mesh }])) ∧
    (t < nThreads → (s.thr t).outq = [{ o with st := .parked at_ }] → o.pkg = s.pkg →
      (at_ + s.backoff o.msg.part o.msg.cls ≤ s.mesh → ∃ u, exec (.retryResend (.agent (.thread t)) 0) s = .next u ∧
        (u.thr t).outq = [{ o with msg := { o.msg with rt := true }, st := .sent }] ∧
        u.flights = s.flights ++ [⟨{ o.msg with rt := true }, o.slice, 0⟩]) ∧
      (s.mesh < at_ + s.backoff o.msg.part o.msg.cls → exec (.retryResend (.agent (.thread t)) 0) s = .next s)) ∧
    (∃ u, exec (.withdraw k sender ifn seq) s = .next u ∧ u.dir = s.dir ∧
      ∀ y, y ∈ u.markers ↔ y ∈ s.markers ∧ y ≠ ⟨sender, ifn, k, seq⟩)

/-- R310, R312, R313, R320, R375, R410: what a slice makes of a message of this package that it does not turn away at once,
of which no marker stands. With no entry for its key one is made, activates, and holds it unanswered; with no entry to be had,
or no slot, it is answered RETRY, with a marker. An entry that activates, retires, runs, or has messages already queues it where
a slot is free, and answers ACCEPT but for one whose activation is provisional; else RETRY. An idle LIVE entry accepts it and
passes it to its core, which runs it, holds it back while it has 64 already, or refuses it where its cluster may not take it.
A FAILED entry refuses it with reason 9. Two messages of one release of packets reach their slice together. -/
def Claim.MessageTaken : Prop :=
  ∀ (s v : State) (f g : Flight) (fs : List Flight) (d : BitVec 768) (e : Entry),
    let m := f.msg
    let k := m.akey
    let who (m : Msg) : BitVec 32 × BitVec 6 × BitVec 32 × Word × List Byte := (m.sender, m.ifn, m.seq, m.key, m.payload)
    let gave (l : List Answer) (p : State → Prop) : Prop := ∃ u, exec (.messageArrival 0) s = .next u ∧ u.flights = fs ∧ p u ∧
      ∃ xs, u.answers = s.answers ++ xs ∧ xs.map (fun x => (who x.msg, x.ans)) = l.map (fun a => (who m, a))
    let found (p : Entry → Prop) (u : State) : Prop := ∃ x, u.entry? k = some x ∧ p x
    let retried : Prop := gave [.retry] (fun u => ⟨m.sender, m.ifn, k, m.seq⟩ ∈ u.markers)
    let coming : Prop := s.flights = f :: fs ∧ f.batch = 0 ∧ s.takes f.slice (.message m) = some v ∧ m.via = s.pkg ∧ m.fwd = false ∧
      s.partLive m.part = true ∧ s.marker? m = none ∧ ((s.part m.part).job m.job).canc = false ∧
      s.isFrozen m.part m.cls = false ∧ s.cls? m.part m.cls = some d ∧ m.sel.toNat < 16 ∧ cdEntry d m.sel.toNat ≠ 0xFFFFFF
    (coming → s.entry? k = none →
      (s.slotFree k.slice = true → (s.setOf k).length < 8 → gave [] (found (fun x =>
        x.st = .activating ∧ x.prov = true ∧ x.home = s.pkg ∧ x.pend.map who = [who m]))) ∧
      (s.slotFree k.slice = false → retried) ∧
      (8 ≤ (s.setOf k).length → (∀ x ∈ s.setOf k, x.movable = false) → retried)) ∧
    (coming → s.entry? k = some e → (∀ x ∈ s.dir, x.key = k → x = e) → e.dest = none →
      (e.spilled = true → (s.setOf k).length < 8) →
      (e.st = .activating ∨ e.st = .retiring ∨ ((e.st = .live ∨ e.st = .forward) ∧ (e.busy = true ∨ e.pend ≠ [])) →
        (s.slotFree k.slice = true → gave (if e.prov then [] else [.accept]) (found (fun x =>
          x.st = e.st ∧ x.busy = e.busy ∧ x.cur = e.cur ∧ x.spilled = false ∧
          x.pend.map who = e.pend.map who ++ [who m]))) ∧
        (s.slotFree k.slice = false → retried)) ∧
      (e.st = .live → e.busy = false → e.pend = [] → e.prov = false → s.permits m (clusOfCore e.core) = true →
        ((s.core e.core).places.length < 64 → gave [.accept] (fun u => found (fun x =>
            x.st = .live ∧ x.busy = true ∧ x.cur.map who = some (who m) ∧ x.pend = []) u ∧
          (u.core e.core).places.length = (s.core e.core).places.length + 1)) ∧
        (64 ≤ (s.core e.core).places.length → s.slotFree k.slice = true → gave [.accept] (fun u => found (fun x =>
            x.st = .live ∧ x.busy = false ∧ x.pend.map who = [who m]) u ∧
          (u.core e.core).places = (s.core e.core).places ∧ k ∈ (u.core e.core).refused))) ∧
      (e.st = .live → e.busy = false → e.pend = [] → e.prov = false → s.permits m (clusOfCore e.core) = false →
        idPkg m.sender = s.pkg → gave [.accept, .refuse 8] (found (fun x => x.st = .live ∧ x.busy = false ∧ x.pend = []))) ∧
      (e.st = .failed → gave [.refuse 9] (found (fun x => x.st = .failed)))) ∧
    (s.flights = [f, g] → f.batch ≠ 0 → g.batch = f.batch → g.slice = f.slice → (s.slice f.slice).at_ < s.mesh →
      (SliceEv.message m).rank ≤ (SliceEv.message g.msg).rank → s.entry? k = none → s.entry? g.msg.akey = none →
      s.partLive m.part = false → s.partLive g.msg.part = false → m.via = s.pkg → g.msg.via = s.pkg →
      m.fwd = false → g.msg.fwd = false →
      ∃ u, exec (.messageArrival 0) s = .next u ∧ u.flights = [] ∧
        u.answers = s.answers ++ [⟨m, .refuse 3, s.pkg⟩, ⟨g.msg, .refuse 3, s.pkg⟩])

/-- Messages at their slices and their senders: `Claim.MessageAnswered`, `Claim.MessageTaken`. Log 2 says what a step does that
cannot happen, log 28 how refusals travel, and log 53 which comes first for an absent partition with a marker. -/
def Obligations.MessageSteps : Prop := Claim.MessageAnswered ∧ Claim.MessageTaken

/-- The entry of a key is in state st_ after event i. -/
def Claim.Entered (s : State) (i : Instr) (k : AKey) (p : Entry → Prop) : Prop :=
  ∃ u e, exec i s = .next u ∧ u.entry? k = some e ∧ p e
/-- The entry of a key is gone after event i. -/
def Claim.Gone (s : State) (i : Instr) (k : AKey) : Prop := ∃ u, exec i s = .next u ∧ u.entry? k = none

/-- R311, R313, R317-R320, R328, R329, R363, R424: an actor's life at its slice, each event one that the slice may take in its
mesh cycle. An activation whose block is fetched is LIVE; one whose page is away is given up while provisional; one whose block
fails is FAILED; the end of a run frees the actor; a hardware error in a class that is not RESTARTABLE, a fourth one in a
class that is, and a commit that failed, fail it; a failed run of a class that is not RESTARTABLE ends as it would have, of
another retires without write-back; an idle actor retires after its time, or where another waits for room; a retired one that is
written back, or not to be, is gone; a core with room takes the message that it has turned away. The order of these steps is the
model's reading (log 27), and to which class of R311 the events belong that the rule does not list (a page away, a failed block,
a failed run, a failed commit) its choice (log 53). -/
def Obligations.ActorLife : Prop :=
  ∀ (s s1 v : State) (k : AKey) (e : Entry) (d : BitVec 768) (segs : List Seg) (a : Word) (c : Nat) (m : Msg),
    let took (n : Nat) : Prop := s.takes k.slice (.notice n (s.coreAgent e.core)) = some s1
    let calm : Prop := (s.core e.core).capAt ≠ some s.mesh
    s.entry? k = some e → s.cls? k.part k.cls = some d →
    (e.st = .activating → e.wait = .fetch → e.carry = [] → took 0 →
      (s1.stateCheck e d .read = (v, .ok segs) → v.peerSegs segs = [] → v.leaving e = false → e.pend = [] → e.src = none →
        Claim.Entered s (.activationDone k) k (fun x => x.st = .live ∧ x.busy = false)) ∧
      (s1.stateCheck e d .read = (v, .away) → v.pageAsked e d = true → e.prov = true →
        Claim.Gone s (.statePageNotResident k) k) ∧
      (s1.stateCheck e d .read = (v, .away) → v.pageAsked e d = true → e.prov = false → v.dir = s.dir →
        Claim.Entered s (.statePageNotResident k) k (fun x => x.wait = .page)) ∧
      (s1.stateCheck e d .read = (v, .bad a) → v.dir = s.dir →
        Claim.Entered s (.stateBlockFailed k) k (fun x => x.st = .failed ∧ x.pend = []))) ∧
    (e.st = .live → e.busy = true → e.pend = [] → s.leaving e = false →
      (s.notices = [⟨.runEnded false none, k⟩] → took 1 → calm →
        Claim.Entered s (.runEnded k) k (fun x => x.st = .live ∧ x.busy = false ∧ x.rdc = 0)) ∧
      (s.notices = [⟨.runEnded true none, k⟩] → took 1 → calm → Claim.Entered s (.runEnded k) k (fun x => x.st = .retiring)) ∧
      (∀ n, s.notices = [⟨.hwError false n, k⟩] → took 3 → s.slotFor e = true → (cdRestartable d = false ∨ 3 ≤ e.rdc) →
        Claim.Entered s (.hardwareErrorNotice k) k (fun x => x.st = .failed)) ∧
      (s.notices = [⟨.runFailed false false none, k⟩] → took 1 → calm → cdRestartable d = false →
        Claim.Entered s (.runFailed k) k (fun x => x.st = .live ∧ x.busy = false)) ∧
      (s.notices = [⟨.runFailed false true none, k⟩] → took 1 → calm → cdRestartable d = false →
        Claim.Entered s (.runFailed k) k (fun x => x.st = .retiring ∧ x.noWb = false)) ∧
      (∀ y z, s.notices = [⟨.runFailed false y z, k⟩] → took 1 → calm → cdRestartable d = true →
        Claim.Entered s (.runFailed k) k (fun x => x.st = .retiring ∧ x.noWb = true))) ∧
    (s.notices = [⟨.commitFailed a, k⟩] → took 2 → Claim.Entered s (.writeBackFailed k) k (fun x => x.st = .failed)) ∧
    (e.isIdle = true → cdRetire d ≠ 0 →
      (cdRetire d ≤ s.time e.core - e.idle → s.takes k.slice (.timer false) = some s1 →
        Claim.Entered s (.idleRetirement k) k (fun x => x.st = .retiring)) ∧
      (s.time e.core - e.idle < cdRetire d → exec (.idleRetirement k) s = .next s)) ∧
    (c < nCores → (s.core c).wantRoom ≠ [] → s.endComing c = false →
      (∀ x ∈ s.dir, x.st = .retiring → x.core ≠ c) → s.lru c = some e →
      e.key = k → s.takes k.slice (.timer true) = some s1 →
      Claim.Entered s (.capacityRetirement c) k (fun x => x.st = .retiring)) ∧
    (e.st = .retiring → e.dest = none → e.pend = [] → took 2 →
      (e.noWb = true → Claim.Gone s (.writeBackDone k) k) ∧
      (e.noWb = false → e.wait = .fetch → s1.stateCheck e e.desc .write = (v, .ok segs) → v.dir = s.dir →
        (v.writeBlock e segs true).2 = true → Claim.Gone s (.writeBackDone k) k)) ∧
    (c < nCores → e.core = c → took 4 → (s.core c).refused = [k] → (s.core c).places.length < 64 → e.st = .live →
      e.busy = false → e.pend = [m] → s.isFrozen k.part k.cls = false → s.permits m (clusOfCore c) = true →
      ∃ u x, exec (.roomNotice c) s = .next u ∧ u.entry? k = some x ∧ x.busy = true ∧ x.cur = some m ∧ x.pend = [] ∧
        (u.core c).refused = [] ∧ (u.core c).places.length = (s.core c).places.length + 1)

/-- R311, R313, R326: moves between packages. An import is recorded and cancelled; an offer finds its record, which
then awaits the state, or is turned down; the home entry is busy from MOVING to MOVED, which sets its new package; the source
is acknowledged, sends its state and its queue once nothing more is coming from home, here where no accesses before the messages
are under way, and forwards, or is free, once the destination has acknowledged them; what is carried goes ahead of the destination's
own messages, and waits while there are no slots for it. The order of these steps is the model's
reading (log 27), and so is the wait for slots (log 48). -/
def Obligations.MoveSteps : Prop :=
  ∀ (s s1 : State) (k : AKey) (e : Entry) (src dst home : Nat) (secs : List (Nat × List Byte)) (msgs : List Msg),
    let took (p : Nat) : Prop := s.takes k.slice (.notice 5 (BitVec.ofNat 9 p ++ (0 : BitVec 23))) = some s1
    let who (m : Msg) : BitVec 32 × BitVec 32 × Word × List Byte := (m.sender, m.seq, m.key, m.payload)
    (s.entry? k = none → s.cls? k.part k.cls ≠ none → (s.setOf k).length < 8 →
      Claim.Entered s (.importRecord k) k (fun x => x.st = .absent ∧ x.imp = true)) ∧
    (s.entry? k = none → (∃ u : State, exec (.exportOffer k src) s = .next u ∧ u.dir = s.dir) ∧
      exec (.importCancel k) s = .next s ∧ exec (.moving k src) s = .next s ∧ exec (.movingAck k) s = .next s ∧
      exec (.moveDone k) s = .next s ∧ exec (.moved k src dst) s = .next s ∧
      exec (.carriedState k src home secs msgs) s = .next s) ∧
    (s.entry? k = some e →
      exec (.importRecord k) s = .next (s.touch k) ∧
      (e.st = .absent → e.imp = true → Claim.Gone s (.importCancel k) k ∧ (took src →
        Claim.Entered s (.exportOffer k src) k (fun x => x.st = .activating ∧ x.wait = .carried ∧ x.src = some src))) ∧
      (e.st = .forward → e.fpkg = BitVec.ofNat 9 src → src < 512 → took src →
        Claim.Entered s (.moving k src) k (fun x => x.busy = true ∧ x.st = .forward) ∧
        (e.busy = true → e.pend = [] → Claim.Entered s (.moved k src dst) k (fun x =>
          x.busy = false ∧ x.fpkg = BitVec.ofNat 9 dst))) ∧
      (e.st = .retiring → e.dest = some dst → took e.home.toNat →
        Claim.Entered s (.movingAck k) k (fun x => x.st = .retiring ∧ x.acked = true) ∧
        (((s.core e.core).frameOf k).isSome = true → e.sent = false → (e.home = s.pkg ∨ s.comingFor k = false) → dst < 512 →
          s.routeTo dst ≠ none → s.agents = [] → s.hold = [] → s.outst = [] → Claim.Entered s (.movingAck k) k (fun x => x.sent = true ∧ x.pend = []))) ∧
      (e.st = .retiring → e.dest = some dst → e.sent = false → exec (.moveDone k) s = .next s) ∧
      (e.st = .retiring → e.dest = some dst → e.sent = true → e.pend = [] → took dst →
        (e.home = s.pkg → Claim.Entered s (.moveDone k) k (fun x => x.st = .forward ∧ x.fpkg = BitVec.ofNat 9 dst)) ∧
        (e.home ≠ s.pkg → Claim.Gone s (.moveDone k) k)) ∧
      (8192 < s.pendCount k.slice + msgs.length → exec (.carriedState k src home secs msgs) s = .next s) ∧
      (e.st = .activating → e.wait = .carried → e.src = some src → took src → e.came = [] →
        s.pendCount k.slice + msgs.length ≤ 8192 →
        Claim.Entered s (.carriedState k src home secs msgs) k (fun x => x.st = .activating ∧
          x.home = BitVec.ofNat 9 home ∧ x.carry = e.carry ++ secs ∧ x.came = [] ∧ x.pend.length = msgs.length + e.pend.length ∧
          x.pend.drop msgs.length = e.pend ∧ (x.pend.take msgs.length).map who = msgs.map who)))

/-! ## The device's own steps: slices of a cluster, clocks, the watchdog, errors -/

/-- What the rule of R45 for a change of partition leaves of a thread of cluster j. -/
def Claim.Cleared (u : State) (j : Nat) : Prop :=
  ∀ t ∈ clusThreads j, (u.thr t).spbase = 0 ∧ (u.thr t).splim = 0 ∧ stSeed (u.thr t).status = 1

/-- R45, R364, R374, R376-R378: a slice ends where two entries of the rotation are enabled, in effect or as written, and its cycles have passed; the cluster
then switches. A switch ends once nothing of the partition is left on the cluster: what the rule zeroes is zeroed, and the next
enabled entry without a debt runs for its own length at step 24, or the cap; with none enabled, the cluster runs nothing. How slices are counted is the model's reading (log 32). -/
def Claim.SliceSteps : Prop :=
  ∀ (s : State) (j : Nat), j < nClusters →
    let k := s.clus j
    let enabled (r : Vector Word 4) : Nat := (r.toList.filter (fun w => w.getLsbD 63)).length
    (k.switching = false → (s.runs j).isSome = true → 2 ≤ enabled k.rotEff ∨ 2 ≤ enabled k.rot →
      k.sliceBeg + k.sliceLen ≤ s.clusTime j →
      ∃ u : State, exec (.sliceEnd j) s = .next u ∧ u.clus j = { k with switching := true, switchAt := s.clusTime j } ∧
        u.mem = s.mem) ∧
    (k.switching = true ∨ s.runs j = none ∨ (enabled k.rotEff < 2 ∧ enabled k.rot < 2) ∨
      s.clusTime j < k.sliceBeg + k.sliceLen → exec (.sliceEnd j) s = .next s) ∧
    (k.switching = false ∨ s.drainedClus j = false → exec (.switchIn j) s = .next s) ∧
    (k.switching = true → s.drainedClus j = true → (∀ p, s.runs j = some p → (s.part p).pstate ≠ 2) →
      (∀ n : Fin 4, (k.rot[n]).getLsbD 63 = false) →
      ∃ u : State, exec (.switchIn j) s = .next u ∧ (u.clus j).switching = false ∧ u.runs j = none ∧
        (u.clus j).tapeCache = [] ∧ Claim.Cleared u j ∧ u.mem = s.mem.filter (fun c => !s.zeroed j c.1)) ∧
    (∀ n : Fin 4, k.switching = true → s.drainedClus j = true → (∀ p, s.runs j = some p → (s.part p).pstate ≠ 2) →
      n.val = (k.cur + 1) % 4 → (k.rot[n]).getLsbD 63 = true → k.debt[n] = 0 →
      (s.part ((k.rot[n]).extractLsb' 32 7).toNat).pstate ≠ 2 →
      ∃ u : State, exec (.switchIn j) s = .next u ∧ (u.clus j).switching = false ∧
        u.runs j = some ((k.rot[n]).extractLsb' 32 7).toNat ∧ (u.clus j).sliceBeg = s.clusTime j ∧
        (u.clus j).sliceLen = 1024 * max 1 ((k.rot[n]).extractLsb' 0 32).toNat ∧
        (u.clus j).eqstep = min 24 s.module.caps ∧ (u.clus j).tapeCache = [] ∧ Claim.Cleared u j)

/-- R6, R383-R385, R423: a cluster's clock at step n makes (48 + n) / 36 cycles in a mesh cycle. 4096 mesh cycles after a step its clock follows, no cycle lost; a step that has stood for 2^24 mesh cycles moves by one
towards 24, under the cap; a temperature caps every step, one more for each sample above 7500 W, and one above 45 resets the package. That EQSTEP reads the new step at once, and to which range a boundary temperature belongs, is the model's choice (log 33). -/
def Claim.ClockSteps : Prop :=
  ∀ (s : State) (j inlet watts n at_ d : Nat) (rest : List (Nat × Nat)), j < nClusters →
    let k := s.clus j
    let thermal := if inlet ≤ 30 then 36 else if inlet ≤ 35 then 24 else if inlet ≤ 40 then 16 else 8
    (k.tickAt ≤ s.mesh → ({ s with mesh := s.mesh + 36 * d } : State).clusTime j = s.clusTime j + d * (48 + k.clkstep)) ∧
    (k.eqNext = (n, at_) :: rest → at_ ≤ s.mesh → ∃ u : State, exec (.clockStepEffective j) s = .next u ∧
      (u.clus j).clkstep = n ∧ (u.clus j).eqNext = rest ∧ (u.clus j).eqstep = k.eqstep ∧
      u.clusTime j = s.clusTime j ∧ u.mem = s.mem) ∧
    (k.eqNext = [] ∨ (k.eqNext = (n, at_) :: rest ∧ s.mesh < at_) → exec (.clockStepEffective j) s = .next s) ∧
    (s.mesh < k.eqSince + 2 ^ 24 → exec (.stepDrift j) s = .next s) ∧
    (k.eqSince + 2 ^ 24 ≤ s.mesh → ∃ u : State, exec (.stepDrift j) s = .next u ∧
      (24 < k.eqstep → (u.clus j).eqstep + 1 = k.eqstep) ∧
      (k.eqstep < 24 → k.eqstep < s.module.caps → (u.clus j).eqstep = k.eqstep + 1) ∧
      (24 < k.eqstep ∨ k.eqstep < min 24 s.module.caps →
        (u.clus j).eqNext = k.eqNext ++ [((u.clus j).eqstep, s.mesh + 4096)] ∧ (u.clus j).clkstep = k.clkstep) ∧
      (k.eqstep = 24 → u = s)) ∧
    (45 < inlet → ∃ u : State, exec (.powerSample inlet watts) s = .next u ∧ u.threads = State.reset.threads ∧
      u.mesh = 0 ∧ u.pkg = s.pkg) ∧
    (inlet ≤ 45 → ∃ u : State, exec (.powerSample inlet watts) s = .next u ∧ u.mem = s.mem ∧
      u.module.caps = (if watts ≤ 7500 then thermal else thermal - (s.module.extra + 1)) ∧
      (u.clus j).eqstep = min k.eqstep u.module.caps)

/-- Slices, switches and clock steps of a cluster: `Claim.SliceSteps`, `Claim.ClockSteps`. -/
def Obligations.ClusterSteps : Prop := Claim.SliceSteps ∧ Claim.ClockSteps

/-- R348, R372, R373, R386, R389: a unit whose watchdog has counted its budget fails with cause 0x20, and no other; until it
does, its thread issues nothing. The count stands still while the thread is halted. An error of a thread's registers, queues or instruction buffer is a hardware
error of its unit. A corrected error is counted; an error in HBM poisons its sector and one in a tile or an
accumulator poisons it; one in a cache drops its copies. A scrub moves to the next sector when it is due. The position of the scrubber is the model's reading (log 29). -/
def Obligations.ErrorSteps : Prop :=
  ∀ (s : State) (t c n a : Nat) (x : UnitInfo) (x0 : Nat) (sub_ : BitVec 8) (line : Nat), t < nThreads → c < nCores →
    ((s.thr t).unit = none → exec (.watchdogExpire t) s = .next s) ∧
    ((s.thr t).unit = some x → s.budget x = 0 ∨ x.start = none ∨ x.step3 = true ∨
      x.counted (s.time (coreOf t)) < s.budget x → exec (.watchdogExpire t) s = .next s) ∧
    ((s.thr t).unit = some x → s.budget x ≠ 0 → x.start = some x0 → x.since = none → x.step3 = false →
      s.budget x ≤ s.time (coreOf t) - x0 - x.halted → s.mayTake t = false ∧
      exec (.watchdogExpire t) s = .next (s.failUnit t
        { s.threadRec t 0x20 0 with
          info0 := BitVec.ofNat 64 (s.budget x), info1 := BitVec.ofNat 64 (s.time (coreOf t) - x0 - x.halted) } false)) ∧
    (sub_ = 1 ∨ sub_ = 5 ∨ sub_ = 6 → line < 4096 → exec (.softError (.thread t sub_ line)) s = .next (s.failUnit t
      { s.threadRec t 0x22 sub_.toNat with info0 := BitVec.ofNat 64 line } true)) ∧
    exec (.softError (.corrected c)) s = .next (s.updCore c (fun k => { k with
      cerrcnt := if k.cerrcnt.toNat < 0xFFFFFFFF then k.cerrcnt + 1 else k.cerrcnt })) ∧
    (a < hbmEnd → ∃ u : State, exec (.softError (.hbm a)) s = .next u ∧ u.mem = s.mem ∧
      u.poisoned (mkPa s.pkg a) 1 = true) ∧
    (n < 16 → ∃ u : State, exec (.softError (.tile c n)) s = .next u ∧ u.mem = s.mem ∧ n ∈ (u.core c).poisonT) ∧
    (n < 8 → ∃ u : State, exec (.softError (.acc c n)) s = .next u ∧ u.mem = s.mem ∧ n ∈ (u.core c).poisonA) ∧
    (∃ u : State, exec (.softError (.l1 c)) s = .next u ∧ u.mem = s.mem ∧ (u.core c).l1 = []) ∧
    (n < nChips → ∃ u : State, exec (.softError (.l2 n)) s = .next u ∧ u.mem = s.mem ∧ u.l2Of n = []) ∧
    (n < 16 → s.mesh / 1024 % 52035584 ≠ tget 0 s.scrub n →
      exec (.scrub n) s = .next { s with scrub := tset s.scrub n ((tget 0 s.scrub n + 1) % 52035584) }) ∧
    (n < 16 → s.mesh / 1024 % 52035584 = tget 0 s.scrub n → exec (.scrub n) s = .next s)

/-! ## The device's own steps: translation -/

/-- R342, R350-R353: a walk enters the leaf that it finds in the core's rights cache, and one whose page is away or of an address
that is not mapped fills nothing; an invalidation with GO, unless one is in progress, takes away exactly the leaves that it names, and the lines of the largest page that can hold its address, BUSY then reading 0 once
no access of before is left. Which leaf a full cache gives up is the model's choice (log 18). -/
def Claim.LeafSteps : Prop :=
  ∀ (s v : State) (c p : Nat) (asid : BitVec 16) (va x : Word) (f : Leaf), c < nCores → p < nParts →
    let ctx : Ctx := ⟨s.coreAgent c, c, some p, asid, privU, none, [], 0⟩
    let fields (s : State) : State := s.updPart p (fun k => { k with xinvcmd := x &&& 0x0000FFFF00060000#64 })
    (va.toNat < vaEnd → s.migrating p asid va.toNat = false → leafFind (s.core c).rights p asid va.toNat = none →
      (s.leafOf ctx p va.toNat = (v, some f) → pteAway f.pte = false → exec (.walk c p asid va) s =
        .next (v.updCore c (fun k => { k with rights := f :: k.rights.take 63 }))) ∧
      (s.leafOf ctx p va.toNat = (v, some f) → pteAway f.pte = true → exec (.walk c p asid va) s = .next v) ∧
      (s.leafOf ctx p va.toNat = (v, none) → exec (.walk c p asid va) s = .next v)) ∧
    ((leafFind (s.core c).rights p asid va.toNat).isSome = true → exec (.walk c p asid va) s = .next s) ∧
    (let ours (q : Nat) (a : BitVec 16) : Prop := q = p ∧ (x.getLsbD 18 = true ∨ a = x.extractLsb' 32 16)
      let named (g : Leaf) : Prop := ours g.part g.asid ∧
        (x.getLsbD 17 = true ∨ g.base ≤ (s.part p).xinvva.toNat ∧ (s.part p).xinvva.toNat < g.base + g.size)
      (x.getLsbD 0 = true → s.xinvBusy p = false → ∃ u : State, exec (.xinvcmd p x) s = .next u ∧
        ((u.part p).xinvcmd).getLsbD 0 = false ∧ (∀ y, y ∈ u.tcache ↔ y ∈ s.tcache ∧ ¬ named y.leaf) ∧
        (∀ d g, g ∈ (u.core d).rights ↔ g ∈ (s.core d).rights ∧ ¬ named g) ∧
        (s.agents = [] → (∀ d, ∀ l ∈ (u.core d).l1, l ∈ (s.core d).l1 ∧ ¬ (ours l.part l.asid ∧
            (x.getLsbD 17 = true ∨ 192 * l.vline / (3 * 2 ^ 26) = (s.part p).xinvva.toNat / (3 * 2 ^ 26)))) ∧
          (s.outst = [] → (u.xinvRead p).getLsbD 16 = false))) ∧
      (x.getLsbD 0 = false ∨ s.xinvBusy p = true → exec (.xinvcmd p x) s = .next (fields s)))

/-- R354, R355, R413: an access to a page that is away enters a request in the table and sends a group of twelve requests under the partition's PASID; it waits.
The response to a request takes it off the list; one of an older generation, or of a revoked PASID, is
counted in PRDROP; accesses that joined see the answer, and one that sees a failure finds its page unmapped. A response to no request changes nothing. Log 20 says how long an answer stands. -/
def Claim.PageSteps : Prop :=
  ∀ (s v : State) (i va : Nat) (ok w : Bool) (q : PageReq) (x : Ctx) (acc : Acc) (p : Nat),
    (s.pagereq = [] → (s.part p).binding = false →
      let b := (s.part p).hostbind
      let port := if b.getLsbD 48 then 1 else 0
      ∃ u : State, s.pageWait (x.joiner va) p x.asid va w = (u, false) ∧
        u.pagereq = [(0, ⟨p, x.asid, va / 49152, (s.part p).pgen.extractLsb' 0 16, port, 0, [x.joiner va]⟩)] ∧
        (u.port port).pri = (s.port port).pri ++
          (List.range 12).map (fun n => ⟨0, b.extractLsb' 0 20, 12 * (va / 49152) + n, w⟩)) ∧
    (x.part = some p → s.migrating p x.asid va = false → s.pageFailed (x.joiner va) p x.asid va = true →
      (s.xlate x acc va).2 = .unmapped) ∧
    (s.pagereq.find? (fun e => decide (e.1 < answered) && e.1 == i) = none → exec (.pageResponse i ok) s = .next s) ∧
    (s.pagereq.find? (fun e => decide (e.1 < answered) && e.1 == i) = some (i, q) → s.portWrites q.port = (v, true) →
      v.part q.part = s.part q.part →
      (q.gen ≠ (s.part q.part).pgen.extractLsb' 0 16 ∨ v.pasidRevoked q.part = true → ∃ u : State,
        exec (.pageResponse i ok) s = .next u ∧
        u.pagereq = tdel v.pagereq i ∧ u.mem = v.mem ∧ (u.part q.part).prdrop =
          (if (s.part q.part).prdrop.toNat < 0xFFFFFFFF then (s.part q.part).prdrop + 1 else (s.part q.part).prdrop)) ∧
      (q.gen = (s.part q.part).pgen.extractLsb' 0 16 → v.pasidRevoked q.part = false → v.dir = [] →
        v.adds = [] → (q.joined = [] → exec (.pageResponse i ok) s = .next { v with pagereq := tdel v.pagereq i }) ∧
        (q.joined ≠ [] → ∃ u : State, exec (.pageResponse i ok) s = .next u ∧ u.mem = v.mem ∧
          ∃ e ∈ u.pagereq, answered ≤ e.1 ∧ e.2 = { q with ans := if ok then 1 else 2 }))) ∧
    (∀ w, s.pagereq.find? (fun e => decide (e.1 < answered) && e.1 == i) = some (i, q) → s.portWrites q.port = (w, false) →
      exec (.pageResponse i ok) s = .next s)

/-- Walks, invalidation and page responses: `Claim.LeafSteps`, `Claim.PageSteps`. -/
def Obligations.TranslationSteps : Prop := Claim.LeafSteps ∧ Claim.PageSteps

/-- R356-R358: a write of MIGCMD with GO starts the migration of a page that may move, BUSY then reading 1, and one that fails
its check says why in RESULT; of one while a migration is in progress only the ASID is taken. A migration is over once the page is drained and no copy that has begun on it is left; where nothing
of a page of this package's memory is poisoned, every byte of the new page is the byte of the old one and the entry names the new
page; else RESULT is 5 and nothing moves. The drain is the model's reading (log 39), and RESULT 5 for a page that cannot be read its
choice (log 53). -/
def Obligations.PageMigration : Prop :=
  ∀ (s : State) (p : Nat) (x : Word) (m : Migration), p < nParts →
    let k := s.part p
    let asid := x.extractLsb' 32 16
    let src := (m.pte.extractLsb' 0 52).toNat
    let at_ := s.target (some p) privS src m.pte
    (k.migcmd.getLsbD 15 = true → exec (.migcmd p x) s = .next (s.updPart p (fun k => { k with
      migcmd := (x &&& 0x0000FFFF00000000#64) ||| (k.migcmd &&& 0x00000000000F8000#64) }))) ∧
    (k.migcmd.getLsbD 15 = false → x.getLsbD 0 = true →
      (∀ r, r < 16 → s.migCheck p asid = .inl r → ∃ u : State, exec (.migcmd p x) s = .next u ∧ u.mem = s.mem ∧
        ((u.part p).migcmd.extractLsb' 16 4).toNat = r ∧ (u.part p).migcmd.getLsbD 15 = false ∧
        (u.part p).migration = k.migration) ∧
      (∀ base size e a, s.migCheck p asid = .inr (base, size, e, a) → ∃ u : State, exec (.migcmd p x) s = .next u ∧
        u.mem = s.mem ∧ (u.part p).migcmd.getLsbD 15 = true ∧
        (u.part p).migration = some ⟨asid, base, size, e, a, k.migdst.toNat⟩)) ∧
    (k.migration = none → exec (.migrationCopy p) s = .next s) ∧
    (k.migration = some m → s.copiesBegun p m = true → exec (.migrationCopy p) s = .next s) ∧
    (k.migration = some m → s.copiesBegun p m = false → s.agents = [] → s.hold = [] → s.MemWf →
      (∀ t, at_ = .ok t → t = .mem src m.pte ∧ s.isPeer src = false) →
      ∃ u : State, exec (.migrationCopy p) s = .next u ∧ (u.part p).migration = none ∧
        (u.part p).migcmd.getLsbD 15 = false ∧
        ((∀ t, at_ ≠ .ok t) → u.mem = s.mem ∧ ((u.part p).migcmd.extractLsb' 16 4).toNat = 5) ∧
        (at_ = .ok (.mem src m.pte) → (∃ a ∈ s.poison, src < a + 48 ∧ a < src + m.size) →
          u.mem = s.mem ∧ ((u.part p).migcmd.extractLsb' 16 4).toNat = 5) ∧
        (at_ = .ok (.mem src m.pte) → m.size ≤ s.extent (.mem src m.pte) → s.poison = [] → (∀ i < m.size, ∀ j < m.size, src + i ≠ m.dst + j) →
          (∀ i < m.size, ∀ j < 8, m.dst + i ≠ m.pteAt + j) →
          u.rdBytes m.pteAt 8 = bytesOfNat 8 ((m.pte &&& 0xFFF0000000000000#64) ||| BitVec.ofNat 64 m.dst).toNat ∧
          ∀ i < m.size, u.rd (m.dst + i) = s.rd (src + i)))

/-! ## The device's own steps: registers, classes, jobs, debug -/

/-- R40-R43, R316, R336, R340, R383: a write of POOLCFG or FRAMECFG in the bounds that the rule gives takes effect while the core is
quiescent, as core 0 is with the boot thread alone, and another only sets REJ; a change of the pools empties the L1, and a line of the pool keeps its bytes wherever it then has its address; a write of EQCFG out of bounds is ignored.
The resident window shows the threads' frame registers; where it lies is the model's choice (log 52). -/
def Claim.RegionSteps : Prop :=
  ∀ (s : State) (c p : Nat) (x : Word), c < nCores → p < nParts →
    let b0 := (x.extractLsb' 0 13).toNat
    let b1 := (x.extractLsb' 16 13).toNat
    let b2 := (x.extractLsb' 32 13).toNat
    let o0 := ((s.core c).poolcfg.extractLsb' 0 13).toNat
    let o1 := ((s.core c).poolcfg.extractLsb' 16 13).toNat
    let mn := (x.extractLsb' 0 6).toNat
    let mx := (x.extractLsb' 8 6).toNat
    let fits := 152 ≤ b0 ∧ b0 ≤ b1 ∧ b1 ≤ b2 ∧ b2 ≤ 4096 ∧ b0 % 8 = 0 ∧ b1 % 8 = 0 ∧ b2 % 8 = 0
    (fits → s.quiescent c = true → ∃ u : State, exec (.poolcfgWrite c x) s = .next u ∧
      (u.core c).poolcfg = x &&& 0x00001FFF1FFF1FFF#64 ∧ (u.core c).l1 = [] ∧ u.hold = s.hold ∧
      (s.MemWf → (∀ a, a < mkPa s.pkg (coreBase c) ∨ mkPa s.pkg (arrBase c) ≤ a → u.rd a = s.rd a) ∧
        (152 ≤ o0 → o0 ≤ o1 → o1 ≤ 4096 → ∀ n a a', 192 * 152 ≤ n → poolAddr c o0 o1 n = some a →
          poolAddr c b0 b1 n = some a' → u.rd (mkPa s.pkg a') = s.rd (mkPa s.pkg a)))) ∧
    (¬ fits ∨ s.quiescent c = false → exec (.poolcfgWrite c x) s = .next (s.updCore c (fun k =>
      { k with poolcfg := k.poolcfg ||| 0x0001000000000000#64 }))) ∧
    State.reset.quiescent 0 = true ∧
    (∀ t < 4, ∀ k < 8, ∀ i < 16, s.regpRead c (192 * (152 + 8 * t + k) + 8 * i) =
      (s.thr (4 * c + t)).window (8 + 16 * k + i)) ∧
    (b0 ≤ b1 → s.quiescent c = true → exec (.framecfgWrite c x) s = .next (s.updCore c (fun k => { k with
      framecfg := x &&& 0x000000001FFF1FFF#64 }))) ∧
    (b1 < b0 ∨ s.quiescent c = false → exec (.framecfgWrite c x) s = .next (s.updCore c (fun k =>
      { k with framecfg := k.framecfg ||| 0x0001000000000000#64 }))) ∧
    (mn ≤ mx → mx ≤ 36 → exec (.eqcfgWrite p x) s = .next (s.updPart p (fun k =>
      { k with eqcfg := x &&& 0x8000000000003F3F#64 }))) ∧
    (mx < mn ∨ 36 < mx → exec (.eqcfgWrite p x) s = .next s)

/-- R8, R264, R324, R325: a class command that is not an install or a clear, or of a class above 4095, is rejected; an install whose
descriptor stands freezes its class until no run of it is left, and the descriptor then takes effect with the next version, its reserved bits 0, the
freeze over and the suppression of the class's tapes lifted, once it stands in the class table; a clear takes away the entry only of a failed actor. Where the descriptor is read, and that one whose table address fails a check is not written, is the model's reading (log 40). -/
def Obligations.ClassSteps : Prop :=
  ∀ (s v : State) (p : Nat) (c : BitVec 16) (d : BitVec 768) (f : Freeze), p < nParts →
    let w := (s.part p).clscmd
    let reserved : BitVec 768 := (31#768 <<< 675) ||| (15#768 <<< 668) ||| (63#768 <<< 658)
    let new : BitVec 768 :=
      ((((s.cls? p c).map cdVer).getD 0 + 1 : BitVec 16) ++ f.desc.extractLsb' 0 752 : BitVec 768) &&& ~~~reserved
    let ends (s : State) (rej : Bool) : State := s.updPart p (fun k => { k with
      clscmd := (k.clscmd &&& 0x3FFFF#64) ||| (if rej then 0x80000#64 else 0) })
    (w.getLsbD 18 = false ∨ w.extractLsb' 0 16 ≠ c →
      exec (.classInstall p c) s = .next s ∧ exec (.classClear p c) s = .next s) ∧
    (w.getLsbD 18 = true → w.extractLsb' 0 16 = c →
      (2 ≤ (w.extractLsb' 16 2).toNat ∨ ((w.extractLsb' 16 2).toNat = 0 ∧ 4096 ≤ c.toNat) → s.isFrozen p c = false →
        exec (.classInstall p c) s = .next (ends s true)) ∧
      ((w.extractLsb' 16 2).toNat = 0 → c.toNat < 4096 → s.isFrozen p c = false → s.staged p = (v, .ok d) →
        (v.badDesc p d = true → exec (.classInstall p c) s = .next (ends v true)) ∧
        (v.badDesc p d = false → exec (.classInstall p c) s = .next (v.updPart p (fun k =>
          { k with frozen := tset k.frozen c.toNat ⟨1, d, []⟩ })))) ∧
      ((w.extractLsb' 16 2).toNat = 0 → c.toNat < 4096 → s.isFrozen p c = false → s.staged p = (v, .bad) →
        exec (.classInstall p c) s = .next (ends v true)) ∧
      ((w.extractLsb' 16 2).toNat = 0 → c.toNat < 4096 → s.isFrozen p c = false → s.staged p = (v, .wait) →
        exec (.classInstall p c) s = .next v) ∧
      ((w.extractLsb' 16 2).toNat = 1 →
        (∀ e, s.entry? ⟨p, c, (s.part p).clsarg⟩ = some e → e.st = .failed → ∃ u : State,
          exec (.classClear p c) s = .next u ∧ u.dir = s.dir.filter (fun x => x.key != e.key) ∧
          (u.part p).clscmd = w &&& 0x3FFFF#64) ∧
        (∀ e, s.entry? ⟨p, c, (s.part p).clsarg⟩ = some e → e.st ≠ .failed →
          exec (.classClear p c) s = .next (ends s true)) ∧
        (s.entry? ⟨p, c, (s.part p).clsarg⟩ = none → exec (.classClear p c) s = .next (ends s true)))) ∧
    ((s.part p).frozen = [] → exec (.installResume p c) s = .next s) ∧
    ((s.part p).frozen = [(c.toNat, f)] → f.step = 1 → s.classRuns p c = true → exec (.installResume p c) s = .next s) ∧
    ((s.part p).frozen = [(c.toNat, f)] → f.step = 1 → s.classRuns p c = false → s.writeTable p c new = (v, false) →
      exec (.installResume p c) s = .next v) ∧
    ((s.part p).frozen = [(c.toNat, f)] → f.step = 1 → f.hold = [] → s.dir = [] → s.writeTable p c new = (v, true) →
      v.part p = s.part p → v.dir = [] → ∃ u : State,
      exec (.installResume p c) s = .next u ∧ (u.part p).frozen = [] ∧ (u.part p).clscmd.getLsbD 18 = false ∧
      u.cls? p c = some new ∧ (∀ y ∈ (u.part p).tapeCtl, y.cls = c → y.supp = false) ∧ u.mem = v.mem)

/-- R282-R284, R370: JOBCMD resets a job's entry, or cancels the job: its CANC is set, and no message of it that has not left stays in
a thread's outbound queue. Every job number has an entry (log 34). -/
def Claim.JobSteps : Prop :=
  ∀ (s : State) (p : Nat), p < nParts →
    let j : BitVec 16 := (s.part p).jobsel.setWidth 16
    (∃ u : State, exec (.jobReset p) s = .next u ∧ u.mem = s.mem ∧ ((u.part p).job j).canc = false ∧
      ((u.part p).job j).drop = 0 ∧ ((u.part p).job j).out = ((s.part p).job j).out) ∧
    ∃ u : State, exec (.jobCancel p) s = .next u ∧ ((u.part p).job j).canc = true ∧
      ∀ t, ∀ o ∈ (u.thr t).outq, o.msg.part = p → o.msg.job = j → o.st = .sent

/-- R173, R381, R372: a halt of a thread between instructions halts it, DBGPC holding its PC, a waiting instruction given up, a SLEEP keeping its end and the watchdog standing still; before a unit
it waits for the unit's first instruction; RESUME lets it issue; STEP lets one instruction issue, and is nothing on a running thread.
R391: a lookup finds the entry that the slice holds. Log 41 says where a halt takes effect. -/
def Claim.DebugSteps : Prop :=
  ∀ (s : State) (t n : Nat) (x : Word) (y : UnitInfo), t < nThreads → n < 16 →
    let k : AKey := ⟨(x.extractLsb' 16 7).toNat, x.extractLsb' 0 16, (s.slice n).dkey⟩
    ((s.thr t).unit = some y → y.step3 = false → (s.thr t).halted = false → ∃ u : State,
      exec (.debugHalt t) s = .next u ∧ (u.thr t).halted = true ∧ (u.thr t).dbgpc = (s.thr t).pc ∧
      (u.thr t).pc = (s.thr t).pc ∧ (u.thr t).waiting = none ∧ (u.thr t).canIssue = false ∧ u.mem = s.mem ∧
      (∀ m, (s.thr t).waiting = some (.sleep m) → (u.thr t).slept = some m) ∧
      ∀ z later, (u.thr t).unit = some z → s.time (coreOf t) ≤ later →
        z.counted later = z.counted (s.time (coreOf t))) ∧
    ((s.thr t).unit = none → exec (.debugHalt t) s = .next (s.updThr t (fun h => { h with haltReq := true }))) ∧
    (∃ u : State, exec (.debugResume t) s = .next u ∧ (u.thr t).halted = false ∧ (u.thr t).stepReq = false ∧
      (u.thr t).pc = (s.thr t).pc ∧ u.mem = s.mem) ∧
    ((s.thr t).halted = true → ∃ u : State, exec (.debugStep t) s = .next u ∧ (u.thr t).halted = false ∧
      (u.thr t).stepReq = true ∧ (u.thr t).pc = (s.thr t).pc ∧ u.mem = s.mem) ∧
    ((s.thr t).halted = false → exec (.debugStep t) s = .next (s.updThr t (fun h => h))) ∧
    (x.getLsbD 31 = true → ∃ u : State, exec (.debugLookup n x) s = .next u ∧ u.dir = s.dir ∧ u.mem = s.mem ∧
        (∀ e, s.entry? k = some e → k.slice = n → (u.slice n).dctl.getLsbD 29 = true ∧
          (u.slice n).dent[0] = e.bits.extractLsb' 0 64 ∧ (u.slice n).dent[1] = e.bits.extractLsb' 64 64 ∧
          (u.slice n).dent[2] = e.bits.extractLsb' 128 64) ∧
        (s.entry? k = none ∨ k.slice ≠ n → (u.slice n).dctl.getLsbD 29 = false ∧ (u.slice n).dent = Vector.replicate 3 0))

/-- Job commands, debug halts and lookups: `Claim.JobSteps`, `Claim.DebugSteps`. -/
def Obligations.JobAndDebug : Prop := Claim.JobSteps ∧ Claim.DebugSteps

/-- R7, R113, R334, R335, R432, R415: a write of a register by who may perform it: firmware writes TRAPVEC and a rotation's permissions; a thread
at U writes nothing, and one at S writes its own partition's registers and not another's; a port without the semaphore that writes an
owned resource is frozen and changes nothing else; a byte written to IFDROP clears the bits of that byte alone to which it writes 1. Writes without the right are dropped (log 19). -/
def Claim.RegisterWrites : Prop :=
  ∀ (s : State) (t p q : Nat) (x : Word) (strict : Bool) (b : Byte), t < nThreads → p < nParts → q < 2 →
    let trapvec := 0x300000 + 0xC000 * p
    (exec (.registerWrite .firmware trapvec x) s = .next (s.updPart p (fun k => { k with trapvec := x }))) ∧
    (∀ j < nClusters, exec (.registerWrite .firmware (0x18000000 + 0xC000 * j + 0x100) x) s =
      .next (s.setClus j { s.clus j with perm := (s.clus j).perm.set 0 x })) ∧
    ((s.thr t).priv = privU → ∀ off, exec (.registerWrite (.thread t) off x) s = .next s) ∧
    ((s.thr t).priv = privS → s.partOf t = p → exec (.registerWrite (.thread t) trapvec x) s =
      .next (s.updPart p (fun k => { k with trapvec := x }))) ∧
    ((s.thr t).priv = privS → s.partOf t ≠ p → exec (.registerWrite (.thread t) trapvec x) s = .next s) ∧
    ((s.port q).frozen = false → s.holds q = false → exec (.registerWrite (.port q) trapvec x) s =
      .next { s.setPort q { s.port q with frozen := true } with
        module := { s.module with frzcnt := s.module.frzcnt + 1 } }) ∧
    ((s.port q).frozen = true → ∀ off, exec (.registerWrite (.port q) off x) s = .next s) ∧
    ((s.port q).frozen = false → s.module.boot ≠ 7 → ∀ n < 64, ∀ k < 8,
      exec (.cxlPostedWrite q strict (mkPa s.pkg (ctlWin + 0x1B000000 + 0xC000 * q + 0x1010 + 64 * n + k)) [b]) s =
        .next (s.updIf q n (fun f => { f with drop := f.drop &&& ~~~(b.setWidth 64 <<< (8 * k)) })))

/-- Pool and frame registers, and who may write a register: `Claim.RegionSteps`, `Claim.RegisterWrites`. -/
def Obligations.RegisterSteps : Prop := Claim.RegionSteps ∧ Claim.RegisterWrites

/-! ## The device's own steps: host ports -/

/-- R7, R414-R416: a port that is not frozen takes MSEM where it is free or its own, with the lease that it writes, and not where the other
holds it, but that of two in one mesh cycle port 0 has it; a write of LEASE alone by the holder gives it a new lease; its release ends the other port's freeze; a lease that has run out frees MSEM, ends every freeze and stops the holder's ring.
A write of MRBASE starts a stopped ring again. A frozen port's writes are dropped. -/
def Claim.SemaphoreSteps : Prop :=
  ∀ (s : State) (p : Nat) (x : Word) (strict : Bool) (d : List Byte), p < 2 →
    let m := s.module
    let q := s.port p
    (q.frozen = false → m.held = true → m.owner = p → d.length = 4 →
      exec (.cxlPostedWrite p strict (mkPa s.pkg (ctlWin + 0x1C000004)) d) s =
        .next { s with module := { m with lease := BitVec.ofNat 32 (natOfBytes d) } }) ∧
    (q.frozen = false → (m.held = false ∨ m.owner = p ∨ (p = 0 ∧ m.takenAt = s.mesh)) →
      exec (.msemAcquire p x) s = .next { s with module := { m with
        held := true, owner := p, reqAt := s.mesh, lease := x.extractLsb' 32 32
        takenAt := if m.held = true ∧ m.owner = p then m.takenAt else s.mesh } }) ∧
    (q.frozen = true ∨ (m.held = true ∧ m.owner ≠ p ∧ ¬ (p = 0 ∧ m.takenAt = s.mesh)) →
      exec (.msemAcquire p x) s = .next s) ∧
    (q.frozen = false → m.held = true → m.owner = p → ∃ u : State, exec (.msemRelease p) s = .next u ∧
      u.module = { m with held := false } ∧ (u.port (1 - p)).frozen = false ∧ u.mem = s.mem) ∧
    (q.frozen = true ∨ m.held = false ∨ m.owner ≠ p → exec (.msemRelease p) s = .next s) ∧
    (m.held = false ∨ s.mesh < m.reqAt + 1024 * max 1 m.lease.toNat → exec .leaseExpire s = .next s) ∧
    (m.held = true → m.reqAt + 1024 * max 1 m.lease.toNat ≤ s.mesh → ∃ u : State, exec .leaseExpire s = .next u ∧
      u.module = { m with held := false } ∧ (u.port m.owner).mrstop = 1 ∧ (u.port 0).frozen = false ∧
      (u.port 1).frozen = false ∧ u.mem = s.mem) ∧
    (q.frozen = false → exec (.mrbaseWrite p x) s = .next (s.setPort p { q with mrbase := x, mrstop := 0 })) ∧
    (q.frozen = true → exec (.mrbaseWrite p x) s = .next s ∧ ∀ mask, exec (.batchrel p mask) s = .next s)

/-- R408-R411, R415, R420: a packet to an interface that is not bound freezes the port; one whose PASID, sequence, fields or room do not stand
is dropped and counted; another takes its place in the interface's buffer as a message with its fields (here one of a class without
a home map, whose home is this package), held where it says HOLD, until a write of BATCHREL releases it. A completion goes to its ring's next slot and sends the interface's MSI-X. When a payload is read is the model's choice (log 36). -/
def Claim.PacketSteps : Prop :=
  ∀ (s : State) (p n : Nat) (k : Packet) (mask : Word), p < 2 → n < 64 →
    let q := s.port p
    let f := q.iface n
    (q.frozen = true ∨ s.module.boot = 7 → exec (.packetSubmit p n k) s = .next s) ∧
    (q.frozen = false → s.module.boot ≠ 7 →
      (f.cfg.getLsbD 63 = false → exec (.packetSubmit p n k) s = .next { s.setPort p { q with frozen := true } with
        module := { s.module with frzcnt := s.module.frzcnt + 1 } }) ∧
      (f.cfg.getLsbD 63 = true →
        (k.pasid ≠ some (f.cfg.extractLsb' 0 20) ∨ f.cfg.getLsbD 62 = true ∨ k.hseq.setWidth 64 ≠ f.next ∨
            192 < k.len.toNat ∨ (k.flags.getLsbD 0 = true ∧ 32 < k.len.toNat) ∨ k.flags.extractLsb' 3 5 ≠ 0 ∨
            k.rsv7 ≠ 0 ∨ k.rsv60 ≠ 0 ∨ 32 ≤ f.buf.length →
          exec (.packetSubmit p n k) s = .next (s.updIf p n (fun f => { f with
            drop := if f.drop.toNat < 0xFFFFFFFF then f.drop + 1 else f.drop }))) ∧
        (k.pasid = some (f.cfg.extractLsb' 0 20) → f.cfg.getLsbD 62 = false → k.hseq.setWidth 64 = f.next →
          k.len.toNat ≤ 32 → k.flags = 3 → k.rsv7 = 0 → k.rsv60 = 0 → f.buf.length < 32 →
          (∀ b ∈ f.buf, b.known = true) →
          (∀ d, s.cls? (f.cfg.extractLsb' 32 7).toNat k.cls = some d → cdHmap d = 0) →
          ∃ u b, exec (.packetSubmit p n k) s = .next u ∧ u.mem = s.mem ∧ ((u.port p).iface n).buf = f.buf ++ [b] ∧
            ((u.port p).iface n).next = BitVec.ofNat 64 ((f.next.toNat + 1) % 2 ^ 32) ∧
            b.st = .held ∧ b.known = true ∧ b.pkg = s.pkg ∧ b.msg.cls = k.cls ∧ b.msg.key = k.key ∧ b.msg.sel = k.sel ∧ b.msg.len = k.len ∧
            b.msg.job = k.job ∧ b.msg.seq = k.hseq ∧ b.msg.host = true ∧ b.msg.sender = s.portAgent p ∧
            b.msg.part = (f.cfg.extractLsb' 32 7).toNat ∧
            b.msg.payload = (k.inl ++ List.replicate 32 0).take k.len.toNat))) ∧
    (q.frozen = false → ∃ u : State, exec (.batchrel p mask) s = .next u ∧
      (u.port p).batchcnt = BitVec.ofNat 64 ((q.batchcnt.toNat + 1) % 2 ^ 32) ∧
      (mask.getLsbD n = true → ∀ b ∈ ((u.port p).iface n).buf, b.st ≠ .held)) ∧
    (q.ceq.find? (fun e => e.1 == n) = none → exec (.completionEntry p n) s = .next s) ∧
    (∀ e, q.ceq.find? (fun e => e.1 == n) = some e →
      (f.csl = 0 → exec (.completionEntry p n) s = .next (s.setPort p { q with ceq := q.ceq.erase e })) ∧
      (f.csl ≠ 0 → (f.ctr.toNat + 2 ^ 32 - f.chd.toNat) % 2 ^ 32 = f.csl.toNat →
        exec (.completionEntry p n) s = .next s) ∧
      (f.csl ≠ 0 → (f.ctr.toNat + 2 ^ 32 - f.chd.toNat) % 2 ^ 32 ≠ f.csl.toNat → s.MemWf →
        ∃ u : State, exec (.completionEntry p n) s = .next u ∧ (u.port p).ceq = q.ceq.erase e ∧
          (u.port p).msix = q.msix ++ [n] ∧
          ((u.port p).iface n).ctr = BitVec.ofNat 64 ((f.ctr.toNat + 1) % 2 ^ 32) ∧
          u.rdBytes (hostKey (f.cfg.extractLsb' 0 20).toNat
            ((f.crb.toNat + 8 * (f.ctr.toNat % f.csl.toNat)) % 2 ^ 44)) 8 = bytesOfNat 8 e.2.toNat))

/-- The semaphore, packets and completion rings: `Claim.SemaphoreSteps`, `Claim.PacketSteps`. -/
def Obligations.PortSteps : Prop := Claim.SemaphoreSteps ∧ Claim.PacketSteps

/-! ## The device's own steps: the management rings (R416-R422, R430, R431) -/

/-- The port, the OP, and whether the command needs the semaphore, of a step that performs a command of a management ring. -/
def Claim.ring : Instr → Option (Nat × Nat × Bool)
  | .createPartition p | .destroyPartition p => some (p, 1, true)
  | .writeRotation p _ _ _ => some (p, 2, true)
  | .migratePartition p _ _ => some (p, 3, true)
  | .bindPort p | .unbindPort p => some (p, 4, true)
  | .bindInterface p _ _ _ _ | .revoke p _ => some (p, 5, true)
  | .writeRoute p _ _ => some (p, 6, true)
  | .firmwareImage p _ _ _ => some (p, 7, true)
  | .attestationQuote p _ => some (p, 8, false)
  | .readErrorRing p => some (p, 9, false)
  | _ => none

/-- The command at MRDONE of a port's ring. -/
def Claim.command (s : State) (p : Nat) : List Byte :=
  let q := s.port p
  s.rdBytes (busKey (q.mrbase.toNat + 64 * (q.mrdone.toNat % q.mrslots.toNat))) 64

/-- A port's ring has a command to perform. -/
def Claim.Rings (s : State) (p : Nat) : Prop :=
  let q := s.port p
  q.mrslots ≠ 0 ∧ q.mrstop.getLsbD 0 = false ∧ q.mrdone ≠ q.mrtail ∧ q.mrrbase ≠ 0

/-- Port p, which holds the semaphore, has the command of step i at MRDONE, in sequence and well laid out. -/
def Claim.Commands (s : State) (p : Nat) (i : Instr) : Prop :=
  let b := Claim.command s p
  Claim.Rings s p ∧ slotNat b 0 4 = (s.port p).mrdone.toNat % 2 ^ 32 ∧ slotNat b 6 8 = 0 ∧ s.module.boot ≠ 7 ∧
    (s.module.held = true ∧ s.module.owner = p) ∧ ∃ owned, Claim.ring i = some (p, slotNat b 4 6, owned)

/-- Step i performs the command at MRDONE, its effect the state v, and answers it. -/
def Claim.Answers (s : State) (p : Nat) (i : Instr) (v : State) (status n : Nat) (res : List Byte) : Prop :=
  let b := Claim.command s p
  exec i s = .next (v.respond p (slotNat b 0 4) (slotNat b 4 6) status n res false)

/-- R416-R418: a ring that is stopped, empty or without slots does nothing; one without a response ring stops with 1; a command out of
sequence is answered STATUS 3 and stops the ring; an OP that there is not, or that only a started package performs, is answered STATUS 1,
and one that needs the semaphore, from a port that does not hold it, STATUS 2, nothing else changing. A response is the command's
sequence number, its OP, the status, a count and the result, in the slot of the command; MRDONE then goes on. STATUS 1 for an OP that there is not is the model's reading (log 35). -/
def Claim.RingOrder : Prop :=
  ∀ (s : State) (i : Instr) (p op : Nat) (owned : Bool), Claim.ring i = some (p, op, owned) → p < 2 →
    let q := s.port p
    let b := Claim.command s p
    let code := slotNat b 4 6
    (q.mrslots = 0 ∨ q.mrstop.getLsbD 0 = true ∨ q.mrdone = q.mrtail → exec i s = .next s) ∧
    (q.mrslots ≠ 0 → q.mrstop.getLsbD 0 = false → q.mrdone ≠ q.mrtail → q.mrrbase = 0 →
      exec i s = .next (s.setPort p { q with mrstop := 0x101 })) ∧
    (Claim.Rings s p → slotNat b 0 4 ≠ q.mrdone.toNat % 2 ^ 32 → ∃ u : State, exec i s = .next u ∧
      (u.port p).mrstop = 0x301 ∧ (u.port p).mrdone = q.mrdone) ∧
    (Claim.Rings s p → slotNat b 0 4 = q.mrdone.toNat % 2 ^ 32 →
      (code = 0 ∨ 9 < code ∨ (s.module.boot = 7 ∧ code ≠ 7 ∧ code ≠ 9) → Claim.Answers s p i s 1 0 []) ∧
      (0 < code → code ≤ 9 → s.module.boot ≠ 7 → slotZero b 6 8 = true →
        (code ≠ op → exec i s = .next s) ∧
        (code = op → owned = true → s.module.held = false ∨ s.module.owner ≠ p → Claim.Answers s p i s 2 0 []))) ∧
    (∀ (v : State) (seq code status n : Nat) (res : List Byte), v.MemWf → res.length ≤ 52 →
      let r := v.respond p seq code status n res false
      let k := v.port p
      r.rdBytes (busKey (k.mrrbase.toNat + 64 * (k.mrdone.toNat % k.mrslots.toNat))) 64 =
        bytesOfNat 4 seq ++ bytesOfNat 2 code ++ bytesOfNat 1 status ++ [0] ++ bytesOfNat 4 n ++
          (res ++ List.replicate 52 0).take 52 ∧
      (r.port p).mrdone = BitVec.ofNat 64 ((k.mrdone.toNat + 1) % 2 ^ 32) ∧ (r.port p).mrstop = k.mrstop)

/-- R419, R430: a create of a partition that there is not, its arguments in order, makes one, RUNNING, with the windows of its image and the
next generation, every other register as at reset, its tape store of the build's size; a destroy takes it, and its actors, away once it runs on no cluster, its budget and step bounds 0. A destroy in two looks is the model's reading (log 35). -/
def Claim.PartitionChange : Prop :=
  ∀ (s : State) (p : Nat), p < 2 →
    let b := Claim.command s p
    let n := slotNat b 9 10
    let ws := winImage (s.rdBytes (busKey (slotNat b 16 24)) 128)
    (Claim.Commands s p (.createPartition p) → slotNat b 8 9 = 0 → n < nParts → slotZero b 10 16 = true →
      slotZero b 24 64 = true → slotNat b 16 24 % 64 = 0 →
      (s.partExists n = false → (∀ w ∈ ws.toList, winBad w = false) → Claim.Answers s p (.createPartition p)
        (s.setPart n { Part.init with
          pgen := BitVec.ofNat 64 (((s.part n).pgen.toNat + 1) % 65536), physw := ws, pstate := 1,
          tapeRoom := Config.tapeRoom n }) 0 0 []) ∧
      (s.partExists n = true ∨ (∃ w ∈ ws.toList, winBad w = true) → Claim.Answers s p (.createPartition p) s 1 0 [])) ∧
    (Claim.Commands s p (.destroyPartition p) → slotNat b 8 9 = 1 → n < nParts →
      (s.partExists n = false → Claim.Answers s p (.destroyPartition p) s 1 0 []) ∧
      (s.partExists n = true → s.partRuns n = true → ∃ u : State, exec (.destroyPartition p) s = .next u ∧
        ((s.part n).dying = false → (u.part n).pstate = 2 ∧ (u.part n).dying = true) ∧
        ((s.part n).dying = true → u = s)) ∧
      (s.partExists n = true → s.partRuns n = false → ∃ v : State, Claim.Answers s p (.destroyPartition p) v 0 0 [] ∧
        (v.part n).pstate = 0 ∧ (v.part n).unitbudget = 0 ∧ (v.part n).eqcfg = 0 ∧ (v.part n).pgen = BitVec.ofNat 64 (((s.part n).pgen.toNat + 1) % 65536) ∧
        ∀ e, e ∈ v.dir → e.key.part ≠ n)) ∧
    (Claim.Commands s p (.createPartition p) → slotNat b 8 9 = 1 → exec (.createPartition p) s = .next s) ∧
    (Claim.Commands s p (.destroyPartition p) → slotNat b 8 9 ≠ 1 → exec (.destroyPartition p) s = .next s)

/-- R374, R375, R380: a ring command writes a rotation or a permission register of a cluster; it moves a partition to other clusters, which
it leaves its own clusters for first. The arguments come with the step (log 35). -/
def Claim.ClusterCommands : Prop :=
  ∀ (s : State) (p j reg n : Nat) (x : Word) (cl : List Nat), p < 2 →
    (Claim.Commands s p (.writeRotation p j reg x) →
      (j < nClusters → reg % 8 = 0 → reg < 0x20 ∨ 0x100 ≤ reg ∧ reg < 0x128 → ∃ v : State,
        Claim.Answers s p (.writeRotation p j reg x) v 0 0 [] ∧ v.mem = s.mem ∧
        (∀ i : Fin 4, reg = 8 * i.val → (v.clus j).rot[i] = x &&& 0x8000007FFFFFFFFF#64) ∧
        (∀ i : Fin 5, reg = 0x100 + 8 * i.val → (v.clus j).perm[i] =
          if i.val = 4 then x &&& 0xC0000000FFFFFFFF#64 else x)) ∧
      (nClusters ≤ j ∨ reg % 8 ≠ 0 ∨ 0x128 ≤ reg → Claim.Answers s p (.writeRotation p j reg x) s 1 0 [])) ∧
    (Claim.Commands s p (.migratePartition p n cl) →
      ((s.part n).moveTo = [] → s.mayMove n cl = false → Claim.Answers s p (.migratePartition p n cl) s 1 0 []) ∧
      ((s.part n).moveTo = [] → s.mayMove n cl = true → s.partRuns n = true → cl ≠ [] → ∃ u : State,
        exec (.migratePartition p n cl) s = .next u ∧ (u.part n).moveTo = cl ∧ (u.part n).pstate = 2) ∧
      ((s.part n).moveTo = [] → s.mayMove n cl = true → s.partRuns n = false → ∃ v : State,
        Claim.Answers s p (.migratePartition p n cl) v 0 0 [] ∧ (v.part n).pstate = 1 ∧ (v.part n).moveTo = []) ∧
      ((s.part n).moveTo ≠ [] → (s.part n).pstate = 1 → Claim.Answers s p (.migratePartition p n cl)
        (s.updPart n (fun k => { k with moveTo := [] })) 0 0 []) ∧
      ((s.part n).moveTo ≠ [] → (s.part n).pstate ≠ 1 → exec (.migratePartition p n cl) s = .next s))

/-- R142, R400, R407, R412, R413, R431: the ring binds a partition to a port and a PASID and unbinds it, not while a page request of the partition
is outstanding; binds an interface, its sequence from 0; revokes a PASID at every interface that carries it, and until it is bound anew, its translations gone; and
writes a route, which new requests to that package wait for while old ones are not answered, MEMBERS of the build table then counting the pod. The arguments of OP 5 and 6 come with the step (log 35). -/
def Claim.BindCommands : Prop :=
  ∀ (s : State) (p q n k dst : Nat) (pasid : BitVec 20) (x : Word), p < 2 →
    let b := Claim.command s p
    let part := slotNat b 8 9
    let flg := slotNat b 9 10
    let pas := slotNat b 12 16
    let idle := ∀ e ∈ s.pagereq, e.1 < answered → e.2.part ≠ part
    let again (y : BitVec 20) : State := { s with module := { s.module with
      revoked := s.module.revoked.filter (fun z => z != y) } }
    (part < nParts → s.partExists part = true → flg / 2 % 64 = 0 → slotZero b 10 12 = true → slotZero b 16 64 = true →
      (Claim.Commands s p (.bindPort p) → flg < 128 → pas < 2 ^ 20 →
        (idle → Claim.Answers s p (.bindPort p) ((again (BitVec.ofNat 20 pas)).updPart part (fun k => { k with
          binding := false, hostbind := 0x8000000000000000#64 ||| BitVec.ofNat 64 (flg * 2 ^ 48 + pas) })) 0 0 []) ∧
        (¬ idle → exec (.bindPort p) s = .next (s.updPart part (fun k => { k with binding := true })))) ∧
      (Claim.Commands s p (.unbindPort p) → 128 ≤ flg → pas = 0 →
        (idle → Claim.Answers s p (.unbindPort p) (s.updPart part (fun k => { k with
          binding := false, hostbind := k.hostbind &&& 0x7FFFFFFFFFFFFFFF#64 })) 0 0 []) ∧
        (¬ idle → exec (.unbindPort p) s = .next (s.updPart part (fun k => { k with binding := true }))))) ∧
    (Claim.Commands s p (.bindPort p) → flg < 128 → nParts ≤ part ∨ s.partExists part = false ∨ 2 ^ 20 ≤ pas →
      Claim.Answers s p (.bindPort p) s 1 0 []) ∧
    (Claim.Commands s p (.bindInterface p q n k pasid) →
      (q < 2 → n < 64 → k < nParts → s.partExists k = true → Claim.Answers s p (.bindInterface p q n k pasid)
        ((again pasid).updIf q n (fun f => { f with
          cfg := 0x8000000000000000#64 ||| BitVec.ofNat 64 (k * 2 ^ 32 + pasid.toNat), next := 0 })) 0 0 []) ∧
      (2 ≤ q ∨ 64 ≤ n ∨ nParts ≤ k ∨ s.partExists k = false →
        Claim.Answers s p (.bindInterface p q n k pasid) s 1 0 [])) ∧
    (Claim.Commands s p (.revoke p pasid) → ∃ v : State, Claim.Answers s p (.revoke p pasid) v 0 0 [] ∧ v.mem = s.mem ∧
      pasid ∈ v.module.revoked ∧
      (tsorted s.ports = true → ∀ e ∈ s.ports, (∀ y ∈ (v.port e.1).xlat, y.1 ≠ pasid.toNat) ∧ ∀ m, ((v.port e.1).iface m).cfg =
        (let c := (e.2.iface m).cfg
        if c.getLsbD 63 = true ∧ c.extractLsb' 0 20 = pasid then c ||| 0x4000000000000000#64 else c))) ∧
    (Claim.Commands s p (.writeRoute p dst x) →
      (dst < 512 → ∃ v : State, Claim.Answers s p (.writeRoute p dst x) v 0 0 [] ∧
        v.route = tset s.route dst (x &&& 0x800000000000003F#64) ∧ v.mem = s.mem ∧ v.links = s.links ∧
        (∀ o ∈ s.outst, o.dpkg = dst → v.routeHeld dst 0 = true) ∧
        (s.build.length = 48 → v.build.getD 42 0 = buildHead 7 v.podSize ∧ ∀ i, i ≠ 42 → v.build.getD i 0 = s.build.getD i 0)) ∧
      (512 ≤ dst → Claim.Answers s p (.writeRoute p dst x) s 1 0 []))

/-- Ring commands on partitions, clusters and bindings: `Claim.PartitionChange`, `Claim.ClusterCommands`, `Claim.BindCommands`. -/
def Obligations.PartitionCommands : Prop := Claim.PartitionChange ∧ Claim.ClusterCommands ∧ Claim.BindCommands

/-- R390, R421, R422: a firmware image goes to its slot, and where it is activated the fused counter takes its SVN, as long as the image
stands; a quote, of 138 bytes and a signature of 17,088, and the firmware's error records, go to the buffer that the command names, where that is long enough. The image header and the order of a quote are the model's (log 6, 12). -/
def Claim.FirmwareCommands : Prop :=
  ∀ (s : State) (p : Nat) (slot : Fin 2) (act : Bool) (img : List Byte) (nonce : BitVec 256), p < 2 →
    let b := Claim.command s p
    let m := s.module
    let records := m.ring.flatMap (fun r => bytesOfNat 96 r.toNat)
    (Claim.Commands s p (.firmwareImage p slot act img) →
      (act = true → imageOk img m.fused = false → Claim.Answers s p (.firmwareImage p slot act img) s 1 0 []) ∧
      (act = false ∨ imageOk img m.fused = true → Claim.Answers s p (.firmwareImage p slot act img)
        { s with module := { m with
          slots := m.slots.set slot img, fused := if act then slotNat img 8 12 else m.fused } } 0 0 [])) ∧
    (s.quote nonce).length = 17226 ∧
    (Claim.Commands s p (.attestationQuote p nonce) →
      ((s.quote nonce).length ≤ slotNat b 16 20 → Claim.Answers s p (.attestationQuote p nonce)
        (s.wrBytes (busKey (slotNat b 8 16)) (s.quote nonce)) 0 (s.quote nonce).length []) ∧
      (slotNat b 16 20 < (s.quote nonce).length → Claim.Answers s p (.attestationQuote p nonce) s 1 0 [])) ∧
    (Claim.Commands s p (.readErrorRing p) →
      (records.length ≤ slotNat b 16 20 → Claim.Answers s p (.readErrorRing p)
        (s.wrBytes (busKey (slotNat b 8 16)) records) 0 records.length []) ∧
      (slotNat b 16 20 < records.length → Claim.Answers s p (.readErrorRing p) s 1 0 []))

/-- The management rings, firmware images and quotes: `Claim.RingOrder`, `Claim.FirmwareCommands`. -/
def Obligations.RingRules : Prop := Claim.RingOrder ∧ Claim.FirmwareCommands

/-! ## The device's own steps: the fabric, a host's requests and resets -/

/-- A flit put into the buffer of its lane on link l, and the state once an empty lane's flit has been taken from there. -/
def Claim.Buffered (s : State) (l : Nat) (f : Flit) : State :=
  s.setLink l (((s.link l).setLane f.vl.toNat ((s.link l).lane f.vl.toNat ++ [f])).signal f.vl.toNat)
def Claim.Taken (s : State) (l vl : Nat) : State := s.setLink l (((s.link l).setLane vl []).signal vl)

/-- R131, R132, R326, R360, R361, R395-R402: a flit that arrives on a link that is up: one of a type without a meaning is counted; another joins the buffer of its
lane, which holds 96, the far side being stopped at 64 and let go on at 32. One behind others, one that has to wait and the first of two flits stay there; else one for another
package goes on by the route table, or is refused with no path; a load of exported bytes is answered with them, and a store of them is performed and acknowledged; an access of a
partition that is not live is refused with 3, and of bytes that no window exports with 1; a message, of one flit or of two, is on its way to its slice; an answer that nothing awaits is counted. The payloads of flit types 1, 2 and 3 are the model's (log 22, 37, 51). -/
def Claim.FlitSteps : Prop :=
  ∀ (s u : State) (l n : Nat) (f g : Flit) (m : Msg), l < 36 →
    let k := s.link l
    let vl := f.vl.toNat
    let p := f.part.toNat
    let pa := f.addr.toNat
    let v := Claim.Taken s l vl
    let meant (f : Flit) : Prop := f.typ.toNat ∈ [1, 2, 3, 4, 5, 6, 8, 9, 10, 16, 17, 18, 19, 20, 21, 24]
    let long (f : Flit) : Prop := f.typ = 8 ∧ ∃ m ∈ f.msgs, 144 < m.len.toNat
    (k.up = false ∨ 96 ≤ (k.lane vl).length → exec (.flitReceive l f) s = .next s) ∧
    (k.up = true → (k.lane vl).length < 96 → ¬ meant f → exec (.flitReceive l f) s =
      .next (s.setLink l { k with bad := min 65535 (k.bad + 1) })) ∧
    (k.up = true → (k.lane vl).length < 96 → meant f →
      ((k.lane vl = [] ∧ (long f ∨ s.flitWaits f = true)) ∨
          (∃ h rest, k.lane vl = h :: rest ∧ ¬ long h ∧ s.flitWaits h = true) →
        exec (.flitReceive l f) s = .next (Claim.Buffered s l f) ∧
        (63 ≤ (k.lane vl).length → ((Claim.Buffered s l f).link l).stopped[vl]'(f.vl.isLt) = true)) ∧
      (k.lane vl = [] → ((v.link l).stopped[vl]'(f.vl.isLt) = false ∧ (v.link l).lane vl = [])) ∧
      (k.lane vl = [] → ¬ long f → s.flitWaits f = false →
        (f.dpkg ≠ s.pkg → v.pass f = (u, true) → exec (.flitReceive l f) s = .next u) ∧
        (f.dpkg ≠ s.pkg → v.pass f = (u, false) → exec (.flitReceive l f) s = .next (u.noPath f)) ∧
        (f.dpkg = s.pkg →
          (f.typ = 2 → f.data = [BitVec.ofNat 8 n] → n < 256 →
            (s.peerRefuses p false pa n = 0 → s.poisoned pa n = false → exec (.flitReceive l f) s =
              .next (v.reply f 0x04 0 (s.llcBytes pa n))) ∧
            (s.peerRefuses p false pa n = 0 → s.poisoned pa n = true → exec (.flitReceive l f) s =
              .next (v.reply f 0x06 5 [])) ∧
            (s.peerRefuses p false pa n ≠ 0 → exec (.flitReceive l f) s =
              .next (v.reply f 0x06 (s.peerRefuses p false pa n) []))) ∧
          (∀ b : Byte, f.typ = 1 → f.data = [0, b.extractLsb' 0 4 |>.setWidth 8, 1, b.extractLsb' 4 4 |>.setWidth 8] →
            s.peerRefuses p true pa 1 = 0 → s.MemWf → ∃ w : State, exec (.flitReceive l f) s = .next (w.reply f 0x05 0 []) ∧
              w.rd pa = b ∧ ∀ a, a ≠ pa → w.rd a = s.rd a) ∧
          (f.typ = 8 → f.msgs = [m] → s.partLive p = false → ∃ x : Flight, exec (.flitReceive l f) s =
            .next { v with flights := s.flights ++ [x] } ∧ x.msg.key = m.key ∧ x.msg.cls = m.cls ∧
            x.msg.payload = m.payload ∧ x.msg.part = p ∧ x.msg.via = f.sagent.extractLsb' 23 9) ∧
          (f.typ = 4 → s.outst? f.tag.toNat = none → exec (.flitReceive l f) s =
            .next (v.setLink l { v.link l with late := min 65535 (k.late + 1) })))) ∧
      (k.lane vl = [g] → long g → g.msgs = [m] → g.dpkg = s.pkg → f.dpkg = s.pkg → f.typ = 8 →
        s.partLive g.part.toNat = false → ∃ x : Flight, exec (.flitReceive l f) s =
          .next { v with flights := s.flights ++ [x] } ∧ x.msg.key = m.key ∧ x.msg.len = m.len ∧
          x.msg.payload = m.payload.take 144 ++ f.data)) ∧
    (s.partLive p = false → ∀ wr, s.peerRefuses p wr pa n = 3) ∧
    (p < nParts → s.partLive p = true → (∀ w ∈ (s.part p).pexp.toList, (w.2 &&& 0xC000000000000000#64) = 0) →
      ∀ wr, s.peerRefuses p wr pa n = 1)

/-- R395, R396, R398, R399: a resend is counted; after eight that failed of one flit the link goes down, and not before; a link that is down comes up
by training, its lanes going on. A lane that the far side stops sends no more; one that it lets go on sends what waited, in order, if the link is up. A message of more than 144 bytes leaves as two flits back to back, each with the mask of its sectors, and a carried state as flits of three sectors, or of a message, at most. When a flit leaves is the model's reading (log 37, 51). -/
def Claim.LinkSteps : Prop :=
  ∀ (s : State) (l n : Nat) (vl : BitVec 2) (f h : Flit) (m : Msg), l < 36 →
    let k := s.link l
    let down := s.setLink l { k with up := false, queue := [] }
    (k.up = true → n < k.replay.length → n ≠ 0 ∨ k.fails < 8 → exec (.flitResend ⟨l, n⟩) s = .next (s.setLink l { k with
      replayed := min (2 ^ 24 - 1) (k.replayed + 1), replay := k.replay.drop n
      fails := if n = 0 then k.fails + 1 else 1 })) ∧
    (k.up = true → k.replay ≠ [] → 8 ≤ k.fails → k.queue = [] → exec (.flitResend ⟨l, 0⟩) s = .next down) ∧
    (k.up = false ∨ k.replay.length ≤ n → exec (.flitResend ⟨l, n⟩) s = .next s) ∧
    (8 ≤ k.fails → k.up = true → k.queue = [] → exec (.linkDown l) s = .next down) ∧
    (8 ≤ k.fails → k.up = true → k.queue = [f] → exec (.linkDown l) s = .next (down.noPath f)) ∧
    (k.fails < 8 ∨ k.up = false → exec (.linkDown l) s = .next s) ∧
    (k.up = false → exec (.linkTrained l) s = .next (s.setLink l { k with
      up := true, fails := 0, replay := [], stop := Vector.replicate 4 false })) ∧
    (k.up = true → exec (.linkTrained l) s = .next s) ∧
    (exec (.flowStopGo l vl true) s = .next (s.setLink l { k with stop := k.stop.set vl.toNat true vl.isLt })) ∧
    (k.up = true → (∀ e ∈ s.links, ∀ b ∈ e.2.buf.toList, b = []) → ∃ u : State, exec (.flowStopGo l vl false) s = .next u ∧
      (u.link l).stop = k.stop.set vl.toNat false vl.isLt ∧
      (u.link l).sent = k.sent ++ k.queue.filter (fun f => f.vl == vl) ∧
      (u.link l).queue = k.queue.filter (fun f => f.vl != vl)) ∧
    (k.stop.toList.getD f.vl.toNat false = true ∨ k.up = false → k.put f = { k with queue := k.queue ++ [f] }) ∧
    (k.up = true → k.stop.toList.getD f.vl.toNat false = false → (∀ g ∈ k.queue, g.vl ≠ f.vl) →
      (k.put f).sent = k.sent ++ [f] ∧ (k.put f).queue = k.queue ∧
      (f.typ = 8 → f.msgs = [m] → 144 < m.len.toNat → m.payload.length ≤ 192 → s.routeHeld f.dpkg.toNat f.vl = false →
        s.routeTo f.dpkg.toNat = some l → ∃ u : State, s.emit f = (u, true) ∧ (u.link l).queue = k.queue ∧
        (u.link l).sent = k.sent ++ [{ f with msgs := [{ m with payload := m.payload.take 144 }], smask := 0xF },
          { f with msgs := [], data := m.payload.drop 144, smask := BitVec.ofNat 4 (2 ^ (((m.payload.drop 144).length + 47) / 48) - 1) }])) ∧
    (h.typ = 0x15 → (∀ m ∈ h.msgs, m.payload.length = m.len.toNat ∧ m.len.toNat ≤ 192) →
      (∀ g ∈ flitParts h, g.secs.length ≤ 3 ∧ g.msgs.length ≤ 1 ∧ (g.secs = [] ∨ g.msgs = []) ∧
        (∀ m ∈ g.msgs, m.payload.length ≤ 96) ∧ g.data.length ≤ 97) ∧
      (flitParts h).flatMap Flit.secs = h.secs)

/-- R134, R404-R406, R415, R420: a host's write of HBM, by CXL.io or in its port's range, is a store of the port's agent, and its read a load; a write
of 8 bytes of the control window is a register write; a CXL.mem access outside the port's range is answered as an unsupported request, and a write freezes the port; a frozen port writes nothing and its reads are aborted; a new range
waits until no CXL.mem request is outstanding, and those that arrive wait for it; where no image stands no memory is offered; an invalidation empties the port's translation cache. The cases without an effect are the model's reading (log 36). -/
def Claim.HostSteps : Prop :=
  ∀ (s : State) (p pa off n : Nat) (strict wr : Bool) (data : List Byte) (x : Word) (r : Word × Word), p < 2 →
    let q := s.port p
    let id := s.portAgent p
    let stored (s : State) (a : Nat) (rel : Option Nat) : State := { s.setAgent id { s.agent id with
      iq := (s.agent id).iq ++ [.store ⟨⟨s.serial, 0, 0, BitVec.ofNat 64 a, rel, default⟩, nibsOf a data⟩] } with
      serial := s.serial + 1 }
    let loaded (s : State) (a n : Nat) : State := { s.setAgent id { s.agent id with
      iq := (s.agent id).iq ++ [.load s.serial 0 (.port s.tags) (BitVec.ofNat 64 a) a n none] } with
      serial := s.serial + 1, tags := s.tags + 1 }
    let answered (s : State) (a : HostAns) : State := { s.hostReply p s.tags a with tags := s.tags + 1 }
    let w := s.setPort p { q with memOut := s.memLeft p }
    (q.frozen = true → exec (.cxlPostedWrite p strict pa data) s = .next s ∧
      exec (.cxlRead p pa n) s = .next (answered s .abort) ∧
      (q.hdmNew = none → exec (.cxlMemAccess p true off data) s = .next w ∧
        exec (.cxlMemAccess p false off data) s = .next (answered w .abort))) ∧
    (q.frozen = false → s.module.boot = 7 → paPkg pa = s.pkg.toNat →
      (paLocal pa + data.length ≤ hbmEnd → exec (.cxlPostedWrite p strict pa data) s = .next s) ∧
      (paLocal pa + n ≤ hbmEnd → exec (.cxlRead p pa n) s = .next (answered s .unsupported)) ∧
      (q.hdmNew = none → exec (.cxlMemAccess p wr off data) s = .next (answered w .unsupported))) ∧
    (q.frozen = false → s.module.boot ≠ 7 → paPkg pa = s.pkg.toNat →
      (paLocal pa + data.length ≤ hbmEnd → data ≠ [] → exec (.cxlPostedWrite p strict pa data) s =
        .next (stored s pa (if strict then some 6 else none))) ∧
      (paLocal pa + n ≤ hbmEnd → exec (.cxlRead p pa n) s = .next (loaded s pa n)) ∧
      (hbmEnd < paLocal pa + n → paLocal pa < ctlWin ∨ ctlEnd < paLocal pa + n → exec (.cxlRead p pa n) s =
        .next (answered s .unsupported)) ∧
      (data.length = 8 → ctlWin ≤ paLocal pa → paLocal pa + 8 ≤ ctlEnd → (paLocal pa - ctlWin) % 8 = 0 →
        exec (.cxlPostedWrite p strict pa data) s =
          exec (.registerWrite (.port p) (paLocal pa - ctlWin) (BitVec.ofNat 64 (natOfBytes data))) s ∧
        exec (.cxlRead p pa 8) s =
          .next (answered s (.data (bytesOfNat 8 (s.ctlRead (paLocal pa - ctlWin)).toNat))))) ∧
    (q.frozen = false → s.module.boot ≠ 7 → q.hdmNew = none → q.hdmsize.toNat < off + data.length →
      let v := answered w .unsupported
      exec (.cxlMemAccess p false off data) s = .next v ∧
      exec (.cxlMemAccess p true off data) s = .next { v.setPort p { v.port p with frozen := true } with
        module := { s.module with frzcnt := s.module.frzcnt + 1 } }) ∧
    (q.frozen = false → s.module.boot ≠ 7 → q.hdmNew = none → off + data.length ≤ q.hdmsize.toNat →
      let a := mkPa s.pkg (q.hdmbase.toNat + off)
      let u := if wr then stored w a none else loaded w a data.length
      exec (.cxlMemAccess p wr off data) s = .next (u.setPort p { u.port p with
        memOut := s.memLeft p ++ [(wr, if wr then s.serial else s.tags)] })) ∧
    (q.hdmNew = some r → s.memLeft p ≠ [] → exec (.cxlMemAccess p wr off data) s =
      .next (s.setPort p { q with memWait := q.memWait ++ [⟨wr, off, data⟩] })) ∧
    (q.frozen = false → s.holds p = true → q.hdmNew = none → s.memLeft p ≠ [] →
      hdmOk (x.toNat % 2 ^ 43) q.hdmsize.toNat = true → ∃ u : State,
        exec (.registerWrite (.port p) (0x1B000000 + 0xC000 * p) x) s = .next u ∧ (u.port p).hdmbase = q.hdmbase ∧
        (u.port p).hdmNew = some (BitVec.ofNat 64 (x.toNat % 2 ^ 43), q.hdmsize)) ∧
    exec (.atsInvalidation p) s = .next (s.setPort p { q with xlat := [] })

/-- Flits, links and the requests of a host: `Claim.FlitSteps`, `Claim.LinkSteps`, `Claim.HostSteps`. -/
def Obligations.FabricSteps : Prop := Claim.FlitSteps ∧ Claim.LinkSteps ∧ Claim.HostSteps

/-- The i-th cost field of a memory kind in every entry of the build table: its cycles and whether they equal the next lower scope's. -/
def Claim.costs (u : State) (kind i : Nat) : List (Nat × Bool) :=
  (List.range 8).map (fun sc =>
    let f := (u.ctlRead (48 * sc + 8 * (kind + 1))).extractLsb' (16 * i) 16
    ((f.extractLsb' 0 15).toNat, f.getLsbD 15))

/-- A cost of 0 at lgrp, then one that does not change from core on, marked so above it. -/
def Claim.flat (n : Nat) : List (Nat × Bool) := [(0, false), (n, false)] ++ List.replicate 6 (n, true)

/-- R140-R143: what the build table holds once firmware has populated it: MEMBERS, MASK and SC of every scope in a pod of one package, and the
costs of releases (fields 0 and 1) and of acquires (fields 2 and 3) by memory kind. -/
def Claim.BuildTable (u : State) : Prop :=
  (List.range 8).map (fun sc => ((u.ctlRead (48 * sc)).extractLsb' 0 24).toNat) =
    [8, 4, 32, 288, 576, 1152, 9216, 9216] ∧
  (List.range 8).map (fun sc => (u.ctlRead (48 * sc)).extractLsb' 32 32) =
    [0xFFFFFFFF#32, 0xFFFFF800#32, 0xFFFFC000#32, 0xFFFC0000#32, 0xFFF80000#32, 0xFFF00000#32, 0xFF800000#32, 0#32] ∧
  (List.range 8).map (fun sc => ((u.ctlRead (48 * sc)).extractLsb' 24 3).toNat) = [0, 1, 2, 3, 4, 5, 6, 7] ∧
  Claim.costs u 0 0 = Claim.flat 2 ∧ Claim.costs u 0 1 = Claim.flat 6 ∧
  Claim.costs u 1 0 = Claim.flat 6 ∧ Claim.costs u 1 1 = Claim.flat 18 ∧
  (∀ kind ∈ [2, 3, 4],
    (Claim.costs u kind 0).take 6 = [(0, false), (4, false), (18, false), (36, false), (70, false), (160, false)] ∧
    (Claim.costs u kind 1).take 6 = [(0, false), (12, false), (60, false), (110, false), (220, false), (480, false)] ∧
    Claim.costs u kind 2 = [(0, false), (0, true), (20, false)] ++ List.replicate 5 (20, true) ∧
    Claim.costs u kind 3 = [(0, false), (0, true), (40, false)] ++ List.replicate 5 (40, true)) ∧
  ((Claim.costs u 2 0).drop 6 = [(430, false), (430, true)] ∧ (Claim.costs u 2 1).drop 6 = [(1400, false), (1400, true)]) ∧
  ((Claim.costs u 3 0).drop 6 = [(430, false), (3100, false)] ∧ (Claim.costs u 3 1).drop 6 = [(1400, false), (32767, false)]) ∧
  ((Claim.costs u 4 0).drop 6 = [(1800, false), (1800, true)] ∧ (Claim.costs u 4 1).drop 6 = [(5400, false), (5400, true)]) ∧
  (∀ kind ∈ [0, 1], ∀ i ∈ [2, 3], Claim.costs u kind i = (0, false) :: List.replicate 7 (0, true))

/-- R46, R140-R143, R355, R419, R420: a cold reset takes its package number, and leaves everything of the package as State.reset has it, but for the host's memory, the
firmware's slots and fuses and its error ring; a warm reset keeps the package number and HBM, and gives every partition its next generation, page requests standing until they are answered. Where an image boots,
the build table is populated; with none, it reads zero. What a reset keeps beyond the rule, and that lost HBM reads 0, is the model's choice (log 7, 38, 48). -/
def Obligations.ResetSteps : Prop :=
  ∀ (s : State) (pkgid : BitVec 9),
    let booted (u : State) : Prop :=
      (u.module.boot = 7 ↔ imageOk s.module.slots[0] s.module.fused = false ∧
        imageOk s.module.slots[1] s.module.fused = false) ∧
      (u.module.boot = 7 → ∀ n < 48, u.ctlRead (8 * n) = 0) ∧ (u.module.boot ≠ 7 → Claim.BuildTable u)
    (∃ u : State, exec (.coldReset pkgid) s = .next u ∧
      u = { State.reset with
        pkg := pkgid, rom := s.rom, mem := u.mem, module := u.module, build := u.build, overTab := u.overTab,
        sideTab := u.sideTab } ∧
      (∀ a, u.rd a = if a < 2 ^ 52 then 0 else s.rd a) ∧ u.module.slots = s.module.slots ∧
      u.module.fused = s.module.fused ∧ u.module.ring = s.module.ring ∧ u.module.held = false ∧ booted u) ∧
    (∃ u : State, exec .warmReset s = .next u ∧
      u = { State.reset with
        pkg := s.pkg, rom := s.rom, mem := u.mem, poison := u.poison, module := u.module, parts := u.parts,
        pagereq := (s.pagereq.filter (fun e => decide (e.1 < answered))).map (fun e => (e.1, { e.2 with joined := [] })),
        build := u.build, overTab := u.overTab, sideTab := u.sideTab } ∧
      (s.MemWf → ∀ a, u.rd a = if 2 ^ 52 ≤ a ∨ paPkg a = s.pkg.toNat ∧ paLocal a < hbmEnd then s.rd a else 0) ∧
      booted u ∧
      ∀ p < nParts, u.part p = { Part.init with pgen := BitVec.ofNat 64 (((s.part p).pgen.toNat + 1) % 65536) })

/-! ## Reset, and the form of memory -/

/-- R46, R41, R316, R370, R374, R375, R383: after reset every thread's registers, windows, loops, guard slots and queues are as the rule's table
has them, STATUS holding SEED 1 and privilege M; every core's pool and frame registers, every partition's budget and step bounds, and every
cluster's rotation, step and permissions are at their reset values; scratchpads read zero; thread 0 alone has a unit. -/
def Obligations.ResetState : Prop :=
  (∀ t < nThreads, let h := State.reset.thr t
    h.status = 0x0000000100000002 ∧ h.globals = Vector.replicate 8 0 ∧ h.frame = Vector.replicate 16 0 ∧
    h.pass = Vector.replicate 8 0 ∧ h.outer = [] ∧ h.sd = 0 ∧ h.v = Vector.replicate 32 (Vector.replicate 48 0) ∧
    (∀ n : BitVec 3, n ≠ 0 → h.rp n = false) ∧ h.rp 0 = true ∧ h.rm 0 = BitVec.allOnes 48 ∧
    (∀ n : BitVec 3, n ≠ 0 → h.rm n = 0) ∧ h.tcause = 0 ∧ h.tpc = 0 ∧ h.lc = Vector.replicate 4 0 ∧ h.launch = 0 ∧
    h.job = 0 ∧ h.slots = Vector.replicate 16 .empty ∧ (∀ q : Fin 4, h.q[q] = ⟨[], none⟩) ∧
    (h.unit.isSome = true ↔ t = 0)) ∧
  (∀ c < nCores, let k := State.reset.core c
    k.poolcfg = 0x00000E000A000100 ∧ k.framecfg = 0x0000000009000000 ∧ k.desc = Vector.replicate 16 0 ∧
    k.accInt = Vector.replicate 8 false ∧ k.frames = [] ∧
    ∀ o < 0xC0000, State.reset.rd (mkPa State.reset.pkg (coreBase c + o)) = 0) ∧
  (∀ p < nParts, (State.reset.part p).unitbudget = 4000000 ∧ (State.reset.part p).eqcfg = 0x1818 ∧
    (State.reset.part p).pstate = 0) ∧
  (∀ j < nClusters, let k := State.reset.clus j
    k.rot = Vector.replicate 4 0 ∧ k.eqstep = 24 ∧ (∀ n : Fin 4, k.perm[n] = 0xFFFFFFFFFFFFFFFF) ∧
    k.perm[4] = 0xC0000000FFFFFFFF)

/-- A byte of memory has one entry or none: after reset the memory is in its canonical form. The form is the model's own (log 7). -/
def Obligations.MemoryFormReset : Prop := State.reset.MemWf

/-- Every step keeps the memory in its canonical form: its addresses rise strictly, and no listed byte is the byte that
an unlisted address reads as. The form is the model's own (log 7). -/
def Obligations.MemoryFormKept : Prop := ∀ s t : State, s.MemWf → step s = .next t → t.MemWf
end

