-- ==== Sys2Proof/Laws/Access.lean ====
section
/-! SUPPORT. What the checks of accesses to on-chip spaces come to, and when stores go on. -/

namespace Sys2Proof.Machine

/-- An access that a space of a thread's core holds, aligned. -/
def State.inSpace (s : State) (t : Nat) (sp_ : Space) (n al : Nat) (ea : Word) : Bool :=
  ea.toNat % al == 0 && decide (ea.toNat + n ≤ (s.spaceBase (coreOf t) sp_.toC).1)

/-- The one run of an access to a scratchpad or to cluster memory. -/
def State.chipRun (s : State) (t : Nat) (sp_ : Space) (n : Nat) (ea : Word) : Seg :=
  ⟨ea.toNat, .mem ((s.spaceBase (coreOf t) sp_.toC).2 + ea.toNat) 0, n⟩

theorem ctx_core (s : State) (t : Nat) : (s.ctx t).core = coreOf t := by
  unfold State.ctx State.ctxAt
  split <;> rfl

/-- One access on chip passes its check, and changes nothing. -/
theorem check_on_chip {s : State} {t : Nat} {acc : Acc} {sp_ : Space} {ea : Word} {n al : Nat} (g : sp_ ≠ .g)
    (e : s.inSpace t sp_ n al ea = true) :
    s.check (s.ctx t) acc sp_.toC ea n = (s, .ok [s.chipRun t sp_ n ea]) := by
  simp only [State.inSpace, Bool.and_eq_true, decide_eq_true_eq] at e
  have c : sp_.toC ≠ .g := by cases sp_ <;> simp_all [Space.toC]
  simp [State.check, ctx_core, c, Nat.not_lt.mpr e.2, State.chipRun]

theorem conflicts_on_chip (s : State) (id : BitVec 32) (wr : Bool) (t : Nat) (sp_ : Space) (n : Nat) (ea : Word) :
    s.conflicts id wr [s.chipRun t sp_ n ea] = none := by
  have w : Seg.watched (s.chipRun t sp_ n ea) = false := by
    show pteWatch 0 = false
    decide
  simp [State.conflicts, w]

theorem checksFrom_on_chip {s : State} {t : Nat} {acc : Acc} {wr sync : Bool} {sp_ : Space} {kind : BitVec 4}
    {n al : Nat} (g : sp_ ≠ .g) {l : List (Nat × Word)} (lower : List Piece)
    (e : l.all (fun x => s.inSpace t sp_ n al x.2) = true) :
    s.checksFrom t acc wr sync sp_ kind n al lower l =
      .ok s (lower ++ l.map (fun x => ⟨x.1, x.2, [s.chipRun t sp_ n x.2]⟩)) := by
  induction l generalizing lower with
  | nil => simp [State.checksFrom]
  | cons x l ih =>
    obtain ⟨i, ea⟩ := x
    simp only [List.all_cons, Bool.and_eq_true] at e
    have a : ea.toNat % al = 0 := by
      have := e.1
      simp only [State.inSpace, Bool.and_eq_true, beq_iff_eq] at this
      exact this.1
    have c : (if sync = true then none else s.conflicts (s.tid t) wr [s.chipRun t sp_ n ea]) = none := by
      rw [conflicts_on_chip]; simp
    simp [State.checksFrom, a, check_on_chip g e.1, c, ih _ e.2]

/-- Accesses on chip pass their checks where each is aligned and inside its space; nothing changes. -/
theorem checks_on_chip {s : State} {t : Nat} {acc : Acc} {wr sync : Bool} {sp_ : Space} {kind : BitVec 4} {n al : Nat}
    (g : sp_ ≠ .g) {l : List (Nat × Word)} (e : l.all (fun x => s.inSpace t sp_ n al x.2) = true) :
    s.checks t acc wr sync sp_ kind n al l = .ok s (l.map (fun x => ⟨x.1, x.2, [s.chipRun t sp_ n x.2]⟩)) := by
  simp [State.checks, checksFrom_on_chip g [] e]

/-- Stores that lie on no watched page wait for nothing (R115, R346). -/
theorem storeWaits_plain {s : State} {t : Nat} {rel : Option Nat} {us : List SUnit}
    (w : ∀ u ∈ us, u.seg.watched = false) : s.storeWaits t rel us = false := by
  have n : us.filter (fun u => u.seg.watched) = [] := by
    simp only [List.filter_eq_nil_iff]
    intro u m
    simp [w u m]
  simp [State.storeWaits, n, State.watchFits]

/-- Runs that lie on no watched page have nothing brought to the LLC before them. -/
theorem watchClear_plain {s : State} {id : BitVec 32} {gs : List Seg} (w : ∀ g ∈ gs, g.watched = false) :
    s.watchClear id gs = (s, true) := by
  have n : gs.filter Seg.watched = [] := by
    simp only [List.filter_eq_nil_iff]
    intro g m
    simp [w g m]
  simp [State.watchClear, n]

/-- Stores that lie on no watched page may be made at once. -/
theorem storeReady_plain {s : State} {t : Nat} {rel : Option Nat} {us : List SUnit}
    (w : ∀ u ∈ us, u.seg.watched = false) : s.storeReady t rel us = (s, true) := by
  have c : s.watchClear (s.tid t) (us.map SUnit.seg) = (s, true) := by
    refine watchClear_plain ?_
    simp only [List.mem_map]
    rintro g ⟨u, m, rfl⟩
    exact w u m
  simp [State.storeReady, storeWaits_plain w, c]

/-- A store of a thread that runs alone goes on. -/
theorem storeAll_alone {s : State} {t : Nat} {sp_ : Space} {rel : Option Nat} {us : List SUnit}
    (d : s.dual? t = none) : s.storeAll t sp_ rel us = .ok (s.storeUnits t rel us) () := by
  simp [State.storeAll, d]

/-- Nothing is recorded of accesses to pages that are not watched. -/
theorem watchStore_plain {s : State} {t : Nat} {ps : List Piece}
    (w : ∀ p ∈ ps, ∀ g ∈ p.segs, g.watched = false) : s.watchStore t ps = s := by
  have n : (ps.flatMap Piece.segs).filter Seg.watched = [] := by
    simp only [List.filter_eq_nil_iff, List.mem_flatMap]
    rintro g ⟨p, m, hg⟩
    simp [w p m g hg]
  simp [State.watchStore, State.watchAll, State.watchAs, n]

end Sys2Proof.Machine
end

