-- ==== Sys2Proof/Laws/State.lean ====
section
/-! SUPPORT. What each update of the state leaves as it was: one lemma for each field and each update, and the
reads of numbered parts after writes of them. -/

namespace Sys2Proof.Machine

/-! ## Tables -/

theorem tget_tset_same {α : Type} (d : α) (t : Tbl α) (k : Nat) (v : α) : tget d (tset t k v) k = v := by
  induction t with
  | nil => simp [tset, tget]
  | cons p t ih =>
    obtain ⟨j, w⟩ := p
    by_cases h1 : j = k
    · simp [tset, tget, h1]
    · by_cases h2 : k < j
      · simp [tset, tget, h1, h2]
      · simp [tset, tget, h1, h2, ih]

theorem tget_tset_ne {α : Type} (d : α) (t : Tbl α) {k n : Nat} (h : n ≠ k) (v : α) :
    tget d (tset t k v) n = tget d t n := by
  induction t with
  | nil =>
    simp only [tset, tget]
    split
    · omega
    · split <;> rfl
  | cons p t ih =>
    obtain ⟨j, w⟩ := p
    simp only [tset]
    split
    · subst_vars
      simp only [tget, if_neg (Ne.symm h)]
    · split
      · simp only [tget, if_neg (Ne.symm h)]
        split
        · split
          · omega
          · split <;> first | rfl | omega
        · rfl
      · simp only [tget, ih]

/-! ## Fields -/
@[simp] theorem setThr_pkg (s : State) (t : Nat) (h : Thread) : (s.setThr t h).pkg = s.pkg := rfl
@[simp] theorem setThr_cores (s : State) (t : Nat) (h : Thread) : (s.setThr t h).cores = s.cores := rfl
@[simp] theorem setThr_clusters (s : State) (t : Nat) (h : Thread) : (s.setThr t h).clusters = s.clusters := rfl
@[simp] theorem setThr_parts (s : State) (t : Nat) (h : Thread) : (s.setThr t h).parts = s.parts := rfl
@[simp] theorem setThr_mem (s : State) (t : Nat) (h : Thread) : (s.setThr t h).mem = s.mem := rfl
@[simp] theorem setThr_rom (s : State) (t : Nat) (h : Thread) : (s.setThr t h).rom = s.rom := rfl
@[simp] theorem setThr_agents (s : State) (t : Nat) (h : Thread) : (s.setThr t h).agents = s.agents := rfl
@[simp] theorem setThr_hold (s : State) (t : Nat) (h : Thread) : (s.setThr t h).hold = s.hold := rfl
@[simp] theorem setThr_watch (s : State) (t : Nat) (h : Thread) : (s.setThr t h).watch = s.watch := rfl
@[simp] theorem setThr_poison (s : State) (t : Nat) (h : Thread) : (s.setThr t h).poison = s.poison := rfl
@[simp] theorem setThr_outst (s : State) (t : Nat) (h : Thread) : (s.setThr t h).outst = s.outst := rfl
@[simp] theorem setThr_l2 (s : State) (t : Nat) (h : Thread) : (s.setThr t h).l2 = s.l2 := rfl
@[simp] theorem setThr_llc (s : State) (t : Nat) (h : Thread) : (s.setThr t h).llc = s.llc := rfl
@[simp] theorem setThr_sideTab (s : State) (t : Nat) (h : Thread) : (s.setThr t h).sideTab = s.sideTab := rfl
@[simp] theorem setThr_overTab (s : State) (t : Nat) (h : Thread) : (s.setThr t h).overTab = s.overTab := rfl
@[simp] theorem setThr_build (s : State) (t : Nat) (h : Thread) : (s.setThr t h).build = s.build := rfl
@[simp] theorem setThr_turns (s : State) (t : Nat) (h : Thread) : (s.setThr t h).turns = s.turns := rfl
@[simp] theorem setThr_tcache (s : State) (t : Nat) (h : Thread) : (s.setThr t h).tcache = s.tcache := rfl
@[simp] theorem setThr_pins (s : State) (t : Nat) (h : Thread) : (s.setThr t h).pins = s.pins := rfl
@[simp] theorem setThr_pagereq (s : State) (t : Nat) (h : Thread) : (s.setThr t h).pagereq = s.pagereq := rfl
@[simp] theorem setThr_scrub (s : State) (t : Nat) (h : Thread) : (s.setThr t h).scrub = s.scrub := rfl
@[simp] theorem setThr_arrive (s : State) (t : Nat) (h : Thread) : (s.setThr t h).arrive = s.arrive := rfl
@[simp] theorem setThr_adds (s : State) (t : Nat) (h : Thread) : (s.setThr t h).adds = s.adds := rfl
@[simp] theorem setThr_dir (s : State) (t : Nat) (h : Thread) : (s.setThr t h).dir = s.dir := rfl
@[simp] theorem setThr_notices (s : State) (t : Nat) (h : Thread) : (s.setThr t h).notices = s.notices := rfl
@[simp] theorem setThr_markers (s : State) (t : Nat) (h : Thread) : (s.setThr t h).markers = s.markers := rfl
@[simp] theorem setThr_flights (s : State) (t : Nat) (h : Thread) : (s.setThr t h).flights = s.flights := rfl
@[simp] theorem setThr_answers (s : State) (t : Nat) (h : Thread) : (s.setThr t h).answers = s.answers := rfl
@[simp] theorem setThr_slices (s : State) (t : Nat) (h : Thread) : (s.setThr t h).slices = s.slices := rfl
@[simp] theorem setThr_links (s : State) (t : Nat) (h : Thread) : (s.setThr t h).links = s.links := rfl
@[simp] theorem setThr_route (s : State) (t : Nat) (h : Thread) : (s.setThr t h).route = s.route := rfl
@[simp] theorem setThr_rhold (s : State) (t : Nat) (h : Thread) : (s.setThr t h).rhold = s.rhold := rfl
@[simp] theorem setThr_rwait (s : State) (t : Nat) (h : Thread) : (s.setThr t h).rwait = s.rwait := rfl
@[simp] theorem setThr_ports (s : State) (t : Nat) (h : Thread) : (s.setThr t h).ports = s.ports := rfl
@[simp] theorem setThr_module (s : State) (t : Nat) (h : Thread) : (s.setThr t h).module = s.module := rfl
@[simp] theorem setThr_mesh (s : State) (t : Nat) (h : Thread) : (s.setThr t h).mesh = s.mesh := rfl
@[simp] theorem setThr_agenda (s : State) (t : Nat) (h : Thread) : (s.setThr t h).agenda = s.agenda := rfl
@[simp] theorem setThr_cur (s : State) (t : Nat) (h : Thread) : (s.setThr t h).cur = s.cur := rfl
@[simp] theorem setThr_late (s : State) (t : Nat) (h : Thread) : (s.setThr t h).late = s.late := rfl
@[simp] theorem setThr_stalled (s : State) (t : Nat) (h : Thread) : (s.setThr t h).stalled = s.stalled := rfl
@[simp] theorem setThr_fair (s : State) (t : Nat) (h : Thread) : (s.setThr t h).fair = s.fair := rfl
@[simp] theorem setThr_serial (s : State) (t : Nat) (h : Thread) : (s.setThr t h).serial = s.serial := rfl
@[simp] theorem setThr_tags (s : State) (t : Nat) (h : Thread) : (s.setThr t h).tags = s.tags := rfl
@[simp] theorem updThr_pkg (s : State) (t : Nat) (f : Thread → Thread) : (s.updThr t f).pkg = s.pkg := rfl
@[simp] theorem updThr_cores (s : State) (t : Nat) (f : Thread → Thread) : (s.updThr t f).cores = s.cores := rfl
@[simp] theorem updThr_clusters (s : State) (t : Nat) (f : Thread → Thread) : (s.updThr t f).clusters = s.clusters := rfl
@[simp] theorem updThr_parts (s : State) (t : Nat) (f : Thread → Thread) : (s.updThr t f).parts = s.parts := rfl
@[simp] theorem updThr_mem (s : State) (t : Nat) (f : Thread → Thread) : (s.updThr t f).mem = s.mem := rfl
@[simp] theorem updThr_rom (s : State) (t : Nat) (f : Thread → Thread) : (s.updThr t f).rom = s.rom := rfl
@[simp] theorem updThr_agents (s : State) (t : Nat) (f : Thread → Thread) : (s.updThr t f).agents = s.agents := rfl
@[simp] theorem updThr_hold (s : State) (t : Nat) (f : Thread → Thread) : (s.updThr t f).hold = s.hold := rfl
@[simp] theorem updThr_watch (s : State) (t : Nat) (f : Thread → Thread) : (s.updThr t f).watch = s.watch := rfl
@[simp] theorem updThr_poison (s : State) (t : Nat) (f : Thread → Thread) : (s.updThr t f).poison = s.poison := rfl
@[simp] theorem updThr_outst (s : State) (t : Nat) (f : Thread → Thread) : (s.updThr t f).outst = s.outst := rfl
@[simp] theorem updThr_l2 (s : State) (t : Nat) (f : Thread → Thread) : (s.updThr t f).l2 = s.l2 := rfl
@[simp] theorem updThr_llc (s : State) (t : Nat) (f : Thread → Thread) : (s.updThr t f).llc = s.llc := rfl
@[simp] theorem updThr_sideTab (s : State) (t : Nat) (f : Thread → Thread) : (s.updThr t f).sideTab = s.sideTab := rfl
@[simp] theorem updThr_overTab (s : State) (t : Nat) (f : Thread → Thread) : (s.updThr t f).overTab = s.overTab := rfl
@[simp] theorem updThr_build (s : State) (t : Nat) (f : Thread → Thread) : (s.updThr t f).build = s.build := rfl
@[simp] theorem updThr_turns (s : State) (t : Nat) (f : Thread → Thread) : (s.updThr t f).turns = s.turns := rfl
@[simp] theorem updThr_tcache (s : State) (t : Nat) (f : Thread → Thread) : (s.updThr t f).tcache = s.tcache := rfl
@[simp] theorem updThr_pins (s : State) (t : Nat) (f : Thread → Thread) : (s.updThr t f).pins = s.pins := rfl
@[simp] theorem updThr_pagereq (s : State) (t : Nat) (f : Thread → Thread) : (s.updThr t f).pagereq = s.pagereq := rfl
@[simp] theorem updThr_scrub (s : State) (t : Nat) (f : Thread → Thread) : (s.updThr t f).scrub = s.scrub := rfl
@[simp] theorem updThr_arrive (s : State) (t : Nat) (f : Thread → Thread) : (s.updThr t f).arrive = s.arrive := rfl
@[simp] theorem updThr_adds (s : State) (t : Nat) (f : Thread → Thread) : (s.updThr t f).adds = s.adds := rfl
@[simp] theorem updThr_dir (s : State) (t : Nat) (f : Thread → Thread) : (s.updThr t f).dir = s.dir := rfl
@[simp] theorem updThr_notices (s : State) (t : Nat) (f : Thread → Thread) : (s.updThr t f).notices = s.notices := rfl
@[simp] theorem updThr_markers (s : State) (t : Nat) (f : Thread → Thread) : (s.updThr t f).markers = s.markers := rfl
@[simp] theorem updThr_flights (s : State) (t : Nat) (f : Thread → Thread) : (s.updThr t f).flights = s.flights := rfl
@[simp] theorem updThr_answers (s : State) (t : Nat) (f : Thread → Thread) : (s.updThr t f).answers = s.answers := rfl
@[simp] theorem updThr_slices (s : State) (t : Nat) (f : Thread → Thread) : (s.updThr t f).slices = s.slices := rfl
@[simp] theorem updThr_links (s : State) (t : Nat) (f : Thread → Thread) : (s.updThr t f).links = s.links := rfl
@[simp] theorem updThr_route (s : State) (t : Nat) (f : Thread → Thread) : (s.updThr t f).route = s.route := rfl
@[simp] theorem updThr_rhold (s : State) (t : Nat) (f : Thread → Thread) : (s.updThr t f).rhold = s.rhold := rfl
@[simp] theorem updThr_rwait (s : State) (t : Nat) (f : Thread → Thread) : (s.updThr t f).rwait = s.rwait := rfl
@[simp] theorem updThr_ports (s : State) (t : Nat) (f : Thread → Thread) : (s.updThr t f).ports = s.ports := rfl
@[simp] theorem updThr_module (s : State) (t : Nat) (f : Thread → Thread) : (s.updThr t f).module = s.module := rfl
@[simp] theorem updThr_mesh (s : State) (t : Nat) (f : Thread → Thread) : (s.updThr t f).mesh = s.mesh := rfl
@[simp] theorem updThr_agenda (s : State) (t : Nat) (f : Thread → Thread) : (s.updThr t f).agenda = s.agenda := rfl
@[simp] theorem updThr_cur (s : State) (t : Nat) (f : Thread → Thread) : (s.updThr t f).cur = s.cur := rfl
@[simp] theorem updThr_late (s : State) (t : Nat) (f : Thread → Thread) : (s.updThr t f).late = s.late := rfl
@[simp] theorem updThr_stalled (s : State) (t : Nat) (f : Thread → Thread) : (s.updThr t f).stalled = s.stalled := rfl
@[simp] theorem updThr_fair (s : State) (t : Nat) (f : Thread → Thread) : (s.updThr t f).fair = s.fair := rfl
@[simp] theorem updThr_serial (s : State) (t : Nat) (f : Thread → Thread) : (s.updThr t f).serial = s.serial := rfl
@[simp] theorem updThr_tags (s : State) (t : Nat) (f : Thread → Thread) : (s.updThr t f).tags = s.tags := rfl
@[simp] theorem setCore_pkg (s : State) (c : Nat) (k : Core) : (s.setCore c k).pkg = s.pkg := rfl
@[simp] theorem setCore_threads (s : State) (c : Nat) (k : Core) : (s.setCore c k).threads = s.threads := rfl
@[simp] theorem setCore_clusters (s : State) (c : Nat) (k : Core) : (s.setCore c k).clusters = s.clusters := rfl
@[simp] theorem setCore_parts (s : State) (c : Nat) (k : Core) : (s.setCore c k).parts = s.parts := rfl
@[simp] theorem setCore_mem (s : State) (c : Nat) (k : Core) : (s.setCore c k).mem = s.mem := rfl
@[simp] theorem setCore_rom (s : State) (c : Nat) (k : Core) : (s.setCore c k).rom = s.rom := rfl
@[simp] theorem setCore_agents (s : State) (c : Nat) (k : Core) : (s.setCore c k).agents = s.agents := rfl
@[simp] theorem setCore_hold (s : State) (c : Nat) (k : Core) : (s.setCore c k).hold = s.hold := rfl
@[simp] theorem setCore_watch (s : State) (c : Nat) (k : Core) : (s.setCore c k).watch = s.watch := rfl
@[simp] theorem setCore_poison (s : State) (c : Nat) (k : Core) : (s.setCore c k).poison = s.poison := rfl
@[simp] theorem setCore_outst (s : State) (c : Nat) (k : Core) : (s.setCore c k).outst = s.outst := rfl
@[simp] theorem setCore_l2 (s : State) (c : Nat) (k : Core) : (s.setCore c k).l2 = s.l2 := rfl
@[simp] theorem setCore_llc (s : State) (c : Nat) (k : Core) : (s.setCore c k).llc = s.llc := rfl
@[simp] theorem setCore_sideTab (s : State) (c : Nat) (k : Core) : (s.setCore c k).sideTab = s.sideTab := rfl
@[simp] theorem setCore_overTab (s : State) (c : Nat) (k : Core) : (s.setCore c k).overTab = s.overTab := rfl
@[simp] theorem setCore_build (s : State) (c : Nat) (k : Core) : (s.setCore c k).build = s.build := rfl
@[simp] theorem setCore_turns (s : State) (c : Nat) (k : Core) : (s.setCore c k).turns = s.turns := rfl
@[simp] theorem setCore_tcache (s : State) (c : Nat) (k : Core) : (s.setCore c k).tcache = s.tcache := rfl
@[simp] theorem setCore_pins (s : State) (c : Nat) (k : Core) : (s.setCore c k).pins = s.pins := rfl
@[simp] theorem setCore_pagereq (s : State) (c : Nat) (k : Core) : (s.setCore c k).pagereq = s.pagereq := rfl
@[simp] theorem setCore_scrub (s : State) (c : Nat) (k : Core) : (s.setCore c k).scrub = s.scrub := rfl
@[simp] theorem setCore_arrive (s : State) (c : Nat) (k : Core) : (s.setCore c k).arrive = s.arrive := rfl
@[simp] theorem setCore_adds (s : State) (c : Nat) (k : Core) : (s.setCore c k).adds = s.adds := rfl
@[simp] theorem setCore_dir (s : State) (c : Nat) (k : Core) : (s.setCore c k).dir = s.dir := rfl
@[simp] theorem setCore_notices (s : State) (c : Nat) (k : Core) : (s.setCore c k).notices = s.notices := rfl
@[simp] theorem setCore_markers (s : State) (c : Nat) (k : Core) : (s.setCore c k).markers = s.markers := rfl
@[simp] theorem setCore_flights (s : State) (c : Nat) (k : Core) : (s.setCore c k).flights = s.flights := rfl
@[simp] theorem setCore_answers (s : State) (c : Nat) (k : Core) : (s.setCore c k).answers = s.answers := rfl
@[simp] theorem setCore_slices (s : State) (c : Nat) (k : Core) : (s.setCore c k).slices = s.slices := rfl
@[simp] theorem setCore_links (s : State) (c : Nat) (k : Core) : (s.setCore c k).links = s.links := rfl
@[simp] theorem setCore_route (s : State) (c : Nat) (k : Core) : (s.setCore c k).route = s.route := rfl
@[simp] theorem setCore_rhold (s : State) (c : Nat) (k : Core) : (s.setCore c k).rhold = s.rhold := rfl
@[simp] theorem setCore_rwait (s : State) (c : Nat) (k : Core) : (s.setCore c k).rwait = s.rwait := rfl
@[simp] theorem setCore_ports (s : State) (c : Nat) (k : Core) : (s.setCore c k).ports = s.ports := rfl
@[simp] theorem setCore_module (s : State) (c : Nat) (k : Core) : (s.setCore c k).module = s.module := rfl
@[simp] theorem setCore_mesh (s : State) (c : Nat) (k : Core) : (s.setCore c k).mesh = s.mesh := rfl
@[simp] theorem setCore_agenda (s : State) (c : Nat) (k : Core) : (s.setCore c k).agenda = s.agenda := rfl
@[simp] theorem setCore_cur (s : State) (c : Nat) (k : Core) : (s.setCore c k).cur = s.cur := rfl
@[simp] theorem setCore_late (s : State) (c : Nat) (k : Core) : (s.setCore c k).late = s.late := rfl
@[simp] theorem setCore_stalled (s : State) (c : Nat) (k : Core) : (s.setCore c k).stalled = s.stalled := rfl
@[simp] theorem setCore_fair (s : State) (c : Nat) (k : Core) : (s.setCore c k).fair = s.fair := rfl
@[simp] theorem setCore_serial (s : State) (c : Nat) (k : Core) : (s.setCore c k).serial = s.serial := rfl
@[simp] theorem setCore_tags (s : State) (c : Nat) (k : Core) : (s.setCore c k).tags = s.tags := rfl
@[simp] theorem updCore_pkg (s : State) (c : Nat) (f : Core → Core) : (s.updCore c f).pkg = s.pkg := rfl
@[simp] theorem updCore_threads (s : State) (c : Nat) (f : Core → Core) : (s.updCore c f).threads = s.threads := rfl
@[simp] theorem updCore_clusters (s : State) (c : Nat) (f : Core → Core) : (s.updCore c f).clusters = s.clusters := rfl
@[simp] theorem updCore_parts (s : State) (c : Nat) (f : Core → Core) : (s.updCore c f).parts = s.parts := rfl
@[simp] theorem updCore_mem (s : State) (c : Nat) (f : Core → Core) : (s.updCore c f).mem = s.mem := rfl
@[simp] theorem updCore_rom (s : State) (c : Nat) (f : Core → Core) : (s.updCore c f).rom = s.rom := rfl
@[simp] theorem updCore_agents (s : State) (c : Nat) (f : Core → Core) : (s.updCore c f).agents = s.agents := rfl
@[simp] theorem updCore_hold (s : State) (c : Nat) (f : Core → Core) : (s.updCore c f).hold = s.hold := rfl
@[simp] theorem updCore_watch (s : State) (c : Nat) (f : Core → Core) : (s.updCore c f).watch = s.watch := rfl
@[simp] theorem updCore_poison (s : State) (c : Nat) (f : Core → Core) : (s.updCore c f).poison = s.poison := rfl
@[simp] theorem updCore_outst (s : State) (c : Nat) (f : Core → Core) : (s.updCore c f).outst = s.outst := rfl
@[simp] theorem updCore_l2 (s : State) (c : Nat) (f : Core → Core) : (s.updCore c f).l2 = s.l2 := rfl
@[simp] theorem updCore_llc (s : State) (c : Nat) (f : Core → Core) : (s.updCore c f).llc = s.llc := rfl
@[simp] theorem updCore_sideTab (s : State) (c : Nat) (f : Core → Core) : (s.updCore c f).sideTab = s.sideTab := rfl
@[simp] theorem updCore_overTab (s : State) (c : Nat) (f : Core → Core) : (s.updCore c f).overTab = s.overTab := rfl
@[simp] theorem updCore_build (s : State) (c : Nat) (f : Core → Core) : (s.updCore c f).build = s.build := rfl
@[simp] theorem updCore_turns (s : State) (c : Nat) (f : Core → Core) : (s.updCore c f).turns = s.turns := rfl
@[simp] theorem updCore_tcache (s : State) (c : Nat) (f : Core → Core) : (s.updCore c f).tcache = s.tcache := rfl
@[simp] theorem updCore_pins (s : State) (c : Nat) (f : Core → Core) : (s.updCore c f).pins = s.pins := rfl
@[simp] theorem updCore_pagereq (s : State) (c : Nat) (f : Core → Core) : (s.updCore c f).pagereq = s.pagereq := rfl
@[simp] theorem updCore_scrub (s : State) (c : Nat) (f : Core → Core) : (s.updCore c f).scrub = s.scrub := rfl
@[simp] theorem updCore_arrive (s : State) (c : Nat) (f : Core → Core) : (s.updCore c f).arrive = s.arrive := rfl
@[simp] theorem updCore_adds (s : State) (c : Nat) (f : Core → Core) : (s.updCore c f).adds = s.adds := rfl
@[simp] theorem updCore_dir (s : State) (c : Nat) (f : Core → Core) : (s.updCore c f).dir = s.dir := rfl
@[simp] theorem updCore_notices (s : State) (c : Nat) (f : Core → Core) : (s.updCore c f).notices = s.notices := rfl
@[simp] theorem updCore_markers (s : State) (c : Nat) (f : Core → Core) : (s.updCore c f).markers = s.markers := rfl
@[simp] theorem updCore_flights (s : State) (c : Nat) (f : Core → Core) : (s.updCore c f).flights = s.flights := rfl
@[simp] theorem updCore_answers (s : State) (c : Nat) (f : Core → Core) : (s.updCore c f).answers = s.answers := rfl
@[simp] theorem updCore_slices (s : State) (c : Nat) (f : Core → Core) : (s.updCore c f).slices = s.slices := rfl
@[simp] theorem updCore_links (s : State) (c : Nat) (f : Core → Core) : (s.updCore c f).links = s.links := rfl
@[simp] theorem updCore_route (s : State) (c : Nat) (f : Core → Core) : (s.updCore c f).route = s.route := rfl
@[simp] theorem updCore_rhold (s : State) (c : Nat) (f : Core → Core) : (s.updCore c f).rhold = s.rhold := rfl
@[simp] theorem updCore_rwait (s : State) (c : Nat) (f : Core → Core) : (s.updCore c f).rwait = s.rwait := rfl
@[simp] theorem updCore_ports (s : State) (c : Nat) (f : Core → Core) : (s.updCore c f).ports = s.ports := rfl
@[simp] theorem updCore_module (s : State) (c : Nat) (f : Core → Core) : (s.updCore c f).module = s.module := rfl
@[simp] theorem updCore_mesh (s : State) (c : Nat) (f : Core → Core) : (s.updCore c f).mesh = s.mesh := rfl
@[simp] theorem updCore_agenda (s : State) (c : Nat) (f : Core → Core) : (s.updCore c f).agenda = s.agenda := rfl
@[simp] theorem updCore_cur (s : State) (c : Nat) (f : Core → Core) : (s.updCore c f).cur = s.cur := rfl
@[simp] theorem updCore_late (s : State) (c : Nat) (f : Core → Core) : (s.updCore c f).late = s.late := rfl
@[simp] theorem updCore_stalled (s : State) (c : Nat) (f : Core → Core) : (s.updCore c f).stalled = s.stalled := rfl
@[simp] theorem updCore_fair (s : State) (c : Nat) (f : Core → Core) : (s.updCore c f).fair = s.fair := rfl
@[simp] theorem updCore_serial (s : State) (c : Nat) (f : Core → Core) : (s.updCore c f).serial = s.serial := rfl
@[simp] theorem updCore_tags (s : State) (c : Nat) (f : Core → Core) : (s.updCore c f).tags = s.tags := rfl
@[simp] theorem tickCore_pkg (s : State) (c : Nat) : (s.tickCore c).pkg = s.pkg := rfl
@[simp] theorem tickCore_threads (s : State) (c : Nat) : (s.tickCore c).threads = s.threads := rfl
@[simp] theorem tickCore_clusters (s : State) (c : Nat) : (s.tickCore c).clusters = s.clusters := rfl
@[simp] theorem tickCore_parts (s : State) (c : Nat) : (s.tickCore c).parts = s.parts := rfl
@[simp] theorem tickCore_mem (s : State) (c : Nat) : (s.tickCore c).mem = s.mem := rfl
@[simp] theorem tickCore_rom (s : State) (c : Nat) : (s.tickCore c).rom = s.rom := rfl
@[simp] theorem tickCore_agents (s : State) (c : Nat) : (s.tickCore c).agents = s.agents := rfl
@[simp] theorem tickCore_hold (s : State) (c : Nat) : (s.tickCore c).hold = s.hold := rfl
@[simp] theorem tickCore_watch (s : State) (c : Nat) : (s.tickCore c).watch = s.watch := rfl
@[simp] theorem tickCore_poison (s : State) (c : Nat) : (s.tickCore c).poison = s.poison := rfl
@[simp] theorem tickCore_outst (s : State) (c : Nat) : (s.tickCore c).outst = s.outst := rfl
@[simp] theorem tickCore_l2 (s : State) (c : Nat) : (s.tickCore c).l2 = s.l2 := rfl
@[simp] theorem tickCore_llc (s : State) (c : Nat) : (s.tickCore c).llc = s.llc := rfl
@[simp] theorem tickCore_sideTab (s : State) (c : Nat) : (s.tickCore c).sideTab = s.sideTab := rfl
@[simp] theorem tickCore_overTab (s : State) (c : Nat) : (s.tickCore c).overTab = s.overTab := rfl
@[simp] theorem tickCore_build (s : State) (c : Nat) : (s.tickCore c).build = s.build := rfl
@[simp] theorem tickCore_turns (s : State) (c : Nat) : (s.tickCore c).turns = s.turns := rfl
@[simp] theorem tickCore_tcache (s : State) (c : Nat) : (s.tickCore c).tcache = s.tcache := rfl
@[simp] theorem tickCore_pins (s : State) (c : Nat) : (s.tickCore c).pins = s.pins := rfl
@[simp] theorem tickCore_pagereq (s : State) (c : Nat) : (s.tickCore c).pagereq = s.pagereq := rfl
@[simp] theorem tickCore_scrub (s : State) (c : Nat) : (s.tickCore c).scrub = s.scrub := rfl
@[simp] theorem tickCore_arrive (s : State) (c : Nat) : (s.tickCore c).arrive = s.arrive := rfl
@[simp] theorem tickCore_adds (s : State) (c : Nat) : (s.tickCore c).adds = s.adds := rfl
@[simp] theorem tickCore_dir (s : State) (c : Nat) : (s.tickCore c).dir = s.dir := rfl
@[simp] theorem tickCore_notices (s : State) (c : Nat) : (s.tickCore c).notices = s.notices := rfl
@[simp] theorem tickCore_markers (s : State) (c : Nat) : (s.tickCore c).markers = s.markers := rfl
@[simp] theorem tickCore_flights (s : State) (c : Nat) : (s.tickCore c).flights = s.flights := rfl
@[simp] theorem tickCore_answers (s : State) (c : Nat) : (s.tickCore c).answers = s.answers := rfl
@[simp] theorem tickCore_slices (s : State) (c : Nat) : (s.tickCore c).slices = s.slices := rfl
@[simp] theorem tickCore_links (s : State) (c : Nat) : (s.tickCore c).links = s.links := rfl
@[simp] theorem tickCore_route (s : State) (c : Nat) : (s.tickCore c).route = s.route := rfl
@[simp] theorem tickCore_rhold (s : State) (c : Nat) : (s.tickCore c).rhold = s.rhold := rfl
@[simp] theorem tickCore_rwait (s : State) (c : Nat) : (s.tickCore c).rwait = s.rwait := rfl
@[simp] theorem tickCore_ports (s : State) (c : Nat) : (s.tickCore c).ports = s.ports := rfl
@[simp] theorem tickCore_module (s : State) (c : Nat) : (s.tickCore c).module = s.module := rfl
@[simp] theorem tickCore_mesh (s : State) (c : Nat) : (s.tickCore c).mesh = s.mesh := rfl
@[simp] theorem tickCore_agenda (s : State) (c : Nat) : (s.tickCore c).agenda = s.agenda := rfl
@[simp] theorem tickCore_cur (s : State) (c : Nat) : (s.tickCore c).cur = s.cur := rfl
@[simp] theorem tickCore_late (s : State) (c : Nat) : (s.tickCore c).late = s.late := rfl
@[simp] theorem tickCore_stalled (s : State) (c : Nat) : (s.tickCore c).stalled = s.stalled := rfl
@[simp] theorem tickCore_fair (s : State) (c : Nat) : (s.tickCore c).fair = s.fair := rfl
@[simp] theorem tickCore_serial (s : State) (c : Nat) : (s.tickCore c).serial = s.serial := rfl
@[simp] theorem tickCore_tags (s : State) (c : Nat) : (s.tickCore c).tags = s.tags := rfl
@[simp] theorem setClus_pkg (s : State) (c : Nat) (k : Cluster) : (s.setClus c k).pkg = s.pkg := rfl
@[simp] theorem setClus_threads (s : State) (c : Nat) (k : Cluster) : (s.setClus c k).threads = s.threads := rfl
@[simp] theorem setClus_cores (s : State) (c : Nat) (k : Cluster) : (s.setClus c k).cores = s.cores := rfl
@[simp] theorem setClus_parts (s : State) (c : Nat) (k : Cluster) : (s.setClus c k).parts = s.parts := rfl
@[simp] theorem setClus_mem (s : State) (c : Nat) (k : Cluster) : (s.setClus c k).mem = s.mem := rfl
@[simp] theorem setClus_rom (s : State) (c : Nat) (k : Cluster) : (s.setClus c k).rom = s.rom := rfl
@[simp] theorem setClus_agents (s : State) (c : Nat) (k : Cluster) : (s.setClus c k).agents = s.agents := rfl
@[simp] theorem setClus_hold (s : State) (c : Nat) (k : Cluster) : (s.setClus c k).hold = s.hold := rfl
@[simp] theorem setClus_watch (s : State) (c : Nat) (k : Cluster) : (s.setClus c k).watch = s.watch := rfl
@[simp] theorem setClus_poison (s : State) (c : Nat) (k : Cluster) : (s.setClus c k).poison = s.poison := rfl
@[simp] theorem setClus_outst (s : State) (c : Nat) (k : Cluster) : (s.setClus c k).outst = s.outst := rfl
@[simp] theorem setClus_l2 (s : State) (c : Nat) (k : Cluster) : (s.setClus c k).l2 = s.l2 := rfl
@[simp] theorem setClus_llc (s : State) (c : Nat) (k : Cluster) : (s.setClus c k).llc = s.llc := rfl
@[simp] theorem setClus_sideTab (s : State) (c : Nat) (k : Cluster) : (s.setClus c k).sideTab = s.sideTab := rfl
@[simp] theorem setClus_overTab (s : State) (c : Nat) (k : Cluster) : (s.setClus c k).overTab = s.overTab := rfl
@[simp] theorem setClus_build (s : State) (c : Nat) (k : Cluster) : (s.setClus c k).build = s.build := rfl
@[simp] theorem setClus_turns (s : State) (c : Nat) (k : Cluster) : (s.setClus c k).turns = s.turns := rfl
@[simp] theorem setClus_tcache (s : State) (c : Nat) (k : Cluster) : (s.setClus c k).tcache = s.tcache := rfl
@[simp] theorem setClus_pins (s : State) (c : Nat) (k : Cluster) : (s.setClus c k).pins = s.pins := rfl
@[simp] theorem setClus_pagereq (s : State) (c : Nat) (k : Cluster) : (s.setClus c k).pagereq = s.pagereq := rfl
@[simp] theorem setClus_scrub (s : State) (c : Nat) (k : Cluster) : (s.setClus c k).scrub = s.scrub := rfl
@[simp] theorem setClus_arrive (s : State) (c : Nat) (k : Cluster) : (s.setClus c k).arrive = s.arrive := rfl
@[simp] theorem setClus_adds (s : State) (c : Nat) (k : Cluster) : (s.setClus c k).adds = s.adds := rfl
@[simp] theorem setClus_dir (s : State) (c : Nat) (k : Cluster) : (s.setClus c k).dir = s.dir := rfl
@[simp] theorem setClus_notices (s : State) (c : Nat) (k : Cluster) : (s.setClus c k).notices = s.notices := rfl
@[simp] theorem setClus_markers (s : State) (c : Nat) (k : Cluster) : (s.setClus c k).markers = s.markers := rfl
@[simp] theorem setClus_flights (s : State) (c : Nat) (k : Cluster) : (s.setClus c k).flights = s.flights := rfl
@[simp] theorem setClus_answers (s : State) (c : Nat) (k : Cluster) : (s.setClus c k).answers = s.answers := rfl
@[simp] theorem setClus_slices (s : State) (c : Nat) (k : Cluster) : (s.setClus c k).slices = s.slices := rfl
@[simp] theorem setClus_links (s : State) (c : Nat) (k : Cluster) : (s.setClus c k).links = s.links := rfl
@[simp] theorem setClus_route (s : State) (c : Nat) (k : Cluster) : (s.setClus c k).route = s.route := rfl
@[simp] theorem setClus_rhold (s : State) (c : Nat) (k : Cluster) : (s.setClus c k).rhold = s.rhold := rfl
@[simp] theorem setClus_rwait (s : State) (c : Nat) (k : Cluster) : (s.setClus c k).rwait = s.rwait := rfl
@[simp] theorem setClus_ports (s : State) (c : Nat) (k : Cluster) : (s.setClus c k).ports = s.ports := rfl
@[simp] theorem setClus_module (s : State) (c : Nat) (k : Cluster) : (s.setClus c k).module = s.module := rfl
@[simp] theorem setClus_mesh (s : State) (c : Nat) (k : Cluster) : (s.setClus c k).mesh = s.mesh := rfl
@[simp] theorem setClus_agenda (s : State) (c : Nat) (k : Cluster) : (s.setClus c k).agenda = s.agenda := rfl
@[simp] theorem setClus_cur (s : State) (c : Nat) (k : Cluster) : (s.setClus c k).cur = s.cur := rfl
@[simp] theorem setClus_late (s : State) (c : Nat) (k : Cluster) : (s.setClus c k).late = s.late := rfl
@[simp] theorem setClus_stalled (s : State) (c : Nat) (k : Cluster) : (s.setClus c k).stalled = s.stalled := rfl
@[simp] theorem setClus_fair (s : State) (c : Nat) (k : Cluster) : (s.setClus c k).fair = s.fair := rfl
@[simp] theorem setClus_serial (s : State) (c : Nat) (k : Cluster) : (s.setClus c k).serial = s.serial := rfl
@[simp] theorem setClus_tags (s : State) (c : Nat) (k : Cluster) : (s.setClus c k).tags = s.tags := rfl
@[simp] theorem setPart_pkg (s : State) (p : Nat) (k : Part) : (s.setPart p k).pkg = s.pkg := rfl
@[simp] theorem setPart_threads (s : State) (p : Nat) (k : Part) : (s.setPart p k).threads = s.threads := rfl
@[simp] theorem setPart_cores (s : State) (p : Nat) (k : Part) : (s.setPart p k).cores = s.cores := rfl
@[simp] theorem setPart_clusters (s : State) (p : Nat) (k : Part) : (s.setPart p k).clusters = s.clusters := rfl
@[simp] theorem setPart_mem (s : State) (p : Nat) (k : Part) : (s.setPart p k).mem = s.mem := rfl
@[simp] theorem setPart_rom (s : State) (p : Nat) (k : Part) : (s.setPart p k).rom = s.rom := rfl
@[simp] theorem setPart_agents (s : State) (p : Nat) (k : Part) : (s.setPart p k).agents = s.agents := rfl
@[simp] theorem setPart_hold (s : State) (p : Nat) (k : Part) : (s.setPart p k).hold = s.hold := rfl
@[simp] theorem setPart_watch (s : State) (p : Nat) (k : Part) : (s.setPart p k).watch = s.watch := rfl
@[simp] theorem setPart_poison (s : State) (p : Nat) (k : Part) : (s.setPart p k).poison = s.poison := rfl
@[simp] theorem setPart_outst (s : State) (p : Nat) (k : Part) : (s.setPart p k).outst = s.outst := rfl
@[simp] theorem setPart_l2 (s : State) (p : Nat) (k : Part) : (s.setPart p k).l2 = s.l2 := rfl
@[simp] theorem setPart_llc (s : State) (p : Nat) (k : Part) : (s.setPart p k).llc = s.llc := rfl
@[simp] theorem setPart_sideTab (s : State) (p : Nat) (k : Part) : (s.setPart p k).sideTab = s.sideTab := rfl
@[simp] theorem setPart_overTab (s : State) (p : Nat) (k : Part) : (s.setPart p k).overTab = s.overTab := rfl
@[simp] theorem setPart_build (s : State) (p : Nat) (k : Part) : (s.setPart p k).build = s.build := rfl
@[simp] theorem setPart_turns (s : State) (p : Nat) (k : Part) : (s.setPart p k).turns = s.turns := rfl
@[simp] theorem setPart_tcache (s : State) (p : Nat) (k : Part) : (s.setPart p k).tcache = s.tcache := rfl
@[simp] theorem setPart_pins (s : State) (p : Nat) (k : Part) : (s.setPart p k).pins = s.pins := rfl
@[simp] theorem setPart_pagereq (s : State) (p : Nat) (k : Part) : (s.setPart p k).pagereq = s.pagereq := rfl
@[simp] theorem setPart_scrub (s : State) (p : Nat) (k : Part) : (s.setPart p k).scrub = s.scrub := rfl
@[simp] theorem setPart_arrive (s : State) (p : Nat) (k : Part) : (s.setPart p k).arrive = s.arrive := rfl
@[simp] theorem setPart_adds (s : State) (p : Nat) (k : Part) : (s.setPart p k).adds = s.adds := rfl
@[simp] theorem setPart_dir (s : State) (p : Nat) (k : Part) : (s.setPart p k).dir = s.dir := rfl
@[simp] theorem setPart_notices (s : State) (p : Nat) (k : Part) : (s.setPart p k).notices = s.notices := rfl
@[simp] theorem setPart_markers (s : State) (p : Nat) (k : Part) : (s.setPart p k).markers = s.markers := rfl
@[simp] theorem setPart_flights (s : State) (p : Nat) (k : Part) : (s.setPart p k).flights = s.flights := rfl
@[simp] theorem setPart_answers (s : State) (p : Nat) (k : Part) : (s.setPart p k).answers = s.answers := rfl
@[simp] theorem setPart_slices (s : State) (p : Nat) (k : Part) : (s.setPart p k).slices = s.slices := rfl
@[simp] theorem setPart_links (s : State) (p : Nat) (k : Part) : (s.setPart p k).links = s.links := rfl
@[simp] theorem setPart_route (s : State) (p : Nat) (k : Part) : (s.setPart p k).route = s.route := rfl
@[simp] theorem setPart_rhold (s : State) (p : Nat) (k : Part) : (s.setPart p k).rhold = s.rhold := rfl
@[simp] theorem setPart_rwait (s : State) (p : Nat) (k : Part) : (s.setPart p k).rwait = s.rwait := rfl
@[simp] theorem setPart_ports (s : State) (p : Nat) (k : Part) : (s.setPart p k).ports = s.ports := rfl
@[simp] theorem setPart_module (s : State) (p : Nat) (k : Part) : (s.setPart p k).module = s.module := rfl
@[simp] theorem setPart_mesh (s : State) (p : Nat) (k : Part) : (s.setPart p k).mesh = s.mesh := rfl
@[simp] theorem setPart_agenda (s : State) (p : Nat) (k : Part) : (s.setPart p k).agenda = s.agenda := rfl
@[simp] theorem setPart_cur (s : State) (p : Nat) (k : Part) : (s.setPart p k).cur = s.cur := rfl
@[simp] theorem setPart_late (s : State) (p : Nat) (k : Part) : (s.setPart p k).late = s.late := rfl
@[simp] theorem setPart_stalled (s : State) (p : Nat) (k : Part) : (s.setPart p k).stalled = s.stalled := rfl
@[simp] theorem setPart_fair (s : State) (p : Nat) (k : Part) : (s.setPart p k).fair = s.fair := rfl
@[simp] theorem setPart_serial (s : State) (p : Nat) (k : Part) : (s.setPart p k).serial = s.serial := rfl
@[simp] theorem setPart_tags (s : State) (p : Nat) (k : Part) : (s.setPart p k).tags = s.tags := rfl
@[simp] theorem updPart_pkg (s : State) (p : Nat) (f : Part → Part) : (s.updPart p f).pkg = s.pkg := rfl
@[simp] theorem updPart_threads (s : State) (p : Nat) (f : Part → Part) : (s.updPart p f).threads = s.threads := rfl
@[simp] theorem updPart_cores (s : State) (p : Nat) (f : Part → Part) : (s.updPart p f).cores = s.cores := rfl
@[simp] theorem updPart_clusters (s : State) (p : Nat) (f : Part → Part) : (s.updPart p f).clusters = s.clusters := rfl
@[simp] theorem updPart_mem (s : State) (p : Nat) (f : Part → Part) : (s.updPart p f).mem = s.mem := rfl
@[simp] theorem updPart_rom (s : State) (p : Nat) (f : Part → Part) : (s.updPart p f).rom = s.rom := rfl
@[simp] theorem updPart_agents (s : State) (p : Nat) (f : Part → Part) : (s.updPart p f).agents = s.agents := rfl
@[simp] theorem updPart_hold (s : State) (p : Nat) (f : Part → Part) : (s.updPart p f).hold = s.hold := rfl
@[simp] theorem updPart_watch (s : State) (p : Nat) (f : Part → Part) : (s.updPart p f).watch = s.watch := rfl
@[simp] theorem updPart_poison (s : State) (p : Nat) (f : Part → Part) : (s.updPart p f).poison = s.poison := rfl
@[simp] theorem updPart_outst (s : State) (p : Nat) (f : Part → Part) : (s.updPart p f).outst = s.outst := rfl
@[simp] theorem updPart_l2 (s : State) (p : Nat) (f : Part → Part) : (s.updPart p f).l2 = s.l2 := rfl
@[simp] theorem updPart_llc (s : State) (p : Nat) (f : Part → Part) : (s.updPart p f).llc = s.llc := rfl
@[simp] theorem updPart_sideTab (s : State) (p : Nat) (f : Part → Part) : (s.updPart p f).sideTab = s.sideTab := rfl
@[simp] theorem updPart_overTab (s : State) (p : Nat) (f : Part → Part) : (s.updPart p f).overTab = s.overTab := rfl
@[simp] theorem updPart_build (s : State) (p : Nat) (f : Part → Part) : (s.updPart p f).build = s.build := rfl
@[simp] theorem updPart_turns (s : State) (p : Nat) (f : Part → Part) : (s.updPart p f).turns = s.turns := rfl
@[simp] theorem updPart_tcache (s : State) (p : Nat) (f : Part → Part) : (s.updPart p f).tcache = s.tcache := rfl
@[simp] theorem updPart_pins (s : State) (p : Nat) (f : Part → Part) : (s.updPart p f).pins = s.pins := rfl
@[simp] theorem updPart_pagereq (s : State) (p : Nat) (f : Part → Part) : (s.updPart p f).pagereq = s.pagereq := rfl
@[simp] theorem updPart_scrub (s : State) (p : Nat) (f : Part → Part) : (s.updPart p f).scrub = s.scrub := rfl
@[simp] theorem updPart_arrive (s : State) (p : Nat) (f : Part → Part) : (s.updPart p f).arrive = s.arrive := rfl
@[simp] theorem updPart_adds (s : State) (p : Nat) (f : Part → Part) : (s.updPart p f).adds = s.adds := rfl
@[simp] theorem updPart_dir (s : State) (p : Nat) (f : Part → Part) : (s.updPart p f).dir = s.dir := rfl
@[simp] theorem updPart_notices (s : State) (p : Nat) (f : Part → Part) : (s.updPart p f).notices = s.notices := rfl
@[simp] theorem updPart_markers (s : State) (p : Nat) (f : Part → Part) : (s.updPart p f).markers = s.markers := rfl
@[simp] theorem updPart_flights (s : State) (p : Nat) (f : Part → Part) : (s.updPart p f).flights = s.flights := rfl
@[simp] theorem updPart_answers (s : State) (p : Nat) (f : Part → Part) : (s.updPart p f).answers = s.answers := rfl
@[simp] theorem updPart_slices (s : State) (p : Nat) (f : Part → Part) : (s.updPart p f).slices = s.slices := rfl
@[simp] theorem updPart_links (s : State) (p : Nat) (f : Part → Part) : (s.updPart p f).links = s.links := rfl
@[simp] theorem updPart_route (s : State) (p : Nat) (f : Part → Part) : (s.updPart p f).route = s.route := rfl
@[simp] theorem updPart_rhold (s : State) (p : Nat) (f : Part → Part) : (s.updPart p f).rhold = s.rhold := rfl
@[simp] theorem updPart_rwait (s : State) (p : Nat) (f : Part → Part) : (s.updPart p f).rwait = s.rwait := rfl
@[simp] theorem updPart_ports (s : State) (p : Nat) (f : Part → Part) : (s.updPart p f).ports = s.ports := rfl
@[simp] theorem updPart_module (s : State) (p : Nat) (f : Part → Part) : (s.updPart p f).module = s.module := rfl
@[simp] theorem updPart_mesh (s : State) (p : Nat) (f : Part → Part) : (s.updPart p f).mesh = s.mesh := rfl
@[simp] theorem updPart_agenda (s : State) (p : Nat) (f : Part → Part) : (s.updPart p f).agenda = s.agenda := rfl
@[simp] theorem updPart_cur (s : State) (p : Nat) (f : Part → Part) : (s.updPart p f).cur = s.cur := rfl
@[simp] theorem updPart_late (s : State) (p : Nat) (f : Part → Part) : (s.updPart p f).late = s.late := rfl
@[simp] theorem updPart_stalled (s : State) (p : Nat) (f : Part → Part) : (s.updPart p f).stalled = s.stalled := rfl
@[simp] theorem updPart_fair (s : State) (p : Nat) (f : Part → Part) : (s.updPart p f).fair = s.fair := rfl
@[simp] theorem updPart_serial (s : State) (p : Nat) (f : Part → Part) : (s.updPart p f).serial = s.serial := rfl
@[simp] theorem updPart_tags (s : State) (p : Nat) (f : Part → Part) : (s.updPart p f).tags = s.tags := rfl
@[simp] theorem setSlice_pkg (s : State) (n : Nat) (k : Slice) : (s.setSlice n k).pkg = s.pkg := rfl
@[simp] theorem setSlice_threads (s : State) (n : Nat) (k : Slice) : (s.setSlice n k).threads = s.threads := rfl
@[simp] theorem setSlice_cores (s : State) (n : Nat) (k : Slice) : (s.setSlice n k).cores = s.cores := rfl
@[simp] theorem setSlice_clusters (s : State) (n : Nat) (k : Slice) : (s.setSlice n k).clusters = s.clusters := rfl
@[simp] theorem setSlice_parts (s : State) (n : Nat) (k : Slice) : (s.setSlice n k).parts = s.parts := rfl
@[simp] theorem setSlice_mem (s : State) (n : Nat) (k : Slice) : (s.setSlice n k).mem = s.mem := rfl
@[simp] theorem setSlice_rom (s : State) (n : Nat) (k : Slice) : (s.setSlice n k).rom = s.rom := rfl
@[simp] theorem setSlice_agents (s : State) (n : Nat) (k : Slice) : (s.setSlice n k).agents = s.agents := rfl
@[simp] theorem setSlice_hold (s : State) (n : Nat) (k : Slice) : (s.setSlice n k).hold = s.hold := rfl
@[simp] theorem setSlice_watch (s : State) (n : Nat) (k : Slice) : (s.setSlice n k).watch = s.watch := rfl
@[simp] theorem setSlice_poison (s : State) (n : Nat) (k : Slice) : (s.setSlice n k).poison = s.poison := rfl
@[simp] theorem setSlice_outst (s : State) (n : Nat) (k : Slice) : (s.setSlice n k).outst = s.outst := rfl
@[simp] theorem setSlice_l2 (s : State) (n : Nat) (k : Slice) : (s.setSlice n k).l2 = s.l2 := rfl
@[simp] theorem setSlice_llc (s : State) (n : Nat) (k : Slice) : (s.setSlice n k).llc = s.llc := rfl
@[simp] theorem setSlice_sideTab (s : State) (n : Nat) (k : Slice) : (s.setSlice n k).sideTab = s.sideTab := rfl
@[simp] theorem setSlice_overTab (s : State) (n : Nat) (k : Slice) : (s.setSlice n k).overTab = s.overTab := rfl
@[simp] theorem setSlice_build (s : State) (n : Nat) (k : Slice) : (s.setSlice n k).build = s.build := rfl
@[simp] theorem setSlice_turns (s : State) (n : Nat) (k : Slice) : (s.setSlice n k).turns = s.turns := rfl
@[simp] theorem setSlice_tcache (s : State) (n : Nat) (k : Slice) : (s.setSlice n k).tcache = s.tcache := rfl
@[simp] theorem setSlice_pins (s : State) (n : Nat) (k : Slice) : (s.setSlice n k).pins = s.pins := rfl
@[simp] theorem setSlice_pagereq (s : State) (n : Nat) (k : Slice) : (s.setSlice n k).pagereq = s.pagereq := rfl
@[simp] theorem setSlice_scrub (s : State) (n : Nat) (k : Slice) : (s.setSlice n k).scrub = s.scrub := rfl
@[simp] theorem setSlice_arrive (s : State) (n : Nat) (k : Slice) : (s.setSlice n k).arrive = s.arrive := rfl
@[simp] theorem setSlice_adds (s : State) (n : Nat) (k : Slice) : (s.setSlice n k).adds = s.adds := rfl
@[simp] theorem setSlice_dir (s : State) (n : Nat) (k : Slice) : (s.setSlice n k).dir = s.dir := rfl
@[simp] theorem setSlice_notices (s : State) (n : Nat) (k : Slice) : (s.setSlice n k).notices = s.notices := rfl
@[simp] theorem setSlice_markers (s : State) (n : Nat) (k : Slice) : (s.setSlice n k).markers = s.markers := rfl
@[simp] theorem setSlice_flights (s : State) (n : Nat) (k : Slice) : (s.setSlice n k).flights = s.flights := rfl
@[simp] theorem setSlice_answers (s : State) (n : Nat) (k : Slice) : (s.setSlice n k).answers = s.answers := rfl
@[simp] theorem setSlice_links (s : State) (n : Nat) (k : Slice) : (s.setSlice n k).links = s.links := rfl
@[simp] theorem setSlice_route (s : State) (n : Nat) (k : Slice) : (s.setSlice n k).route = s.route := rfl
@[simp] theorem setSlice_rhold (s : State) (n : Nat) (k : Slice) : (s.setSlice n k).rhold = s.rhold := rfl
@[simp] theorem setSlice_rwait (s : State) (n : Nat) (k : Slice) : (s.setSlice n k).rwait = s.rwait := rfl
@[simp] theorem setSlice_ports (s : State) (n : Nat) (k : Slice) : (s.setSlice n k).ports = s.ports := rfl
@[simp] theorem setSlice_module (s : State) (n : Nat) (k : Slice) : (s.setSlice n k).module = s.module := rfl
@[simp] theorem setSlice_mesh (s : State) (n : Nat) (k : Slice) : (s.setSlice n k).mesh = s.mesh := rfl
@[simp] theorem setSlice_agenda (s : State) (n : Nat) (k : Slice) : (s.setSlice n k).agenda = s.agenda := rfl
@[simp] theorem setSlice_cur (s : State) (n : Nat) (k : Slice) : (s.setSlice n k).cur = s.cur := rfl
@[simp] theorem setSlice_late (s : State) (n : Nat) (k : Slice) : (s.setSlice n k).late = s.late := rfl
@[simp] theorem setSlice_stalled (s : State) (n : Nat) (k : Slice) : (s.setSlice n k).stalled = s.stalled := rfl
@[simp] theorem setSlice_fair (s : State) (n : Nat) (k : Slice) : (s.setSlice n k).fair = s.fair := rfl
@[simp] theorem setSlice_serial (s : State) (n : Nat) (k : Slice) : (s.setSlice n k).serial = s.serial := rfl
@[simp] theorem setSlice_tags (s : State) (n : Nat) (k : Slice) : (s.setSlice n k).tags = s.tags := rfl
@[simp] theorem setLink_pkg (s : State) (n : Nat) (k : Link) : (s.setLink n k).pkg = s.pkg := rfl
@[simp] theorem setLink_threads (s : State) (n : Nat) (k : Link) : (s.setLink n k).threads = s.threads := rfl
@[simp] theorem setLink_cores (s : State) (n : Nat) (k : Link) : (s.setLink n k).cores = s.cores := rfl
@[simp] theorem setLink_clusters (s : State) (n : Nat) (k : Link) : (s.setLink n k).clusters = s.clusters := rfl
@[simp] theorem setLink_parts (s : State) (n : Nat) (k : Link) : (s.setLink n k).parts = s.parts := rfl
@[simp] theorem setLink_mem (s : State) (n : Nat) (k : Link) : (s.setLink n k).mem = s.mem := rfl
@[simp] theorem setLink_rom (s : State) (n : Nat) (k : Link) : (s.setLink n k).rom = s.rom := rfl
@[simp] theorem setLink_agents (s : State) (n : Nat) (k : Link) : (s.setLink n k).agents = s.agents := rfl
@[simp] theorem setLink_hold (s : State) (n : Nat) (k : Link) : (s.setLink n k).hold = s.hold := rfl
@[simp] theorem setLink_watch (s : State) (n : Nat) (k : Link) : (s.setLink n k).watch = s.watch := rfl
@[simp] theorem setLink_poison (s : State) (n : Nat) (k : Link) : (s.setLink n k).poison = s.poison := rfl
@[simp] theorem setLink_outst (s : State) (n : Nat) (k : Link) : (s.setLink n k).outst = s.outst := rfl
@[simp] theorem setLink_l2 (s : State) (n : Nat) (k : Link) : (s.setLink n k).l2 = s.l2 := rfl
@[simp] theorem setLink_llc (s : State) (n : Nat) (k : Link) : (s.setLink n k).llc = s.llc := rfl
@[simp] theorem setLink_sideTab (s : State) (n : Nat) (k : Link) : (s.setLink n k).sideTab = s.sideTab := rfl
@[simp] theorem setLink_overTab (s : State) (n : Nat) (k : Link) : (s.setLink n k).overTab = s.overTab := rfl
@[simp] theorem setLink_build (s : State) (n : Nat) (k : Link) : (s.setLink n k).build = s.build := rfl
@[simp] theorem setLink_turns (s : State) (n : Nat) (k : Link) : (s.setLink n k).turns = s.turns := rfl
@[simp] theorem setLink_tcache (s : State) (n : Nat) (k : Link) : (s.setLink n k).tcache = s.tcache := rfl
@[simp] theorem setLink_pins (s : State) (n : Nat) (k : Link) : (s.setLink n k).pins = s.pins := rfl
@[simp] theorem setLink_pagereq (s : State) (n : Nat) (k : Link) : (s.setLink n k).pagereq = s.pagereq := rfl
@[simp] theorem setLink_scrub (s : State) (n : Nat) (k : Link) : (s.setLink n k).scrub = s.scrub := rfl
@[simp] theorem setLink_arrive (s : State) (n : Nat) (k : Link) : (s.setLink n k).arrive = s.arrive := rfl
@[simp] theorem setLink_adds (s : State) (n : Nat) (k : Link) : (s.setLink n k).adds = s.adds := rfl
@[simp] theorem setLink_dir (s : State) (n : Nat) (k : Link) : (s.setLink n k).dir = s.dir := rfl
@[simp] theorem setLink_notices (s : State) (n : Nat) (k : Link) : (s.setLink n k).notices = s.notices := rfl
@[simp] theorem setLink_markers (s : State) (n : Nat) (k : Link) : (s.setLink n k).markers = s.markers := rfl
@[simp] theorem setLink_flights (s : State) (n : Nat) (k : Link) : (s.setLink n k).flights = s.flights := rfl
@[simp] theorem setLink_answers (s : State) (n : Nat) (k : Link) : (s.setLink n k).answers = s.answers := rfl
@[simp] theorem setLink_slices (s : State) (n : Nat) (k : Link) : (s.setLink n k).slices = s.slices := rfl
@[simp] theorem setLink_route (s : State) (n : Nat) (k : Link) : (s.setLink n k).route = s.route := rfl
@[simp] theorem setLink_rhold (s : State) (n : Nat) (k : Link) : (s.setLink n k).rhold = s.rhold := rfl
@[simp] theorem setLink_rwait (s : State) (n : Nat) (k : Link) : (s.setLink n k).rwait = s.rwait := rfl
@[simp] theorem setLink_ports (s : State) (n : Nat) (k : Link) : (s.setLink n k).ports = s.ports := rfl
@[simp] theorem setLink_module (s : State) (n : Nat) (k : Link) : (s.setLink n k).module = s.module := rfl
@[simp] theorem setLink_mesh (s : State) (n : Nat) (k : Link) : (s.setLink n k).mesh = s.mesh := rfl
@[simp] theorem setLink_agenda (s : State) (n : Nat) (k : Link) : (s.setLink n k).agenda = s.agenda := rfl
@[simp] theorem setLink_cur (s : State) (n : Nat) (k : Link) : (s.setLink n k).cur = s.cur := rfl
@[simp] theorem setLink_late (s : State) (n : Nat) (k : Link) : (s.setLink n k).late = s.late := rfl
@[simp] theorem setLink_stalled (s : State) (n : Nat) (k : Link) : (s.setLink n k).stalled = s.stalled := rfl
@[simp] theorem setLink_fair (s : State) (n : Nat) (k : Link) : (s.setLink n k).fair = s.fair := rfl
@[simp] theorem setLink_serial (s : State) (n : Nat) (k : Link) : (s.setLink n k).serial = s.serial := rfl
@[simp] theorem setLink_tags (s : State) (n : Nat) (k : Link) : (s.setLink n k).tags = s.tags := rfl
@[simp] theorem setPort_pkg (s : State) (n : Nat) (k : Port) : (s.setPort n k).pkg = s.pkg := rfl
@[simp] theorem setPort_threads (s : State) (n : Nat) (k : Port) : (s.setPort n k).threads = s.threads := rfl
@[simp] theorem setPort_cores (s : State) (n : Nat) (k : Port) : (s.setPort n k).cores = s.cores := rfl
@[simp] theorem setPort_clusters (s : State) (n : Nat) (k : Port) : (s.setPort n k).clusters = s.clusters := rfl
@[simp] theorem setPort_parts (s : State) (n : Nat) (k : Port) : (s.setPort n k).parts = s.parts := rfl
@[simp] theorem setPort_mem (s : State) (n : Nat) (k : Port) : (s.setPort n k).mem = s.mem := rfl
@[simp] theorem setPort_rom (s : State) (n : Nat) (k : Port) : (s.setPort n k).rom = s.rom := rfl
@[simp] theorem setPort_agents (s : State) (n : Nat) (k : Port) : (s.setPort n k).agents = s.agents := rfl
@[simp] theorem setPort_hold (s : State) (n : Nat) (k : Port) : (s.setPort n k).hold = s.hold := rfl
@[simp] theorem setPort_watch (s : State) (n : Nat) (k : Port) : (s.setPort n k).watch = s.watch := rfl
@[simp] theorem setPort_poison (s : State) (n : Nat) (k : Port) : (s.setPort n k).poison = s.poison := rfl
@[simp] theorem setPort_outst (s : State) (n : Nat) (k : Port) : (s.setPort n k).outst = s.outst := rfl
@[simp] theorem setPort_l2 (s : State) (n : Nat) (k : Port) : (s.setPort n k).l2 = s.l2 := rfl
@[simp] theorem setPort_llc (s : State) (n : Nat) (k : Port) : (s.setPort n k).llc = s.llc := rfl
@[simp] theorem setPort_sideTab (s : State) (n : Nat) (k : Port) : (s.setPort n k).sideTab = s.sideTab := rfl
@[simp] theorem setPort_overTab (s : State) (n : Nat) (k : Port) : (s.setPort n k).overTab = s.overTab := rfl
@[simp] theorem setPort_build (s : State) (n : Nat) (k : Port) : (s.setPort n k).build = s.build := rfl
@[simp] theorem setPort_turns (s : State) (n : Nat) (k : Port) : (s.setPort n k).turns = s.turns := rfl
@[simp] theorem setPort_tcache (s : State) (n : Nat) (k : Port) : (s.setPort n k).tcache = s.tcache := rfl
@[simp] theorem setPort_pins (s : State) (n : Nat) (k : Port) : (s.setPort n k).pins = s.pins := rfl
@[simp] theorem setPort_pagereq (s : State) (n : Nat) (k : Port) : (s.setPort n k).pagereq = s.pagereq := rfl
@[simp] theorem setPort_scrub (s : State) (n : Nat) (k : Port) : (s.setPort n k).scrub = s.scrub := rfl
@[simp] theorem setPort_arrive (s : State) (n : Nat) (k : Port) : (s.setPort n k).arrive = s.arrive := rfl
@[simp] theorem setPort_adds (s : State) (n : Nat) (k : Port) : (s.setPort n k).adds = s.adds := rfl
@[simp] theorem setPort_dir (s : State) (n : Nat) (k : Port) : (s.setPort n k).dir = s.dir := rfl
@[simp] theorem setPort_notices (s : State) (n : Nat) (k : Port) : (s.setPort n k).notices = s.notices := rfl
@[simp] theorem setPort_markers (s : State) (n : Nat) (k : Port) : (s.setPort n k).markers = s.markers := rfl
@[simp] theorem setPort_flights (s : State) (n : Nat) (k : Port) : (s.setPort n k).flights = s.flights := rfl
@[simp] theorem setPort_answers (s : State) (n : Nat) (k : Port) : (s.setPort n k).answers = s.answers := rfl
@[simp] theorem setPort_slices (s : State) (n : Nat) (k : Port) : (s.setPort n k).slices = s.slices := rfl
@[simp] theorem setPort_links (s : State) (n : Nat) (k : Port) : (s.setPort n k).links = s.links := rfl
@[simp] theorem setPort_route (s : State) (n : Nat) (k : Port) : (s.setPort n k).route = s.route := rfl
@[simp] theorem setPort_rhold (s : State) (n : Nat) (k : Port) : (s.setPort n k).rhold = s.rhold := rfl
@[simp] theorem setPort_rwait (s : State) (n : Nat) (k : Port) : (s.setPort n k).rwait = s.rwait := rfl
@[simp] theorem setPort_module (s : State) (n : Nat) (k : Port) : (s.setPort n k).module = s.module := rfl
@[simp] theorem setPort_mesh (s : State) (n : Nat) (k : Port) : (s.setPort n k).mesh = s.mesh := rfl
@[simp] theorem setPort_agenda (s : State) (n : Nat) (k : Port) : (s.setPort n k).agenda = s.agenda := rfl
@[simp] theorem setPort_cur (s : State) (n : Nat) (k : Port) : (s.setPort n k).cur = s.cur := rfl
@[simp] theorem setPort_late (s : State) (n : Nat) (k : Port) : (s.setPort n k).late = s.late := rfl
@[simp] theorem setPort_stalled (s : State) (n : Nat) (k : Port) : (s.setPort n k).stalled = s.stalled := rfl
@[simp] theorem setPort_fair (s : State) (n : Nat) (k : Port) : (s.setPort n k).fair = s.fair := rfl
@[simp] theorem setPort_serial (s : State) (n : Nat) (k : Port) : (s.setPort n k).serial = s.serial := rfl
@[simp] theorem setPort_tags (s : State) (n : Nat) (k : Port) : (s.setPort n k).tags = s.tags := rfl
@[simp] theorem setAgent_pkg (s : State) (x : BitVec 32) (a : AgentMem) : (s.setAgent x a).pkg = s.pkg := rfl
@[simp] theorem setAgent_threads (s : State) (x : BitVec 32) (a : AgentMem) : (s.setAgent x a).threads = s.threads := rfl
@[simp] theorem setAgent_cores (s : State) (x : BitVec 32) (a : AgentMem) : (s.setAgent x a).cores = s.cores := rfl
@[simp] theorem setAgent_clusters (s : State) (x : BitVec 32) (a : AgentMem) : (s.setAgent x a).clusters = s.clusters := rfl
@[simp] theorem setAgent_parts (s : State) (x : BitVec 32) (a : AgentMem) : (s.setAgent x a).parts = s.parts := rfl
@[simp] theorem setAgent_mem (s : State) (x : BitVec 32) (a : AgentMem) : (s.setAgent x a).mem = s.mem := rfl
@[simp] theorem setAgent_rom (s : State) (x : BitVec 32) (a : AgentMem) : (s.setAgent x a).rom = s.rom := rfl
@[simp] theorem setAgent_hold (s : State) (x : BitVec 32) (a : AgentMem) : (s.setAgent x a).hold = s.hold := rfl
@[simp] theorem setAgent_watch (s : State) (x : BitVec 32) (a : AgentMem) : (s.setAgent x a).watch = s.watch := rfl
@[simp] theorem setAgent_poison (s : State) (x : BitVec 32) (a : AgentMem) : (s.setAgent x a).poison = s.poison := rfl
@[simp] theorem setAgent_outst (s : State) (x : BitVec 32) (a : AgentMem) : (s.setAgent x a).outst = s.outst := rfl
@[simp] theorem setAgent_l2 (s : State) (x : BitVec 32) (a : AgentMem) : (s.setAgent x a).l2 = s.l2 := rfl
@[simp] theorem setAgent_llc (s : State) (x : BitVec 32) (a : AgentMem) : (s.setAgent x a).llc = s.llc := rfl
@[simp] theorem setAgent_sideTab (s : State) (x : BitVec 32) (a : AgentMem) : (s.setAgent x a).sideTab = s.sideTab := rfl
@[simp] theorem setAgent_overTab (s : State) (x : BitVec 32) (a : AgentMem) : (s.setAgent x a).overTab = s.overTab := rfl
@[simp] theorem setAgent_build (s : State) (x : BitVec 32) (a : AgentMem) : (s.setAgent x a).build = s.build := rfl
@[simp] theorem setAgent_turns (s : State) (x : BitVec 32) (a : AgentMem) : (s.setAgent x a).turns = s.turns := rfl
@[simp] theorem setAgent_tcache (s : State) (x : BitVec 32) (a : AgentMem) : (s.setAgent x a).tcache = s.tcache := rfl
@[simp] theorem setAgent_pins (s : State) (x : BitVec 32) (a : AgentMem) : (s.setAgent x a).pins = s.pins := rfl
@[simp] theorem setAgent_pagereq (s : State) (x : BitVec 32) (a : AgentMem) : (s.setAgent x a).pagereq = s.pagereq := rfl
@[simp] theorem setAgent_scrub (s : State) (x : BitVec 32) (a : AgentMem) : (s.setAgent x a).scrub = s.scrub := rfl
@[simp] theorem setAgent_arrive (s : State) (x : BitVec 32) (a : AgentMem) : (s.setAgent x a).arrive = s.arrive := rfl
@[simp] theorem setAgent_adds (s : State) (x : BitVec 32) (a : AgentMem) : (s.setAgent x a).adds = s.adds := rfl
@[simp] theorem setAgent_dir (s : State) (x : BitVec 32) (a : AgentMem) : (s.setAgent x a).dir = s.dir := rfl
@[simp] theorem setAgent_notices (s : State) (x : BitVec 32) (a : AgentMem) : (s.setAgent x a).notices = s.notices := rfl
@[simp] theorem setAgent_markers (s : State) (x : BitVec 32) (a : AgentMem) : (s.setAgent x a).markers = s.markers := rfl
@[simp] theorem setAgent_flights (s : State) (x : BitVec 32) (a : AgentMem) : (s.setAgent x a).flights = s.flights := rfl
@[simp] theorem setAgent_answers (s : State) (x : BitVec 32) (a : AgentMem) : (s.setAgent x a).answers = s.answers := rfl
@[simp] theorem setAgent_slices (s : State) (x : BitVec 32) (a : AgentMem) : (s.setAgent x a).slices = s.slices := rfl
@[simp] theorem setAgent_links (s : State) (x : BitVec 32) (a : AgentMem) : (s.setAgent x a).links = s.links := rfl
@[simp] theorem setAgent_route (s : State) (x : BitVec 32) (a : AgentMem) : (s.setAgent x a).route = s.route := rfl
@[simp] theorem setAgent_rhold (s : State) (x : BitVec 32) (a : AgentMem) : (s.setAgent x a).rhold = s.rhold := rfl
@[simp] theorem setAgent_rwait (s : State) (x : BitVec 32) (a : AgentMem) : (s.setAgent x a).rwait = s.rwait := rfl
@[simp] theorem setAgent_ports (s : State) (x : BitVec 32) (a : AgentMem) : (s.setAgent x a).ports = s.ports := rfl
@[simp] theorem setAgent_module (s : State) (x : BitVec 32) (a : AgentMem) : (s.setAgent x a).module = s.module := rfl
@[simp] theorem setAgent_mesh (s : State) (x : BitVec 32) (a : AgentMem) : (s.setAgent x a).mesh = s.mesh := rfl
@[simp] theorem setAgent_agenda (s : State) (x : BitVec 32) (a : AgentMem) : (s.setAgent x a).agenda = s.agenda := rfl
@[simp] theorem setAgent_cur (s : State) (x : BitVec 32) (a : AgentMem) : (s.setAgent x a).cur = s.cur := rfl
@[simp] theorem setAgent_late (s : State) (x : BitVec 32) (a : AgentMem) : (s.setAgent x a).late = s.late := rfl
@[simp] theorem setAgent_stalled (s : State) (x : BitVec 32) (a : AgentMem) : (s.setAgent x a).stalled = s.stalled := rfl
@[simp] theorem setAgent_fair (s : State) (x : BitVec 32) (a : AgentMem) : (s.setAgent x a).fair = s.fair := rfl
@[simp] theorem setAgent_serial (s : State) (x : BitVec 32) (a : AgentMem) : (s.setAgent x a).serial = s.serial := rfl
@[simp] theorem setAgent_tags (s : State) (x : BitVec 32) (a : AgentMem) : (s.setAgent x a).tags = s.tags := rfl
@[simp] theorem stallIt_pkg (s : State) : (s.stallIt).pkg = s.pkg := rfl
@[simp] theorem stallIt_threads (s : State) : (s.stallIt).threads = s.threads := rfl
@[simp] theorem stallIt_cores (s : State) : (s.stallIt).cores = s.cores := rfl
@[simp] theorem stallIt_clusters (s : State) : (s.stallIt).clusters = s.clusters := rfl
@[simp] theorem stallIt_parts (s : State) : (s.stallIt).parts = s.parts := rfl
@[simp] theorem stallIt_mem (s : State) : (s.stallIt).mem = s.mem := rfl
@[simp] theorem stallIt_rom (s : State) : (s.stallIt).rom = s.rom := rfl
@[simp] theorem stallIt_agents (s : State) : (s.stallIt).agents = s.agents := rfl
@[simp] theorem stallIt_hold (s : State) : (s.stallIt).hold = s.hold := rfl
@[simp] theorem stallIt_watch (s : State) : (s.stallIt).watch = s.watch := rfl
@[simp] theorem stallIt_poison (s : State) : (s.stallIt).poison = s.poison := rfl
@[simp] theorem stallIt_outst (s : State) : (s.stallIt).outst = s.outst := rfl
@[simp] theorem stallIt_l2 (s : State) : (s.stallIt).l2 = s.l2 := rfl
@[simp] theorem stallIt_llc (s : State) : (s.stallIt).llc = s.llc := rfl
@[simp] theorem stallIt_sideTab (s : State) : (s.stallIt).sideTab = s.sideTab := rfl
@[simp] theorem stallIt_overTab (s : State) : (s.stallIt).overTab = s.overTab := rfl
@[simp] theorem stallIt_build (s : State) : (s.stallIt).build = s.build := rfl
@[simp] theorem stallIt_turns (s : State) : (s.stallIt).turns = s.turns := rfl
@[simp] theorem stallIt_tcache (s : State) : (s.stallIt).tcache = s.tcache := rfl
@[simp] theorem stallIt_pins (s : State) : (s.stallIt).pins = s.pins := rfl
@[simp] theorem stallIt_pagereq (s : State) : (s.stallIt).pagereq = s.pagereq := rfl
@[simp] theorem stallIt_scrub (s : State) : (s.stallIt).scrub = s.scrub := rfl
@[simp] theorem stallIt_arrive (s : State) : (s.stallIt).arrive = s.arrive := rfl
@[simp] theorem stallIt_adds (s : State) : (s.stallIt).adds = s.adds := rfl
@[simp] theorem stallIt_dir (s : State) : (s.stallIt).dir = s.dir := rfl
@[simp] theorem stallIt_notices (s : State) : (s.stallIt).notices = s.notices := rfl
@[simp] theorem stallIt_markers (s : State) : (s.stallIt).markers = s.markers := rfl
@[simp] theorem stallIt_flights (s : State) : (s.stallIt).flights = s.flights := rfl
@[simp] theorem stallIt_answers (s : State) : (s.stallIt).answers = s.answers := rfl
@[simp] theorem stallIt_slices (s : State) : (s.stallIt).slices = s.slices := rfl
@[simp] theorem stallIt_links (s : State) : (s.stallIt).links = s.links := rfl
@[simp] theorem stallIt_route (s : State) : (s.stallIt).route = s.route := rfl
@[simp] theorem stallIt_rhold (s : State) : (s.stallIt).rhold = s.rhold := rfl
@[simp] theorem stallIt_rwait (s : State) : (s.stallIt).rwait = s.rwait := rfl
@[simp] theorem stallIt_ports (s : State) : (s.stallIt).ports = s.ports := rfl
@[simp] theorem stallIt_module (s : State) : (s.stallIt).module = s.module := rfl
@[simp] theorem stallIt_mesh (s : State) : (s.stallIt).mesh = s.mesh := rfl
@[simp] theorem stallIt_agenda (s : State) : (s.stallIt).agenda = s.agenda := rfl
@[simp] theorem stallIt_cur (s : State) : (s.stallIt).cur = s.cur := rfl
@[simp] theorem stallIt_late (s : State) : (s.stallIt).late = s.late := rfl
@[simp] theorem stallIt_fair (s : State) : (s.stallIt).fair = s.fair := rfl
@[simp] theorem stallIt_serial (s : State) : (s.stallIt).serial = s.serial := rfl
@[simp] theorem stallIt_tags (s : State) : (s.stallIt).tags = s.tags := rfl
@[simp] theorem wr_pkg (s : State) (a : Nat) (b : Byte) : (s.wr a b).pkg = s.pkg := rfl
@[simp] theorem wr_threads (s : State) (a : Nat) (b : Byte) : (s.wr a b).threads = s.threads := rfl
@[simp] theorem wr_cores (s : State) (a : Nat) (b : Byte) : (s.wr a b).cores = s.cores := rfl
@[simp] theorem wr_clusters (s : State) (a : Nat) (b : Byte) : (s.wr a b).clusters = s.clusters := rfl
@[simp] theorem wr_parts (s : State) (a : Nat) (b : Byte) : (s.wr a b).parts = s.parts := rfl
@[simp] theorem wr_rom (s : State) (a : Nat) (b : Byte) : (s.wr a b).rom = s.rom := rfl
@[simp] theorem wr_agents (s : State) (a : Nat) (b : Byte) : (s.wr a b).agents = s.agents := rfl
@[simp] theorem wr_hold (s : State) (a : Nat) (b : Byte) : (s.wr a b).hold = s.hold := rfl
@[simp] theorem wr_watch (s : State) (a : Nat) (b : Byte) : (s.wr a b).watch = s.watch := rfl
@[simp] theorem wr_poison (s : State) (a : Nat) (b : Byte) : (s.wr a b).poison = s.poison := rfl
@[simp] theorem wr_outst (s : State) (a : Nat) (b : Byte) : (s.wr a b).outst = s.outst := rfl
@[simp] theorem wr_l2 (s : State) (a : Nat) (b : Byte) : (s.wr a b).l2 = s.l2 := rfl
@[simp] theorem wr_llc (s : State) (a : Nat) (b : Byte) : (s.wr a b).llc = s.llc := rfl
@[simp] theorem wr_sideTab (s : State) (a : Nat) (b : Byte) : (s.wr a b).sideTab = s.sideTab := rfl
@[simp] theorem wr_overTab (s : State) (a : Nat) (b : Byte) : (s.wr a b).overTab = s.overTab := rfl
@[simp] theorem wr_build (s : State) (a : Nat) (b : Byte) : (s.wr a b).build = s.build := rfl
@[simp] theorem wr_turns (s : State) (a : Nat) (b : Byte) : (s.wr a b).turns = s.turns := rfl
@[simp] theorem wr_tcache (s : State) (a : Nat) (b : Byte) : (s.wr a b).tcache = s.tcache := rfl
@[simp] theorem wr_pins (s : State) (a : Nat) (b : Byte) : (s.wr a b).pins = s.pins := rfl
@[simp] theorem wr_pagereq (s : State) (a : Nat) (b : Byte) : (s.wr a b).pagereq = s.pagereq := rfl
@[simp] theorem wr_scrub (s : State) (a : Nat) (b : Byte) : (s.wr a b).scrub = s.scrub := rfl
@[simp] theorem wr_arrive (s : State) (a : Nat) (b : Byte) : (s.wr a b).arrive = s.arrive := rfl
@[simp] theorem wr_adds (s : State) (a : Nat) (b : Byte) : (s.wr a b).adds = s.adds := rfl
@[simp] theorem wr_dir (s : State) (a : Nat) (b : Byte) : (s.wr a b).dir = s.dir := rfl
@[simp] theorem wr_notices (s : State) (a : Nat) (b : Byte) : (s.wr a b).notices = s.notices := rfl
@[simp] theorem wr_markers (s : State) (a : Nat) (b : Byte) : (s.wr a b).markers = s.markers := rfl
@[simp] theorem wr_flights (s : State) (a : Nat) (b : Byte) : (s.wr a b).flights = s.flights := rfl
@[simp] theorem wr_answers (s : State) (a : Nat) (b : Byte) : (s.wr a b).answers = s.answers := rfl
@[simp] theorem wr_slices (s : State) (a : Nat) (b : Byte) : (s.wr a b).slices = s.slices := rfl
@[simp] theorem wr_links (s : State) (a : Nat) (b : Byte) : (s.wr a b).links = s.links := rfl
@[simp] theorem wr_route (s : State) (a : Nat) (b : Byte) : (s.wr a b).route = s.route := rfl
@[simp] theorem wr_rhold (s : State) (a : Nat) (b : Byte) : (s.wr a b).rhold = s.rhold := rfl
@[simp] theorem wr_rwait (s : State) (a : Nat) (b : Byte) : (s.wr a b).rwait = s.rwait := rfl
@[simp] theorem wr_ports (s : State) (a : Nat) (b : Byte) : (s.wr a b).ports = s.ports := rfl
@[simp] theorem wr_module (s : State) (a : Nat) (b : Byte) : (s.wr a b).module = s.module := rfl
@[simp] theorem wr_mesh (s : State) (a : Nat) (b : Byte) : (s.wr a b).mesh = s.mesh := rfl
@[simp] theorem wr_agenda (s : State) (a : Nat) (b : Byte) : (s.wr a b).agenda = s.agenda := rfl
@[simp] theorem wr_cur (s : State) (a : Nat) (b : Byte) : (s.wr a b).cur = s.cur := rfl
@[simp] theorem wr_late (s : State) (a : Nat) (b : Byte) : (s.wr a b).late = s.late := rfl
@[simp] theorem wr_stalled (s : State) (a : Nat) (b : Byte) : (s.wr a b).stalled = s.stalled := rfl
@[simp] theorem wr_fair (s : State) (a : Nat) (b : Byte) : (s.wr a b).fair = s.fair := rfl
@[simp] theorem wr_serial (s : State) (a : Nat) (b : Byte) : (s.wr a b).serial = s.serial := rfl
@[simp] theorem wr_tags (s : State) (a : Nat) (b : Byte) : (s.wr a b).tags = s.tags := rfl
@[simp] theorem wrBytes_pkg (s : State) (a : Nat) (bs : List Byte) : (s.wrBytes a bs).pkg = s.pkg := rfl
@[simp] theorem wrBytes_threads (s : State) (a : Nat) (bs : List Byte) : (s.wrBytes a bs).threads = s.threads := rfl
@[simp] theorem wrBytes_cores (s : State) (a : Nat) (bs : List Byte) : (s.wrBytes a bs).cores = s.cores := rfl
@[simp] theorem wrBytes_clusters (s : State) (a : Nat) (bs : List Byte) : (s.wrBytes a bs).clusters = s.clusters := rfl
@[simp] theorem wrBytes_parts (s : State) (a : Nat) (bs : List Byte) : (s.wrBytes a bs).parts = s.parts := rfl
@[simp] theorem wrBytes_rom (s : State) (a : Nat) (bs : List Byte) : (s.wrBytes a bs).rom = s.rom := rfl
@[simp] theorem wrBytes_agents (s : State) (a : Nat) (bs : List Byte) : (s.wrBytes a bs).agents = s.agents := rfl
@[simp] theorem wrBytes_hold (s : State) (a : Nat) (bs : List Byte) : (s.wrBytes a bs).hold = s.hold := rfl
@[simp] theorem wrBytes_watch (s : State) (a : Nat) (bs : List Byte) : (s.wrBytes a bs).watch = s.watch := rfl
@[simp] theorem wrBytes_poison (s : State) (a : Nat) (bs : List Byte) : (s.wrBytes a bs).poison = s.poison := rfl
@[simp] theorem wrBytes_outst (s : State) (a : Nat) (bs : List Byte) : (s.wrBytes a bs).outst = s.outst := rfl
@[simp] theorem wrBytes_l2 (s : State) (a : Nat) (bs : List Byte) : (s.wrBytes a bs).l2 = s.l2 := rfl
@[simp] theorem wrBytes_llc (s : State) (a : Nat) (bs : List Byte) : (s.wrBytes a bs).llc = s.llc := rfl
@[simp] theorem wrBytes_sideTab (s : State) (a : Nat) (bs : List Byte) : (s.wrBytes a bs).sideTab = s.sideTab := rfl
@[simp] theorem wrBytes_overTab (s : State) (a : Nat) (bs : List Byte) : (s.wrBytes a bs).overTab = s.overTab := rfl
@[simp] theorem wrBytes_build (s : State) (a : Nat) (bs : List Byte) : (s.wrBytes a bs).build = s.build := rfl
@[simp] theorem wrBytes_turns (s : State) (a : Nat) (bs : List Byte) : (s.wrBytes a bs).turns = s.turns := rfl
@[simp] theorem wrBytes_tcache (s : State) (a : Nat) (bs : List Byte) : (s.wrBytes a bs).tcache = s.tcache := rfl
@[simp] theorem wrBytes_pins (s : State) (a : Nat) (bs : List Byte) : (s.wrBytes a bs).pins = s.pins := rfl
@[simp] theorem wrBytes_pagereq (s : State) (a : Nat) (bs : List Byte) : (s.wrBytes a bs).pagereq = s.pagereq := rfl
@[simp] theorem wrBytes_scrub (s : State) (a : Nat) (bs : List Byte) : (s.wrBytes a bs).scrub = s.scrub := rfl
@[simp] theorem wrBytes_arrive (s : State) (a : Nat) (bs : List Byte) : (s.wrBytes a bs).arrive = s.arrive := rfl
@[simp] theorem wrBytes_adds (s : State) (a : Nat) (bs : List Byte) : (s.wrBytes a bs).adds = s.adds := rfl
@[simp] theorem wrBytes_dir (s : State) (a : Nat) (bs : List Byte) : (s.wrBytes a bs).dir = s.dir := rfl
@[simp] theorem wrBytes_notices (s : State) (a : Nat) (bs : List Byte) : (s.wrBytes a bs).notices = s.notices := rfl
@[simp] theorem wrBytes_markers (s : State) (a : Nat) (bs : List Byte) : (s.wrBytes a bs).markers = s.markers := rfl
@[simp] theorem wrBytes_flights (s : State) (a : Nat) (bs : List Byte) : (s.wrBytes a bs).flights = s.flights := rfl
@[simp] theorem wrBytes_answers (s : State) (a : Nat) (bs : List Byte) : (s.wrBytes a bs).answers = s.answers := rfl
@[simp] theorem wrBytes_slices (s : State) (a : Nat) (bs : List Byte) : (s.wrBytes a bs).slices = s.slices := rfl
@[simp] theorem wrBytes_links (s : State) (a : Nat) (bs : List Byte) : (s.wrBytes a bs).links = s.links := rfl
@[simp] theorem wrBytes_route (s : State) (a : Nat) (bs : List Byte) : (s.wrBytes a bs).route = s.route := rfl
@[simp] theorem wrBytes_rhold (s : State) (a : Nat) (bs : List Byte) : (s.wrBytes a bs).rhold = s.rhold := rfl
@[simp] theorem wrBytes_rwait (s : State) (a : Nat) (bs : List Byte) : (s.wrBytes a bs).rwait = s.rwait := rfl
@[simp] theorem wrBytes_ports (s : State) (a : Nat) (bs : List Byte) : (s.wrBytes a bs).ports = s.ports := rfl
@[simp] theorem wrBytes_module (s : State) (a : Nat) (bs : List Byte) : (s.wrBytes a bs).module = s.module := rfl
@[simp] theorem wrBytes_mesh (s : State) (a : Nat) (bs : List Byte) : (s.wrBytes a bs).mesh = s.mesh := rfl
@[simp] theorem wrBytes_agenda (s : State) (a : Nat) (bs : List Byte) : (s.wrBytes a bs).agenda = s.agenda := rfl
@[simp] theorem wrBytes_cur (s : State) (a : Nat) (bs : List Byte) : (s.wrBytes a bs).cur = s.cur := rfl
@[simp] theorem wrBytes_late (s : State) (a : Nat) (bs : List Byte) : (s.wrBytes a bs).late = s.late := rfl
@[simp] theorem wrBytes_stalled (s : State) (a : Nat) (bs : List Byte) : (s.wrBytes a bs).stalled = s.stalled := rfl
@[simp] theorem wrBytes_fair (s : State) (a : Nat) (bs : List Byte) : (s.wrBytes a bs).fair = s.fair := rfl
@[simp] theorem wrBytes_serial (s : State) (a : Nat) (bs : List Byte) : (s.wrBytes a bs).serial = s.serial := rfl
@[simp] theorem wrBytes_tags (s : State) (a : Nat) (bs : List Byte) : (s.wrBytes a bs).tags = s.tags := rfl

/-! ## Numbered parts -/

@[simp] theorem thr_setThr_same (s : State) (n : Nat) (h : Thread) : (s.setThr n h).thr n = h := tget_tset_same _ _ _ _
theorem thr_setThr_ne (s : State) {n k : Nat} (e : k ≠ n) (h : Thread) : (s.setThr n h).thr k = s.thr k :=
  tget_tset_ne _ _ e _

@[simp] theorem core_setCore_same (s : State) (n : Nat) (h : Core) : (s.setCore n h).core n = h := tget_tset_same _ _ _ _
theorem core_setCore_ne (s : State) {n k : Nat} (e : k ≠ n) (h : Core) : (s.setCore n h).core k = s.core k :=
  tget_tset_ne _ _ e _

@[simp] theorem clus_setClus_same (s : State) (n : Nat) (h : Cluster) : (s.setClus n h).clus n = h := tget_tset_same _ _ _ _
theorem clus_setClus_ne (s : State) {n k : Nat} (e : k ≠ n) (h : Cluster) : (s.setClus n h).clus k = s.clus k :=
  tget_tset_ne _ _ e _

@[simp] theorem part_setPart_same (s : State) (n : Nat) (h : Part) : (s.setPart n h).part n = h := tget_tset_same _ _ _ _
theorem part_setPart_ne (s : State) {n k : Nat} (e : k ≠ n) (h : Part) : (s.setPart n h).part k = s.part k :=
  tget_tset_ne _ _ e _

@[simp] theorem slice_setSlice_same (s : State) (n : Nat) (h : Slice) : (s.setSlice n h).slice n = h := tget_tset_same _ _ _ _
theorem slice_setSlice_ne (s : State) {n k : Nat} (e : k ≠ n) (h : Slice) : (s.setSlice n h).slice k = s.slice k :=
  tget_tset_ne _ _ e _

@[simp] theorem link_setLink_same (s : State) (n : Nat) (h : Link) : (s.setLink n h).link n = h := tget_tset_same _ _ _ _
theorem link_setLink_ne (s : State) {n k : Nat} (e : k ≠ n) (h : Link) : (s.setLink n h).link k = s.link k :=
  tget_tset_ne _ _ e _

@[simp] theorem port_setPort_same (s : State) (n : Nat) (h : Port) : (s.setPort n h).port n = h := tget_tset_same _ _ _ _
theorem port_setPort_ne (s : State) {n k : Nat} (e : k ≠ n) (h : Port) : (s.setPort n h).port k = s.port k :=
  tget_tset_ne _ _ e _

@[simp] theorem agent_setAgent_same (s : State) (x : BitVec 32) (a : AgentMem) : (s.setAgent x a).agent x = a :=
  tget_tset_same _ _ _ _
theorem agent_setAgent_ne (s : State) {x y : BitVec 32} (e : y ≠ x) (a : AgentMem) :
    (s.setAgent x a).agent y = s.agent y :=
  tget_tset_ne _ _ (fun h => e (BitVec.eq_of_toNat_eq h)) _
@[simp] theorem thr_updThr_same (s : State) (t : Nat) (f : Thread → Thread) : (s.updThr t f).thr t = f (s.thr t) :=
  tget_tset_same _ _ _ _
theorem thr_updThr_ne (s : State) {t k : Nat} (e : k ≠ t) (f : Thread → Thread) : (s.updThr t f).thr k = s.thr k :=
  tget_tset_ne _ _ e _
@[simp] theorem core_updCore_same (s : State) (t : Nat) (f : Core → Core) :
    (s.updCore t f).core t = f (s.core t) := tget_tset_same _ _ _ _
theorem core_updCore_ne (s : State) {t k : Nat} (e : k ≠ t) (f : Core → Core) :
    (s.updCore t f).core k = s.core k := tget_tset_ne _ _ e _
@[simp] theorem part_updPart_same (s : State) (t : Nat) (f : Part → Part) :
    (s.updPart t f).part t = f (s.part t) := tget_tset_same _ _ _ _
theorem part_updPart_ne (s : State) {t k : Nat} (e : k ≠ t) (f : Part → Part) :
    (s.updPart t f).part k = s.part k := tget_tset_ne _ _ e _
@[simp] theorem core_setThr (s : State) (t : Nat) (h : Thread) (i : Nat) : (s.setThr t h).core i = s.core i := rfl
@[simp] theorem clus_setThr (s : State) (t : Nat) (h : Thread) (i : Nat) : (s.setThr t h).clus i = s.clus i := rfl
@[simp] theorem part_setThr (s : State) (t : Nat) (h : Thread) (i : Nat) : (s.setThr t h).part i = s.part i := rfl
@[simp] theorem slice_setThr (s : State) (t : Nat) (h : Thread) (i : Nat) : (s.setThr t h).slice i = s.slice i := rfl
@[simp] theorem link_setThr (s : State) (t : Nat) (h : Thread) (i : Nat) : (s.setThr t h).link i = s.link i := rfl
@[simp] theorem port_setThr (s : State) (t : Nat) (h : Thread) (i : Nat) : (s.setThr t h).port i = s.port i := rfl
@[simp] theorem agent_setThr (s : State) (t : Nat) (h : Thread) (i : BitVec 32) : (s.setThr t h).agent i = s.agent i := rfl
@[simp] theorem core_updThr (s : State) (t : Nat) (f : Thread → Thread) (i : Nat) : (s.updThr t f).core i = s.core i := rfl
@[simp] theorem clus_updThr (s : State) (t : Nat) (f : Thread → Thread) (i : Nat) : (s.updThr t f).clus i = s.clus i := rfl
@[simp] theorem part_updThr (s : State) (t : Nat) (f : Thread → Thread) (i : Nat) : (s.updThr t f).part i = s.part i := rfl
@[simp] theorem slice_updThr (s : State) (t : Nat) (f : Thread → Thread) (i : Nat) : (s.updThr t f).slice i = s.slice i := rfl
@[simp] theorem link_updThr (s : State) (t : Nat) (f : Thread → Thread) (i : Nat) : (s.updThr t f).link i = s.link i := rfl
@[simp] theorem port_updThr (s : State) (t : Nat) (f : Thread → Thread) (i : Nat) : (s.updThr t f).port i = s.port i := rfl
@[simp] theorem agent_updThr (s : State) (t : Nat) (f : Thread → Thread) (i : BitVec 32) : (s.updThr t f).agent i = s.agent i := rfl
@[simp] theorem thr_setCore (s : State) (c : Nat) (k : Core) (i : Nat) : (s.setCore c k).thr i = s.thr i := rfl
@[simp] theorem clus_setCore (s : State) (c : Nat) (k : Core) (i : Nat) : (s.setCore c k).clus i = s.clus i := rfl
@[simp] theorem part_setCore (s : State) (c : Nat) (k : Core) (i : Nat) : (s.setCore c k).part i = s.part i := rfl
@[simp] theorem slice_setCore (s : State) (c : Nat) (k : Core) (i : Nat) : (s.setCore c k).slice i = s.slice i := rfl
@[simp] theorem link_setCore (s : State) (c : Nat) (k : Core) (i : Nat) : (s.setCore c k).link i = s.link i := rfl
@[simp] theorem port_setCore (s : State) (c : Nat) (k : Core) (i : Nat) : (s.setCore c k).port i = s.port i := rfl
@[simp] theorem agent_setCore (s : State) (c : Nat) (k : Core) (i : BitVec 32) : (s.setCore c k).agent i = s.agent i := rfl
@[simp] theorem thr_updCore (s : State) (c : Nat) (f : Core → Core) (i : Nat) : (s.updCore c f).thr i = s.thr i := rfl
@[simp] theorem clus_updCore (s : State) (c : Nat) (f : Core → Core) (i : Nat) : (s.updCore c f).clus i = s.clus i := rfl
@[simp] theorem part_updCore (s : State) (c : Nat) (f : Core → Core) (i : Nat) : (s.updCore c f).part i = s.part i := rfl
@[simp] theorem slice_updCore (s : State) (c : Nat) (f : Core → Core) (i : Nat) : (s.updCore c f).slice i = s.slice i := rfl
@[simp] theorem link_updCore (s : State) (c : Nat) (f : Core → Core) (i : Nat) : (s.updCore c f).link i = s.link i := rfl
@[simp] theorem port_updCore (s : State) (c : Nat) (f : Core → Core) (i : Nat) : (s.updCore c f).port i = s.port i := rfl
@[simp] theorem agent_updCore (s : State) (c : Nat) (f : Core → Core) (i : BitVec 32) : (s.updCore c f).agent i = s.agent i := rfl
@[simp] theorem thr_tickCore (s : State) (c : Nat) (i : Nat) : (s.tickCore c).thr i = s.thr i := rfl
@[simp] theorem clus_tickCore (s : State) (c : Nat) (i : Nat) : (s.tickCore c).clus i = s.clus i := rfl
@[simp] theorem part_tickCore (s : State) (c : Nat) (i : Nat) : (s.tickCore c).part i = s.part i := rfl
@[simp] theorem slice_tickCore (s : State) (c : Nat) (i : Nat) : (s.tickCore c).slice i = s.slice i := rfl
@[simp] theorem link_tickCore (s : State) (c : Nat) (i : Nat) : (s.tickCore c).link i = s.link i := rfl
@[simp] theorem port_tickCore (s : State) (c : Nat) (i : Nat) : (s.tickCore c).port i = s.port i := rfl
@[simp] theorem agent_tickCore (s : State) (c : Nat) (i : BitVec 32) : (s.tickCore c).agent i = s.agent i := rfl
@[simp] theorem thr_setClus (s : State) (c : Nat) (k : Cluster) (i : Nat) : (s.setClus c k).thr i = s.thr i := rfl
@[simp] theorem core_setClus (s : State) (c : Nat) (k : Cluster) (i : Nat) : (s.setClus c k).core i = s.core i := rfl
@[simp] theorem part_setClus (s : State) (c : Nat) (k : Cluster) (i : Nat) : (s.setClus c k).part i = s.part i := rfl
@[simp] theorem slice_setClus (s : State) (c : Nat) (k : Cluster) (i : Nat) : (s.setClus c k).slice i = s.slice i := rfl
@[simp] theorem link_setClus (s : State) (c : Nat) (k : Cluster) (i : Nat) : (s.setClus c k).link i = s.link i := rfl
@[simp] theorem port_setClus (s : State) (c : Nat) (k : Cluster) (i : Nat) : (s.setClus c k).port i = s.port i := rfl
@[simp] theorem agent_setClus (s : State) (c : Nat) (k : Cluster) (i : BitVec 32) : (s.setClus c k).agent i = s.agent i := rfl
@[simp] theorem thr_setPart (s : State) (p : Nat) (k : Part) (i : Nat) : (s.setPart p k).thr i = s.thr i := rfl
@[simp] theorem core_setPart (s : State) (p : Nat) (k : Part) (i : Nat) : (s.setPart p k).core i = s.core i := rfl
@[simp] theorem clus_setPart (s : State) (p : Nat) (k : Part) (i : Nat) : (s.setPart p k).clus i = s.clus i := rfl
@[simp] theorem slice_setPart (s : State) (p : Nat) (k : Part) (i : Nat) : (s.setPart p k).slice i = s.slice i := rfl
@[simp] theorem link_setPart (s : State) (p : Nat) (k : Part) (i : Nat) : (s.setPart p k).link i = s.link i := rfl
@[simp] theorem port_setPart (s : State) (p : Nat) (k : Part) (i : Nat) : (s.setPart p k).port i = s.port i := rfl
@[simp] theorem agent_setPart (s : State) (p : Nat) (k : Part) (i : BitVec 32) : (s.setPart p k).agent i = s.agent i := rfl
@[simp] theorem thr_updPart (s : State) (p : Nat) (f : Part → Part) (i : Nat) : (s.updPart p f).thr i = s.thr i := rfl
@[simp] theorem core_updPart (s : State) (p : Nat) (f : Part → Part) (i : Nat) : (s.updPart p f).core i = s.core i := rfl
@[simp] theorem clus_updPart (s : State) (p : Nat) (f : Part → Part) (i : Nat) : (s.updPart p f).clus i = s.clus i := rfl
@[simp] theorem slice_updPart (s : State) (p : Nat) (f : Part → Part) (i : Nat) : (s.updPart p f).slice i = s.slice i := rfl
@[simp] theorem link_updPart (s : State) (p : Nat) (f : Part → Part) (i : Nat) : (s.updPart p f).link i = s.link i := rfl
@[simp] theorem port_updPart (s : State) (p : Nat) (f : Part → Part) (i : Nat) : (s.updPart p f).port i = s.port i := rfl
@[simp] theorem agent_updPart (s : State) (p : Nat) (f : Part → Part) (i : BitVec 32) : (s.updPart p f).agent i = s.agent i := rfl
@[simp] theorem thr_setSlice (s : State) (n : Nat) (k : Slice) (i : Nat) : (s.setSlice n k).thr i = s.thr i := rfl
@[simp] theorem core_setSlice (s : State) (n : Nat) (k : Slice) (i : Nat) : (s.setSlice n k).core i = s.core i := rfl
@[simp] theorem clus_setSlice (s : State) (n : Nat) (k : Slice) (i : Nat) : (s.setSlice n k).clus i = s.clus i := rfl
@[simp] theorem part_setSlice (s : State) (n : Nat) (k : Slice) (i : Nat) : (s.setSlice n k).part i = s.part i := rfl
@[simp] theorem link_setSlice (s : State) (n : Nat) (k : Slice) (i : Nat) : (s.setSlice n k).link i = s.link i := rfl
@[simp] theorem port_setSlice (s : State) (n : Nat) (k : Slice) (i : Nat) : (s.setSlice n k).port i = s.port i := rfl
@[simp] theorem agent_setSlice (s : State) (n : Nat) (k : Slice) (i : BitVec 32) : (s.setSlice n k).agent i = s.agent i := rfl
@[simp] theorem thr_setLink (s : State) (n : Nat) (k : Link) (i : Nat) : (s.setLink n k).thr i = s.thr i := rfl
@[simp] theorem core_setLink (s : State) (n : Nat) (k : Link) (i : Nat) : (s.setLink n k).core i = s.core i := rfl
@[simp] theorem clus_setLink (s : State) (n : Nat) (k : Link) (i : Nat) : (s.setLink n k).clus i = s.clus i := rfl
@[simp] theorem part_setLink (s : State) (n : Nat) (k : Link) (i : Nat) : (s.setLink n k).part i = s.part i := rfl
@[simp] theorem slice_setLink (s : State) (n : Nat) (k : Link) (i : Nat) : (s.setLink n k).slice i = s.slice i := rfl
@[simp] theorem port_setLink (s : State) (n : Nat) (k : Link) (i : Nat) : (s.setLink n k).port i = s.port i := rfl
@[simp] theorem agent_setLink (s : State) (n : Nat) (k : Link) (i : BitVec 32) : (s.setLink n k).agent i = s.agent i := rfl
@[simp] theorem thr_setPort (s : State) (n : Nat) (k : Port) (i : Nat) : (s.setPort n k).thr i = s.thr i := rfl
@[simp] theorem core_setPort (s : State) (n : Nat) (k : Port) (i : Nat) : (s.setPort n k).core i = s.core i := rfl
@[simp] theorem clus_setPort (s : State) (n : Nat) (k : Port) (i : Nat) : (s.setPort n k).clus i = s.clus i := rfl
@[simp] theorem part_setPort (s : State) (n : Nat) (k : Port) (i : Nat) : (s.setPort n k).part i = s.part i := rfl
@[simp] theorem slice_setPort (s : State) (n : Nat) (k : Port) (i : Nat) : (s.setPort n k).slice i = s.slice i := rfl
@[simp] theorem link_setPort (s : State) (n : Nat) (k : Port) (i : Nat) : (s.setPort n k).link i = s.link i := rfl
@[simp] theorem agent_setPort (s : State) (n : Nat) (k : Port) (i : BitVec 32) : (s.setPort n k).agent i = s.agent i := rfl
@[simp] theorem thr_setAgent (s : State) (x : BitVec 32) (a : AgentMem) (i : Nat) : (s.setAgent x a).thr i = s.thr i := rfl
@[simp] theorem core_setAgent (s : State) (x : BitVec 32) (a : AgentMem) (i : Nat) : (s.setAgent x a).core i = s.core i := rfl
@[simp] theorem clus_setAgent (s : State) (x : BitVec 32) (a : AgentMem) (i : Nat) : (s.setAgent x a).clus i = s.clus i := rfl
@[simp] theorem part_setAgent (s : State) (x : BitVec 32) (a : AgentMem) (i : Nat) : (s.setAgent x a).part i = s.part i := rfl
@[simp] theorem slice_setAgent (s : State) (x : BitVec 32) (a : AgentMem) (i : Nat) : (s.setAgent x a).slice i = s.slice i := rfl
@[simp] theorem link_setAgent (s : State) (x : BitVec 32) (a : AgentMem) (i : Nat) : (s.setAgent x a).link i = s.link i := rfl
@[simp] theorem port_setAgent (s : State) (x : BitVec 32) (a : AgentMem) (i : Nat) : (s.setAgent x a).port i = s.port i := rfl
@[simp] theorem thr_stallIt (s : State) (i : Nat) : (s.stallIt).thr i = s.thr i := rfl
@[simp] theorem core_stallIt (s : State) (i : Nat) : (s.stallIt).core i = s.core i := rfl
@[simp] theorem clus_stallIt (s : State) (i : Nat) : (s.stallIt).clus i = s.clus i := rfl
@[simp] theorem part_stallIt (s : State) (i : Nat) : (s.stallIt).part i = s.part i := rfl
@[simp] theorem slice_stallIt (s : State) (i : Nat) : (s.stallIt).slice i = s.slice i := rfl
@[simp] theorem link_stallIt (s : State) (i : Nat) : (s.stallIt).link i = s.link i := rfl
@[simp] theorem port_stallIt (s : State) (i : Nat) : (s.stallIt).port i = s.port i := rfl
@[simp] theorem agent_stallIt (s : State) (i : BitVec 32) : (s.stallIt).agent i = s.agent i := rfl
@[simp] theorem thr_wr (s : State) (a : Nat) (b : Byte) (i : Nat) : (s.wr a b).thr i = s.thr i := rfl
@[simp] theorem core_wr (s : State) (a : Nat) (b : Byte) (i : Nat) : (s.wr a b).core i = s.core i := rfl
@[simp] theorem clus_wr (s : State) (a : Nat) (b : Byte) (i : Nat) : (s.wr a b).clus i = s.clus i := rfl
@[simp] theorem part_wr (s : State) (a : Nat) (b : Byte) (i : Nat) : (s.wr a b).part i = s.part i := rfl
@[simp] theorem slice_wr (s : State) (a : Nat) (b : Byte) (i : Nat) : (s.wr a b).slice i = s.slice i := rfl
@[simp] theorem link_wr (s : State) (a : Nat) (b : Byte) (i : Nat) : (s.wr a b).link i = s.link i := rfl
@[simp] theorem port_wr (s : State) (a : Nat) (b : Byte) (i : Nat) : (s.wr a b).port i = s.port i := rfl
@[simp] theorem agent_wr (s : State) (a : Nat) (b : Byte) (i : BitVec 32) : (s.wr a b).agent i = s.agent i := rfl
@[simp] theorem thr_wrBytes (s : State) (a : Nat) (bs : List Byte) (i : Nat) : (s.wrBytes a bs).thr i = s.thr i := rfl
@[simp] theorem core_wrBytes (s : State) (a : Nat) (bs : List Byte) (i : Nat) : (s.wrBytes a bs).core i = s.core i := rfl
@[simp] theorem clus_wrBytes (s : State) (a : Nat) (bs : List Byte) (i : Nat) : (s.wrBytes a bs).clus i = s.clus i := rfl
@[simp] theorem part_wrBytes (s : State) (a : Nat) (bs : List Byte) (i : Nat) : (s.wrBytes a bs).part i = s.part i := rfl
@[simp] theorem slice_wrBytes (s : State) (a : Nat) (bs : List Byte) (i : Nat) : (s.wrBytes a bs).slice i = s.slice i := rfl
@[simp] theorem link_wrBytes (s : State) (a : Nat) (bs : List Byte) (i : Nat) : (s.wrBytes a bs).link i = s.link i := rfl
@[simp] theorem port_wrBytes (s : State) (a : Nat) (bs : List Byte) (i : Nat) : (s.wrBytes a bs).port i = s.port i := rfl
@[simp] theorem agent_wrBytes (s : State) (a : Nat) (bs : List Byte) (i : BitVec 32) : (s.wrBytes a bs).agent i = s.agent i := rfl

/-! ## Mesh cycles -/

theorem memFlush_plain {s : State} {p : Nat} (h : (s.port p).hdmNew = none) : s.memFlush p = s := by
  simp [State.memFlush, h]
theorem routeFlush_plain {s : State} (h : s.rhold = []) : s.routeFlush = s := by simp [State.routeFlush, h]
theorem serve_plain {s : State} (h : s.links = []) : s.serve = s := by simp [State.serve, h]
theorem retryAdds_plain {s : State} (h : s.adds = []) : s.retryAdds = s := by simp [State.retryAdds, h]
/-- Are the homes of all packets in the interfaces' buffers known? -/
def State.homesKnown (s : State) : Bool :=
  s.ports.all (fun e => e.2.ifs.all (fun f => f.2.buf.all BufPkt.known))
theorem retryHomes_plain {s : State} (h : s.homesKnown = true) : s.retryHomes = s := by
  have k : ∀ e ∈ s.ports, ∀ f ∈ e.2.ifs, f.2.buf.any (fun b => !b.known) = false := by
    intro e me f mf
    simp only [State.homesKnown, List.all_eq_true] at h
    simp only [List.any_eq_false]
    intro b mb
    simp [h e me f mf b mb]
  have inner (e : Nat × Port) (l : List (Nat × Iface)) (m : ∀ f ∈ l, f.2.buf.any (fun b => !b.known) = false) :
      l.foldl (fun (s : State) (f : Nat × Iface) =>
        if f.2.buf.any (fun b => !b.known) then s.sendIf e.1 f.1 else s) s = s := by
    induction l with
    | nil => rfl
    | cons f l ih =>
      simp only [List.foldl_cons, m f (by simp)]
      exact ih (fun g hg => m g (by simp [hg]))
  have outer (l : List (Nat × Port)) (m : ∀ e ∈ l, e ∈ s.ports) :
      l.foldl (fun (s : State) (e : Nat × Port) => e.2.ifs.foldl (fun (s : State) (f : Nat × Iface) =>
        if f.2.buf.any (fun b => !b.known) then s.sendIf e.1 f.1 else s) s) s = s := by
    induction l with
    | nil => rfl
    | cons e l ih =>
      rw [List.foldl_cons, inner e e.2.ifs (k e (m e (by simp)))]
      exact ih (fun g hg => m g (by simp [hg]))
  exact outer s.ports (fun _ h => h)
/-- Mesh cycles pass where no port, route, link, counter or interface has anything waiting. -/
theorem passTime_plain {s : State} {n : Nat} (p0 : (s.port 0).hdmNew = none) (p1 : (s.port 1).hdmNew = none)
    (r : s.rhold = []) (l : s.links = []) (a : s.adds = []) (k : s.homesKnown = true) :
    s.passTime n = { s with mesh := s.mesh + n } := by
  let u : State := { s with mesh := s.mesh + n }
  show (((u.memFlush 0).memFlush 1).routeFlush).serve.retryAdds.retryHomes = u
  rw [memFlush_plain (s := u) p0, memFlush_plain (s := u) p1, routeFlush_plain (s := u) r, serve_plain (s := u) l,
    retryAdds_plain (s := u) a, retryHomes_plain (s := u) k]

end Sys2Proof.Machine
end

