-- ==== Sys2Proof/Laws/Issue.lean ====
section
/-! SUPPORT. What issuing an instruction comes to, for each way its meaning can end. -/

namespace Sys2Proof.Machine

variable {s : State} {h : Hdr} {i : Instr} {body : State → Nat → Eff}

theorem recGuard_none (e : (s.thr s.cur).recording = none) : s.recGuard s.cur h = s := by
  simp [State.recGuard, e]
theorem recBefore_none (e : (s.thr s.cur).recording = none) : s.recBefore s.cur i = s := by
  simp [State.recBefore, e]

/-- An instruction that completes. -/
theorem run_done (r : Ready s h i) {u : State} (e : body s s.cur = .done u) :
    run s h i body = .next (u.complete s.cur (reach i)) := by
  have g : (s.thr s.cur).guard h = true := r.guard
  have n : (s.thr s.cur).recording = none := r.plain
  simp [run, State.issue, r.free, recGuard_none n, recBefore_none n, g, n, e, State.recAfter]

/-- An instruction that transfers control. -/
theorem run_jump (r : Ready s h i) {u : State} {pc : Word} (e : body s s.cur = .jump u pc) :
    run s h i body = .next (u.jumpTo s.cur pc) := by
  have g : (s.thr s.cur).guard h = true := r.guard
  have n : (s.thr s.cur).recording = none := r.plain
  simp [run, State.issue, r.free, recGuard_none n, recBefore_none n, g, n, e, State.recAfter]

/-- An instruction that traps. -/
theorem run_trap (r : Ready s h i) {u : State} {c sub : Nat} {c4 c5 : Word} {nx : Bool}
    (e : body s s.cur = .trap u c sub c4 c5 nx) :
    run s h i body = .next (s.trapFrom u s.cur c sub c4 c5 nx) := by
  have g : (s.thr s.cur).guard h = true := r.guard
  have n : (s.thr s.cur).recording = none := r.plain
  simp [run, State.issue, r.free, recGuard_none n, recBefore_none n, g, n, e]

/-- An instruction that waits. -/
theorem run_wait (r : Ready s h i) {u : State} {w : Wait} (e : body s s.cur = .wait u w) :
    run s h i body = .next (u.updThr s.cur (fun h => { h with waiting := some w })) := by
  have g : (s.thr s.cur).guard h = true := r.guard
  have n : (s.thr s.cur).recording = none := r.plain
  simp [run, State.issue, r.free, recGuard_none n, recBefore_none n, g, n, e]

/-- An instruction whose unit ends. -/
theorem run_ended (r : Ready s h i) {u : State} (e : body s s.cur = .ended u) :
    run s h i body = .next (u.tickCore (coreOf s.cur)) := by
  have g : (s.thr s.cur).guard h = true := r.guard
  have n : (s.thr s.cur).recording = none := r.plain
  simp [run, State.issue, r.free, recGuard_none n, recBefore_none n, g, n, e]

/-- An instruction that must be executed again. -/
theorem run_stall (r : Ready s h i) {u : State} (e : body s s.cur = .stall u) :
    run s h i body = .next u.stallIt := by
  have g : (s.thr s.cur).guard h = true := r.guard
  have n : (s.thr s.cur).recording = none := r.plain
  simp [run, State.issue, r.free, recGuard_none n, recBefore_none n, g, n, e]

/-- An instruction whose guard fails. -/
theorem run_skip (f : s.mayIssue s.cur i = true) (g : (s.thr s.cur).guard h = false)
    (n : (s.thr s.cur).recording = none) : run s h i body = .next (s.complete s.cur (reach i)) := by
  simp [run, State.issue, f, recGuard_none n, g]

/-- An instruction that may not issue yet. -/
theorem run_held (f : s.mayIssue s.cur i = false) : run s h i body = .next s.stallIt := by
  simp [run, State.issue, f]

end Sys2Proof.Machine
end

