-- ==== Sys2Proof/Laws/Memory.lean ====
section
/-! SUPPORT. The root memory: its canonical form, what keeps it, and reads after writes. -/

namespace Sys2Proof.Machine

/-! ## The canonical form, by heads -/

/-- Every number of a table is at least n. -/
def tfrom {α : Type} (n : Nat) (t : Tbl α) : Prop := ∀ p ∈ t, n ≤ p.1

theorem tcanon_nil {α : Type} [DecidableEq α] (d : α) : tcanon d [] = true := rfl

/-- A table is canonical when its head is not the default, its tail is canonical and all of it lies above. -/
theorem tcanon_cons {α : Type} [DecidableEq α] (d : α) (j : Nat) (w : α) (t : Tbl α) :
    tcanon d ((j, w) :: t) = true ↔ w ≠ d ∧ tcanon d t = true ∧ tfrom (j + 1) t := by
  induction t generalizing j w with
  | nil => simp [tcanon, tsorted, tfrom]
  | cons p t ih =>
    obtain ⟨k, x⟩ := p
    have h := ih k x
    simp only [tcanon, Bool.and_eq_true, List.all_cons, decide_eq_true_eq] at h ⊢
    constructor
    · rintro ⟨hs, hw, hx, ht⟩
      simp only [tsorted, Bool.and_eq_true, decide_eq_true_eq] at hs
      have := h.mp ⟨hs.2, hx, ht⟩
      refine ⟨hw, ⟨hs.2, hx, ht⟩, ?_⟩
      intro p hp
      rcases List.mem_cons.mp hp with rfl | hp
      · exact hs.1
      · exact Nat.le_trans (Nat.succ_le_of_lt (Nat.lt_succ_of_lt hs.1)) (this.2.2 p hp)
    · rintro ⟨hw, ⟨hs, hx, ht⟩, hf⟩
      refine ⟨?_, hw, hx, ht⟩
      simp only [tsorted, Bool.and_eq_true, decide_eq_true_eq]
      exact ⟨hf _ List.mem_cons_self, hs⟩

theorem tfrom_tset {α : Type} {n k : Nat} {v : α} {t : Tbl α} (h : tfrom n t) (hk : n ≤ k) :
    tfrom n (tset t k v) := by
  induction t with
  | nil => intro p hp; simp [tset] at hp; subst hp; exact hk
  | cons q t ih =>
    obtain ⟨j, w⟩ := q
    have ht : tfrom n t := fun p hp => h p (List.mem_cons_of_mem _ hp)
    have hj : n ≤ j := h (j, w) List.mem_cons_self
    simp only [tset]
    split
    · intro p hp
      rcases List.mem_cons.mp hp with rfl | hp
      · exact hk
      · exact ht p hp
    · split
      · intro p hp
        rcases List.mem_cons.mp hp with rfl | hp
        · exact hk
        · exact h p hp
      · intro p hp
        rcases List.mem_cons.mp hp with rfl | hp
        · exact hj
        · exact ih ht p hp

theorem tfrom_tdel {α : Type} {n k : Nat} {t : Tbl α} (h : tfrom n t) : tfrom n (tdel t k) := by
  induction t with
  | nil => simpa [tdel] using h
  | cons q t ih =>
    obtain ⟨j, w⟩ := q
    have ht : tfrom n t := fun p hp => h p (List.mem_cons_of_mem _ hp)
    simp only [tdel]
    split
    · exact ht
    · split
      · exact h
      · intro p hp
        rcases List.mem_cons.mp hp with rfl | hp
        · exact h _ List.mem_cons_self
        · exact ih ht p hp

theorem tcanon_tset {α : Type} [DecidableEq α] {d : α} {t : Tbl α} (h : tcanon d t = true) (k : Nat) {v : α}
    (hv : v ≠ d) : tcanon d (tset t k v) = true := by
  induction t with
  | nil => simp [tset, tcanon, tsorted, hv]
  | cons q t ih =>
    obtain ⟨j, w⟩ := q
    obtain ⟨hw, hc, hf⟩ := (tcanon_cons d j w t).mp h
    simp only [tset]
    split
    · subst_vars; exact (tcanon_cons d _ v t).mpr ⟨hv, hc, hf⟩
    · split
      · rename_i hlt
        refine (tcanon_cons d k v _).mpr ⟨hv, h, ?_⟩
        intro p hp
        rcases List.mem_cons.mp hp with rfl | hp
        · exact hlt
        · exact Nat.le_trans (Nat.succ_le_succ (Nat.le_of_lt hlt)) (hf p hp)
      · refine (tcanon_cons d j w _).mpr ⟨hw, ih hc, tfrom_tset hf ?_⟩
        omega

theorem tcanon_tdel {α : Type} [DecidableEq α] {d : α} {t : Tbl α} (h : tcanon d t = true) (k : Nat) :
    tcanon d (tdel t k) = true := by
  induction t with
  | nil => simp [tdel, tcanon, tsorted]
  | cons q t ih =>
    obtain ⟨j, w⟩ := q
    obtain ⟨hw, hc, hf⟩ := (tcanon_cons d j w t).mp h
    simp only [tdel]
    split
    · exact hc
    · split
      · exact h
      · exact (tcanon_cons d j w _).mpr ⟨hw, ih hc, tfrom_tdel hf⟩

theorem tcanon_tput {α : Type} [DecidableEq α] {d : α} {t : Tbl α} (h : tcanon d t = true) (k : Nat) (v : α) :
    tcanon d (tput d t k v) = true := by
  unfold tput
  split
  · exact tcanon_tdel h k
  · exact tcanon_tset h k ‹_›

theorem tfrom_filter {α : Type} {n : Nat} {t : Tbl α} (h : tfrom n t) (f : Nat × α → Bool) :
    tfrom n (t.filter f) := fun p hp => h p (List.mem_filter.mp hp).1

theorem tcanon_filter {α : Type} [DecidableEq α] {d : α} {t : Tbl α} (h : tcanon d t = true)
    (f : Nat × α → Bool) : tcanon d (t.filter f) = true := by
  induction t with
  | nil => rfl
  | cons q t ih =>
    obtain ⟨j, w⟩ := q
    obtain ⟨hw, hc, hf⟩ := (tcanon_cons d j w t).mp h
    by_cases hq : f (j, w) = true
    · rw [List.filter_cons_of_pos hq]
      exact (tcanon_cons d j w _).mpr ⟨hw, ih hc, tfrom_filter hf f⟩
    · rw [List.filter_cons_of_neg hq]
      exact ih hc

/-- Two canonical tables, one wholly below the other, join to a canonical table. -/
theorem tcanon_append {α : Type} [DecidableEq α] {d : α} {t u : Tbl α} (ht : tcanon d t = true)
    (hu : tcanon d u = true) (h : ∀ p ∈ t, ∀ q ∈ u, p.1 < q.1) : tcanon d (t ++ u) = true := by
  induction t with
  | nil => exact hu
  | cons p t ih =>
    obtain ⟨j, w⟩ := p
    obtain ⟨hw, hc, hf⟩ := (tcanon_cons d j w t).mp ht
    refine (tcanon_cons d j w _).mpr ⟨hw, ih hc (fun p hp => h p (List.mem_cons_of_mem _ hp)), ?_⟩
    intro q hq
    rcases List.mem_append.mp hq with hq | hq
    · exact hf q hq
    · exact h (j, w) List.mem_cons_self q hq

/-! ## Memory keeps its form -/

theorem wf_memSet {m : List Host.Cell} (h : Memory.wf m = true) (a : Nat) (b : Byte) :
    Memory.wf (memSet m a b) = true := tcanon_tput h a b

theorem wf_filter {m : List Host.Cell} (h : Memory.wf m = true) (f : Host.Cell → Bool) :
    Memory.wf (m.filter f) = true := tcanon_filter h f

theorem cellsOf_span (a : Nat) (bs : List Byte) : ∀ c ∈ cellsOf a bs, a ≤ c.1 ∧ c.1 < a + bs.length := by
  induction bs generalizing a with
  | nil => simp [cellsOf]
  | cons b bs ih =>
    intro c hc
    simp only [cellsOf] at hc
    have hs : ∀ c ∈ cellsOf (a + 1) bs, a ≤ c.1 ∧ c.1 < a + (b :: bs).length := by
      intro c hc
      have := ih (a + 1) c hc
      simp only [List.length_cons]
      omega
    split at hc
    · exact hs c hc
    · rcases List.mem_cons.mp hc with rfl | hc
      · simp
      · exact hs c hc

theorem wf_cellsOf (a : Nat) (bs : List Byte) : Memory.wf (cellsOf a bs) = true := by
  induction bs generalizing a with
  | nil => rfl
  | cons b bs ih =>
    simp only [cellsOf]
    split
    · exact ih (a + 1)
    · exact (tcanon_cons _ a b _).mpr ⟨‹_›, ih (a + 1), fun p hp => (cellsOf_span (a + 1) bs p hp).1⟩

theorem wf_memPut {m : List Host.Cell} (h : Memory.wf m = true) (a : Nat) (bs : List Byte) :
    Memory.wf (memPut m a bs) = true := by
  refine tcanon_append (tcanon_append (wf_filter h _) (wf_cellsOf a bs) ?_) (wf_filter h _) ?_
  · intro p hp q hq
    have := (cellsOf_span a bs q hq).1
    have hp := (List.mem_filter.mp hp).2
    simp only [decide_eq_true_eq] at hp
    omega
  · intro p hp q hq
    have hq := (List.mem_filter.mp hq).2
    simp only [decide_eq_true_eq] at hq
    rcases List.mem_append.mp hp with hp | hp
    · have hp := (List.mem_filter.mp hp).2
      simp only [decide_eq_true_eq] at hp
      omega
    · have := (cellsOf_span a bs p hp).2
      omega


theorem memWf_reset : State.reset.MemWf := rfl
theorem memWf_wr {s : State} (h : s.MemWf) (a : Nat) (b : Byte) : (s.wr a b).MemWf := wf_memSet h a b
theorem memWf_wrBytes {s : State} (h : s.MemWf) (a : Nat) (bs : List Byte) : (s.wrBytes a bs).MemWf :=
  wf_memPut h a bs
theorem memWf_poolMove {s : State} (h : s.MemWf) (c b0 b1 n0 n1 : Nat) : (s.poolMove c b0 b1 n0 n1).MemWf := by
  have step (f : Nat → Option Nat) (l m : List Host.Cell) (hm : Memory.wf m = true) :
      Memory.wf (l.foldl (movedTo f) m) = true := by
    induction l generalizing m with
    | nil => exact hm
    | cons e l ih =>
      refine ih _ ?_
      unfold movedTo
      split
      · exact wf_memSet hm _ _
      · exact hm
  exact step _ _ _ (wf_filter h _)

/-! ## Reads after writes -/

theorem tget_tdel_ne {α : Type} (d : α) (t : Tbl α) {k n : Nat} (hs : tsorted t = true) (h : n ≠ k) :
    tget d (tdel t k) n = tget d t n := by
  induction t with
  | nil => rfl
  | cons p t ih =>
    obtain ⟨j, w⟩ := p
    have hst : tsorted t = true := by
      cases t with
      | nil => rfl
      | cons q t => simp only [tsorted, Bool.and_eq_true] at hs; exact hs.2
    simp only [tdel]
    split
    · subst_vars
      simp only [tget, if_neg (Ne.symm h)]
      split
      · cases t with
        | nil => rfl
        | cons q t =>
          obtain ⟨i, x⟩ := q
          simp only [tsorted, Bool.and_eq_true, decide_eq_true_eq] at hs
          simp only [tget]
          rw [if_neg (by omega), if_pos (by omega)]
      · rfl
    · split
      · rfl
      · simp only [tget, ih hst]

theorem tget_from {α : Type} (d : α) (t : Tbl α) {n k : Nat} (h : tfrom n t) (hk : k < n) : tget d t k = d := by
  cases t with
  | nil => rfl
  | cons q t =>
    obtain ⟨i, x⟩ := q
    have := h (i, x) List.mem_cons_self
    simp only [tget]
    rw [if_neg (by simp only at this; omega), if_pos (by simp only at this; omega)]

theorem tget_tdel_same {α : Type} [DecidableEq α] (d : α) (t : Tbl α) (k : Nat) (h : tcanon d t = true) :
    tget d (tdel t k) k = d := by
  induction t with
  | nil => rfl
  | cons p t ih =>
    obtain ⟨j, w⟩ := p
    obtain ⟨_, hc, hf⟩ := (tcanon_cons d j w t).mp h
    simp only [tdel]
    split
    · subst_vars
      exact tget_from d t hf (by omega)
    · split
      · rename_i h1 h2
        simp only [tget, if_neg h1, if_pos h2]
      · rename_i h1 h2
        simp only [tget, if_neg h1, if_neg h2, ih hc]

theorem memGet_memSet_same {m : List Host.Cell} (h : Memory.wf m = true) (a : Nat) (b : Byte) :
    memGet (memSet m a b) a = b := by
  unfold memGet memSet tput
  split
  · subst_vars
    exact tget_tdel_same _ _ _ h
  · exact tget_tset_same _ _ _ _

theorem memGet_memSet_ne {m : List Host.Cell} (h : Memory.wf m = true) {a k : Nat} (hk : k ≠ a) (b : Byte) :
    memGet (memSet m a b) k = memGet m k := by
  unfold memGet memSet tput
  simp only [Memory.wf, tcanon, Bool.and_eq_true] at h
  split
  · exact tget_tdel_ne _ _ h.1 hk
  · exact tget_tset_ne _ _ hk _

theorem rd_wr_same {s : State} (h : s.MemWf) (a : Nat) (b : Byte) : (s.wr a b).rd a = b :=
  memGet_memSet_same h a b
theorem rd_wr_ne {s : State} (h : s.MemWf) {a k : Nat} (hk : k ≠ a) (b : Byte) : (s.wr a b).rd k = s.rd k :=
  memGet_memSet_ne h hk b

/-- A lookup in a canonical table is a lookup by membership. -/
theorem tget_of_mem {α : Type} [DecidableEq α] {d : α} {t : Tbl α} (h : tcanon d t = true) {k : Nat} {v : α}
    (hm : (k, v) ∈ t) : tget d t k = v := by
  induction t with
  | nil => simp at hm
  | cons p t ih =>
    obtain ⟨j, w⟩ := p
    obtain ⟨_, hc, hf⟩ := (tcanon_cons d j w t).mp h
    rcases List.mem_cons.mp hm with e | hm
    · cases e; simp [tget]
    · have := hf _ hm
      simp only [tget]
      rw [if_neg (by simp only at this; omega), if_neg (by simp only at this; omega)]
      exact ih hc hm

theorem tget_of_not_mem {α : Type} {d : α} {t : Tbl α} {k : Nat} (hm : ∀ p ∈ t, p.1 ≠ k) : tget d t k = d := by
  induction t with
  | nil => rfl
  | cons p t ih =>
    obtain ⟨j, w⟩ := p
    have h1 := hm (j, w) List.mem_cons_self
    simp only [tget, if_neg h1]
    split
    · rfl
    · exact ih (fun p hp => hm p (List.mem_cons_of_mem _ hp))

/-- Two canonical tables that hold the same entry for a number read the same there. -/
theorem tget_congr {α : Type} [DecidableEq α] {d : α} {t u : Tbl α} (ht : tcanon d t = true)
    (hu : tcanon d u = true) {k : Nat} (h : ∀ v, (k, v) ∈ t ↔ (k, v) ∈ u) : tget d t k = tget d u k := by
  by_cases hm : ∃ v, (k, v) ∈ t
  · obtain ⟨v, hv⟩ := hm
    rw [tget_of_mem ht hv, tget_of_mem hu ((h v).mp hv)]
  · rw [tget_of_not_mem (fun p hp e => hm ⟨p.2, by rw [← e]; exact hp⟩),
      tget_of_not_mem (fun p hp e => hm ⟨p.2, (h p.2).mpr (by rw [← e]; exact hp)⟩)]

theorem mem_cellsOf {a k : Nat} {bs : List Byte} {v : Byte} :
    (k, v) ∈ cellsOf a bs ↔ a ≤ k ∧ bs[k - a]? = some v ∧ v ≠ memDefault := by
  induction bs generalizing a with
  | nil => simp [cellsOf]
  | cons b bs ih =>
    have step : (k, v) ∈ cellsOf (a + 1) bs ↔ a + 1 ≤ k ∧ (b :: bs)[k - a]? = some v ∧ v ≠ memDefault := by
      rw [ih]
      constructor
      · rintro ⟨h1, h2, h3⟩
        refine ⟨h1, ?_, h3⟩
        have : k - a = (k - (a + 1)) + 1 := by omega
        rw [this, List.getElem?_cons_succ]
        exact h2
      · rintro ⟨h1, h2, h3⟩
        refine ⟨h1, ?_, h3⟩
        have : k - a = (k - (a + 1)) + 1 := by omega
        rw [this, List.getElem?_cons_succ] at h2
        exact h2
    simp only [cellsOf]
    split
    · rename_i hb
      rw [step]
      constructor
      · rintro ⟨h1, h2⟩; exact ⟨by omega, h2⟩
      · rintro ⟨h1, h2, h3⟩
        refine ⟨?_, h2, h3⟩
        by_contra hlt
        have : k - a = 0 := by omega
        rw [this] at h2
        simp only [List.getElem?_cons_zero, Option.some.injEq] at h2
        exact h3 (h2 ▸ hb)
    · rename_i hb
      rw [List.mem_cons, step]
      constructor
      · rintro (e | ⟨h1, h2⟩)
        · cases e
          exact ⟨Nat.le_refl _, by simp, hb⟩
        · exact ⟨by omega, h2⟩
      · rintro ⟨h1, h2, h3⟩
        by_cases e : k = a
        · subst e
          simp only [Nat.sub_self, List.getElem?_cons_zero, Option.some.injEq] at h2
          exact Or.inl (by rw [h2])
        · exact Or.inr ⟨by omega, h2, h3⟩

theorem memGet_cellsOf {a k : Nat} {bs : List Byte} (h1 : a ≤ k) (h2 : k < a + bs.length) :
    memGet (cellsOf a bs) k = bs[k - a]'(by omega) := by
  by_cases hd : bs[k - a]'(by omega) = memDefault
  · rw [hd]
    refine tget_of_not_mem (fun p hp e => ?_)
    obtain ⟨q, v⟩ := p
    simp only at e
    subst e
    obtain ⟨_, h, h3⟩ := mem_cellsOf.mp hp
    rw [List.getElem?_eq_getElem (by omega)] at h
    exact h3 ((Option.some.inj h).symm.trans hd)
  · exact tget_of_mem (wf_cellsOf a bs)
      (mem_cellsOf.mpr ⟨h1, by rw [List.getElem?_eq_getElem (by omega)], hd⟩)

/-- Bytes put read back. -/
theorem memGet_memPut_in {m : List Host.Cell} (h : Memory.wf m = true) {a k : Nat} {bs : List Byte}
    (h1 : a ≤ k) (h2 : k < a + bs.length) : memGet (memPut m a bs) k = bs[k - a]'(by omega) := by
  rw [← memGet_cellsOf h1 h2]
  refine tget_congr (wf_memPut h a bs) (wf_cellsOf a bs) (fun v => ?_)
  unfold memPut
  simp only [List.mem_append, List.mem_filter, decide_eq_true_eq]
  constructor
  · rintro ((⟨_, h⟩ | h) | ⟨_, h⟩)
    · omega
    · exact h
    · omega
  · exact fun h => Or.inl (Or.inr h)

/-- Bytes outside those put read as before. -/
theorem memGet_memPut_out {m : List Host.Cell} (h : Memory.wf m = true) {a k : Nat} {bs : List Byte}
    (ho : k < a ∨ a + bs.length ≤ k) : memGet (memPut m a bs) k = memGet m k := by
  refine tget_congr (wf_memPut h a bs) h (fun v => ?_)
  unfold memPut
  simp only [List.mem_append, List.mem_filter, decide_eq_true_eq]
  constructor
  · rintro ((⟨h, _⟩ | hc) | ⟨h, _⟩)
    · exact h
    · have := cellsOf_span a bs _ hc
      simp only at this
      omega
    · exact h
  · intro h
    rcases ho with h0 | h0
    · exact Or.inl (Or.inl ⟨h, h0⟩)
    · exact Or.inr ⟨h, h0⟩

theorem memRun_congr {m n : List Host.Cell} {a c : Nat} (h : ∀ k, a ≤ k → k < a + c → memGet m k = memGet n k) :
    memRun m a c = memRun n a c := by
  induction c generalizing a with
  | zero => rfl
  | succ c ih =>
    simp only [memRun]
    rw [h a (Nat.le_refl _) (by omega), ih (fun k h1 h2 => h k (by omega) (by omega))]

/-- A read of bytes reads each of them. -/
theorem rdBytes_eq {s : State} (h : s.MemWf) (a n : Nat) : s.rdBytes a n = memRun s.mem a n := by
  refine memRun_congr (fun k h1 h2 => ?_)
  refine tget_congr (wf_filter h _) h (fun v => ?_)
  simp only [List.mem_filter, Bool.and_eq_true, decide_eq_true_eq]
  exact ⟨fun h => h.1, fun h => ⟨h, h1, h2⟩⟩

theorem rd_wrBytes_in {s : State} (h : s.MemWf) {a k : Nat} {bs : List Byte} (h1 : a ≤ k)
    (h2 : k < a + bs.length) : (s.wrBytes a bs).rd k = bs[k - a]'(by omega) := memGet_memPut_in h h1 h2
theorem rd_wrBytes_out {s : State} (h : s.MemWf) {a k : Nat} {bs : List Byte}
    (ho : k < a ∨ a + bs.length ≤ k) : (s.wrBytes a bs).rd k = s.rd k := memGet_memPut_out h ho

end Sys2Proof.Machine
end

