-- ==== Sys2Proof/Tests/Slice0.lean ====
section
/-! SUPPORT. Our own tests: the smoke test of well-formedness, words written out from the spec's encoding, one step
of an instruction beside the spec's worked examples, and a witness for the hypotheses of every statement. -/

namespace Sys2Proof.Tests

set_option Elab.async false

open Sys2Proof Sys2Proof.Machine

/-! ## Terms of the witnesses -/

/-- The state after reset, where thread 0 runs the firmware at privilege M. -/
abbrev rst : State := State.reset
/-- No guard, no hints. -/
abbrev hp : Hdr := Hdr.plain
/-- The state after reset with thread 0 changed. -/
def on (f : Thread → Thread) : State := State.reset.updThr 0 f

/-- Can the current thread issue i? -/
def readyB (s : State) (h : Hdr) (i : Instr) : Bool :=
  s.mayIssue s.cur i && s.me.guard h && s.me.recording.isNone
theorem ready {s : State} {h : Hdr} {i : Instr} (e : readyB s h i = true) : Ready s h i := by
  simp only [readyB, Bool.and_eq_true, Option.isNone_iff_eq_none] at e
  exact ⟨e.1.1, e.1.2, e.2⟩
/-- An instruction that can issue, with what else a clause asks. -/
theorem with_ready {s : State} {h : Hdr} {i : Instr} {p : Prop} (e : readyB s h i = true ∧ p) : Ready s h i ∧ p :=
  ⟨ready e.1, e.2⟩
/-- Instructions that can all issue. -/
theorem all_ready {s : State} {l : List Instr} (e : l.all (readyB s hp) = true) : ∀ i ∈ l, Ready s hp i :=
  fun i m => ready (List.all_eq_true.mp e i m)

/-- A computation went on. -/
def went {α : Type} (g : Got α) : Bool :=
  match g with
  | .ok _ _ => true
  | .stop _ => false
/-- The state and the value with which it went on. -/
def stOf {α : Type} (g : Got α) : State :=
  match g with
  | .ok s _ => s
  | .stop _ => State.reset
def valOf {α : Type} [Inhabited α] (g : Got α) : α :=
  match g with
  | .ok _ v => v
  | .stop _ => default
theorem went_ok {α : Type} [Inhabited α] {g : Got α} (e : went g = true) : g = .ok (stOf g) (valOf g) := by
  cases g <;> simp_all [went, stOf, valOf]
theorem went_at {α : Type} [Inhabited α] {g : Got α} {x : α} (e : went g = true ∧ valOf g = x) : g = .ok (stOf g) x :=
  e.2 ▸ went_ok e.1

/-- The checks of one access that pass. -/
theorem passes {s : State} {acc : Acc} {wr sync : Bool} {sp_ : Space} {kind : BitVec 4} {n al : Nat} {ea : Word}
    (e : went (s.check1 s.cur acc wr sync sp_ kind n al ea) = true) :
    Claim.Passes s acc wr sync sp_ kind n al ea (stOf (s.check1 s.cur acc wr sync sp_ kind n al ea))
      (valOf (s.check1 s.cur acc wr sync sp_ kind n al ea)) := went_ok e
/-- The state after reset, with bytes in core 0's scratchpad from offset 0 on. -/
def filled (bs : List Byte) : State := State.reset.wrBytes (mkPa 0 (coreBase 0)) bs

/-- The stores of an instruction may be made, and are. -/
def Stores (u x v : State) (t : Nat) (sp_ : Space) (ps : List Piece) (us : List SUnit) : Prop :=
  u.storeReady t none us = (x, true) ∧ (x.watchStore t ps).storeAll t sp_ none us = .ok v ()
theorem stores {u : State} {t : Nat} {sp_ : Space} {ps : List Piece} {us : List SUnit}
    (e : (u.storeReady t none us).2 = true ∧ went (((u.storeReady t none us).1.watchStore t ps).storeAll t sp_ none us) = true) :
    Stores u (u.storeReady t none us).1 (stOf (((u.storeReady t none us).1.watchStore t ps).storeAll t sp_ none us)) t sp_ ps us :=
  ⟨Prod.ext rfl e.1, went_ok e.2⟩

/-- Accesses over ordinary memory. -/
def ordinaryB (s : State) (ps : List Piece) : Bool :=
  ps.all (fun p => p.segs.all (fun g => match g.tgt with
    | .mem pa pte => !pteWatch pte && !s.isPeer pa
    | _ => false)) && (s.agent (s.tid s.cur)).iq.isEmpty && !s.late && (s.dual? s.cur).isNone
theorem ordinary {s : State} {ps : List Piece} (e : ordinaryB s ps = true) : Claim.Ordinary s ps := by
  simp only [ordinaryB, Bool.and_eq_true, List.all_eq_true, List.isEmpty_iff, Bool.not_eq_true', Option.isNone_iff_eq_none] at e
  obtain ⟨⟨⟨a, b⟩, c⟩, d⟩ := e
  refine ⟨fun p hp_ g hg => ?_, b, c, d⟩
  have := a p hp_ g hg
  split at this
  · next pa pte h => exact ⟨pa, pte, h, by simpa using this⟩
  · exact absurd this (by simp)

/-- A thread with nothing under way. -/
def quietB (s : State) : Bool :=
  (s.agent (s.tid s.cur)).iq.isEmpty && (s.agent (s.tid s.cur)).sb.isEmpty &&
  s.hold.all (fun e => e.ag != s.tid s.cur && e.past.all (fun x => x.1 != s.tid s.cur)) && s.outst.all (fun o => !o.store || o.ag != s.tid s.cur) &&
  (s.agent (s.tid s.cur)).ref.count == 0 && decide (∀ q : Fin 4, (s.me.q[q]).cmds = [] ∧ (s.me.q[q]).stopped = none) &&
  s.me.outq.isEmpty
theorem quiet {s : State} (e : quietB s = true) : Claim.Quiet s := by
  simp only [quietB, Bool.and_eq_true, List.isEmpty_iff, List.all_eq_true, Bool.or_eq_true, Bool.not_eq_true',
    bne_iff_ne, beq_iff_eq, decide_eq_true_eq] at e
  obtain ⟨⟨⟨⟨⟨⟨a, b⟩, c⟩, d⟩, f⟩, g⟩, h⟩ := e
  exact ⟨a, b, c, fun x m p => (d x m).resolve_left (by simp [p]), f, g, h⟩

theorem pair_ok {α β : Type} {x : α × β} {b : β} (e : x.2 = b) : x = (x.1, b) := by rw [← e]
/-- An instruction that looked again is done, waits on, or has ended. -/
def isDone (e : Eff) : Bool :=
  match e with
  | .done _ => true
  | _ => false
def isEnded (e : Eff) : Bool :=
  match e with
  | .ended _ => true
  | _ => false
def isWait (e : Eff) : Bool :=
  match e with
  | .wait _ _ => true
  | _ => false
theorem done_ok {e : Eff} (h : isDone e = true) : ∃ u, e = .done u := by cases e <;> simp_all [isDone]
theorem ended_ok {e : Eff} (h : isEnded e = true) : ∃ u, e = .ended u := by cases e <;> simp_all [isEnded]
theorem wait_ok {e : Eff} (h : isWait e = true) : ∃ u w, e = .wait u w := by cases e <;> simp_all [isWait]
/-- A unit of a copy passed. -/
def unitOk (x : Option (EGot Cmd)) : Bool :=
  match x with
  | some (.ok _ _) => true
  | _ => false
theorem unit_ok {x : Option (EGot Cmd)} (h : unitOk x = true) : ∃ u c, x = some (.ok u c) := by
  match x, h with
  | some (.ok u c), _ => exact ⟨u, c, rfl⟩
/-- A command of thread 0's firmware. -/
def cmdOf (i : Instr) : Cmd :=
  { i, opd := 0, opa := 0, opb := 0, rows := Vector.replicate 48 0, cols := Vector.replicate 48 0, body := [], snap := [], gen := 0,
    tgt := 0, order := 1, decided := false, begun := false, todo := [], buf := [], idx := [], iter := 0, fl := 0, uid := 0,
    part := none, asid := 0, priv := 2, stamp := 0, seen := [] }
/-- Thread 0 with commands in queue q, and guard slots. -/
def inQ (q : Fin 4) (cs : List Cmd) : State := on (fun h => { h with q := h.q.set q ⟨cs, none⟩, slots := h.slots.set 5 .pass |>.set 6 .discard })

/-! ## Well-formedness: one ill-formed term for each check, refused (R101) -/

/-- GD 0b1000 (R92). -/
theorem test_wf_guard : (Instr.nop ⟨true, 0, false, false, false, 0⟩).wf = false := by decide
/-- Immediates of DIVL and of the shifts (R151, R153). -/
theorem test_wf_imm : (Instr.divl Hdr.plain .zr .zr (.i 63) true).wf = false ∧
    (Instr.divl Hdr.plain .zr .zr (.i 62) true).wf = true ∧ (Instr.shl Hdr.plain .zr .zr (.i 64)).wf = false ∧
    (Instr.shl Hdr.plain .zr .zr (.i 63)).wf = true := by decide
/-- AT + LEN above 64 (R156). -/
theorem test_wf_field : (Instr.bfx Hdr.plain .zr .zr 1 63).wf = false ∧ (Instr.bfx Hdr.plain .zr .zr 0 63).wf = true ∧
    (Instr.bfi Hdr.plain .zr .zr .zr 63 1).wf = false := by decide
/-- PMOV between scalars (R163). -/
theorem test_wf_pmov : (Instr.pmov Hdr.plain (.s .zr) (.s .zr)).wf = false := by decide
/-- LSETUP with IC and a register, LBRK with ALL and a loop, WAITC's limits (R168, R169, R171). -/
theorem test_wf_control : (Instr.lsetup Hdr.plain (.r 1) true 4 0 2).wf = false ∧
    (Instr.lbrk Hdr.plain true 1).wf = false ∧ (Instr.waitc Hdr.plain 0xFFFFFF21).wf = false ∧
    (Instr.waitc Hdr.plain 0xFF20FF00).wf = true ∧ (Instr.waitc Hdr.plain 0xFE000000).wf = false := by decide
/-- The scope lgrp, and queues in virtual memory (R273). -/
theorem test_wf_task : (Instr.finit Hdr.plain .zr 0 .sp).wf = false ∧ (Instr.frd Hdr.plain .zr .zr 0 .sp).wf = false ∧
    (Instr.fwr Hdr.plain 1 .zr .zr 0 .sp).wf = false ∧ (Instr.qpush Hdr.plain 1 .zr .zr 0 .sp).wf = false ∧
    (Instr.qpush Hdr.plain 1 .zr .zr 1 .g).wf = false ∧ (Instr.qpop Hdr.plain .zr .zr 1 1 .g).wf = false := by decide
/-- The spaces of PFETCH, CACHE and the instructions of group 0x0A (R179). -/
theorem test_wf_space : (Instr.pfetch Hdr.plain ⟨.zr, 0, .sp, 0, 0⟩ false).wf = false ∧
    (Instr.cache Hdr.plain .zr ⟨.zr, 0, .cm, 0, 0⟩ .pin).wf = false ∧
    (Instr.waita Hdr.plain .zr .zr ⟨.zr, 0, .g, 0, 0⟩ false false .eq).wf = false ∧
    (Instr.bara Hdr.plain .zr ⟨.zr, 0, .g, 0, 0⟩).wf = false := by decide
/-- The fields of vector arithmetic and shifts against the lane type (R209, R212). -/
theorem test_wf_vector : (Instr.vadd Hdr.plain 0 0 (.r 0) 0 .f32 .rne true false).wf = false ∧
    (Instr.vadd Hdr.plain 0 0 (.r 0) 0 .i32 .rtz false false).wf = false ∧
    (Instr.vmin Hdr.plain 0 0 (.r 0) 0 .f16x2 true).wf = false ∧ (Instr.vabs Hdr.plain 0 0 0 .f32 true).wf = false ∧
    (Instr.vshl Hdr.plain 0 0 (.r 0) 0 .f32).wf = false := by decide
/-- VCMP's element, UN and CC (R213); the lane types of the functions (R215). -/
theorem test_wf_vcmp : (Instr.vcmp Hdr.plain 0 0 (.r 0) 0 .i16x2 2 false .eq).wf = false ∧
    (Instr.vcmp Hdr.plain 0 0 (.r 0) 0 .f32 0 true .eq).wf = false ∧
    (Instr.vcmp Hdr.plain 0 0 (.r 0) 0 .i32 0 false .un).wf = false ∧
    (Instr.vrcp Hdr.plain 0 0 0 .i32).wf = false := by decide
/-- VCVT's pairs, selections and SS (R216). -/
theorem test_wf_vcvt : (Instr.vcvt Hdr.plain 0 0 0 .f32 .f32 0 .rne false).wf = false ∧
    (Instr.vcvt Hdr.plain 0 0 0 .i8x4 .f32 3 .rne false).wf = true ∧
    (Instr.vcvt Hdr.plain 0 0 0 .i16x2 .f32 2 .rne false).wf = false ∧
    (Instr.vcvt Hdr.plain 0 0 0 .i8x4 .f32 0 .rne true).wf = false ∧
    (Instr.vcvt Hdr.plain 0 0 0 .i16x2 .i32 0 .rne true).wf = true := by decide
/-- The formats, elements and rounding of VQUANT and VDEQ (R217, R219). -/
theorem test_wf_quant : (Instr.vquant Hdr.plain 0 0 0 0 .bf16 0 .rne false).wf = false ∧
    (Instr.vquant Hdr.plain 0 0 0 0 .int8 4 .rne false).wf = false ∧
    (Instr.vquant Hdr.plain 0 0 0 0 .fp4 7 .rne false).wf = true ∧
    (Instr.vquant Hdr.plain 0 0 0 0 .int8 0 .rtz true).wf = false ∧
    (Instr.vdeq Hdr.plain 0 0 0 0 .int32 0 .rne).wf = false := by decide
/-- UN and RM of the reductions (R221), and the lanes of VBCAST, VINS and VEXT (R220). -/
theorem test_wf_lane : (Instr.vred Hdr.plain .zr 0 0 .i32 .rne .add true).wf = false ∧
    (Instr.vscan Hdr.plain 0 0 0 .i32 .rup .max false false).wf = false ∧
    (Instr.vbcast Hdr.plain 0 (.v 0) 0 48).wf = false ∧ (Instr.vbcast Hdr.plain 0 (.s .zr) 0 1).wf = false ∧
    (Instr.vins Hdr.plain 0 .zr 48).wf = false ∧ (Instr.vext Hdr.plain .zr 0 47).wf = true := by decide
/-- REPB's scope and window (R224). -/
theorem test_wf_repb : (Instr.repb Hdr.plain .zr .zr 0 0 0 0 0 0 1).wf = false ∧
    (Instr.repb Hdr.plain .zr .zr 0 0 1 0 33 0 1).wf = false ∧ (Instr.repb Hdr.plain .zr .zr 0 0 1 0 4 29 1).wf = false ∧
    (Instr.repb Hdr.plain .zr .zr 0 0 1 1 0 0 1).wf = false ∧ (Instr.repb Hdr.plain .zr .zr 0 0 1 1 4 28 1).wf = true := by
  decide
/-- TCFG's descriptors, INT on a tile, and rows above 47 (R235, R236). -/
theorem test_wf_tile : (Instr.tcfg Hdr.plain 0 (.i 0x80000)).wf = false ∧ (Instr.tcfg Hdr.plain 0 (.i 0x301)).wf = false ∧
    (Instr.tcfg Hdr.plain 0 (.i 0x10)).wf = false ∧ (Instr.tcfg Hdr.plain 0 (.i 0xB)).wf = false ∧
    (Instr.tcfg Hdr.plain 0 (.i 0x182F1)).wf = false ∧ (Instr.tcfg Hdr.plain 0 (.i 0x17EF1)).wf = true ∧
    (Instr.tzero Hdr.plain (.t 0) true).wf = false ∧ (Instr.atov Hdr.plain 0 0 .zr 0 true 48).wf = false := by decide
/-- The combinations that R249 refuses. -/
theorem test_wf_copy : let k (k : CpyMod) := (Instr.cpy Hdr.plain .zr .zr .zr false 0 k).wf
    k ⟨1, .quill, .g, .g, false, false, .none, false, 0, 0⟩ = true ∧
    k ⟨0, .quill, .g, .g, false, false, .none, false, 0, 0⟩ = false ∧
    k ⟨1, .quill, .g, .g, true, false, .none, false, 0, 0⟩ = false ∧
    k ⟨1, .quill, .g, .g, false, false, .barsp, false, 4, 1⟩ = false ∧
    k ⟨1, .quill, .g, .g, false, false, .barsp, false, 3, 0⟩ = false ∧
    k ⟨1, .quill, .g, .g, false, true, .cwcm, false, 0, 0⟩ = false ∧
    k ⟨1, .quill, .g, .g, false, false, .cwsp, true, 0, 0⟩ = false ∧
    k ⟨1, .local, .g, .sp, false, false, .none, false, 0, 0⟩ = false ∧
    k ⟨1, .brush, .g, .arr, false, false, .none, false, 0, 0⟩ = false := by decide
/-- A QJOIN of no queue, GSET of slot 0, TREC of variant 0, IX and TINV's B (R255, R256, R290, R296). -/
theorem test_wf_tape : (Instr.qjoin Hdr.plain 0 0 0).wf = false ∧ (Instr.gset Hdr.plain 0 .pass).wf = false ∧
    (Instr.trec Hdr.plain 0).wf = false ∧ (Instr.tpatch Hdr.plain .zr .zr ⟨.pay, 24⟩ 0).wf = false ∧
    (Instr.tguard Hdr.plain .zr .zr ⟨.key, 1⟩).wf = false ∧ (Instr.tinv Hdr.plain .zr (.r 1) true).wf = false := by decide

/-! ## Words written out from the encoding tables (R95-R99, and the table of each group) -/

theorem test_word_add_imm : decode 0x08000111_1E0E0800_00000005#96 =
    .ok (.add Hdr.plain (.r 17) (.r 17) (.i 5) .wrap) := by decide
theorem test_word_sub_sat : decode 0x08400010_203E0200_00000000#96 =
    .ok (.sub Hdr.plain (.r 1) (.r 2) (.r (.r 3)) .ss) := by decide
theorem test_word_divl_rem : decode 0x0A800040_5E0E0C00_0000003E#96 =
    .ok (.divl Hdr.plain (.r 4) (.r 5) (.i 62) true) := by decide
theorem test_word_rol_imm : decode 0x0DC00090_8E0E0800_0000003F#96 =
    .ok (.rol Hdr.plain (.r 9) (.r 8) (.i 63)) := by decide
theorem test_word_bfi : decode 0x11400010_203E01CC_00000000#96 =
    .ok (.bfi Hdr.plain (.r 1) (.r 2) (.r 3) 7 12) := by decide
theorem test_word_lea_x3 : decode 0x12000010_203E0045_FFFFFFF8#96 =
    .ok (.lea Hdr.plain (.r 1) (.r 2) (.r 3) true 5 0xFFFFFFF8) := by decide
theorem test_word_cmp_and : decode 0x14C00420_6E04380A_00000064#96 =
    .ok (.cmp Hdr.plain 2 (.r 6) (.i 100) .lt (.and 3)) := by decide
theorem test_word_pmov_mask : decode 0x15800076_5E0E0000_00000000#96 =
    .ok (.pmov Hdr.plain (.s (.r 7)) (.m 5)) := by decide
theorem test_word_br_back : decode 0x18000E0E_0E000000_FFFFFFFE#96 =
    .ok (.br Hdr.plain 0xFFFFFFFE) := by decide
theorem test_word_lsetup_count : decode 0x19400E0E_0E001F46_00000007#96 =
    .ok (.lsetup Hdr.plain .zr true 1000 2 7) := by decide
theorem test_word_qpop_cm : decode 0x1D800030_4E042016_00000000#96 =
    .ok (.qpop Hdr.plain (.r 3) (.r 4) 2 5 .cm) := by decide
theorem test_word_ld_spw : decode 0x20000050_6E0E0520_00000040#96 =
    .ok (.ld Hdr.plain (.r 5) ⟨.r 6, 0x40, .sp, 1, 0⟩ .w false) := by decide
theorem test_word_amo_max : decode 0x21000050_6070887A_80000000#96 =
    .ok (.amo Hdr.plain (.r 5) (.r 7) ⟨.r 6, 0x80000000, .cm, 3, 2⟩ false .ar .maxu) := by decide
theorem test_word_vst_nib : decode 0x2440029E_02861110_00000000#96 =
    .ok (.vst Hdr.plain (some 9) 8 ⟨.zr, 0, .g, 0, 0⟩ 1 true) := by decide
theorem test_word_barx_abandon : decode 0x29000060_9E001890_00000300#96 =
    .ok (.barx Hdr.plain (.r 6) ⟨.r 9, 0x300, .cm, 4, 0⟩ false true) := by decide
theorem test_word_vadd_sat : decode 0x2C000212_22362430_00000000#96 =
    .ok (.vadd Hdr.plain 1 2 (.r 3) 2 .i16x2 .rne true true) := by decide
theorem test_word_vcmp_e1 : decode 0x31800612_32460432_00000000#96 =
    .ok (.vcmp Hdr.plain 1 3 (.r 4) 0 .i16x2 1 true .lt) := by decide
theorem test_word_vcvt_e1 : decode 0x35400262_1E060108_00000000#96 =
    .ok (.vcvt Hdr.plain 6 1 0 .bf16x2 .f32 1 .rne false) := by decide
theorem test_word_vred_max : decode 0x38000022_3E061328_00000000#96 =
    .ok (.vred Hdr.plain (.r 2) 3 1 .i32 .rne .max true) := by decide
theorem test_word_repb : decode 0x3C000E0E_00630320_10880004#96 =
    .ok (.repb Hdr.plain .zr (.r 6) 0 3 1 2 4 8 4) := by decide
theorem test_word_tcfg : decode 0x4000081E_0E0E0000_00017EF1#96 =
    .ok (.tcfg Hdr.plain 1 (.i 0x17EF1)) := by decide
theorem test_word_atov_col : decode 0x41C0022A_3046106F_00000000#96 =
    .ok (.atov Hdr.plain 2 3 (.r 4) 1 true 47) := by decide
theorem test_word_tmma_za : decode 0x44000A08_08105002_00000304#96 =
    .ok (.tmma Hdr.plain 0 0 1 5 true false 3 4) := by decide
theorem test_word_cpy_word : decode 0x48000141_51610200_20001001#96 =
    .ok (.cpy Hdr.plain (.r 20) (.r 21) (.r 22) false 0 ⟨1, .quill, .g, .g, false, false, .cwsp, false, 0x10, 1⟩) := by decide
theorem test_word_gset_pred : decode 0x49400E04_3E0E0004_00000000#96 =
    .ok (.gset Hdr.plain 4 (.pred 3)) := by decide
theorem test_word_sendm_sp : decode 0x4C400410_8090A001_00000000#96 =
    .ok (.sendm Hdr.plain 1 (.r 8) (.r 9) (.r 10) .sp) := by decide
theorem test_word_tguard_frm : decode 0x5080001E_002E000D_00000000#96 =
    .ok (.tguard Hdr.plain (.r 1) (.r 2) ⟨.frm, 3⟩) := by decide
theorem test_word_mtc : decode 0x01800C10_3E0E0000_00000000#96 =
    .ok (.mtc Hdr.plain 1 (.r 3)) := by decide
/-- R92, R93: a guard on not p1, a stall count of 2, a yield and both reuse hints. -/
theorem test_word_guard : decode 0x1826AE0E_0E000000_FFFFFFFE#96 =
    .ok (.br ⟨true, 1, true, false, true, 2⟩ 0xFFFFFFFE) := by decide
/-- The worked example of R102: the check that each word fails. -/
theorem test_word_refused :
    decode 0x00000000_00000000_00000000#96 = .error .badOperand ∧ decode 0x54000000_0E0E0000_00000000#96 = .error .badGroup ∧
    decode 0x08000111_110E0000_00000005#96 = .error .notZero ∧ decode 0x18202E0E_0E000000_FFFFFFFE#96 = .error .badGuard ∧
    decode 0x44000A08_08110000_00000000#96 = .error .badCode ∧ decode 0x03C00E0E_0E0E0000_00000000#96 = .error .badFunc := by decide
/-! ## The spec's worked examples -/

/-- The result of an instruction in scalar register s4, and STATUS. -/
def gives (r : Word → Word → Bool) (o : Host.Outcome State Fault Refusal) : Bool :=
  match o with
  | .next t => r (t.me.rs (.r 4)) t.me.status
  | _ => false
/-- Thread 0 with s4, s5 and s6. -/
def scalars (x y z : Word) : State := on (fun h => ((h.ws (.r 4) x).ws (.r 5) y).ws (.r 6) z)

/-- After R148: `add.ss s4, s4, #0x20` clamps and sets SAT; `sub.us s4, s5, s6` with s5 < s6 leaves 0. -/
theorem test_saturating : gives (fun x st => x == 0x7FFFFFFFFFFFFFFF && st.getLsbD 8)
      (exec (.add hp (.r 4) (.r 4) (.i 0x20) .ss) (scalars 0x7FFFFFFFFFFFFFF0 0 0)) = true ∧
    gives (fun x _ => x == 0) (exec (.sub hp (.r 4) (.r 5) (.r (.r 6)) .us) (scalars 1 3 9)) = true := by decide +kernel
/-- After R158: the line, the offset, and the start of the line of the address 1193046. -/
theorem test_lines : gives (fun x _ => x == 6213) (exec (.divl hp (.r 4) (.r 5) (.i 6) false) (scalars 0 1193046 0)) = true ∧
    gives (fun x _ => x == 150) (exec (.divl hp (.r 4) (.r 5) (.i 6) true) (scalars 0 1193046 0)) = true ∧
    gives (fun x _ => x == 1192896) (exec (.lea hp (.r 4) .zr (.r 5) true 6 0) (scalars 0 6213 0)) = true := by decide +kernel
/-- After R166: a constant in two words. -/
theorem test_constant : gives (fun x _ => x == 0x89ABCDEF) (exec (.movi hp (.r 4) true 0x89ABCDEF) rst) = true ∧
    gives (fun x _ => x == 0x0123456789ABCDEF) (exec (.movhi hp (.r 4) (.r 5) 0x01234567) (scalars 0 0x89ABCDEF 0)) = true := by
  decide +kernel
/-- R204: the scope of thread 0x01096800 and its chiplet's brush is 4. -/
theorem test_scopeof : gives (fun x _ => x == 4) (exec (.scopeof hp (.r 4) (.r 5) (.r 6)) (scalars 0 0x01096800 0x01080100)) = true := by
  decide +kernel
/-- After R211: four unsigned bytes saturate in element 2. -/
theorem test_lane_add : (arithLane .add .i8x4 .rne true true 0x10F07FFE 0x01200102 0).1 = 0x11FF80FF ∧
    (arithLane .add .i8x4 .rne true true 0x10F07FFE 0x01200102 0).2.getLsbD 5 = true := by decide +kernel
/-- After R218: the first draw of lane 0, and what it makes of 2.625. -/
theorem test_draw : lfsrStep 0x9E3779B8 = 0x4F1BBCDC ∧ (rst.thr 0).lfsr[(0 : Fin 48)] = 0x9E3779B8 ∧
    (quantLane .fp4 0 .rne true 0x40280000 0x3F800000 0 0x4F1BBCDC).1 = 0x5 := by decide +kernel
/-- After R219: the three lanes of the table. -/
theorem test_quantise : (quantLane .e4m3 2 .rne false 0x43960000 0x40000000 0 0).1 = 0x7E0000 ∧
    (quantLane .e4m3 2 .rne false 0x3DCCCCCD 0x3F800000 0 0).1 = 0x1D0000 ∧
    quantLane .e4m3 2 .rne false 0xC2C00000 0x3F000000 0 0 = (0xE40000, 0) ∧
    (deqLane .e4m3 2 .rne 0x1D0000 0x3F800000).1 = 0x3DD00000 := by decide +kernel
/-- After R202: steps 7 to 12 of the table. -/
theorem test_barrier : let g (n : BitVec 4) (p i s : Nat) : Bar := ⟨BitVec.ofNat 16 s, 0, BitVec.ofNat 20 i, 2, BitVec.ofNat 16 p, false, n⟩
    (g 0 0 2 0).land false 0 = g 0 0 1 0 ∧ (g 0 0 1 0).land false 0 = g 1 2 0 0 ∧ (g 1 2 0 0).bits = 0x02000201 ∧
    (g 1 2 1 0).record = 0x11 ∧ (g 1 2 1 0).cross true = g 2 2 0 0 ∧ (g 2 2 0 0).land false 1 = g 2 2 0 1 ∧
    (g 2 2 0 1).land false 10 = { g 2 2 0 1 with err := true } := by decide +kernel
/-- After R65 and R68: one FP4 block sums to 11.5, and its scaled sum added to 2.0 is 3.4375; a second leaves −9.5625. -/
theorem test_block : dotFloat .fp4 .fp4 ([3, 5, 9, 7].getD · 0) ([5, 4, 6, 1].getD · 0) 32 32 0 [0] = (0x41380000, 0) ∧
    scaleE8 0x40000000 (FF.f32.decode 0x41380000) 0x82 0x79 = (0x405C0000, 0) ∧
    dotFloat .fp4 .fp4 ([6, 10].getD · 0) ([11, 1].getD · 0) 32 32 0 [0] = (0xC0D00000, 0) ∧
    scaleE8 0x405C0000 (FF.f32.decode 0xC0D00000) 0x7F 0x80 = (0xC1190000, 0) := by decide +kernel
/-- After R66: block sums of +500000 and −400000 onto 2147000000, wrapping and saturating. -/
theorem test_block_int : let a (n : Nat) : Nat := if n < 31 then 127 else if n = 31 then 1 else if n < 57 then 128 else 0
    let b (n : Nat) : Nat := if n < 31 then 127 else if n = 31 then 1 else if n < 56 then 127 else if n = 56 then 77 else 0
    dotInt false .int8 .int8 a b 64 32 2147000000 [0, 1] = (2147100000, 0) ∧
    (dotInt true .int8 .int8 a b 64 32 2147000000 [0, 1]).1 = 2147083647 ∧
    (dotInt true .int8 .int8 a b 64 32 2147000000 [0, 1]).2.getLsbD 5 = true := by decide +kernel
/-! ## Witnesses: registers and control -/

/-- Every instruction of groups 0x02 to 0x05, with a register and with an immediate as the second operand. -/
theorem witness_integer_ready : ∀ i ∈ ([
    .add hp (.r 1) (.r 2) (.r (.r 3)) .wrap, .sub hp (.r 1) (.r 2) (.i 5) .us, .mul hp (.r 1) (.r 2) (.i 5),
    .mulh hp (.r 1) (.r 2) (.i 5), .mulhu hp (.r 1) (.r 2) (.i 5), .div hp (.r 1) (.r 2) (.i 0), .divu hp (.r 1) (.r 2) (.i 0),
    .rem hp (.r 1) (.r 2) (.r .zr), .remu hp (.r 1) (.r 2) (.r .zr), .madd hp .zr (.r 2) (.r 3) (.r 4),
    .divl hp (.r 1) (.r 2) (.i 62) true, .and hp (.r 1) (.r 2) (.i 5), .or hp (.r 1) (.r 2) (.i 5), .xor hp (.r 1) (.r 2) (.i 5),
    .andn hp (.r 1) (.r 2) (.i 5), .shl hp (.r 1) (.r 2) (.i 63), .shr hp (.r 1) (.r 2) (.r (.r 3)), .sar hp (.r 1) (.r 2) (.i 0),
    .rol hp (.r 1) (.r 2) (.i 63), .min hp (.r 1) (.r 2) (.i 5), .max hp (.r 1) (.r 2) (.i 5), .minu hp (.r 1) (.r 2) (.i 5),
    .maxu hp (.r 1) (.r 2) (.i 5), .clz hp (.r 1) (.r 2), .ctz hp (.r 1) .zr, .popc hp (.r 1) (.r 2), .brev hp (.r 1) (.r 2),
    .sext hp (.r 1) (.r 2) 63, .zext hp (.r 1) (.r 2) 0, .lea hp (.r 1) (.r 2) (.r 3) true 63 0x80000000,
    .sel hp (.r 1) (.r 2) (.r 3) 0, .sel hp (.r 1) (.r 2) (.r 3) 7, .movi hp (.r 1) true 0xFFFFFFFF, .movhi hp (.r 1) (.r 1) 7,
    .mov hp (.r 1) .zr, .cmp hp 0 (.r 1) (.i 4) .lt (.and 0), .cmpu hp 7 (.r 1) (.i 4) .gt .set, .plog hp (.p 1 2 3) 6,
    .plog hp (.m 1 2 0) 6, .pmov hp (.p 1) (.m 2), .pmov hp (.p 1) (.p 2), .pmov hp (.p 1) (.s (.r 2)), .pmov hp (.m 1) (.p 2),
    .pmov hp (.m 0) (.m 2), .pmov hp (.m 1) (.s .zr), .pmov hp (.s (.r 1)) (.p 0), .pmov hp (.s (.r 1)) (.m 0)] : List Instr),
    Ready rst hp i := all_ready (by decide +kernel)
/-- The bit fields that end at bit 63 (`Claim.BitFields`). -/
theorem witness_fields : (Ready rst hp (.bfx hp (.r 1) (.r 2) 0 63) ∧ (63 : BitVec 6).toNat + (0 : BitVec 6).toNat + 1 ≤ 64) ∧
    (Ready rst hp (.bfi hp (.r 1) (.r 2) (.r 3) 63 0) ∧ (0 : BitVec 6).toNat + (63 : BitVec 6).toNat + 1 ≤ 64) :=
  ⟨with_ready (by decide +kernel), with_ready (by decide +kernel)⟩
/-- The state after reset with c1 of thread 0 another word. -/
def stat (w : Word) : State := on (fun h => { h with status := w })
/-- The same with an instruction placed where thread 0 fetches. -/
def placed (w : IWord) : State :=
  ((on (fun h => { h with unit := some { bootUnit with start := some 0 } })).withFetchWord 96 w.toNat)

/-- The word that a fetch gives, and the state it leaves. -/
def fetchedOf (f : Fetched) : State × IWord :=
  match f with
  | .word s w => (s, w)
  | _ => (State.reset, 0)

/-- `Obligations.EncodeDecode`, `Obligations.DecodeExact`. -/
theorem witness_encode : (Instr.add hp (.r 17) (.r 17) (.i 5) .wrap).wf = true ∧
    encode (.add hp (.r 17) (.r 17) (.i 5) .wrap) = some 0x08000111_1E0E0800_00000005#96 ∧
    decode 0x08000111_1E0E0800_00000005#96 = .ok (.add hp (.r 17) (.r 17) (.i 5) .wrap) := by decide

/-- The state in which the current core's turn lets thread 0 issue, and one in which a turn of the agenda does. -/
def turned (s : State) : State := { s with fair := s.fair + 1, cur := 0, late := false }
def asked0 (w : IWord) : State := { placed w with agenda := [.issue 0 true] }
def turned0 (w : IWord) : State := { placed w with agenda := [], cur := 0, late := true, stalled := false }
/-- `Obligations.StepRunsDecoded`: NOP, by the selector's turn and by the agenda's. -/
theorem witness_step : let w : IWord := 0x00000E0E_0E0E0000_00000000#96
    Claim.Issues (placed w) 0 (turned (placed w)) ∧
      (turned (placed w)).fetch 0 = .word (fetchedOf ((turned (placed w)).fetch 0)).1 w ∧
    Claim.Issues (asked0 w) 0 (turned0 w) ∧ (turned0 w).fetch 0 = .word (fetchedOf ((turned0 w).fetch 0)).1 w ∧
    decode w = .ok (.nop hp) :=
  ⟨Or.inr ⟨by decide +kernel, by decide +kernel, by decide +kernel, by decide +kernel, rfl⟩, by decide +kernel, Or.inl ⟨true, [], rfl, by decide +kernel, rfl⟩,
    by decide +kernel, by decide +kernel⟩
/-- `Claim.StepIllegal`: a word of zeros. -/
theorem witness_illegal : Claim.Issues (placed 0) 0 (turned (placed 0)) ∧
    (turned (placed 0)).fetch 0 = .word (fetchedOf ((turned (placed 0)).fetch 0)).1 0 ∧ decode 0 = .error .badOperand :=
  ⟨Or.inr ⟨by decide +kernel, by decide +kernel, by decide +kernel, by decide +kernel, rfl⟩, by decide +kernel, by decide +kernel⟩
/-- `Claim.FetchFromBuffer`, `Claim.PlacedWordRuns`: the last word below the end of the address space. -/
theorem witness_fetch : let s := on (fun h => { h with
      pc := BitVec.ofNat 64 (vaEnd - 12), unit := some { bootUnit with start := some 0 },
      ibuf := [((vaEnd - 12) / 192, List.replicate 192 0)] })
    (s.thr 0).pc.toNat < vaEnd ∧
    (s.thr 0).ibuf.find? (fun e => e.1 == (s.thr 0).pc.toNat / 192) = some ((vaEnd - 12) / 192, List.replicate 192 0) ∧
    (s.me.pc.toNat % 192) % 12 = 0 ∧ s.late = false ∧ s.me.unit.map (fun x => x.start.isSome) = some true := by
  decide +kernel

/-- `Claim.PcAdvances`. -/
theorem witness_pc : ∀ n : Fin 4, Thread.init.lc[n] ≠ 0 → Thread.init.le[n] ≠ Thread.init.pc := by decide +kernel
/-- `Claim.LoopGoesRound`: loop 3, with a count of 2 and of 1, the loops inside it not active. -/
theorem witness_loop : let h (c : BitVec 32) : Thread := { Thread.init with lc := #v[0, 0, 0, c], ls := #v[0, 0, 0, 24] }
    (∀ k : Fin 4, k < 3 → (h 2).lc[k] ≠ 0 → (h 2).le[k] ≠ (h 2).pc) ∧ (h 2).le[3] = (h 2).pc ∧ 1 < ((h 2).lc[3]).toNat ∧
    (∀ k : Fin 4, k < 3 → (h 1).lc[k] ≠ 0 → (h 1).le[k] ≠ (h 1).pc) ∧ (h 1).le[3] = (h 1).pc ∧ (h 1).lc[3] = 1 := by
  decide +kernel

/-- `Obligations.GuardedOff`: a guard on p1, which reads false after reset. -/
theorem witness_guard : let h : Hdr := ⟨false, 1, false, false, false, 0⟩
    rst.me.recording = none ∧ ∀ i ∈ ([.mul h (.r 1) (.r 2) (.i 3), .br h 2, .st h (.r 1) ⟨.r 2, 0, .g, 0, 0⟩ .d false, .vadd h 1 2 (.r 3) 0 .f32 .rne false false,
      .repb h .zr .zr 0 0 1 0 0 0 4, .tmma h 0 0 1 5 true false 0 0, .adone h, .mfc h (.r 1) 0] : List Instr),
      (∃ w, encode i = some w) ∧ rst.mayIssue rst.cur i = true ∧ rst.me.guard (hdrOf i) = false := by
  simp only [← Option.isSome_iff_exists]
  decide +kernel

/-- `Claim.ReadControl`, `Claim.WriteControl` and `Claim.WriteRefused`: instructions that can issue. -/
theorem witness_control_ready : ∀ i ∈ ([.mfc hp (.r 1) 31, .mfc hp .zr 0, .scopeof hp (.r 1) (.r 2) (.r 3), .clkrd hp (.r 1),
    .nop hp, .synci hp, .br hp 0x80000000, .yield hp] : List Instr), Ready rst hp i := all_ready (by decide +kernel)
/-- The clauses of `Claim.WriteControl`, at M, at S and after a trap's frame. -/
theorem witness_write : Ready rst hp (.mtc hp 1 (.r 1)) ∧
    (Ready rst hp (.mtc hp 17 (.r 1)) ∧ (17 : CReg).toNat = 8 + 3 * (3 : Fin 4).val ∧ (rst.me.rs (.r 1)).toNat % 12 = 0) ∧
    (Ready rst hp (.mtc hp 18 (.r 1)) ∧ (18 : CReg).toNat = 9 + 3 * (3 : Fin 4).val) ∧
    (Ready rst hp (.mtc hp 10 (.r 1)) ∧ (10 : CReg).toNat = 10 + 3 * (0 : Fin 4).val) ∧
    (Ready (stat 1) hp (.mtc hp 3 (.r 1)) ∧ Ready (stat 1) hp (.mtc hp 2 (.r 1)) ∧ (stat 1).me.priv ≠ privU) ∧
    (Ready (stat 1) hp (.mtc hp 20 .zr) ∧ (stat 1).me.sd = 0 ∧ ((stat 1).me.rs .zr).toNat % 8 = 0) ∧
    (Ready rst hp (.mtc hp 28 (.r 1)) ∧ rst.me.priv = privM) ∧ (Ready rst hp (.mtc hp 29 (.r 1)) ∧ 29 ≤ (29 : CReg).toNat) :=
  ⟨ready (by decide +kernel), with_ready (by decide +kernel), with_ready (by decide +kernel), with_ready (by decide +kernel),
    ⟨ready (by decide +kernel), with_ready (by decide +kernel)⟩, with_ready (by decide +kernel), with_ready (by decide +kernel),
    with_ready (by decide +kernel)⟩
/-- The clauses of `Claim.WriteRefused`: a read-only register; c5 at U; c28 at S; a stack base that is not a multiple of 8,
or while frames are spilled; a loop end that is not a multiple of 12. -/
theorem witness_refused : Ready rst hp (.mtc hp 0 (.r 1)) ∧ (Ready (stat 0) hp (.mtc hp 5 (.r 1)) ∧ (stat 0).me.priv = privU) ∧
    (Ready (stat 1) hp (.mtc hp 28 (.r 1)) ∧ (stat 1).me.priv ≠ privM) ∧
    (let s := on (fun h => { h with globals := #v[0, 4, 0, 0, 0, 0, 0, 0] });
      Ready s hp (.mtc hp 21 (.r 1)) ∧ s.me.priv ≠ privU ∧ (s.me.rs (.r 1)).toNat % 8 ≠ 0 ∧ (s.me.rs (.r 1)).toNat % 12 ≠ 0) ∧
    (let s := on (fun h => { h with sd := 1 });
      Ready s hp (.mtc hp 20 (.r 1)) ∧ s.me.priv ≠ privU ∧ s.me.sd ≠ 0) ∧
    (let s := on (fun h => { h with globals := #v[0, 4, 0, 0, 0, 0, 0, 0] });
      Ready s hp (.mtc hp 18 (.r 1)) ∧ (18 : CReg).toNat % 3 ≠ 1 ∧ (s.me.rs (.r 1)).toNat % 12 ≠ 0) :=
  ⟨ready (by decide +kernel), with_ready (by decide +kernel), with_ready (by decide +kernel), with_ready (by decide +kernel),
    with_ready (by decide +kernel), with_ready (by decide +kernel)⟩

/-- A partition whose trap vector is set. -/
def vectored (w : Word) : State :=
  { stat w with parts := [(0, { Part.init with trapvec := 0xC00 })] }
/-- `Claim.TrapTaken`: at M, and at U with a handler. -/
theorem witness_trap : (Claim.MayTrap rst ∧ Ready rst hp (.trap hp 7) ∧ Ready rst hp (.brk hp 7) ∧ rst.me.brken = false) ∧
    (Claim.MayTrap (vectored 0) ∧ Ready (vectored 0) hp (.trap hp 7) ∧ (vectored 0).me.priv = privU) :=
  ⟨⟨⟨by decide +kernel, by decide +kernel, by decide +kernel, by decide +kernel, by decide +kernel⟩, ready (by decide +kernel),
    with_ready (by decide +kernel)⟩,
  ⟨⟨by decide +kernel, by decide +kernel, by decide +kernel, by decide +kernel, by decide +kernel⟩,
    with_ready (by decide +kernel)⟩⟩
/-- `Claim.TrapLost`: TH set; and at S without a handler. -/
theorem witness_trap_lost : ((stat 6).me.recording = none ∧ (stat 6).me.status.getLsbD 2 = true) ∧
    ((stat 1).me.recording = none ∧ (stat 1).me.status.getLsbD 2 = false ∧ (stat 1).me.outer.length < 7 ∧
      (stat 1).me.priv ≠ privM ∧ ((stat 1).part ((stat 1).partOf (stat 1).cur)).trapvec = 0) := by decide +kernel
/-- A thread with one hidden frame and TH set, at M. -/
def inner : State := on (fun h => { h with
  status := 0x2006, outer := [Vector.replicate 16 1], globals := #v[0, 24, 0, 0, 0, 0, 0, 0] })
/-- `Claim.TrapBack`, `Claim.ReturnTaken`. -/
theorem witness_back : (Ready inner hp (.eret hp (.r 1)) ∧ inner.me.priv ≠ privU ∧ inner.me.status.getLsbD 2 = true ∧
      (inner.me.rs (.r 1)).toNat % 12 = 0 ∧ inner.me.outer = Vector.replicate 16 1 :: []) ∧
    (Ready inner hp (.ret hp (.r 1)) ∧ inner.me.outer = Vector.replicate 16 1 :: [] ∧ (inner.me.rs (.r 1)).toNat % 12 = 0) :=
  ⟨with_ready (by decide +kernel), with_ready (by decide +kernel)⟩
/-- `Claim.HaltAndPrivilege`. -/
theorem witness_halt : (Ready rst hp (.halt hp) ∧ rst.me.priv = privM) ∧
    (let s := on (fun h => { h with brken := true });
      Ready s hp (.brk hp 0) ∧ s.me.brken = true) ∧
    (Ready (stat 1) hp (.halt hp) ∧ (stat 1).me.priv ≠ privM) ∧ (Ready (stat 0) hp (.eret hp (.r 1)) ∧ (stat 0).me.priv = privU) :=
  ⟨with_ready (by decide +kernel), with_ready (by decide +kernel), with_ready (by decide +kernel), with_ready (by decide +kernel)⟩
/-- `Obligations.SynciResult`: in the firmware and in a partition. -/
theorem witness_synci : (Ready rst hp (.synci hp) ∧ rst.me.unit = some bootUnit) ∧
    (let s := on (fun h => { h with unit := some { bootUnit with kind := .task, part := 3 } });
      Ready s hp (.synci hp) ∧ s.me.unit.map (fun x => decide (x.kind ≠ .firmware)) = some true) :=
  ⟨with_ready (by decide +kernel), with_ready (by decide +kernel)⟩

/-- A thread with a register at 8, which is no multiple of 12, and 8 frames resident. -/
def odd : State := on (fun h => { h with
  globals := #v[0, 8, 0, 0, 0, 0, 0, 0], outer := List.replicate 7 (Vector.replicate 16 0) })
/-- `Claim.TransferTaken`: a jump to 0, and the sixth hidden frame. -/
theorem witness_transfer : let s := on (fun h => { h with outer := List.replicate 6 (Vector.replicate 16 0) })
    (Ready s hp (.jmp hp .zr) ∧ (s.me.rs .zr).toNat % 12 = 0) ∧ (Ready s hp (.call hp 3) ∧ s.me.outer.length < 7) ∧
    (Ready s hp (.callr hp (.r 1)) ∧ s.me.outer.length < 7 ∧ (s.me.rs (.r 1)).toNat % 12 = 0) :=
  ⟨with_ready (by decide +kernel), with_ready (by decide +kernel), with_ready (by decide +kernel)⟩
/-- `Claim.TransferRefused`. -/
theorem witness_transfer_refused : (Ready odd hp (.jmp hp (.r 1)) ∧ (odd.me.rs (.r 1)).toNat % 12 ≠ 0) ∧
    Ready odd hp (.callr hp (.r 1)) ∧ (Ready rst hp (.ret hp (.r 23)) ∧ rst.me.sd + rst.me.outer.length = 0) ∧
    (Ready odd hp (.ret hp (.r 1)) ∧ 0 < odd.me.sd + odd.me.outer.length ∧ (odd.me.rs (.r 1)).toNat % 12 ≠ 0) :=
  ⟨with_ready (by decide +kernel), ready (by decide +kernel), with_ready (by decide +kernel), with_ready (by decide +kernel)⟩
/-- `Claim.CallThenReturn`: from PC 0 and depth 0. -/
theorem witness_call_return : Ready rst hp (.call hp 2) ∧ rst.me.outer.length < 7 ∧ (rst.me.pc + 12).toNat % 12 = 0 ∧
    rst.me.stepReq = false ∧ ∀ t, exec (.call hp 2) rst = .next t → t.mayIssue t.cur (.ret hp (.r 23)) = true :=
  ⟨ready (by decide +kernel), by decide +kernel, by decide +kernel, by decide +kernel, fun t e => by
    have g : ∀ x : Host.Outcome State Fault Refusal, (match x with
        | .next t => t.mayIssue t.cur (.ret hp (.r 23))
        | _ => true) = true → x = .next t → t.mayIssue t.cur (.ret hp (.r 23)) = true := by rintro _ m rfl; exact m
    exact g _ (by decide +kernel) e⟩
/-- `Claim.LoopSetup`: a count of 0xFFFF and of 0, by the field and by a register. -/
theorem witness_lsetup : Ready rst hp (.lsetup hp .zr true 0xFFFF 3 2) ∧ (BitVec.ofNat 32 (0xFFFF : BitVec 16).toNat) ≠ 0 ∧
    Ready rst hp (.lsetup hp .zr true 0 0 2) ∧
    (Ready rst hp (.lsetup hp (.r 1) false 0 0 2) ∧ BitVec.ofNat 32 (rst.me.rs (.r 1)).toNat = 0) ∧ Ready rst hp (.lbrk hp true 0) :=
  ⟨ready (by decide +kernel), by decide, ready (by decide +kernel), with_ready (by decide +kernel), ready (by decide +kernel)⟩
/-- A thread with n commands in Q1. -/
def inQ1 (n : Nat) : State := on (fun h => { h with q := h.q.set 1 ⟨List.replicate n (cmdOf (.qjoin hp 1 0 1)), none⟩ })
def queued : State := inQ1 2
/-- `Claim.WaitResult`: SLEEP of 0 and of 1, and one that a halt abandoned, over and not; WAITC at its limit of 2, and with a limit of 1. -/
theorem witness_wait : (Ready rst hp (.sleep hp .zr 0) ∧ (rst.me.rs .zr).toNat + (0 : BitVec 32).toNat = 0) ∧
    (Ready rst hp (.sleep hp .zr 1) ∧ 0 < (rst.me.rs .zr).toNat + (1 : BitVec 32).toNat ∧ rst.me.slept = none) ∧
    (let s (x : Nat) := on (fun h => { h with slept := some x });
      Ready (s 0) hp (.sleep hp .zr 1) ∧ (s 0).me.slept = some 0 ∧ 0 ≤ (s 0).time (coreOf (s 0).cur) ∧
      Ready (s 9) hp (.sleep hp .zr 1) ∧ (s 9).me.slept = some 9 ∧ (s 9).time (coreOf (s 9).cur) < 9) ∧
    (Ready queued hp (.waitc hp 0xFFFF02FF) ∧ (∀ q : Fin 4, (queued.me.q[q]).stopped = none) ∧
      ∀ q : Fin 4, (limit 0xFFFF02FF q.val).toNat ≤ 32 → (queued.me.q[q]).cmds.length ≤ (limit 0xFFFF02FF q.val).toNat) ∧
    (Ready queued hp (.waitc hp 0xFFFF01FF) ∧
      ∃ q : Fin 4, (limit 0xFFFF01FF q.val).toNat ≤ 32 ∧ (limit 0xFFFF01FF q.val).toNat < (queued.me.q[q]).cmds.length) :=
  ⟨with_ready (by decide +kernel), with_ready (by decide +kernel),
    ⟨ready (by decide +kernel), by decide +kernel, by decide +kernel, with_ready (by decide +kernel)⟩, with_ready (by decide +kernel), with_ready (by decide +kernel)⟩
/-! ## Witnesses: tasks, futures, queues, launches -/

/-- `Obligations.ForkJoinResult`: FORK with room, and with 64 tasks there. -/
theorem witness_fork : let i := Instr.fork hp 1 .zr false 3
    let full := on (fun h => { h with deque := List.replicate 64 ⟨0, Vector.replicate 8 0, 0, 0, 0, 0, 0, 0, 0⟩ })
    (∃ u ps v old, Ready rst hp i ∧ rst.dual? rst.cur = none ∧
      Claim.Passes rst .atomic true true .sp (kindBits i) 4 4 (rst.me.rs .zr) u ps ∧ (u.thr rst.cur).deque.length < 64 ∧
      u.atomic rst.cur (ps.headD default) 4 (.amo .add 1) = .ok v old) ∧
    ∃ u ps, Ready full hp i ∧ full.dual? full.cur = none ∧
      Claim.Passes full .atomic true true .sp (kindBits i) 4 4 (full.me.rs .zr) u ps ∧ 64 ≤ (u.thr full.cur).deque.length :=
  ⟨⟨_, _, _, _, ready (by decide +kernel), by decide +kernel, passes (by decide +kernel), by decide +kernel,
    went_ok (by decide +kernel)⟩,
  ⟨_, _, ready (by decide +kernel), by decide +kernel, passes (by decide +kernel), by decide +kernel⟩⟩
/-- JOIN at a counter of 0 and of 1. -/
theorem witness_join : let i := Instr.join hp .zr false
    ∀ x ∈ ([0, 1] : List Byte), ∃ u ps w, Ready (filled [x]) hp i ∧
      Claim.Passes (filled [x]) .read false true .sp (kindBits i) 4 4 ((filled [x]).me.rs .zr) u ps ∧
      u.objAddr (filled [x]).cur [⟨0xFF, (filled [x]).me.rs .zr, [⟨((filled [x]).me.rs .zr).toNat, .mem (Claim.home ps) 0, 4⟩]⟩] =
        .ok w (Claim.home ps) ∧ natOfBytes (w.rdBytes (Claim.home ps) 4) = x.toNat := by
  intro i x hx
  fin_cases hx
  · exact ⟨_, _, _, ready (by decide +kernel), passes (by decide +kernel), went_at (by decide +kernel), by decide +kernel⟩
  · exact ⟨_, _, _, ready (by decide +kernel), passes (by decide +kernel), went_at (by decide +kernel), by decide +kernel⟩
/-- The state after reset, its accesses left in the issue queue. -/
def slow : State := { State.reset with late := true }
/-- `Obligations.FutureResult`: FWR at pod, and one left in the issue queue; FRD of an empty and of a full future; FINIT. -/
theorem witness_fwr : let i := Instr.fwr hp 1 .zr (.r 1) 7 .sp
    ∃ u ps v w old, Ready rst hp i ∧ rst.dual? rst.cur = none ∧
      Claim.Passes rst .atomic true true .sp (kindBits i) 16 16 (rst.me.rs .zr) u ps ∧
      u.releaseAt rst.cur (7 : BitVec 3).toNat = .ok v () ∧
      v.atomic rst.cur (ps.headD default) 16 (.futWrite (rst.me.rs (.r 1))) = .ok w old :=
  ⟨_, _, _, _, _, ready (by decide +kernel), by decide +kernel, passes (by decide +kernel), went_ok (by decide +kernel),
    went_ok (by decide +kernel)⟩
theorem witness_fwr_left : let i := Instr.fwr hp 1 .zr (.r 1) 3 .sp
    ∃ u ps, Ready slow hp i ∧ slow.dual? slow.cur = none ∧
      Claim.Passes slow .atomic true true .sp (kindBits i) 16 16 (slow.me.rs .zr) u ps ∧
      u.mayWait slow.cur [ps.headD default] = true ∧ (3 : BitVec 3) ≠ 7 :=
  ⟨_, _, ready (by decide +kernel), by decide +kernel, passes (by decide +kernel), by decide +kernel, by decide⟩
theorem witness_frd : let i := Instr.frd hp (.r 1) .zr 1 .sp
    let full := filled [0, 0, 0, 0, 0, 0, 0, 0, 1]
    (∃ u ps v old, Ready rst hp i ∧ Claim.Passes rst .read false true .sp (kindBits i) 16 16 (rst.me.rs .zr) u ps ∧
      u.atomic rst.cur (ps.headD default) 16 .futRead = .ok v old ∧
      (BitVec.ofNat 128 (natOfBytes (v.overlaySegs (v.dual? rst.cur) (ps.headD default).segs (bytesOfNat 16 old)))).getLsbD 64 = false) ∧
    (∃ u ps v old, Ready full hp i ∧ Claim.Passes full .read false true .sp (kindBits i) 16 16 (full.me.rs .zr) u ps ∧
      u.atomic full.cur (ps.headD default) 16 .futRead = .ok v old ∧
      (BitVec.ofNat 128 (natOfBytes (v.overlaySegs (v.dual? full.cur) (ps.headD default).segs (bytesOfNat 16 old)))).getLsbD 64 = true) :=
  ⟨⟨_, _, _, _, ready (by decide +kernel), passes (by decide +kernel), went_ok (by decide +kernel), by decide +kernel⟩,
  ⟨_, _, _, _, ready (by decide +kernel), passes (by decide +kernel), went_ok (by decide +kernel), by decide +kernel⟩⟩
theorem witness_finit : let i := Instr.finit hp .zr 1 .sp
    ∃ u ps x v, Ready rst hp i ∧ Claim.Passes rst .write true false .sp (kindBits i) 16 16 (rst.me.rs .zr) u ps ∧
      Stores u x v rst.cur .sp ps (ps.flatMap (fun p => unitsOf p (List.replicate 16 0) 0xFFFFFFFF)) :=
  ⟨_, _, _, _, ready (by decide +kernel), passes (by decide +kernel), stores (by decide +kernel)⟩

/-- A queue of 2 words at scratchpad offset 0, its words from offset 64, with HEAD 0 and TAIL t. -/
def wqueue (t : Byte) : State := filled [0, 0, 0, 0, t, 0, 0, 0, 64, 0, 0, 0, 2]
/-- `Claim.QueueTaken`: QPUSH with room and at a full queue, QPOP of one word and at an empty queue. -/
theorem witness_qpush : let i := Instr.qpush hp 1 .zr (.r 1) 1 .sp
    ∀ t ∈ ([1, 2] : List Byte), ∃ u ps v pa, Ready (wqueue t) hp i ∧ (wqueue t).dual? (wqueue t).cur = none ∧
      Claim.Passes (wqueue t) .atomic true true .sp (kindBits i) 16 16 ((wqueue t).me.rs .zr) u ps ∧
      u.objAddr (wqueue t).cur [ps.headD default] = .ok v pa ∧
      let q := v.obj pa
      (t = 2 → wqCap q ≤ wqCount q) ∧ (t = 1 → wqCount q < wqCap q ∧
        ∃ w slot x, v.slotCheck (wqueue t).cur i true .sp (wqSlot q (wqTail q)) = .ok w slot ∧
          w.releaseAt (wqueue t).cur (1 : BitVec 3).toNat = .ok x ()) := by
  intro i t ht
  fin_cases ht
  · exact ⟨_, _, _, _, ready (by decide +kernel), by decide +kernel, passes (by decide +kernel), went_ok (by decide +kernel),
      by decide +kernel, fun _ => ⟨by decide +kernel, _, _, _, went_ok (by decide +kernel), went_ok (by decide +kernel)⟩⟩
  · exact ⟨_, _, _, _, ready (by decide +kernel), by decide +kernel, passes (by decide +kernel), went_ok (by decide +kernel),
      by decide +kernel, fun h => absurd h (by decide)⟩
theorem witness_qpop : let i := Instr.qpop hp (.r 1) .zr 1 1 .sp
    ∀ t ∈ ([0, 1] : List Byte), ∃ u ps v pa, Ready (wqueue t) hp i ∧ (wqueue t).dual? (wqueue t).cur = none ∧
      Claim.Passes (wqueue t) .atomic true true .sp (kindBits i) 16 16 ((wqueue t).me.rs .zr) u ps ∧
      u.objAddr (wqueue t).cur [ps.headD default] = .ok v pa ∧
      let q := v.obj pa
      (t = 0 → wqCount q = 0) ∧ (t = 1 → wqCount q ≠ 0 ∧
        ∃ w slot, v.slotCheck (wqueue t).cur i false .sp (wqSlot q (wqHead q)) = .ok w slot) := by
  intro i t ht
  fin_cases ht
  · exact ⟨_, _, _, _, ready (by decide +kernel), by decide +kernel, passes (by decide +kernel), went_ok (by decide +kernel),
      by decide +kernel, fun h => absurd h (by decide)⟩
  · exact ⟨_, _, _, _, ready (by decide +kernel), by decide +kernel, passes (by decide +kernel), went_ok (by decide +kernel),
      by decide +kernel, fun _ => ⟨by decide +kernel, _, _, went_ok (by decide +kernel)⟩⟩
/-- `Claim.QueueObject`. -/
theorem witness_cap : (0xFFFF : BitVec 16) ≠ 0 := by decide

/-- `Obligations.LaunchResult`: a descriptor of zeros, the table free. -/
theorem witness_launch : let i := Instr.launch hp (.r 1) .zr .sp
    ∃ u ps v bs, Ready rst hp i ∧ Claim.Passes rst .read false false .sp (kindBits i) 48 48 (rst.me.rs .zr) u ps ∧
      u.readPieces rst.cur true 0 ps = .ok v bs ∧
      v.badLaunch (v.partOf rst.cur) (BitVec.ofNat 384 (natOfBytes (bs.getD 0 []))) = false ∧
      (v.part (v.partOf rst.cur)).launchFree = some 0 ∧
      ((v.part (v.partOf rst.cur)).job (v.thr rst.cur).job).canc = false :=
  ⟨_, _, _, _, ready (by decide +kernel), passes (by decide +kernel), went_ok (by decide +kernel), by decide +kernel,
    by decide +kernel, by decide +kernel⟩
/-- A launch table of 4096 live entries has no free one. -/
theorem launches_full (k : Part) (l : Launch) (e : l.live = true) :
    ({ k with launches := (List.range 4096).map (fun n => (n, l)) } : Part).launchFree = none := by
  simp only [Part.launchFree, List.find?_eq_none, Bool.not_eq_true, Bool.not_eq_false', List.any_eq_true]
  exact fun n hn => ⟨(n, l), List.mem_map.mpr ⟨n, hn, rfl⟩, by simp [e]⟩
/-- The same with the table full: the checks and the reads do not look at it. -/
theorem witness_launch_full : let s := { rst with parts := [(0, { Part.init with
      launches := (List.range 4096).map (fun n => (n, { (default : Launch) with live := true })) })] }
    ∃ u ps v bs, Claim.Passes s .read false false .sp (kindBits (.launch hp (.r 1) .zr .sp)) 48 48 (s.me.rs .zr) u ps ∧
      u.readPieces s.cur true 0 ps = .ok v bs ∧ v.parts = s.parts ∧ (s.part 0).launchFree = none :=
  ⟨_, _, _, _, passes (by decide +kernel), went_ok (by decide +kernel), by rfl, launches_full _ _ rfl⟩
theorem witness_count_ready : ∀ i ∈ ([.cancel hp 1 .zr true, .cancel hp 0 (.r 1) false, .cntrd hp (.r 1) .zr .lrem,
    .cntrd hp (.r 1) .zr .jdrop] : List Instr), Ready rst hp i := all_ready (by decide +kernel)
/-! ## Witnesses: memory -/

/-- The word at scratchpad offset 0, and the double word that ends at offset 199, out of line. -/
def at0 : MemOp := ⟨.zr, 0, .sp, 1, 0⟩
def at191 : MemOp := ⟨.zr, 191, .sp, 1, 0⟩
/-- `Claim.LoadStoreIssue`: LD across a line, LD with acquire at pod, LD left in the issue queue; ST plain and with release. -/
theorem witness_load : let i := Instr.ld hp (.r 1) at191 .d false
    (∃ u ps v bs, Ready rst hp i ∧
      Claim.Passes rst .read false false .sp (kindOf .sp (szCode .d)) 8 1 (rst.me.rs .zr + (191 : BitVec 32).signExtend 64) u ps ∧
      u.mayWait rst.cur ps = false ∧ u.readPieces rst.cur true at191.hint ps = .ok v bs ∧ v.cur = rst.cur) ∧
    (∃ u ps v bs, Ready rst hp (.ld hp (.r 1) { at0 with sc := 7 } .d true) ∧
      Claim.Passes rst .read false true .sp (kindOf .sp (szCode .d)) 8 8 (rst.me.rs .zr + (0 : BitVec 32).signExtend 64) u ps ∧
      u.readPieces rst.cur false 0 ps = .ok v bs ∧ v.cur = rst.cur) ∧
    ∃ u ps, Ready slow hp i ∧
      Claim.Passes slow .read false false .sp (kindOf .sp (szCode .d)) 8 1 (slow.me.rs .zr + (191 : BitVec 32).signExtend 64) u ps ∧
      u.mayWait slow.cur ps = true :=
  ⟨⟨_, _, _, _, ready (by decide +kernel), passes (by decide +kernel), by decide +kernel, went_ok (by decide +kernel),
      by decide +kernel⟩,
    ⟨_, _, _, _, ready (by decide +kernel), passes (by decide +kernel), went_ok (by decide +kernel), by decide +kernel⟩,
    ⟨_, _, ready (by decide +kernel), passes (by decide +kernel), by decide +kernel⟩⟩
theorem witness_store : let us (ps : List Piece) := ps.flatMap (fun p => unitsOf p (bytesOfNat 8 (rst.me.rs (.r 1)).toNat) 0xFFFFFFFF)
    (∃ u ps x v, Ready rst hp (.st hp (.r 1) at191 .d false) ∧
      Claim.Passes rst .write true false .sp (kindOf .sp (szCode .d)) 8 1 (rst.me.rs .zr + (191 : BitVec 32).signExtend 64) u ps ∧
      Stores u x v rst.cur .sp ps (us ps) ∧ Claim.Ordinary u ps ∧
      Claim.Room u (u.tid rst.cur) (Claim.bytesOf ps) ∧ u.cur = rst.cur) ∧
    ∃ u ps v w, Ready rst hp (.st hp (.r 1) { at0 with sc := 7 } .d true) ∧
      Claim.Passes rst .write true true .sp (kindOf .sp (szCode .d)) 8 8 (rst.me.rs .zr + (0 : BitVec 32).signExtend 64) u ps ∧
      u.releaseStore rst.cur true 7 = .ok v () ∧ v.storeAll rst.cur .sp (some 7) (us ps) = .ok w () :=
  ⟨⟨_, _, _, _, ready (by decide +kernel), passes (by decide +kernel), stores (by decide +kernel), ordinary (by decide +kernel),
      Or.inr (by decide +kernel), by decide +kernel⟩,
    ⟨_, _, _, _, ready (by decide +kernel), passes (by decide +kernel), went_ok (by decide +kernel), went_ok (by decide +kernel)⟩⟩
/-- CACHE .pin on a page that is being migrated. -/
def migrating0 : State := { on (fun h => { h with unit := some { bootUnit with kind := .task, part := 0 } }) with
  parts := [(0, { Part.init with migration := some { (default : Migration) with asid := 0, base := 0, size := 48 * 1024 } })] }
theorem witness_pin_waits : Ready migrating0 hp (.cache hp (.p 1) ⟨.zr, 0, .g, 0, 0⟩ .pin) ∧
    (migrating0.ctx migrating0.cur).part = some 0 ∧
    migrating0.migrating 0 (migrating0.ctx migrating0.cur).asid (0 : Word).toNat = true ∧ (0 : Word).toNat < vaEnd :=
  ⟨ready (by decide +kernel), by decide +kernel, by decide +kernel, by decide⟩
theorem witness_cache_ready : ∀ i ∈ ([.pfetch hp ⟨.r 1, 0, .g, 0, 7⟩ true, .cache hp .zr ⟨.r 1, 0, .g, 0, 0⟩ .evict2,
    .cache hp (.p 1) ⟨.r 1, 0, .g, 0, 0⟩ .pin] : List Instr), Ready rst hp i := all_ready (by decide +kernel)
/-- `Claim.PlainLoadBytes`: a run of 8 bytes in a scratchpad. -/
theorem witness_plain : let p : Piece := ⟨0xFF, 0, [⟨0, .mem (mkPa 0 (coreBase 0)) 0, 8⟩]⟩
    Claim.Ordinary rst [p] ∧ rst.poisonedIn (rst.ctx rst.cur) [p] = none ∧ p.segs.findSome? rst.arrPoison = none :=
  ⟨ordinary (by decide +kernel), by decide +kernel, by decide +kernel⟩
/-- `Claim.StoreLeaves`: the runs of an ST of 8 bytes are one of 8 bytes. -/
theorem witness_run : ∃ u ps g, Claim.Passes rst .write true false .sp (kindOf .sp (szCode .d)) 8 1
    (rst.me.rs .zr + (0 : BitVec 32).signExtend 64) u ps ∧ Claim.Ordinary u ps ∧
    ps = [⟨0xFF, rst.me.rs .zr + (0 : BitVec 32).signExtend 64, [g]⟩] ∧ g.len = szBytes .d :=
  ⟨_, _, ⟨0, .mem (mkPa 0 (coreBase 0)) 0, 8⟩, passes (by decide +kernel), ordinary (by decide +kernel), by decide +kernel, rfl⟩

/-- `Claim.AtomicIssue`: AMO and CAS of 8 bytes, acquire and release at pod, AMOF of 4; CAS where the words agree and not;
and the three left in the issue queue. -/
theorem witness_amo : ∃ u ps v w old, Ready rst hp (.amo hp (.r 2) (.r 1) { at0 with sc := 7 } false .ar .add) ∧
      rst.dual? rst.cur = none ∧
      Claim.Passes rst .atomic true true .sp (kindOf .sp 0) 8 8 (rst.me.rs .zr + (0 : BitVec 32).signExtend 64) u ps ∧
      u.atomWaits rst.cur { at0 with sc := 7 } .ar ps = false ∧ u.releaseIf rst.cur true 7 = .ok v () ∧
      v.atomic rst.cur (ps.headD default) 8 (.amo .add (rst.me.rs (.r 1))) = .ok w old :=
  ⟨_, _, _, _, _, ready (by decide +kernel), by decide +kernel, passes (by decide +kernel), by decide +kernel,
    went_ok (by decide +kernel), went_ok (by decide +kernel)⟩
theorem witness_cas : ∀ x ∈ ([0, 1] : List Byte), let s := filled [x]
    ∃ u ps v w old, Ready s hp (.cas hp (.r 2) (.r 1) (.r 3) at0 true .pl) ∧ s.dual? s.cur = none ∧
      Claim.Passes s .atomic true true .sp (kindOf .sp 1) 4 4 (s.me.rs .zr + (0 : BitVec 32).signExtend 64) u ps ∧
      u.atomWaits s.cur at0 .pl ps = false ∧ u.releaseIf s.cur false 1 = .ok v () ∧
      v.atomic s.cur (ps.headD default) 4 (.cas (s.me.rs (.r 1)) (s.me.rs (.r 3))) = .ok w old ∧ old = x.toNat := by
  intro x hx
  fin_cases hx
  · exact ⟨_, _, _, _, _, ready (by decide +kernel), by decide +kernel, passes (by decide +kernel), by decide +kernel,
      went_ok (by decide +kernel), went_ok (by decide +kernel), by decide +kernel⟩
  · exact ⟨_, _, _, _, _, ready (by decide +kernel), by decide +kernel, passes (by decide +kernel), by decide +kernel,
      went_ok (by decide +kernel), went_ok (by decide +kernel), by decide +kernel⟩
theorem witness_amof : ∃ u ps v w old, Ready rst hp (.amof hp (.r 2) (.r 1) at0 .rel .fadd2) ∧ rst.dual? rst.cur = none ∧
      Claim.Passes rst .atomic true true .sp (kindOf .sp 1) 4 4 (rst.me.rs .zr + (0 : BitVec 32).signExtend 64) u ps ∧
      u.atomWaits rst.cur at0 .rel ps = false ∧ u.releaseIf rst.cur true 1 = .ok v () ∧
      v.atomic rst.cur (ps.headD default) 4 (.amof .fadd2 (rst.me.rs (.r 1))) = .ok w old :=
  ⟨_, _, _, _, _, ready (by decide +kernel), by decide +kernel, passes (by decide +kernel), by decide +kernel,
    went_ok (by decide +kernel), went_ok (by decide +kernel)⟩
theorem witness_atom_left : (∃ u ps, Ready slow hp (.amo hp (.r 2) (.r 1) at0 false .rel .add) ∧
      Claim.Passes slow .atomic true true .sp (kindOf .sp 0) 8 8 (slow.me.rs .zr + (0 : BitVec 32).signExtend 64) u ps ∧
      u.atomWaits slow.cur at0 .rel ps = true) ∧ slow.dual? slow.cur = none ∧
    ∃ u ps, Ready slow hp (.cas hp (.r 2) (.r 1) (.r 3) at0 true .pl) ∧ Ready slow hp (.amof hp (.r 2) (.r 1) at0 .pl .fadd2) ∧
      Claim.Passes slow .atomic true true .sp (kindOf .sp 1) 4 4 (slow.me.rs .zr + (0 : BitVec 32).signExtend 64) u ps ∧
      u.atomWaits slow.cur at0 .pl ps = true :=
  ⟨⟨_, _, ready (by decide +kernel), passes (by decide +kernel), by decide +kernel⟩, by decide +kernel,
    ⟨_, _, ready (by decide +kernel), ready (by decide +kernel), passes (by decide +kernel), by decide +kernel⟩⟩
/-- `Claim.AmoAtRoot`: the first double word of the scratchpad partition of core 0. -/
theorem witness_on_chip : let m : MemOp := ⟨.zr, 0, .sp, 1, 0⟩
    ∃ u va pa pte, Ready rst hp (.amo hp (.r 2) (.r 1) m false .pl .swap) ∧ rst.dual? rst.cur = none ∧
      Claim.Passes rst .atomic true true .sp (kindOf .sp 0) 8 8 (rst.me.rs .zr + (0 : BitVec 32).signExtend 64) u
        [⟨0xFF, rst.me.rs .zr + (0 : BitVec 32).signExtend 64, [⟨va, .mem pa pte, 8⟩]⟩] ∧
      u.MemWf ∧ u.poisoned pa 8 = false ∧ u.isPeer pa = false ∧ u.late = false ∧ (u.agent (u.tid rst.cur)).iq = [] ∧
      (u.agent (u.tid rst.cur)).sb = [] ∧ (∀ e ∈ u.hold, e.ag ≠ u.tid rst.cur ∧ ∀ x ∈ e.past, x.1 ≠ u.tid rst.cur) ∧ (u.thr rst.cur).stepReq = false := by
  intro m
  refine ⟨stOf (rst.check1 rst.cur .atomic true true .sp (kindOf .sp 0) 8 8 0), 0, mkPa 0 (coreBase 0), 0, ready (by decide +kernel),
    by decide +kernel, ?_, by unfold State.MemWf; decide +kernel, by decide +kernel, by decide +kernel, by decide +kernel, by decide +kernel,
    by decide +kernel, by decide +kernel, by decide +kernel⟩
  have e := passes (s := rst) (acc := .atomic) (wr := true) (sync := true) (sp_ := .sp) (kind := kindOf .sp 0) (n := 8) (al := 8)
    (ea := 0) (by decide +kernel)
  have h : valOf (rst.check1 rst.cur .atomic true true .sp (kindOf .sp 0) 8 8 0) =
    [⟨0xFF, 0, [⟨0, .mem (mkPa 0 (coreBase 0)) 0, 8⟩]⟩] := by decide +kernel
  rw [h] at e
  exact e

/-! ### Vectors -/

/-- Lanes 0 and 47 active in m1. -/
def ends : State := on (fun h => { h with m := h.m.set 1 0x800000000001#48 })
/-- A load of lanes whose checks pass. -/
def Loadable (s : State) (i : Instr) (kind : BitVec 4) (n : Nat) (lanes : List (Nat × Word)) : Prop :=
  Ready s hp i ∧ ∃ u ps v bs, s.checks s.cur .read false false .sp kind n n lanes = .ok u ps ∧ u.mayWait s.cur ps = false ∧
    u.readPieces s.cur true 0 ps = .ok v bs ∧ v.cur = s.cur
/-- A store of lanes whose checks pass. -/
def Storable (s : State) (i : Instr) (kind : BitVec 4) (n : Nat) (data : VReg) (nm : Nat → BitVec 32) (lanes : List (Nat × Word)) :
    Prop :=
  Ready s hp i ∧ ∃ u ps x v, s.checks s.cur .write true false .sp kind n n lanes = .ok u ps ∧
    Stores u x v s.cur .sp ps (ps.flatMap (fun p => unitsOf p (bytesOfNat n (laneOf data p.lane).toNat) (nm p.lane))) ∧ Claim.Ordinary u ps ∧ Claim.Room u (u.tid s.cur) (Claim.bytesOf ps) ∧ u.cur = s.cur
/-- `Claim.VectorMemoryIssue`. -/
theorem witness_vector_load : Loadable ends (.vld hp 2 at0 1 false) (kindOf .sp 0) 4
      (laneAddrs (ends.me.rm 1) (fun i => 0 + BitVec.ofNat 64 (4 * i))) ∧
    Loadable ends (.vlds hp 2 (.r 3) at0 1 false) (kindOf .sp 0) 4
      (laneAddrs (ends.me.rm 1) (fun i => 0 + BitVec.ofNat 64 i * ends.me.rs (.r 3))) ∧
    Loadable ends (.vgath hp 2 3 at0 1 .b false) (kindOf .sp (esCode .b)) (esBytes .b)
      (laneAddrs (ends.me.rm 1) (fun i => 0 + (laneOf (ends.me.rv 3) i).signExtend 64)) ∧
    (0 : Word).toNat % 4 = 0 ∧ (ends.me.rs (.r 3)).toNat % 4 = 0 := by
  refine ⟨⟨ready (by decide +kernel), _, _, _, _, went_ok ?_, ?_, went_ok ?_, ?_⟩, ⟨ready (by decide +kernel), _, _, _, _,
    went_ok ?_, ?_, went_ok ?_, ?_⟩, ⟨ready (by decide +kernel), _, _, _, _, went_ok ?_, ?_, went_ok ?_, ?_⟩, ?_, ?_⟩ <;>
    decide +kernel
theorem witness_vector_store : let at_ (f : Nat → Word) := laneAddrs (ends.me.rm 1) f
    Storable ends (.vst hp none 2 at0 1 false) (kindOf .sp 0) 4 (ends.me.rv 2) (fun _ => 0xFFFFFFFF)
      (at_ (fun i => 0 + BitVec.ofNat 64 (4 * i))) ∧
    Storable ends (.vst hp (some 5) 2 at0 1 false) (kindOf .sp 1) 4 (ends.me.rv 2)
      (fun i => ((laneOf (ends.me.rv 5) i).extractLsb' 0 8).setWidth 32) (at_ (fun i => 0 + BitVec.ofNat 64 (4 * i))) ∧
    Storable ends (.vsts hp 2 (.r 3) at0 1 false) (kindOf .sp 0) 4 (ends.me.rv 2) (fun _ => 0xFFFFFFFF)
      (at_ (fun i => 0 + BitVec.ofNat 64 i * ends.me.rs (.r 3))) ∧
    Storable ends (.vscat hp 2 3 at0 1 .h false) (kindOf .sp (esCode .h)) (esBytes .h) (ends.me.rv 2) (fun _ => 0xFFFFFFFF)
      (at_ (fun i => 0 + (laneOf (ends.me.rv 3) i).signExtend 64)) ∧
    ends.alignVec (at_ (fun i => 0 + BitVec.ofNat 64 (4 * i))) 0 0 true (kindOf .sp 0) = .ok ends () := by
  refine ⟨⟨ready (by decide +kernel), _, _, _, _, went_ok ?_, stores ?_, ordinary ?_, Or.inr ?_, ?_⟩, ⟨ready (by decide +kernel),
    _, _, _, _, went_ok ?_, stores ?_, ordinary ?_, Or.inr ?_, ?_⟩, ⟨ready (by decide +kernel), _, _, _, _, went_ok ?_, stores ?_,
    ordinary ?_, Or.inr ?_, ?_⟩, ⟨ready (by decide +kernel), _, _, _, _, went_ok ?_, stores ?_, ordinary ?_, Or.inr ?_, ?_⟩, ?_⟩
  on_goal 21 => rfl
  all_goals decide +kernel

/-! ### Waits and barrier objects -/

/-- `Claim.WaitOnMemory`: WAITA whose condition holds and not; BARW at another generation and at its own. -/
theorem witness_waita : ∀ c ∈ ([.eq, .ne] : List WaitCond), ∃ u ps v bs, Ready rst hp (.waita hp (.r 1) .zr at0 false true c) ∧
    Claim.Passes rst .read false true .sp (kindOf .sp 0) 8 8 (rst.me.rs .zr + (0 : BitVec 32).signExtend 64) u ps ∧
    u.readPieces rst.cur false 0 ps = .ok v bs ∧ v.cur = rst.cur ∧
    natOfBytes (bs.getD 0 []) = (rst.me.rs .zr).toNat % 2 ^ (8 * 8) := by
  intro c hc
  fin_cases hc
  · exact ⟨_, _, _, _, ready (by decide +kernel), passes (by decide +kernel), went_ok (by decide +kernel), by decide +kernel,
      by decide +kernel⟩
  · exact ⟨_, _, _, _, ready (by decide +kernel), passes (by decide +kernel), went_ok (by decide +kernel), by decide +kernel,
      by decide +kernel⟩
theorem witness_barw : ∀ x ∈ ([0, 15] : List Byte), ∃ u ps v pa, Ready (filled [x]) hp (.barw hp (.r 1) .zr at0) ∧
    Claim.Passes (filled [x]) .read false true .sp (kindOf .sp 0) 16 16 ((filled [x]).me.rs .zr + (0 : BitVec 32).signExtend 64) u ps ∧
    u.objAddr (filled [x]).cur ps = .ok v pa ∧ (v.bar pa).err = false ∧ (v.bar pa).gen = x.extractLsb' 0 4 := by
  intro x hx
  fin_cases hx <;>
    exact ⟨_, _, _, _, ready (by decide +kernel), passes (by decide +kernel), went_ok (by decide +kernel), by decide +kernel,
      by decide +kernel⟩
theorem witness_rfchk : (∀ w ∈ [true, false], Ready rst hp (.rfchk hp .zr w)) ∧ (rst.agent (rst.tid rst.cur)).ref.count = 0 :=
  ⟨fun w m => by fin_cases m <;> exact ready (by decide +kernel), by decide +kernel⟩
/-- A store to package 1 in thread 0's buffer; none. -/
def peerStore : State := rst.setAgent (rst.tid 0) { rst.agent (rst.tid 0) with sb := [⟨⟨1, 0, 0, 0, none, default⟩, nibsOf (2 ^ 43) [7]⟩] }
theorem witness_peer_left : (∀ w ∈ [true, false], Ready peerStore hp (.rfchk hp .zr w)) ∧
    (peerStore.agent (peerStore.tid peerStore.cur)).ref.count = 0 ∧ Claim.peerStoreLeft peerStore ∧ ¬ Claim.peerStoreLeft rst := by
  refine ⟨fun w m => by fin_cases m <;> exact ready (by decide +kernel), by decide +kernel, Or.inl ⟨_, Or.inl
    (show _ ∈ (peerStore.agent (peerStore.tid peerStore.cur)).sb from List.mem_singleton.mpr rfl), _, rfl, by decide +kernel⟩, ?_⟩
  rintro (⟨x, h, -⟩ | ⟨e, h, -⟩ | ⟨o, h, -⟩)
  · rcases h with h | h <;> exact absurd h (by
      first
      | rw [show (rst.agent (rst.tid rst.cur)).sb = [] by decide +kernel]; exact List.not_mem_nil
      | rw [show (rst.agent (rst.tid rst.cur)).iq = [] by decide +kernel]; exact List.not_mem_nil)
  · exact absurd h (by rw [show rst.hold = [] by decide +kernel]; exact List.not_mem_nil)
  · exact absurd h (by rw [show rst.outst = [] by decide +kernel]; exact List.not_mem_nil)
/-- `Claim.BarrierIssue`: an object with nothing under way, with ERR, and with a transfer under way. -/
theorem witness_barrier : ∀ x ∈ ([[], [0x10], [0, 0, 0, 0, 0, 1]] : List (List Byte)), ∃ u ps v w pa,
    Ready (filled x) hp (.bari hp (.r 1) at0 false) ∧ Ready (filled x) hp (.bara hp (.r 1) at0) ∧
    Ready (filled x) hp (.barx hp (.r 1) at0 true false) ∧ Ready (filled x) hp (.barx hp (.r 1) at0 false true) ∧
    (filled x).dual? (filled x).cur = none ∧
    Claim.Passes (filled x) .write true true .sp (kindOf .sp 0) 16 16 ((filled x).me.rs .zr + (0 : BitVec 32).signExtend 64) u ps ∧
    u.releaseAt (filled x).cur (1 : BitVec 3).toNat = .ok v () ∧ u.releaseIf (filled x).cur false 1 = .ok v () ∧
    v.objAddr (filled x).cur ps = .ok w pa ∧ (x = [] → w.bar pa = ⟨0, 0, 0, 0, 0, false, 0⟩) ∧
    (x = [0x10] → (w.bar pa).err = true) ∧ (x.length = 6 → (w.bar pa).inb = 1) := by
  intro x hx
  fin_cases hx <;> exact ⟨_, _, _, _, _, ready (by decide +kernel), ready (by decide +kernel), ready (by decide +kernel),
    ready (by decide +kernel), by decide +kernel, passes (by decide +kernel), went_ok (by decide +kernel), by rfl,
    went_ok (by decide +kernel), by decide +kernel, by decide +kernel, by decide +kernel⟩
/-- `Claim.BarrierCompletes`: an idle thread, and a word and an object at the start of its scratchpad; the object quiet, and
with ERR. -/
theorem witness_idle : ∀ x ∈ ([[], [0x10]] : List (List Byte)), Claim.Idle (filled x) ∧ (filled x).MemWf ∧
    Claim.InScratch (filled x) at0 8 (mkPa 0 (coreBase 0)) ∧ Claim.InScratch (filled x) at0 16 (mkPa 0 (coreBase 0)) ∧
    (∀ i ∈ ([.waita hp (.r 1) .zr at0 false true .ne, .bari hp (.r 1) at0 true, .bara hp (.r 1) at0, .barw hp (.r 1) .zr at0,
      .barx hp (.r 1) at0 true false, .rfchk hp .zr true] : List Instr), Ready (filled x) hp i) ∧
    (((filled x).bar (mkPa 0 (coreBase 0))).err = true ↔ x = [0x10]) ∧
    (x = [] → (filled x).bar (mkPa 0 (coreBase 0)) = ⟨0, 0, 0, 0, 0, false, 0⟩ ∧
      Claim.waitedFor .eq ((filled x).rdNat (mkPa 0 (coreBase 0)) 8) 0) := by
  intro x hx
  fin_cases hx
  · exact ⟨⟨by decide +kernel, by decide +kernel, by decide +kernel, by decide +kernel, by decide +kernel, by decide +kernel,
      by decide +kernel⟩, by unfold State.MemWf; decide +kernel, by unfold Claim.InScratch; decide +kernel,
      by unfold Claim.InScratch; decide +kernel, fun i m => ready (List.all_eq_true.mp (by decide +kernel : ([.waita hp (.r 1) .zr at0 false true .ne,
        .bari hp (.r 1) at0 true, .bara hp (.r 1) at0, .barw hp (.r 1) .zr at0, .barx hp (.r 1) at0 true false, .rfchk hp .zr true] :
        List Instr).all (readyB (filled []) hp) = true) i m), by decide +kernel,
      fun _ => ⟨by decide +kernel, by unfold Claim.waitedFor; decide +kernel⟩⟩
  · exact ⟨⟨by decide +kernel, by decide +kernel, by decide +kernel, by decide +kernel, by decide +kernel, by decide +kernel,
      by decide +kernel⟩, by unfold State.MemWf; decide +kernel, by unfold Claim.InScratch; decide +kernel,
      by unfold Claim.InScratch; decide +kernel, fun i m => ready (List.all_eq_true.mp (by decide +kernel : ([.waita hp (.r 1) .zr at0 false true .ne,
        .bari hp (.r 1) at0 true, .bara hp (.r 1) at0, .barw hp (.r 1) .zr at0, .barx hp (.r 1) at0 true false, .rfchk hp .zr true] :
        List Instr).all (readyB (filled [0x10]) hp) = true) i m), by decide +kernel, fun h => absurd h (by decide)⟩
/-- `Claim.BarrierPhase`: the last arrival, one of two, one with transfers under way, one at ERR, one too many; the last completion of
each side, one of two, one with arrivals to come, one too many; 1, 7, 8 and 15 phases late; counters at their greatest. -/
theorem witness_phase : let b (p : BitVec 16) (i o : BitVec 20) (e : Bool) : Bar := ⟨0, o, i, 2, p, e, 0⟩
    let last (x : Bar) : Prop := x.err = false ∧ x.pend = 1 ∧ x.inb = 0 ∧ x.out = 0
    last (b 1 0 0 false) ∧ (∀ x ∈ [b 2 0 0 false, b 1 1 0 false, b 1 0 1 false, b 1 0 0 true], x.pend ≠ 0 ∧ ¬ last x) ∧ (b 0 0 0 false).pend = 0 ∧
    (∀ x ∈ [b 0 1 0 false, b 1 1 0 false, b 0 2 0 false, b 0 1 1 false, b 0 1 0 true], x.inb ≠ 0 ∧
      (x.err = false ∧ x.pend = 0 ∧ x.inb = 1 ∧ x.out = 0 ↔ x = b 0 1 0 false)) ∧
    (∀ x ∈ [b 0 0 1 false, b 1 0 1 false, b 0 0 2 false, b 0 1 1 false, b 0 0 1 true], x.out ≠ 0 ∧
      (x.err = false ∧ x.pend = 0 ∧ x.out = 1 ∧ x.inb = 0 ↔ x = b 0 0 1 false)) ∧
    ((b 1 0 0 false).inb = 0 ∧ (b 1 0 0 false).out = 0 ∧ (b 1 0xFFFFF 0xFFFFE false).inb = 0xFFFFF ∧ (b 1 0xFFFFF 0xFFFFE false).out ≠ 0xFFFFF) ∧
    (∀ g ∈ ([15, 9, 8, 1] : List (BitVec 4)), 1 ≤ ((0 : BitVec 4) - g).toNat ∧ (((0 : BitVec 4) - g).toNat ≤ 7 ↔ g = 15 ∨ g = 9)) := by
  decide
/-! ## Witnesses: vectors, commands, tiles -/

/-- Every instruction of groups 0x0B to 0x0E (`Obligations.VectorArithmetic`, `Obligations.VectorLogic`,
`Obligations.VectorFunctions`), with a register and with an immediate. -/
theorem witness_vector_ready : ∀ i ∈ ([
    .vadd hp 1 2 (.r 3) 0 .f32 .rup false false, .vsub hp 1 2 (.i 5) 1 .i16x2 .rne true true, .vmul hp 1 2 (.r 3) 2 .bf16x2 .rne false false,
    .vfma hp 1 2 (.r 3) 0 .i8x4 .rne false false, .vmin hp 1 2 (.r 3) 0 .i32 true, .vmax hp 1 2 (.r 3) 0 .f16x2 false,
    .vabs hp 1 2 0 .i32 true, .vneg hp 1 1 0 .f32 false, .vand hp 1 2 (.i 5) 0, .vor hp 1 2 (.r 3) 1, .vxor hp 1 1 (.r 1) 0,
    .vshl hp 1 2 (.i 31) 0 .i32, .vshr hp 1 2 (.r 3) 0 .i16x2, .vsar hp 1 2 (.r 3) 0 .i8x4, .vcmp hp 1 2 (.r 3) 1 .i8x4 3 true .lt,
    .vcmp hp 0 2 (.r 3) 0 .f32 0 false .un, .vsel hp 1 2 3 1, .vrcp hp 1 2 0 .f32, .vrsq hp 1 2 0 .f32, .vexp2 hp 1 2 0 .f16x2,
    .vlog2 hp 1 2 0 .bf16x2, .vtanh hp 1 2 1 .f32, .vcvt hp 1 2 0 .bf16x2 .f32 1 .rne false, .vdeq hp 1 2 3 0 .d2s8 3 .rne,
    .vquant hp 1 2 3 1 .fp4 7 .rne true, .vred hp (.r 1) 2 0 .f32 .rup .add false, .vscan hp 1 2 0 .i32 .rne .max true true,
    .vperm hp 1 2 3 0, .vbcast hp 1 (.v 2) 1 47, .vbcast hp 1 (.s .zr) 1 0, .vins hp 1 (.r 2) 47, .vext hp (.r 1) 2 0,
    .vmask hp 1 (.lt (.r 2)), .vmask hp 1 (.nz 2), .vmask hp 0 (.first 2), .vpopm hp (.r 1) 2 false, .vpopm hp (.r 1) 0 true] : List Instr),
    Ready rst hp i := all_ready (by decide +kernel)

/-- `Claim.FloatArithmetic`, `Claim.FloatConversions`, `Claim.FloatFunctions`, `Claim.Rounded`: numbers of each kind, values at the ends
of the range, and integers that the functions take exactly. -/
theorem witness_floats : (∀ t ∈ ([(8, 23), (8, 7), (5, 10)] : List (Nat × Nat)), let one := (2 ^ (t.1 - 1) - 1) * 2 ^ t.2
      Claim.isFin t.1 t.2 one = true ∧ Claim.isInf t.1 t.2 (Claim.infinity t.1 t.2) = true ∧ Claim.isNan t.1 t.2 (Claim.quiet t.1 t.2) = true ∧
      Claim.isSig t.1 t.2 (Claim.quiet t.1 t.2) = false ∧ Claim.isSig t.1 t.2 (Claim.infinity t.1 t.2 + 1) = true ∧
      Claim.minus t.1 t.2 (2 ^ (t.1 + t.2) + Claim.infinity t.1 t.2) = true ∧ Claim.minus t.1 t.2 (Claim.infinity t.1 t.2) = false ∧
      2 ^ (t.1 + t.2) + Claim.infinity t.1 t.2 < 2 ^ (1 + t.1 + t.2)) ∧
    (LT.bf16x2, 8, 7) ∈ [(LT.f32, 8, 23), (LT.bf16x2, 8, 7), (LT.f16x2, 5, 10)] ∧
    (FF.f16, 5, 10) ∈ [(FF.f32, 8, 23), (FF.bf16, 8, 7), (FF.f16, 5, 10)] ∧
    (Fmt.uint8, (0 : Int), (255 : Int)) ∈ [(Fmt.int8, -128, 127), (Fmt.uint8, 0, 255)] := by decide +kernel
theorem witness_values : Claim.real 8 23 0 = 0 ∧ Claim.real 8 23 0x40000000 = (2 : ℤ) ∧ Claim.real 8 23 0x40000000 = 2 ^ (1 : ℤ) ∧
    Claim.real 8 23 0x40800000 = 4 ^ (1 : ℤ) ∧ Claim.real 8 23 0xBF800000 < 0 := by
  refine ⟨?_, ?_, ?_, ?_, ?_⟩ <;> norm_num [Claim.real, Claim.expo, Claim.minus]
theorem witness_rounded : let top : ℚ := 2 ^ 2 ^ (8 - 1) - 2 ^ (2 ^ (8 - 1) - 1 - 23)
    |(1 : ℚ)| ≤ top ∧ (2 ^ 2 ^ (8 - 1) + top) / 2 ≤ |(2 : ℚ) ^ 128| ∧ (2 : ℚ) ^ 2 ^ (8 - 1) ≤ |(2 : ℚ) ^ 128| := by
  norm_num

/-- A copy without a completion target, and with one at an offset, in 4-byte units. -/
def noTarget : CpyMod := ⟨1, .quill, .g, .g, false, false, .none, false, 0, 0⟩
def wordAtOff (ck : CK) (cfr : Bool) (off : BitVec 20) : CpyMod := ⟨1, .quill, .g, .g, false, cfr, ck, false, off, 0⟩
theorem witness_command_ready : ∀ i ∈ ([.tmma hp 0 0 1 5 true false 0 0, .tsca hp 0 1 2 3 0 false true, .qjoin hp 3 0 15,
    .cpy hp (.r 1) (.r 2) (.r 3) true 5 noTarget, .cpy2d hp (.r 1) (.r 2) (.r 3) false 0 noTarget,
    .cpyg hp (.r 1) (.r 2) (.r 3) false 0 noTarget, .cpys hp (.r 1) (.r 2) (.r 3) false 0 noTarget, .gset hp 15 (.pred 1),
    .gset hp 1 .empty] : List Instr), Ready rst hp i := all_ready (by decide +kernel)
/-- Thread 0 with 32 commands in each queue. -/
def allFull : State := on (fun h => { h with q := Vector.replicate 4 ⟨List.replicate 32 (cmdOf (.qjoin hp 1 0 1)), none⟩ })
/-- `Claim.CommandIssued`: 31 commands in Q1, and 32. -/
theorem witness_room : (Ready (inQ1 31) hp (.cpy hp .zr .zr .zr false 0 noTarget) ∧ (inQ1 31).dual? (inQ1 31).cur = none ∧
      ((inQ1 31).queue (.thread (inQ1 31).cur) 1).cmds.length < 32 ∧ noTarget.ck = .none) ∧
    (∀ i ∈ ([.tmma hp 0 0 1 5 true false 0 0, .tsca hp 0 1 2 3 0 false true, .qjoin hp 1 0 1, .cpy hp .zr .zr .zr false 0 noTarget,
      .cpy2d hp .zr .zr .zr true 0 noTarget, .cpyg hp .zr .zr .zr false 0 noTarget, .cpys hp .zr .zr .zr true 0 noTarget] : List Instr),
      Ready allFull hp i) ∧ allFull.dual? allFull.cur = none ∧
    ∀ n < 4, ¬ (allFull.queue (.thread allFull.cur) n).cmds.length < 32 :=
  ⟨with_ready (by decide +kernel), all_ready (by decide +kernel), by decide +kernel⟩
/-- `Claim.Queues`, `Claim.CommandIssued`: a command whose slot holds PASS, DISCARD and EMPTY comes to an empty queue; a head
that waits for its slot, and one whose slot GSET sets. -/
theorem witness_queues : (∀ k ∈ ([5, 6, 7] : List (BitVec 4)), Ready (inQ 1 []) hp (.qjoin hp 1 k 6) ∧
      ((inQ 1 []).queue (.thread 0) 1).cmds = [] ∧ ((inQ 1 []).queue (.thread 0) 1).stopped = none) ∧
    (Claim.slotOf (inQ 1 []) 0 (.qjoin hp 1 5 6) = .pass ∧ Claim.slotOf (inQ 1 []) 0 (.qjoin hp 1 6 6) = .discard ∧
      Claim.slotOf (inQ 1 []) 0 (.qjoin hp 1 7 6) = .empty ∧ ((inQ 1 []).thr 0).slotsClosed = false) ∧
    (let c := cmdOf (.qjoin hp 1 7 6);
      Ready (inQ 1 [c]) hp (.gset hp 7 .pass) ∧ Ready (inQ 1 [c]) hp (.gset hp 8 .pass) ∧
      (inQ 1 [c]).queue (.thread (inQ 1 [c]).cur) 1 = ⟨[c], none⟩ ∧ c.decided = false ∧ slotField c.i = 7 ∧
      Claim.slotOf (inQ 1 [c]) 0 c.i = .empty ∧ (inQ 1 [c]).poison = []) := by
  refine ⟨fun k m => ?_, by decide +kernel, ready (by decide +kernel), ready (by decide +kernel), by decide +kernel⟩
  fin_cases m <;> exact with_ready (by decide +kernel)
/-- `Claim.CopyTarget`: a word at offset 0, a barrier object at 0, an offset that is not aligned, and the greatest offset. -/
theorem witness_target : let s := on (fun h => { h with cframe := 2 })
    let ask (k : CpyMod) : Prop := Ready s hp (.cpy hp .zr .zr .zr false 0 k) ∧ s.dual? s.cur = none ∧
      (s.queue (.thread s.cur) 1).cmds.length < 32
    (ask (wordAtOff .cwcm false 0) ∧ copyTarget (wordAtOff .cwcm false 0) s.me.cframe = some (.cm, 0, 4) ∧
      4 ≤ (s.spaceBase (coreOf s.cur) .cm).1) ∧
    (ask (wordAtOff .barsp false 0) ∧ copyTarget (wordAtOff .barsp false 0) s.me.cframe = some (.sp, 0, 16) ∧
      16 ≤ (s.spaceBase (coreOf s.cur) .sp).1) ∧
    (ask (wordAtOff .cwsp true 0) ∧ copyTarget (wordAtOff .cwsp true 0) s.me.cframe = some (.sp, 2, 4) ∧ (2 : Word).toNat % 4 ≠ 0) ∧
    (ask (wordAtOff .cwsp false 0xFFFFF) ∧ copyTarget (wordAtOff .cwsp false 0xFFFFF) s.me.cframe = some (.sp, 0x3FFFFC, 4) ∧
      (s.spaceBase (coreOf s.cur) .sp).1 < (0x3FFFFC : Word).toNat + 4) := by
  intro s ask
  refine ⟨⟨with_ready (by decide +kernel), ?_⟩, ⟨with_ready (by decide +kernel), ?_⟩, ⟨with_ready (by decide +kernel), ?_⟩,
    ⟨with_ready (by decide +kernel), ?_⟩⟩ <;> decide +kernel

/-- Words behind a REPB: `vadd v1, v2, v3`, a word of zeros, and `add s17, s17, 5`. -/
def vaddWord : IWord := 0x2C000212_22360000_00000000#96
def addWord : IWord := 0x08000111_1E0E0800_00000005#96
def repeats (ws : List IWord) (f : State → State) : State := f (on (fun h => { h with
  ibuf := [(0, List.replicate 12 0 ++ (ws.flatMap (fun w => bytesOfNat 12 w.toNat)) ++ List.replicate (180 - 12 * ws.length) 0)] }))
/-- A load into s3 waits in the issue queue. -/
def loading (s : State) : State := s.setAgent (s.tid 0) { s.agent (s.tid 0) with iq := [.load 1 0 (.s (.r 3) 0) 0 0 1 none] }
def vadds : List Instr := [.vadd hp 1 2 (.r 3) 0 .f32 .rne false false]
/-- What a REPB of n + 1 words finds. -/
def repeatB (s : State) (n : BitVec 4) (ws : List IWord) : Bool :=
  let x := s.bodyFetch s.cur (s.me.pc + 12) (n.toNat + 1)
  readyB s hp (.repb hp .zr .zr 0 n 1 0 0 0 4) && went x && valOf x == ws && (stOf x).cur == s.cur &&
    ((stOf x).dual? s.cur).isNone && ((stOf x).thr s.cur).recording.isNone
theorem repeat_ok {s : State} {n : BitVec 4} {ws : List IWord} (e : repeatB s n ws = true) :
    ∃ u, Ready s hp (.repb hp .zr .zr 0 n 1 0 0 0 4) ∧ s.bodyFetch s.cur (s.me.pc + 12) (n.toNat + 1) = .ok u ws ∧ u.cur = s.cur ∧
      u.dual? s.cur = none ∧ (u.thr s.cur).recording = none ∧ u = stOf (s.bodyFetch s.cur (s.me.pc + 12) (n.toNat + 1)) := by
  simp only [repeatB, Bool.and_eq_true, beq_iff_eq, Option.isNone_iff_eq_none] at e
  obtain ⟨⟨⟨⟨⟨a, b⟩, c⟩, d⟩, f⟩, g⟩ := e
  exact ⟨_, ready a, went_at ⟨b, c⟩, d, f, g, rfl⟩
/-- `Claim.RepeatQueued`: a body that may be queued, and one that may not yet: Q3 is full, or a register awaits its load; a body whose
second word does not decode, and one whose second word may not stand there. -/
theorem witness_repeat :
    (∀ f ∈ ([id, fun s => s.updThr 0 (fun h => { h with q := h.q.set 3 ⟨List.replicate 32 (cmdOf (.qjoin hp 3 0 1)), none⟩ })] : List (State → State)),
      repeatB (repeats [vaddWord] f) 0 [vaddWord] = true) ∧ [vaddWord].map decode = vadds.map .ok ∧ (∀ x ∈ vadds, bodyOk x (hdrOf x) = true) ∧
    (let u := stOf ((repeats [vaddWord] id).bodyFetch 0 12 1);
      (u.queue (.thread 0) 3).cmds.length < 32 ∧ u.repWordsUsed 0 + vadds.length ≤ 64 ∧ (∀ x ∈ vadds, (u.thr 0).claimed x = false) ∧
      u.bodyPending 0 0 0 vadds = false) ∧
    ((loading (repeats [vaddWord] id)).bodyPending 0 0 0 [.vbcast hp 1 (.s (.r 3)) 0 0] = true) ∧
    repeatB (repeats [vaddWord, 0] id) 1 [vaddWord, 0] = true ∧ decode 0 = .error .badOperand ∧
    repeatB (repeats [vaddWord, addWord] id) 1 [vaddWord, addWord] = true ∧
    (let body := vadds ++ [.add hp (.r 17) (.r 17) (.i 5) .wrap];
      [vaddWord, addWord].map decode = body.map .ok ∧ ∀ x ∈ body, bodyOk x (hdrOf x) = vadds.contains x) := by
  decide +kernel

/-- Tile 0 is one element of FP32, tile 1 of 48 rows of 48; the scratchpad is empty. -/
def tiled : State := { State.reset with cores := [(0, { Core.init with
  desc := (Core.init.desc.set 0 0x00000003).set 1 0x0000BEF3 })] }
/-- `Claim.TileIssue`. -/
theorem witness_tile : (tiled.MemWf ∧ (tiled.agent (tiled.tid tiled.cur)).sb = []) ∧
    (∀ i ∈ ([.tcfg hp 15 (.i 0), .tcfg hp 0 (.r (.r 1)), .tzero hp (.t 15) false, .tzero hp (.a 7) true, .ttrn hp 2 1,
      .acvt hp (.t 0) 3 true .rup, .acvt hp (.a 1) 1 false .rne, .atov hp 1 2 (.r 3) 0 true 47, .vtoa hp 2 1 .zr 1 false 47,
      .tld hp 0 .zr at0 false, .tst hp 0 .zr at0 false, .ast hp 0 (.r 1) at0 false] : List Instr), Ready tiled hp i) ∧
    descOk 0 = true ∧ descOk 0x00017EF1 = true ∧
    (let s := on (fun h => { h with globals := #v[0, 0xB, 0, 1, 0, 0, 0, 0] });
      Ready s hp (.tcfg hp 0 (.r (.r 1))) ∧ descOk (BitVec.ofNat 32 (s.me.rs (.r 1)).toNat) = false ∧
      Ready s hp (.vtoa hp 2 1 (.r 3) 1 false 47) ∧ 48 ≤ (47 : BitVec 6).toNat + (s.me.rs (.r 3)).toNat) ∧
    Claim.Shape tiled 0 .fp32 1 1 ∧ Claim.Shape tiled 1 .fp32 48 48 ∧ (tiled.core 0).poisonT = [] ∧ (tiled.core 0).poisonA = [] ∧
    (47 : BitVec 6).toNat + (tiled.me.rs (.r 3)).toNat < 48 ∧ (1 : Nat) ≤ 48 ∧ (48 : Nat) ≤ 48 ∧ Fmt.fp32 ≠ .d2s8 :=
  ⟨⟨by unfold State.MemWf; decide +kernel, by decide +kernel⟩,
    fun i m => ready (List.all_eq_true.mp (by decide +kernel : ([.tcfg hp 15 (.i 0), .tcfg hp 0 (.r (.r 1)), .tzero hp (.t 15) false,
      .tzero hp (.a 7) true, .ttrn hp 2 1, .acvt hp (.t 0) 3 true .rup, .acvt hp (.a 1) 1 false .rne, .atov hp 1 2 (.r 3) 0 true 47,
      .vtoa hp 2 1 .zr 1 false 47, .tld hp 0 .zr at0 false, .tst hp 0 .zr at0 false, .ast hp 0 (.r 1) at0 false] : List Instr).all
      (readyB tiled hp) = true) i m),
    by decide, by decide, ⟨ready (by decide +kernel), by decide +kernel, ready (by decide +kernel), by decide +kernel⟩,
    by rfl, by rfl, by decide +kernel, by decide +kernel, by decide +kernel, by decide, by decide, by decide⟩
/-- `Claim.TileMemory`: a tile of one element, and an accumulator. -/
theorem witness_tile_load : ∃ u ps v bs,
    tiled.checks tiled.cur .read false false .sp (kindOf .sp 0) 4 4 (rowWords 0 (tiled.me.rs .zr) 1 4) = .ok u ps ∧
    u.readPieces tiled.cur true 0 ps = .ok v bs :=
  ⟨_, _, _, _, went_ok (by decide +kernel), went_ok (by decide +kernel)⟩
theorem witness_tile_store : ∃ u ps x v, tiled.checks tiled.cur .write true false .sp (kindOf .sp 0) 4 4
      (rowWords 0 (tiled.me.rs .zr) 1 4) = .ok u ps ∧
    let words := ps.zip ([bytesOfNat 192 (tiled.tileRow 0 0 0)].flatMap (fun l => (List.range (4 / 4)).map
      (fun q => (l.drop (4 * q)).take 4)))
    Stores u x v tiled.cur .sp (words.map Prod.fst) (words.flatMap (fun p => unitsOf p.1 p.2 0xFFFFFFFF)) :=
  ⟨_, _, _, _, went_ok (by decide +kernel), stores (by decide +kernel)⟩
theorem stored {s : State} {t : Nat} {sp_ : Space} {us : List SUnit} {ps : List Piece}
    (w : ∀ p ∈ ps, ∀ g ∈ p.segs, g.watched = false) (q : ∀ u ∈ us, u.seg.watched = false) (d : s.dual? t = none) :
    ∃ v, Stores s s v t sp_ ps us :=
  ⟨_, storeReady_plain q, by rw [watchStore_plain w]; exact storeAll_alone d⟩
theorem units_unwatched {p : Piece} {g : Seg} (e : p.segs = [g]) (w : g.watched = false) (bs : List Byte) (m : BitVec 32) :
    ∀ u ∈ unitsOf p bs m, u.seg.watched = false := by
  intro u hu
  simp only [unitsOf, e] at hu
  split at hu
  · obtain rfl := List.mem_singleton.mp hu
    exact w
  · obtain ⟨i, -, rfl⟩ := List.mem_map.mp hu
    rcases g with ⟨va, t, n⟩
    cases t <;> simp_all [SUnit.seg, Seg.watched, Tgt.plus]
/-- `Claim.TileMemory`: AST of an accumulator at offset 0, whatever its words. -/
theorem witness_acc_store (data : List (List Byte)) : ∃ u ps,
    tiled.checks tiled.cur .write true false .sp (kindOf .sp 0) 4 4 (rowWords 0 (tiled.me.rs .zr) 48 192) = .ok u ps ∧
      ∃ v, Stores u u v tiled.cur .sp ((ps.zip data).map Prod.fst) ((ps.zip data).flatMap (fun p => unitsOf p.1 p.2 0xFFFFFFFF)) := by
  refine ⟨_, _, checks_on_chip (by decide) (by decide +kernel), stored (fun p m g hg => ?_) (fun x hx => ?_) (by decide +kernel)⟩
  · obtain ⟨⟨a, b⟩, z, rfl⟩ := List.mem_map.mp m
    obtain ⟨x, -, rfl⟩ := List.mem_map.mp (List.of_mem_zip z).1
    obtain rfl := List.mem_singleton.mp hg
    rfl
  · obtain ⟨⟨a, b⟩, z, m⟩ := List.mem_flatMap.mp hx
    obtain ⟨y, -, rfl⟩ := List.mem_map.mp (List.of_mem_zip z).1
    exact units_unwatched rfl rfl _ _ x m
/-! ## Witnesses: messages, units, tapes -/

/-- A handler run of an actor of class 0 and partition 0, with one line of frame, and s1 another word. -/
def runInfo : UnitInfo := { bootUnit with kind := .handler, flen := 1, ekey := ⟨0, 0, 0⟩ }
def handling (x : Word) : State := on (fun h => { h with unit := some runInfo, globals := #v[0, x, 0, 0, 0, 0, 0, 0] })
/-- A message already in the outbound queue. -/
def outMsg : OutMsg := ⟨default, 0, 0, .waiting⟩

/-- `Claim.SendIssue`: SEND of 192 bytes with a reply-to, and at a queue of 16; SENDM of 4 bytes; REPLY. -/
theorem witness_send : let s := handling 0x100C0000000
    let full := on (fun h => { h with outq := List.replicate 16 outMsg })
    (Ready s hp (.send hp 1 .zr 2 (.r 1)) ∧ ((s.me.rs (.r 1)).extractLsb' 24 8).toNat ≤ 192 ∧ s.me.handler.isSome = true ∧
      ∃ u pkg, s.homeOf s.cur (.send hp 1 .zr 2 (.r 1)) 0 0 = .ok u pkg ∧ u.cur = s.cur ∧ u.thr s.cur = s.me ∧
        u.partOf s.cur = s.partOf s.cur ∧ u.pkg = s.pkg ∧ (u.thr s.cur).outq.length < 16) ∧
    (Ready full hp (.send hp 1 .zr 2 .zr) ∧ ∃ u pkg, full.homeOf full.cur (.send hp 1 .zr 2 .zr) 0 0 = .ok u pkg ∧
      u.cur = full.cur ∧ u.thr full.cur = full.me ∧ u.partOf full.cur = full.partOf full.cur ∧ u.pkg = full.pkg ∧
      16 ≤ (u.thr full.cur).outq.length) := by
  refine ⟨⟨ready (by decide +kernel), ?_, ?_, _, _, went_ok ?_, ?_, ?_, ?_, ?_, ?_⟩,
    ⟨ready (by decide +kernel), _, _, went_ok ?_, ?_, ?_, ?_, ?_, ?_⟩⟩ <;> decide +kernel
theorem witness_sendm : let s := handling 0x04000000
    let i := Instr.sendm hp 1 .zr .zr (.r 1) .sp
    Ready s hp i ∧ ((s.me.rs (.r 1)).extractLsb' 24 8).toNat = 4 ∧ ∃ u ps v bs w pkg,
      Claim.Passes s .read false false .sp (kindBits i) 4 4 (s.me.rs .zr) u ps ∧ u.readPieces s.cur true 0 ps = .ok v bs ∧
      v.homeOf s.cur i 0 0 = .ok w pkg ∧ w.cur = s.cur ∧ w.thr s.cur = s.me ∧ w.partOf s.cur = s.partOf s.cur ∧ w.pkg = s.pkg := by
  refine ⟨ready (by decide +kernel), ?_, _, _, _, _, _, _, passes ?_, went_ok ?_, went_ok ?_, ?_, ?_, ?_, ?_⟩ <;> decide +kernel
theorem witness_reply : let s := on (fun h => { h with unit := some { runInfo with msg := { (default : Msg) with rv := true } } })
    Ready s hp (.reply hp 1 2 .zr) ∧ (s.me.handler.map (fun x => x.msg.rv)) = some true ∧
      ∃ u pkg, s.homeOf s.cur (.reply hp 1 2 .zr) 0 0 = .ok u pkg ∧ u.cur = s.cur ∧ u.thr s.cur = s.me ∧
        u.partOf s.cur = s.partOf s.cur ∧ u.pkg = s.pkg := by
  refine ⟨ready (by decide +kernel), ?_, _, _, went_ok ?_, ?_, ?_, ?_, ?_⟩ <;> decide +kernel
/-- `Claim.ActorTraps`: a length of 193, and RV outside a handler run. -/
theorem witness_actor_traps : let s (x : Word) := on (fun h => { h with globals := #v[0, x, 0, 0, 0, 0, 0, 0] })
    (Ready (s 0xC1000000) hp (.send hp 1 .zr 2 (.r 1)) ∧ 192 < (((s 0xC1000000).me.rs (.r 1)).extractLsb' 24 8).toNat) ∧
    (Ready (s 0x10000000000) hp (.send hp 1 .zr 2 (.r 1)) ∧ (((s 0x10000000000).me.rs (.r 1)).extractLsb' 24 8).toNat ≤ 192 ∧
      ((s 0x10000000000).me.rs (.r 1)).getLsbD 40 = true ∧ (s 0x10000000000).me.handler = none) ∧
    (Ready (handling 0) hp (.reply hp 1 2 .zr) ∧ ∀ x, (handling 0).me.handler = some x → x.msg.rv = false) ∧
    (∀ i ∈ ([.aretire hp, .aself hp (.r 1) .home, .tseal hp 1, .trec hp 15, .tpatch hp (.r 1) .zr ⟨.pay, 23⟩ 0,
      .tguard hp (.r 1) .zr ⟨.frm, 1023⟩, .tplay hp 1 0] : List Instr), Ready rst hp i) ∧ rst.me.handler = none := by
  refine ⟨with_ready ?_, with_ready ?_, ⟨ready ?_, fun x h => ?_⟩, all_ready ?_, ?_⟩
  on_goal 4 => rw [show (handling 0).me.handler = some runInfo by decide +kernel] at h; cases h; decide
  all_goals decide +kernel

/-- `Claim.UnitEnds`: the firmware, and a handler run. -/
theorem witness_unit_ends : (Ready rst hp (.adone hp) ∧ Claim.Quiet rst ∧ rst.me.unit = some bootUnit ∧ bootUnit.dual = none ∧
      bootUnit.step3 = false ∧ rst.overdue rst.cur = false ∧ rst.restartable bootUnit = false ∧ rst.poison = []) ∧
    (Ready (handling 0) hp (.adone hp) ∧ Claim.Quiet (handling 0) ∧ (handling 0).me.unit = some runInfo ∧ runInfo.dual = none ∧
      runInfo.step3 = false ∧ (handling 0).overdue (handling 0).cur = false ∧ (handling 0).restartable runInfo = false ∧ runInfo.kind = .handler ∧ (handling 0).poison = []) :=
  ⟨⟨ready (by decide +kernel), quiet (by decide +kernel), by decide +kernel⟩,
    ⟨ready (by decide +kernel), quiet (by decide +kernel), by decide +kernel⟩⟩
/-- A route to package 1 by link 0, which is up, for a run that holds its number in s1. -/
def routed : State := { handling 1 with links := [(0, { Link.init with up := true })], route := [(1, 0x8000000000000000)] }
/-- `Claim.ActorIssue`. -/
theorem witness_actor : (∀ i ∈ ([.aretire hp, .aself hp (.r 1) .key, .aself hp (.r 1) .cls, .aself hp (.r 1) .frame,
      .aself hp (.r 1) .lines, .aexport hp 1 .zr, .aexport hp 1 (.r 1), .aimport hp 1 .zr .zr false, .aimport hp 1 .zr .zr true] :
      List Instr), Ready (handling 1) hp i ∧ Ready routed hp i) ∧
    (handling 1).me.handler = some runInfo ∧ routed.me.handler = some runInfo ∧
    (∃ u pkg, (handling 1).homeOf 0 (.aself hp (.r 1) .home) runInfo.ekey.cls runInfo.ekey.key = .ok u pkg) ∧
    ((handling 1).me.rs .zr).extractLsb' 0 9 = (handling 1).pkg ∧ ((handling 1).me.rs (.r 1)).extractLsb' 0 9 ≠ (handling 1).pkg ∧
    runInfo.export_ = none ∧ (handling 1).routeTo (((handling 1).me.rs (.r 1)).extractLsb' 0 9).toNat = none ∧
    (handling 1).routeHeld (((handling 1).me.rs (.r 1)).extractLsb' 0 9).toNat 3 = false ∧
    routed.routeTo ((routed.me.rs (.r 1)).extractLsb' 0 9).toNat = some 0 ∧
    (let s := { handling 0 with dir := [{ (default : Entry) with key := ⟨0, 0, 0⟩, st := .live }] };
      s.entry? ⟨0, 0, 0⟩ = some { (default : Entry) with key := ⟨0, 0, 0⟩, st := .live }) := by
  refine ⟨fun i m => ⟨all_ready ?_ i m, all_ready ?_ i m⟩, ?_, ?_, ⟨_, _, went_ok ?_⟩, ?_⟩
  any_goals decide +kernel

/-- A tape of the class of the run, without records, and a suppressed one of variant 1. -/
def tape0 : Tape := ⟨0, 0, 0, 0, 0, [], [], []⟩
def taped : State := { handling 0 with parts := [(0, { Part.init with
  classes := [(0, 0)], tapes := [tape0], tapeCtl := [⟨0, 0, 1, 0, true, none, 0⟩] })] }
/-- `Claim.TapeIssue`: a source at the last word of a frame of one line; a recording that may begin, and one that may not. -/
theorem witness_tape : (∀ i ∈ ([.tpatch hp (.r 1) .zr ⟨.frm, 23⟩ 0, .tguard hp (.r 1) .zr ⟨.fbase, 0⟩, .tseal hp 1, .trec hp 1, .trec hp 2,
      .tinv hp .zr .zr true, .tinv hp .zr .zr false, .tplay hp 1 0, .tplay hp 1 2] : List Instr), Ready taped hp i) ∧
    taped.me.handler = some runInfo ∧ ¬ (192 * runInfo.flen < 8 * (23 : BitVec 10).toNat + 8) ∧
    taped.poisoned (taped.framePa (coreOf taped.cur) runInfo.fline + 8 * (23 : BitVec 10).toNat) 8 = false ∧
    taped.mayRecord runInfo 1 = false ∧ taped.mayRecord runInfo 2 = true ∧
    taped.recUsed (coreOf taped.cur) + recLines 0 ≤ taped.recArea (coreOf taped.cur) := by
  refine ⟨all_ready ?_, ?_⟩ <;> decide +kernel
/-- A recording of variant 2 that has fixed the pair of the key, and one with eight guards; the run's partition has room for
its image, or has none. -/
def rec2 : Recording := { Recording.start 2 with pairs := [⟨⟨.key, 0⟩, 0, 0⟩] }
def rec8 : Recording := { rec2 with grds := List.replicate 8 ⟨⟨.key, 0⟩, 0, 0⟩ }
def recording (r : Recording) (key : Word) (room : Nat) : State :=
  { on (fun h => { h with unit := some runInfo, recording := some r, key }) with
    parts := [(0, { Part.init with classes := [(0, 0)], tapeRoom := room })] }
/-- `Claim.TapeRecorded`: a pair that agrees with the one fixed and one that does not, a first pair, a first guard and a
ninth, an image of 768 bytes in a store of 768 bytes and of 767. -/
theorem witness_recording : (∀ p ∈ ([(rec2, 0, 768), (rec2, 1, 767), (rec8, 0, 768)] : List (Recording × Word × Nat)),
      let s := recording p.1 p.2.1 p.2.2
      s.me.handler = some runInfo ∧ s.me.recording = some p.1 ∧
      ∀ i ∈ ([.trec hp 1, .tpatch hp (.r 1) .zr ⟨.key, 0⟩ 0, .tguard hp (.r 1) .zr ⟨.pay, 0⟩, .tseal hp 1] : List Instr),
        s.mayIssue s.cur i = true ∧ s.me.guard hp = true) ∧
    (let s := recording rec2 1 767;
      Claim.source s runInfo ⟨.key, 0⟩ = 1 ∧ rec2.pairs.find? (fun y => y.src == ⟨.key, 0⟩) = some ⟨⟨.key, 0⟩, 0, 0⟩ ∧
      (∀ y ∈ rec2.pairs, y.src ≠ ⟨.pay, 23⟩) ∧ rec2.grds.length < 8 ∧ 8 ≤ rec8.grds.length ∧ rec2.slots.length ≤ 16 ∧
      rec8.grds.length ≤ 8) ∧
    (∀ room ∈ [767, 768], let k := ((recording rec2 0 room).part 0).dropTape 0 0 rec2.var;
      ((k.tapeStore.map (fun y => y.bytes.length)).sum + 768 + 48 * rec2.recs.length ≤ k.tapeRoom ↔ room = 768)) := by
  decide +kernel
/-- `Claim.TapePlayed`: without a tape, variant 2, with one, variant 0; a stale one, and one whose guard refuses the payload; a
run that follows a failed replay. -/
theorem witness_played : Claim.Quiet taped ∧ runInfo.dual = none ∧ (taped.core (coreOf taped.cur)).replay = none ∧
    taped.cls? 0 0 = some 0 ∧ (taped.part 0).tape? 0 0 2 = none ∧ (taped.part 0).tape? 0 0 0 = some tape0 ∧
    tape0.epoch = (taped.part 0).epoch ∧ tape0.cver = cdVer 0 ∧ tape0.grds = [] ∧ runInfo.plain = false ∧
    (let g : GuardRec := ⟨⟨.pay, 23⟩, 0xFF, 1⟩;
      payWord runInfo.msg g.src.ix.toNat &&& g.mask ≠ g.value ∧ ({ tape0 with epoch := 1 } : Tape).epoch ≠ (taped.part 0).epoch) ∧
    (let s := on (fun h => { h with unit := some { runInfo with plain := true } });
      s.me.handler.map (fun x => x.plain) = some true) :=
  ⟨quiet (by decide +kernel), by decide +kernel⟩
/-! ## Witnesses: the device's own steps -/

/-- Thread 0's agent with accesses in its issue queue and stores in its buffer. -/
def busy (l : List IqEntry) (b : List SbStore) : State :=
  rst.setAgent (rst.tid 0) { rst.agent (rst.tid 0) with iq := l, sb := b }
/-- A load and a store of one byte, alone and as the bytes of an unaligned access; a store in a buffer; a pending entry. -/
def ld0 (no grp pa : Nat) : IqEntry := .load no grp (.s (.r 1) 0) 0 pa 1 none
def st0 (no grp pa : Nat) (rel : Option Nat) : SbStore := ⟨⟨no, grp, 0, 0, rel, default⟩, nibsOf pa [7]⟩
def he0 (id loc : Nat) (rel : Option Nat) : HEntry := ⟨1, 0, loc, 7, rst.tid 0, ⟨id, 0, 0, 0, rel, default⟩, []⟩
/-- `Obligations.OrderingSteps`: a load alone, and one with the byte of another access before it; a store behind a store; a store
that leaves, with a release scope whose older stores are done, and not. -/
theorem witness_ordering :
    (∀ g ∈ [0, 2], let s := busy [ld0 1 0 64, ld0 2 g 0] [];
      (s.agent (s.tid 0)).iq[1]? = some (ld0 2 g 0) ∧
      iqOverlap ((s.agent (s.tid 0)).iq.take 1) (nibsOf 0 (List.replicate 1 0)) = false ∧
      s.arrPoison ⟨(0 : Word).toNat, .mem 0 0, 1⟩ = none ∧ s.poisonHit (s.tid 0) none 0 1 = false) ∧
    (let s := busy [.store (st0 1 0 64 none), .store (st0 2 2 128 none)] [];
      (s.agent (s.tid 0)).iq[1]? = some (.store (st0 2 2 128 none)) ∧
      (s.agent (s.tid 0)).iq.take 1 = [.store (st0 1 0 64 none)] ∧ (st0 1 0 64 none).tag.grp ≠ (st0 2 2 128 none).tag.grp ∧
      iqOverlap ((s.agent (s.tid 0)).iq.take 1) (st0 2 2 128 none).nibs = false) ∧
    (∀ r ∈ [none, some 2, some 7], let x := st0 3 0 0 r; let s := busy [] [x];
      (s.agent (s.tid 0)).sb = [x] ∧ s.rootRoom (s.tid 0) x (homeLevel (idKind (s.tid 0))) = true ∧ x.tag.rel = r ∧
      ∀ k, r = some k → s.olderAbove (s.tid 0) (some x.id) x.id k = true) ∧
    (let e := he0 3 0 (some 2); let s := { rst with hold := [e] };
      s.pendingAt 3 1 = [e] ∧ e.tag.grp = 0 ∧ s.rootRoom e.ag ⟨e.tag, [(e.loc, e.val)]⟩ 2 = true ∧ e.tag.rel = some 2 ∧
      s.olderAbove e.ag (some e.id) e.id 2 = true) ∧
    (let s := { rst with hold := [he0 3 0 (some 2), he0 2 64 none] }; s.olderAbove (rst.tid 0) (some 3) 3 2 = false) := by
  decide +kernel

/-- The load before it is no byte of the same access. -/
theorem witness_group (no : Nat) (d : LDst) (va : Word) (pa len : Nat) (tag : Option CTag) :
    ld0 1 0 64 ≠ .load no 2 d va pa len tag := by simp [ld0]

/-- Thread 0 waiting, and the same over a full future. -/
def waits (w : Wait) : State := on (fun h => { h with waiting := some w })
/-- `Obligations.WakeSteps`. -/
theorem witness_wake :
    (∃ u, (waits (.waitc 0)).waitcTry 0 0 = .done u) ∧
    (∃ u, (waits (.waita (.r 1) 0 .sp false true 1 .eq 0)).waitaTry 0 (.r 1) 0 .sp false true 1 .eq 0 = .done u) ∧
    (∃ u w, (waits (.waita (.r 1) 0 .sp false true 1 .ne 0)).waitaTry 0 (.r 1) 0 .sp false true 1 .ne 0 = .wait u w) ∧
    (∃ u, (waits (.barw (.r 1) 0 .sp 1 15)).barwTry 0 (.r 1) 0 .sp 1 15 = .done u) ∧
    (∃ u, (waits (.join 0 (mkPa 0 (coreBase 0)))).joinTry 0 0 (mkPa 0 (coreBase 0)) = .done u) ∧
    (∃ u, ({ waits (.frd (.r 1) .zr 1 .sp) with mem := (filled [0, 0, 0, 0, 0, 0, 0, 0, 1]).mem }).frdTry 0 (.r 1) .zr 1 .sp = .done u) ∧
    (∃ u, (waits .adone).adoneTry 0 = .ended u) ∧
    (∃ u, ({ taped with threads := [(0, { taped.thr 0 with waiting := some (.tplay 1 0) })] } : State).tplayTry 0 1 0 = .ended u) :=
  ⟨done_ok (by decide +kernel), done_ok (by decide +kernel), wait_ok (by decide +kernel), done_ok (by decide +kernel),
    done_ok (by decide +kernel), done_ok (by decide +kernel), ended_ok (by decide +kernel), ended_ok (by decide +kernel)⟩
/-- Each that looks in vain: WAITC at a limit, BARW at its generation, JOIN at a count of 1, FRD of an empty future, ADONE and TPLAY with
a command left. -/
theorem witness_waits_on : let full (w : Wait) : State := (handling 0).updThr 0 (fun h => { h with
      waiting := some w, q := h.q.set 1 ⟨[{ cmdOf (.qjoin hp 1 0 1) with decided := true }], none⟩ })
    (∃ u w, (full (.waitc 0)).waitcTry 0 0 = .wait u w) ∧
    (∃ u w, (waits (.barw (.r 1) 0 .sp 1 0)).barwTry 0 (.r 1) 0 .sp 1 0 = .wait u w) ∧
    (∃ u w, ({ waits (.join 0 (mkPa 0 (coreBase 0))) with mem := (filled [1]).mem }).joinTry 0 0 (mkPa 0 (coreBase 0)) = .wait u w) ∧
    (∃ u w, (waits (.frd (.r 1) .zr 1 .sp)).frdTry 0 (.r 1) .zr 1 .sp = .wait u w) ∧
    (∃ u w, (full .adone).adoneTry 0 = .wait u w) ∧
    (∃ u w, (full (.tplay 1 0)).tplayTry 0 1 0 = .wait u w) :=
  ⟨wait_ok (by decide +kernel), wait_ok (by decide +kernel), wait_ok (by decide +kernel), wait_ok (by decide +kernel),
    wait_ok (by decide +kernel), wait_ok (by decide +kernel)⟩
/-- The thread of each clause waits for it, and no recording is in progress; a sleep that ends now, and one that does not;
nothing is left for RFCHK; a thread that waits for nothing; one whose watchdog has expired. -/
theorem witness_waiting : (∀ w ∈ ([.waitc 0, .waita (.r 1) 0 .sp false true 1 .eq 0, .barw (.r 1) 0 .sp 1 15, .sleep 0, .sleep 1,
      .adone, .rfchk .zr, .aexport 1 3] : List Wait), ((waits w).thr 0).waiting = some w ∧ ((waits w).thr 0).recording = none) ∧
    0 ≤ (waits (.sleep 0)).time (coreOf 0) ∧ (waits (.sleep 1)).time (coreOf 0) < 1 ∧ (rst.thr 0).waiting = none ∧
    (waits (.rfchk .zr)).peerStoresLeft ((waits (.rfchk .zr)).tid 0) = false ∧
    (peerStore.updThr 0 (fun h => { h with waiting := some (.rfchk .zr) })).peerStoresLeft (peerStore.tid 0) = true ∧
    ((waits (.rfchk .zr)).agent ((waits (.rfchk .zr)).tid 0)).ref.count = 0 ∧ (waits .adone).overdue 0 = false ∧
    (let s := on (fun h => { h with unit := some { bootUnit with start := some 0 } });
      let u : UnitInfo := { bootUnit with kind := .task, start := some 0 };
      let t : State := { s.updThr 0 (fun h => { h with unit := some u }) with
        cores := [(0, { Core.init with ticks := 2 ^ 40 })] };
      t.overdue 0 = true) := by decide +kernel

/-- A QJOIN of Q1 for Q1 and Q2, behind guard slot k, and a copy of 48 bytes within the scratchpad. -/
def join1 (k : BitVec 4) : Cmd := cmdOf (.qjoin hp 1 k 6)
def copy48 : Cmd := { cmdOf (.cpy hp .zr .zr .zr false 0 ⟨1, .quill, .sp, .sp, false, false, .none, false, 0, 0⟩) with
  decided := true, begun := true, opb := 48, todo := [⟨0, 0, 0⟩] }
def rep4 : Cmd := { cmdOf (.repb hp .zr .zr 0 0 1 0 0 0 4) with
  decided := true, begun := true, body := [.vadd hp 1 2 (.r 3) 0 .f32 .rne false false], iter := 3 }
/-- `Obligations.CommandSteps`: slots that hold PASS, DISCARD and EMPTY; a QJOIN that begins, completes, and waits, at its
turn in Q0 and while it is another's; a unit of a copy; the last iteration of a REPB. -/
theorem witness_command : (∀ k ∈ ([5, 6, 7] : List (BitVec 4)), (inQ 1 [join1 k]).queue (.thread 0) 1 = ⟨[join1 k], none⟩ ∧
      (join1 k).decided = false) ∧
    ((inQ 1 []).thr 0).slots.toList.getD 5 .empty = .pass ∧ ((inQ 1 []).thr 0).slots.toList.getD 6 .empty = .discard ∧
    ((inQ 1 []).thr 0).slots.toList.getD 7 .empty = .empty ∧ ((inQ 1 []).thr 0).slotsClosed = false ∧
    slotField (join1 5).i = 5 ∧ ((inQ 1 []).agent ((inQ 1 []).tid 0)).sb = [] ∧ (inQ 1 []).hold = [] ∧ (inQ 1 []).poison = [] ∧ ((inQ 1 []).agent ((inQ 1 []).tid 0)).iq = [] ∧
    (let c := { join1 0 with decided := true, begun := true };
      (∀ r < 4, (6 : BitVec 4).getLsbD r = true → ∀ x ∈ ((inQ 1 [c]).queue (.thread 0) r).cmds, c.order ≤ x.order) ∧
      (∃ r < 4, (6 : BitVec 4).getLsbD r = true ∧
        ∃ x ∈ ((inQ 1 [c, { c with order := 0 }]).queue (.thread 0) r).cmds, x.order < c.order)) ∧
    ((copyMod copy48.i).isSome = true ∧ copy48.todo[0]? = some ⟨0, 0, 0⟩) ∧
    (rep4.begun = true ∧ rep4.iter < rep4.body.length * repCount rep4) := by decide +kernel
theorem witness_turn : (let s := inQ 1 [copy48];
      s.inTurn (engineKey (.thread 0) copy48.i) 1 (s.copyUsers (engineKey (.thread 0) copy48.i) 1) = true) ∧
    (let c := { cmdOf (.tzero hp (.t 0) false) with decided := true };
      ∀ k ∈ [0, 1], let s : State := { inQ 0 [c] with
          threads := [(0, (inQ 0 [c]).thr 0), (1, { Thread.init with q := Thread.init.q.set 0 ⟨[c], none⟩ })],
          turns := tset [] (matrixKey 0) k };
        (s.inTurn (matrixKey 0) (ownerRank (.thread 0)) (s.matrixUsers (.thread 0)) = true ↔ k = 0)) := by decide +kernel
theorem witness_copy_unit : ∃ u c, (inQ 1 [copy48]).copyStep (.thread 0) 1 copy48 ⟨0, 0, 0⟩ = some (.ok u c) :=
  unit_ok (by decide +kernel)

/-- Thread 0's Q0 with a matrix command that may begin, or has begun, where every tile has the descriptor d and every accumulator
is of INT32 or not. -/
def matrix (d : BitVec 32) (int begun : Bool) (i : Instr) : State :=
  { inQ 0 [{ cmdOf i with decided := true, begun }] with
    cores := [(0, { Core.init with desc := Vector.replicate 16 d, accInt := Vector.replicate 8 int })] }
def mm (kc : BitVec 8) : Instr := .tmma hp 2 0 1 0 false false 0 kc
def ts (fs : Bool) : Instr := .tsca hp 2 3 1 2 0 false fs
theorem at_matrix {d : BitVec 32} {int : Bool} {i : Instr} (e : let s := matrix d int false i
      s.queue (.thread 0) 0 = ⟨[{ cmdOf i with decided := true }], none⟩ ∧ (s.agent (s.tid 0)).iq = [] ∧ (s.agent (s.tid 0)).sb = [] ∧
      s.hold = [] ∧ s.accBusy (.thread 0) i = false ∧ s.inTurn (matrixKey 0) (ownerRank (.thread 0)) (s.matrixUsers (.thread 0)) = true ∧
      (s.core 0).poisonT = [] ∧ (s.core 0).poisonA = [] ∧ Memory.wf s.mem = true) :
    Claim.AtMatrix (matrix d int false i) 0 { cmdOf i with decided := true } [] :=
  ⟨by decide, e.2.2.2.2.2.2.2.2, e.1, ⟨rfl, rfl⟩, e.2.1, e.2.2.1, fun x m => absurd m (by rw [e.2.2.2.1]; exact List.not_mem_nil),
    e.2.2.2.2.1, e.2.2.2.2.2.1, e.2.2.2.2.2.2.1, e.2.2.2.2.2.2.2.1⟩
/-- `Claim.MatrixProduct`, `Claim.ScaledSum`, `Claim.MatrixCompletes`: a tile of 48 rows of 17 numbers of BF16, and of 33 of INT8, all
their blocks and the first alone; scales of both forms. -/
theorem witness_matrix : (∀ kc ∈ ([0, 1] : List (BitVec 8)),
      Claim.AtMatrix (matrix 0x42F1 false false (mm kc)) 0 { cmdOf (mm kc) with decided := true } [] ∧
      Claim.AtMatrix (matrix 0x82F6 true false (mm kc)) 0 { cmdOf (mm kc) with decided := true } []) ∧
    (∀ fs ∈ [false, true], Claim.AtMatrix (matrix 0 false false (ts fs)) 0 { cmdOf (ts fs) with decided := true } []) := by
  refine ⟨fun kc m => ?_, fun fs m => ?_⟩
  · fin_cases m <;> exact ⟨at_matrix (by decide +kernel), at_matrix (by decide +kernel)⟩
  · fin_cases m <;> exact at_matrix (by decide +kernel)
theorem witness_shapes : (∀ x ∈ ([(0x42F1, Fmt.bf16, 16, false, 17), (0x82F6, Fmt.int8, 32, true, 33)] : List (BitVec 32 × Fmt × Nat × Bool × Nat)),
      (x.2.1, x.2.1, x.2.2.1, x.2.2.2.1) ∈ Claim.matrixPairs ∧ descFmt x.1 = some x.2.1 ∧ descCols x.1 + 1 = x.2.2.2.2 ∧ descRows x.1 < 48 ∧
      x.2.2.2.2 * x.2.1.width ≤ 1536 ∧ (matrix x.1 x.2.2.2.1 false (mm 0)).desc 0 1 = x.1 ∧
      (matrix x.1 x.2.2.2.1 false (mm 0)).tagInt 0 2 = x.2.2.2.1 ∧ (x.2.2.2.2 + x.2.2.1 - 1) / x.2.2.1 = 2) ∧
    (∀ i ∈ ([mm 0, ts true] : List Instr), let s := matrix 0x42F1 false true i;
      s.queue (.thread 0) 0 = ⟨[{ cmdOf i with decided := true, begun := true }], none⟩) := by decide +kernel
/-- A copy of thread 0's Q1 that may begin, or is done. -/
def copyTo (ck : CK) (cadd begun : Bool) (a : Word) : Cmd :=
  { cmdOf (.cpy hp .zr .zr .zr false 0 ⟨1, .quill, .sp, .sp, cadd, false, ck, false, 0, 7⟩) with
    decided := true, begun, opa := a, opb := 48, tgt := BitVec.ofNat 64 (mkPa 0 (coreBase 0)) }
/-- `Claim.CopyCommand`. -/
theorem witness_copy : (∀ n ∈ ([0, 2] : List Nat), let a : Word := BitVec.ofNat 64 n
      let s := inQ 1 [copyTo .none false false a]
      s.queue (.thread 0) 1 = ⟨[copyTo .none false false a], none⟩ ∧ (copyMod (copyTo .none false false a).i).isSome = true ∧ s.hold = [] ∧
      (s.agent (s.tid 0)).iq = [] ∧ (s.agent (s.tid 0)).sb = [] ∧ (a.toNat % 4 = 0 ↔ n = 0) ∧
      (s.thr 0).unit.map UnitInfo.uid = some (copyTo .none false false a).uid) ∧
    (∀ ck ∈ ([.none, .cwsp, .barsp] : List CK), ∀ cadd ∈ [true, false], let c := copyTo ck cadd true 0
      let s := inQ 1 [c]
      let ag := (s.cmdCtx (.thread 0) 1 c).ag
      s.queue (.thread 0) 1 = ⟨[c], none⟩ ∧ s.hold = [] ∧ (s.agent ag).iq = [] ∧ (s.agent ag).sb = [] ∧ s.outst = [] ∧ s.poison = [] ∧
      Memory.wf s.mem = true ∧ s.spaceBase (coreOf 0) .sp = (442368, c.tgt.toNat) ∧ c.tgt.toNat % 4 = 0) := by decide +kernel
/-- The word at the start of the scratchpad lies in it. -/
theorem witness_copy_word {s : State} {x n : Nat} (e : s.spaceBase (coreOf 0) .sp = (n, x)) (h : 4 ≤ n) :
    (s.spaceBase (coreOf 0) .sp).2 ≤ x ∧ x + 4 ≤ (s.spaceBase (coreOf 0) .sp).2 + (s.spaceBase (coreOf 0) .sp).1 := by
  rw [e]
  exact ⟨Nat.le_refl x, Nat.add_le_add_left h x⟩

/-- A store or a load that awaits its answer, sent at mesh cycle 0, by an instruction and by a copy of thread 0's Q1. -/
def ref1 : CmdRef := ⟨.thread 0, 1, bootUnit.uid, 1, 0⟩
def out0 (store : Bool) (k : Option CmdRef) (left : Option Nat) : Outst := ⟨5, 1, rst.tid 0, 0, 2 ^ 43, 1, 0, store, [], 0, left, ⟨0, 0, k⟩⟩
def asked (store : Bool) (k : Option CmdRef) (left : Option Nat) (now : Nat) : State :=
  { busy [.peer 0 (2 ^ 43) 1 5] [] with outst := [out0 store k left], mesh := now }
/-- Its queue stopped by an older command, and by a newer one. -/
def stoppedBy (n : Nat) : State := (asked true (some ref1) none 0).setQueue ref1.own ref1.q ⟨[], some ⟨n, 3, 0, 0, false⟩⟩
/-- `Obligations.PeerSteps`: before and after 2^20 mesh cycles, and not on its way yet. -/
theorem witness_peer : 
    (∀ k ∈ [none, some ref1], ∀ l ∈ [none, some 0], let s := asked true k l 0;
      s.outst.find? (fun x => x.tag == 4) = none ∧ s.outst.find? (fun x => x.tag == 5) = some (out0 true k l) ∧
      (out0 true k l).of.cmd = k ∧ (out0 true k l).left = l ∧ s.rhold = []) ∧
    (asked true (some ref1) none 0).ownerUid ref1.own = some ref1.uid ∧
    ((asked true (some ref1) none 0).queue ref1.own ref1.q).stopped = none ∧
    (∀ n ∈ ([0, 1, 2] : List Nat), (stoppedBy n).ownerUid ref1.own = some ref1.uid ∧
      (stoppedBy n).outst.find? (fun x => x.tag == 5) = some (out0 true (some ref1) none) ∧
      ((stoppedBy n).queue ref1.own ref1.q).stopped = some ⟨n, 3, 0, 0, false⟩ ∧ (ref1.order < n ↔ n = 2)) ∧
    (asked false none none 0).outst.find? (fun x => x.tag == 5) = some (out0 false none none) ∧
    IqEntry.peer 0 (2 ^ 43) 1 5 ∈ ((asked false none none 0).agent (out0 false none none).ag).iq ∧
    (asked true none (some 0) (2 ^ 20 - 1)).mesh < 0 + 2 ^ 20 ∧ 0 + 2 ^ 20 ≤ (asked true none (some 0) (2 ^ 20)).mesh := by decide +kernel

/-- Cluster 0 runs partition 0. -/
def running : State := { rst with clusters := [(0, { Cluster.init with rotEff := #v[0x8000000000000000, 0, 0, 0] })] }
def task0 : Task := ⟨120, Vector.replicate 8 3, 0, 0, 0, 0, 0, 0, 0⟩
/-- `Claim.DispatchStep`: thread 1 is free and holds one task; thread 0 has a unit, or is free as long and holds a task too. -/
theorem witness_dispatch : let s := { running with threads := [(0, Thread.boot), (1, { Thread.init with deque := [task0] })] }
    (s.thr 0).unit ≠ none ∧ (s.thr 1).unit = none ∧ (∀ q : Fin 4, ((s.thr 1).q[q]).cmds = []) ∧ s.runs (clusOf 1) = some 0 ∧
    (s.thr 1).deque = [] ++ [task0] ∧ (s.orderBefore (s.tid 1) (s.tid 1) task0.no).2 = true ∧
    (s.orderBefore (s.tid 1) (s.tid 1) task0.no).1.thr 1 = s.thr 1 ∧ (s.thr 1).haltReq = false ∧ s.lowerFree 1 = [] ∧
    (let u := { running with threads := [(0, { Thread.init with deque := [task0] }), (1, { Thread.init with deque := [task0] })] };
      0 ∈ u.lowerFree 1 ∧ (u.dispatched 0).isSome = true) := by decide +kernel

/-- A record of a QJOIN for Q1, a replay of it, and a replay delivery that waits. -/
def rec0 : Rec := ⟨.qjoin hp 1 0 1, hp, false, 1, 0, 0, 0, none, none, none⟩
def replay0 : Replay := ⟨0, default, ⟨0, 0, 0⟩, 0, 0, 0, 1, { tape0 with recs := [rec0] }, 0, false, none, none, 0, 0, []⟩
def item0 : Item := ⟨default, ⟨0, 0, 0⟩, 0, true, false, 0, false, 0⟩
def replaying : State := { running with
  parts := [(0, { Part.init with classes := [(0, 0)], tapes := [tape0] })],
  dir := [{ (default : Entry) with key := ⟨0, 0, 0⟩, st := .live }] }
/-- `Claim.ReplaySteps`. -/
theorem witness_replay :
    ((rst.core 0).replay = none ∧ (rst.core 0).places = []) ∧
    (let s := { rst with cores := [(0, { Core.init with replay := some replay0 })] };
      (s.core 0).replay = some replay0 ∧ replay0.tape.recs[replay0.next]? = some rec0 ∧
      (s.queue (.seqr 0) rec0.queue.toNat).cmds.length < 32 ∧ copyMod rec0.i = none) ∧
    (let s := { rst with cores := [(0, { Core.init with replay := some { replay0 with next := 1 } })] };
      (s.core 0).replay = some { replay0 with next := 1 } ∧ replay0.tape.recs.length ≤ 1 ∧
      ∀ q : Fin 4, (s.core 0).seqq[q] = Queue.init) ∧
    (let s := { replaying with cores := [(0, { Core.init with places := [item0] })] };
      (s.core 0).replay = none ∧ (s.core 0).places = [item0] ∧ item0.replay = true ∧ s.runs (clusOfCore 0) = some item0.msg.part ∧
      (s.orderBefore item0.msg.sender (s.seqrId 0) item0.msg.no).2 = true ∧
      s.entry? item0.ekey = some { (default : Entry) with key := ⟨0, 0, 0⟩, st := .live } ∧
      (let v := (s.orderBefore item0.msg.sender (s.seqrId 0) item0.msg.no).1;
        v.badLine 0 0 ((v.cls? item0.msg.part item0.msg.cls).map cdLines |>.getD 0) = none ∧
        (v.checkTape item0.msg.part item0.msg 0 (v.srcValue (v.seqrId 0) 0 item0.msg item0.ekey.key 0
          ((v.cls? item0.msg.part item0.msg.cls).map cdLines |>.getD 0))).2 = .go tape0)) := by decide +kernel
/-! ## Witnesses: the directory -/

/-- Partition 0 with a class 0 that an install would accept, and its pages of 48 KiB: page 0 at physical address 0,
page 1 of the host and away, page 2 not mapped. -/
def desc0 : BitVec 768 := 1#768 <<< 680
def paged : State :=
  let s : State := { rst with parts := [(0, { Part.init with
    asidlim := 1, pstate := 1, classes := [(0, desc0)], clscmd := 0x40000, clsarg := 0x4800, migdst := 49152, hostbind := 0x8000000000000000,
    physw := Part.init.physw.set 0 (0, 0xC000000000018000) })] }
  [(0, bytesOfNat 8 0x8000000000001000), (0x1000, bytesOfNat 8 0x8000000000002000), (0x2000, bytesOfNat 8 0x8000000000003000),
    (0x3000, bytesOfNat 8 0x8000000000004000), (0x4000, bytesOfNat 8 0xF800000000000000 ++ bytesOfNat 8 0xF080000000000000),
    (0x4855, [1])].foldl (fun (s : State) (x : Nat × List Byte) => s.wrBytes x.1 x.2) s
/-- A message of class 0 and key 0, from thread 0. -/
def msg0 : Msg := { (default : Msg) with part := 0, sender := rst.tid 0 }
def out1 (st_ : OutState) : OutMsg := ⟨msg0, 0, 0, st_⟩

/-- `Obligations.MessageSteps`: to a partition that is not live; to a class that there is not; with selector 16. -/
theorem witness_message :
    (∀ f ∈ ([⟨{ msg0 with part := 1 }, 0, 0⟩, ⟨{ msg0 with cls := 1 }, 0, 0⟩, ⟨{ msg0 with sel := 16 }, 0, 0⟩] : List Flight),
      ({ paged with flights := [f] } : State).flights = f :: [] ∧ f.msg.via = paged.pkg ∧ f.msg.fwd = false) ∧
    paged.partLive 1 = false ∧ paged.partLive 0 = true ∧ ((paged.part 0).job msg0.job).canc = false ∧ paged.cls? 0 1 = none ∧
    paged.cls? 0 0 = some desc0 ∧ 16 ≤ (16 : BitVec 8).toNat ∧
    (∀ n ∈ ([0, 15] : List Nat), let f : Flight := ⟨msg0, n, 0⟩;
      (({ paged with flights := [f], mesh := 1 } : State).takes f.slice (.message f.msg)).isSome = true ∧
      (({ paged with flights := [f], slices := [(n, { Slice.init with rank := 2 ^ 80 })] } : State).takes f.slice
        (.message f.msg)).isNone = true) ∧
    (∀ q ∈ ([0, 1] : List Nat), let y : Marker := ⟨msg0.sender, msg0.ifn, msg0.akey, BitVec.ofNat 32 q⟩;
      ({ paged with markers := [y] } : State).marker? msg0 = some y ∧ (y.seq = msg0.seq ↔ q = 0)) := by decide +kernel
/-- `Claim.MessageTaken`: where a message may be taken, with no entry for its key. -/
def comes (s : State) (b : Nat) : State := { s with flights := [⟨msg0, 0, b⟩], mesh := 1 }
def comesB (s : State) : Bool :=
  (s.takes 0 (.message msg0)).isSome && msg0.via == s.pkg && !msg0.fwd && s.partLive msg0.part && (s.marker? msg0).isNone &&
    !((s.part msg0.part).job msg0.job).canc && !s.isFrozen msg0.part msg0.cls && (s.cls? msg0.part msg0.cls == some desc0) &&
    decide (msg0.sel.toNat < 16) && decide (cdEntry desc0 msg0.sel.toNat ≠ 0xFFFFFF)
/-- An entry of class 0 and partition 0. -/
def at0' (key : Word) (st_ : EState) (f : Entry → Entry) : Entry := f { (default : Entry) with key := ⟨0, 0, key⟩, st := st_, desc := desc0 }
theorem witness_taken_new : comesB (comes paged 0) = true ∧ (comes paged 0).entry? msg0.akey = none ∧ msg0.akey.slice = 0 ∧
    (comes paged 0).slotFree 0 = true ∧ ((comes paged 0).setOf msg0.akey).length < 8 := by decide +kernel
/-- The same where the slots of the slice are all in use, by n messages of another actor. -/
theorem witness_slots (n : Nat) (h : 8192 ≤ n) :
    (comes { paged with dir := [at0' 13 .live (fun e => { e with pend := List.replicate n msg0 })] } 0).slotFree 0 = false := by
  have e : (⟨0, 0, 13⟩ : AKey).slice = 0 := by decide +kernel
  simp only [State.slotFree, State.pendCount, State.slotMsgs, comes, at0', List.length_append, List.filter_cons, e, List.flatMap_cons,
    List.length_replicate, decide_eq_false_iff_not, not_lt, beq_self_eq_true, if_true]
  omega
/-- Its entry on chip or spilled, in each state in which it queues the message; idle, with room in its core and without, and where its cluster may not
take it; FAILED. -/
def found (e : Entry) : State := comes { paged with dir := [e] } 0
theorem witness_taken : (∀ e ∈ ([at0' 0 .activating (fun e => { e with prov := true }), at0' 0 .activating id, at0' 0 .retiring id,
      at0' 0 .live (fun e => { e with busy := true }), at0' 0 .live (fun e => { e with pend := [msg0] }), at0' 0 .live id, at0' 0 .failed id,
      at0' 0 .live (fun e => { e with busy := true, spilled := true }), at0' 0 .forward (fun e => { e with busy := true })] : List Entry), comesB (found e) = true ∧
      (found e).entry? msg0.akey = some e ∧ (∀ x ∈ (found e).dir, x.key = msg0.akey → x = e) ∧ e.dest = none ∧
      ((found e).setOf msg0.akey).length < 8 ∧ (found e).slotFree 0 = true) ∧
    (let e := at0' 0 .live id;
      e.busy = false ∧ e.pend = [] ∧ e.prov = false ∧ (found e).permits msg0 (clusOfCore e.core) = true ∧ ((found e).core e.core).places.length < 64 ∧
      (let s := { found e with cores := [(0, { Core.init with places := List.replicate 64 item0 })] };
        comesB s = true ∧ s.permits msg0 (clusOfCore e.core) = true ∧ s.slotFree 0 = true ∧ 64 ≤ (s.core e.core).places.length) ∧
      (let s := { found e with clusters := [(0, { Cluster.init with perm := #v[0, 0, 0, 0, 0] })] };
        comesB s = true ∧ s.permits msg0 (clusOfCore e.core) = false ∧ idPkg msg0.sender = s.pkg)) ∧
    (let s := comes { paged with dir := [75025, 150050, 196418, 271443, 346468, 392836, 467861, 514229].map (fun k => at0' k .activating id) } 0;
      comesB s = true ∧ s.entry? msg0.akey = none ∧ 8 ≤ (s.setOf msg0.akey).length ∧ ∀ x ∈ s.setOf msg0.akey, x.movable = false) ∧
    (let s := { comes paged 7 with flights := [⟨{ msg0 with part := 1 }, 0, 7⟩, ⟨{ msg0 with part := 1, seq := 1 }, 0, 7⟩] };
      (s.slice 0).at_ < s.mesh ∧ s.partLive 1 = false ∧ s.entry? { msg0 with part := 1 }.akey = none ∧ msg0.via = s.pkg ∧ msg0.fwd = false ∧
      (SliceEv.message { msg0 with part := 1 }).rank ≤ (SliceEv.message { msg0 with part := 1, seq := 1 }).rank) := by
  decide +kernel
/-- ACCEPT and RETRY for a message that has been sent; a parked one before and after its time. -/
theorem witness_answer : let s (o : OutState) (now : Nat) := { on (fun h => { h with outq := [out1 o] }) with mesh := now }
    (∀ a ∈ ([.accept, .retry] : List Answer), ({ s .sent 0 with answers := [⟨msg0, a, 0⟩] } : State).answers = ⟨msg0, a, 0⟩ :: []) ∧
    ({ s .sent 0 with answers := [⟨msg0, .refuse 6, 0⟩] } : State).answers = ⟨msg0, .refuse 6, 0⟩ :: [] ∧
    ((s .sent 0).thr 0).unit = some bootUnit ∧ bootUnit.uid = msg0.uid ∧ bootUnit.step3 = false ∧ rst.rhold = [] ∧
    msg0.host = false ∧ msg0.fwd = false ∧ idThread msg0.sender = 0 ∧ ((s .sent 0).thr 0).outq = [out1 .sent] ∧
    (out1 .sent).pkg = rst.pkg ∧ ((s (.parked 0) 0).thr 0).outq = [out1 (.parked 0)] ∧
    0 + (s (.parked 0) 16).backoff 0 0 ≤ (s (.parked 0) 16).mesh ∧
    (s (.parked 0) 15).mesh < 0 + (s (.parked 0) 15).backoff 0 0 := by decide +kernel

/-- An entry of class 0 of partition 0 in a state, and the package that holds it. -/
def ent (key : Word) (st_ : EState) : Entry := { (default : Entry) with key := ⟨0, 0, key⟩, st := st_, wait := .fetch, desc := desc0 }
def withEnt (e : Entry) : State := { paged with dir := [e] }
/-- `Obligations.ActorLife`: every clause reads the entry and its class. -/
theorem witness_entry : (∀ e ∈ ([ent 0 .activating, { ent 256 .activating with prov := true }, ent 512 .activating,
      { ent 0 .live with busy := true }, ent 0 .live, ent 0 .retiring, { ent 0 .retiring with noWb := true }] : List Entry),
      (withEnt e).entry? e.key = some e ∧ (withEnt e).cls? e.key.part e.key.cls = some desc0 ∧ e.carry = [] ∧ e.pend = [] ∧
      (withEnt e).leaving e = false) ∧ cdRestartable desc0 = false := by decide +kernel
/-- A state block that can be read, and written. -/
theorem witness_block : let e := ent 0 .activating
    (∃ v w segs segs', (withEnt e).stateCheck e desc0 .read = (v, .ok segs) ∧ v.stateCheck e desc0 .read = (w, .ok segs') ∧
      w.leaving e = false) ∧ e.src = none ∧
    (let r := ent 0 .retiring;
      ∃ v segs, (withEnt r).stateCheck r r.desc .write = (v, .ok segs) ∧ v.dir = (withEnt r).dir ∧ r.dest = none ∧ r.noWb = false) := by
  have ok : ∀ x : State × Block, (match x.2 with
      | .ok _ => true
      | _ => false) = true → ∃ v segs, x = (v, .ok segs) := by
    rintro ⟨v, b⟩ h
    cases b <;> simp_all
  obtain ⟨v, segs, a⟩ := ok ((withEnt (ent 0 .activating)).stateCheck (ent 0 .activating) desc0 .read) (by decide +kernel)
  obtain ⟨w, segs', b⟩ := ok (((withEnt (ent 0 .activating)).stateCheck (ent 0 .activating) desc0 .read).1.stateCheck
    (ent 0 .activating) desc0 .read) (by decide +kernel)
  obtain ⟨x, segs'', c⟩ := ok ((withEnt (ent 0 .retiring)).stateCheck (ent 0 .retiring) (ent 0 .retiring).desc .write) (by decide +kernel)
  refine ⟨⟨v, w, segs, segs', a, by rw [← b, a], ?_⟩, rfl, x, segs'', c, ?_, rfl, rfl⟩
  · have : ((((withEnt (ent 0 .activating)).stateCheck (ent 0 .activating) desc0 .read).1.stateCheck
      (ent 0 .activating) desc0 .read).1).leaving (ent 0 .activating) = false := by decide +kernel
    rwa [b] at this
  · have : ((withEnt (ent 0 .retiring)).stateCheck (ent 0 .retiring) (ent 0 .retiring).desc .write).1.dir =
      (withEnt (ent 0 .retiring)).dir := by decide +kernel
    rwa [c] at this
/-- A state block whose page is away, and one that is not mapped. -/
theorem witness_no_block : ∀ p ∈ ([true, false] : List Bool),
    (let e := { ent 256 .activating with prov := p };
      ((withEnt e).stateCheck e desc0 .read).2 = .away ∧ ((withEnt e).stateCheck e desc0 .read).1.pageAsked e desc0 = true ∧ e.prov = p) ∧
    (let e := ent 512 .activating;
      ((withEnt e).stateCheck e desc0 .read).2 = .bad 98304 ∧ ((withEnt e).stateCheck e desc0 .read).1.dir = (withEnt e).dir) := by
  decide +kernel
/-- Notices, which the slice takes but where it has taken one of a higher place in the mesh cycle; retirement after 2 cycles and
before, an actor to retire for room, and room for the message that one turned away. -/
theorem witness_life : let live := ent 0 .live
    let d : BitVec 768 := desc0 ||| (2#768 <<< 576)
    let s (now : Nat) := { withEnt live with cores := [(0, { Core.init with ticks := now })],
                                              parts := [(0, { Part.init with classes := [(0, d)] })] }
    (∀ k ∈ ([.runEnded false none, .runEnded true none, .hwError false 0, .runFailed false false none, .runFailed false true none,
        .runFailed false true (some 3), .commitFailed 5] : List NKind),
      ({ withEnt { live with busy := true } with notices := [⟨k, live.key⟩] } : State).notices = [⟨k, live.key⟩]) ∧
    (∀ n < 5, (({ withEnt live with mesh := 1 } : State).takes live.key.slice (.notice n (rst.coreAgent live.core))).isSome = true) ∧
    (rst.core live.core).capAt = none ∧ (withEnt { live with busy := true }).slotFor { live with busy := true } = true ∧
    (withEnt { live with busy := true, cur := some { msg0 with slot := 8191 } }).slotFor { live with busy := true, cur := some { msg0 with slot := 8191 } } = true ∧
    (({ withEnt live with mesh := 1 } : State).takes live.key.slice (.timer false)).isSome = true ∧
    (let u : State := { withEnt live with slices := [(live.key.slice, { Slice.init with rank := 2 ^ 80 })] };
      (u.takes live.key.slice (.timer true)).isNone = true) ∧
    (live.isIdle = true ∧ cdRetire d = 2 ∧ (s 2).cls? 0 0 = some d ∧ cdRetire d ≤ (s 2).time live.core - live.idle ∧
      (s 1).time live.core - live.idle < cdRetire d) ∧
    cdRestartable (desc0 ||| (1#768 <<< 672)) = true ∧
    (let s := { withEnt live with cores := [(0, { Core.init with wantRoom := [⟨0, 0, 1⟩] })] };
      (s.core 0).wantRoom ≠ [] ∧ s.endComing 0 = false ∧ (∀ x ∈ s.dir, x.st = .retiring → x.core ≠ 0) ∧ s.lru 0 = some live) ∧
    (let e := { live with pend := [msg0] };
      let s := { withEnt e with cores := [(0, { Core.init with refused := [live.key], places := List.replicate 63 item0 })] };
      (s.core 0).refused = [live.key] ∧ (s.core 0).places.length < 64 ∧ s.entry? live.key = some e ∧ e.busy = false ∧ e.core = 0 ∧
      s.isFrozen 0 0 = false ∧ s.permits msg0 (clusOfCore 0) = true) := by decide +kernel
/-- `Obligations.MoveSteps`. -/
theorem witness_move : let k : AKey := ⟨0, 0, 0⟩
    (paged.entry? k = none ∧ paged.cls? k.part k.cls ≠ none ∧ (paged.setOf k).length < 8) ∧
    (let e := { ent 0 .absent with imp := true };
      (withEnt e).entry? k = some e ∧ e.st = .absent ∧ e.imp = true) ∧
    (let e := { ent 0 .forward with fpkg := 511, busy := true };
      (withEnt e).entry? k = some e ∧ e.fpkg = BitVec.ofNat 9 511 ∧ 511 < 512 ∧ e.pend = []) ∧
    (∀ e ∈ ([{ ent 0 .retiring with dest := some 2, acked := false }, { ent 0 .retiring with dest := some 2, acked := true },
        { ent 0 .retiring with dest := some 2, acked := true, home := 3 }] : List Entry),
      (withEnt e).entry? k = some e ∧ e.st = .retiring ∧ e.pend = [] ∧ (e.home = (withEnt e).pkg ∨ e.home = 3)) ∧
    (let e := { ent 0 .retiring with dest := some 2, sent := true };
      (withEnt e).entry? k = some e ∧ e.sent = true ∧ e.pend = []) ∧
    (let e := { ent 0 .retiring with dest := some 2, home := 3 };
      let s : State := { withEnt e with links := [(0, { Link.init with up := true })], route := [(2, 0x8000000000000000)],
                                        cores := [(0, { Core.init with frames := [⟨0, 1, k, [], []⟩] })] };
      s.entry? k = some e ∧ ((s.core e.core).frameOf k).isSome = true ∧ e.sent = false ∧ s.comingFor k = false ∧
      s.routeTo 2 ≠ none ∧ s.agents = [] ∧ s.hold = [] ∧ s.outst = []) ∧
    (∀ p ∈ [0, 2, 511], (({ paged with mesh := 1 } : State).takes k.slice (.notice 5 (BitVec.ofNat 9 p ++ (0 : BitVec 23)))).isSome = true) ∧
    (let e := { ent 0 .activating with wait := .carried, src := some 4 };
      (withEnt e).entry? k = some e ∧ e.wait = .carried ∧ e.src = some 4 ∧ e.came = [] ∧ (withEnt e).pendCount k.slice = 0) := by decide +kernel
/-- `Obligations.MoveSteps`: as many messages as there are slots, and one more. -/
theorem witness_carried : ∀ n ∈ [8192, 8193], (0 + (List.replicate n msg0).length ≤ 8192 ↔ n = 8192) := by simp
/-! ## Witnesses: clusters, errors, translation, registers -/

/-- A cluster with two entries enabled, its slice of 1024 cycles over, and one that switches with entry e at place 1. -/
def sliced (now : Nat) : State := { rst with clusters := [(0, { Cluster.init with
  tickBase := 36 * now,
  rot := #v[0x8000000000000001, 0x8000000100000001, 0, 0], rotEff := #v[0x8000000000000001, 0x8000000100000001, 0, 0],
  sliceLen := 1024 })] }
def switching (e : Word) : State := { rst with clusters := [(0, { Cluster.init with switching := true, rot := #v[0, e, 0, 0] })] }
/-- `Claim.SliceSteps`. -/
theorem witness_slice :
    (let k := (sliced 1024).clus 0;
      k.switching = false ∧ ((sliced 1024).runs 0).isSome = true ∧ 2 ≤ (k.rot.toList.filter (fun w => w.getLsbD 63)).length ∧
      k.sliceBeg + k.sliceLen ≤ (sliced 1024).clusTime 0) ∧
    ((sliced 1023).clusTime 0 < ((sliced 1023).clus 0).sliceBeg + ((sliced 1023).clus 0).sliceLen) ∧ rst.runs 0 = none ∧
    (let s := switching 0;
      (s.clus 0).switching = true ∧ s.drainedClus 0 = true ∧ s.runs 0 = none ∧ ∀ n : Fin 4, ((s.clus 0).rot[n]).getLsbD 63 = false) ∧
    (let s := switching 0x8000000500000002;
      (s.clus 0).switching = true ∧ s.drainedClus 0 = true ∧ s.runs 0 = none ∧ (1 : Fin 4).val = ((s.clus 0).cur + 1) % 4 ∧
      ((s.clus 0).rot[(1 : Fin 4)]).getLsbD 63 = true ∧ (s.clus 0).debt[(1 : Fin 4)] = 0 ∧
      (s.part (((s.clus 0).rot[(1 : Fin 4)]).extractLsb' 32 7).toNat).pstate ≠ 2) ∧
    ((rst.clus 0).switching = false) := by decide +kernel
/-- `Claim.ClockSteps`: a step that is due and one that is not, drift from 25 and from 23, temperatures at the bounds. -/
theorem witness_clock : let s (step now : Nat) := { rst with mesh := now, clusters := [(0, { Cluster.init with
      eqstep := step, eqNext := [(step, 4096)] })] }
    (((s 24 4096).clus 0).eqNext = (24, 4096) :: [] ∧ 4096 ≤ (s 24 4096).mesh ∧ ((s 24 4096).clus 0).tickAt ≤ (s 24 4096).mesh) ∧
    (((s 24 4095).clus 0).eqNext = (24, 4096) :: [] ∧ (s 24 4095).mesh < 4096) ∧ (s 24 (2 ^ 24 - 1)).mesh < ((s 24 0).clus 0).eqSince + 2 ^ 24 ∧
    (∀ n ∈ ([23, 24, 25] : List Nat), ((s n (2 ^ 24)).clus 0).eqSince + 2 ^ 24 ≤ (s n (2 ^ 24)).mesh ∧ ((s n 0).clus 0).eqstep = n) ∧
    23 < rst.module.caps ∧ (rst.clus 0).eqNext = [] ∧ (45 : Nat) < 46 ∧ (45 : Nat) ≤ 45 ∧ (7500 : Nat) ≤ 7500 := by decide +kernel

/-- A task that issued its first instruction at time 0, of a partition whose budget is 4000000 cycles. -/
def timed : UnitInfo := { bootUnit with kind := .task, start := some 0 }
def running0 (x : UnitInfo) (now : Nat) : State := { on (fun h => { h with unit := some x }) with cores := [(0, { Core.init with ticks := now })] }
/-- `Obligations.ErrorSteps`. -/
theorem witness_error : (rst.thr 1).unit = none ∧ (rst.thr 0).unit = some bootUnit ∧ rst.budget bootUnit = 0 ∧
    (let s := running0 timed 3999999;
      (s.thr 0).unit = some timed ∧ timed.counted (s.time (coreOf 0)) < s.budget timed) ∧
    (let s := running0 timed 4000000;
      (s.thr 0).unit = some timed ∧ s.budget timed ≠ 0 ∧ timed.start = some 0 ∧ timed.since = none ∧ timed.step3 = false ∧
      s.budget timed ≤ s.time (coreOf 0) - 0 - timed.halted) ∧
    hbmEnd - 1 < hbmEnd ∧ (15 : Nat) < 16 ∧ (7 : Nat) < 8 ∧
    ({ rst with mesh := 1023 } : State).mesh / 1024 % 52035584 = tget 0 rst.scrub 0 ∧
    ({ rst with mesh := 1024 } : State).mesh / 1024 % 52035584 ≠ tget 0 rst.scrub 0 := by decide +kernel

/-- `Claim.LeafSteps`: an address of the page that is mapped, of one that is away, and of one that is not mapped. -/
theorem witness_leaf : let ctx : Ctx := ⟨paged.coreAgent 0, 0, some 0, 0, privU, none, [], 0⟩
    (∀ va ∈ ([49151, 49152, 98304] : List Nat), va < vaEnd ∧ paged.migrating 0 0 va = false ∧
      leafFind (paged.core 0).rights 0 0 va = none) ∧
    ((paged.leafOf ctx 0 49151).2.map (fun f => pteAway f.pte)) = some false ∧
    ((paged.leafOf ctx 0 49152).2.map (fun f => pteAway f.pte)) = some true ∧ (paged.leafOf ctx 0 98304).2 = none ∧
    (leafFind [⟨0, 0, 0, 49152, 0⟩] 0 0 49151).isSome = true := by
  decide +kernel
/-- `Claim.LoadStoreIssue`, `Claim.cacheAnswer`: a line of a page that is mapped, of one that is not, and one beyond HBM; lines 0 and
16 of the page pinned or not. -/
def pinned (lines : List Nat) : State := { paged with pins := lines.map (fun l => ⟨0, 0, 0, l, 0, 49152, [0]⟩) }
theorem witness_cache : (∀ ea ∈ ([98304, BitVec.ofNat 64 hbmEnd] : List Word), ∀ ls ∈ ([[], [0]] : List (List Nat)),
      let s : State := { pinned ls with threads := [(0, { Thread.boot with status := 0, unit := some { bootUnit with kind := .task, part := 0 } })] };
      Ready s hp (.cache hp (.p 1) ⟨.r 1, 0, .g, 0, 0⟩ .pin) ∧
      (match (s.check (s.ctx s.cur) .read .g ea 1).2 with
        | .ok (_ :: _) => false
        | _ => true) = true) ∧
    (∀ ls ∈ ([[], [0]] : List (List Nat)),
      let s : State := { pinned ls with threads := [(0, { Thread.boot with status := 0, unit := some { bootUnit with kind := .task, part := 0 } })] };
      let x := s.check (s.ctx s.cur) .read .g 0 1
      (match x.2 with
        | .ok (g :: _) => (x.1.cacheTag (x.1.ctx s.cur) 0 g).isSome
        | _ => false) = true ∧ x.1.pins = s.pins ∧ (s.pins = [] ↔ ls = [])) :=
  ⟨fun ea he ls hl => by
    fin_cases he <;> fin_cases hl <;> exact with_ready (by decide +kernel), by decide +kernel⟩
/-- Thread 0 as one that joins a request. -/
def join0 : Joiner := ⟨rst.tid 0, 0, 0⟩
/-- A request for page 1 of partition 0, of generation g, which an agent joined or none. -/
def request (g : BitVec 16) (j : List Joiner) : PageReq := ⟨0, 0, 1, g, 0, 0, j⟩
def asks (q : PageReq) : State := { rst with pagereq := [(3, q)] }
/-- `Claim.PageSteps`: a request of an older generation, one that none joined, and one that thread 0 joined; a port whose write is
under way. -/
theorem witness_page : (asks (request 0 [])).pagereq.find? (fun e => decide (e.1 < answered) && e.1 == 4) = none ∧
    (∀ q ∈ ([request 1 [], request 0 [], request 0 [join0]] : List PageReq),
      (asks q).pagereq.find? (fun e => decide (e.1 < answered) && e.1 == 3) = some (3, q) ∧ ((asks q).portWrites q.port).2 = true ∧
      ((asks q).portWrites q.port).1.part q.part = (asks q).part q.part ∧ ((asks q).part q.part).hostbind.getLsbD 63 = false ∧
      ((asks q).portWrites q.port).1.dir = [] ∧ ((asks q).portWrites q.port).1.adds = []) ∧
    (request 1 []).gen ≠ (rst.part 0).pgen.extractLsb' 0 16 ∧ (request 0 []).gen = (rst.part 0).pgen.extractLsb' 0 16 ∧
    (let s := (asks (request 0 [])).setAgent (rst.portAgent 0) { rst.agent (rst.portAgent 0) with iq := [.store (st0 1 0 64 none)] };
      (s.portWrites 0).2 = false) := by decide +kernel
/-- An access to a page that is away asks for it, or sees that its request failed; the PASID of the partition is revoked. -/
theorem witness_page_asked : (let b := (paged.part 0).hostbind; paged.pagereq = [] ∧ (paged.part 0).binding = false ∧ b.getLsbD 48 = false) ∧
    (let x : Ctx := ⟨rst.tid 0, 0, some 0, 0, privU, none, [], 0⟩;
      let s : State := { paged with pagereq := [(answered, { request 0 [join0] with ans := 2 })] };
      x.part = some 0 ∧ s.migrating 0 x.asid 49152 = false ∧ s.pageFailed (x.joiner 49152) 0 x.asid 49152 = true) ∧
    (let s : State := { paged with ports := [(0, { Port.init with ifs := [(0, { Iface.init with cfg := 0xC000000000000000 })] })] };
      s.pasidRevoked 0 = true) := by decide +kernel

/-- The page of `paged` that moves to physical address 49152. -/
def moving0 : Migration := ⟨0, 0, 49152, 0xF800000000000000, 0x4000, 49152⟩
/-- A leaf whose address lies beyond HBM. -/
def moving1w : Word := 0xF800000000000000 ||| BitVec.ofNat 64 hbmEnd
/-- `Obligations.PageMigration`. -/
theorem witness_migration : (rst.part 0).migcmd.getLsbD 15 = false ∧ (1 : Word).getLsbD 0 = true ∧ rst.migCheck 0 0 = .inl 1 ∧
    paged.migCheck 0 0 = .inr (0, 49152, 0xF800000000000000, 0x4000) ∧ (rst.part 0).migration = none ∧
    (let s := paged.updPart 0 (fun k => { k with migration := some moving0, migcmd := 0x8000 });
      (s.part 0).migration = some moving0 ∧ (s.part 0).migcmd.getLsbD 15 = true ∧ s.copiesBegun 0 moving0 = false ∧ s.agents = [] ∧
      s.hold = [] ∧ Memory.wf s.mem = true ∧ s.poison = []) ∧
    (let s := paged.updPart 0 (fun k => { k with migration := some moving0, migcmd := 0x8000 });
      let src := (moving0.pte.extractLsb' 0 52).toNat;
      s.target (some 0) privS src moving0.pte = .ok (.mem src moving0.pte) ∧ s.isPeer src = false ∧
      moving0.size ≤ s.extent (.mem src moving0.pte) ∧
      (∃ a ∈ [48], src < a + 48 ∧ a < src + moving0.size) ∧
      (match s.target (some 0) privS (moving1w.extractLsb' 0 52).toNat moving1w with
        | .ok _ => false
        | _ => true) = true) ∧
    (moving0.pte.extractLsb' 0 52).toNat = 0 := by decide +kernel
theorem witness_migration_apart : (∀ i < moving0.size, ∀ j < moving0.size, (moving0.pte.extractLsb' 0 52).toNat + i ≠ moving0.dst + j) ∧
    (∀ i < moving0.size, ∀ j < 8, moving0.dst + i ≠ moving0.pteAt + j) := by
  have h := witness_migration.2.2.2.2.2.2.2
  rw [h]
  exact ⟨fun i hi j hj => by simp only [moving0] at *; omega, fun i hi j hj => by simp only [moving0] at *; omega⟩

/-- `Claim.RegionSteps`: bounds that fit, at their ends, and that do not; the first and last byte of the scratchpad under the
old and new boundaries, and the first of the register partition's lines that the window does not show; cores 0 and 1 are quiescent, and a core with a task is not; EQCFG at its ends. -/
theorem witness_region : let x : Word := 0x0000100000980098
    (152 ≤ (x.extractLsb' 0 13).toNat ∧ (x.extractLsb' 0 13).toNat ≤ (x.extractLsb' 16 13).toNat ∧
      (x.extractLsb' 16 13).toNat ≤ (x.extractLsb' 32 13).toNat ∧ (x.extractLsb' 32 13).toNat ≤ 4096 ∧
      (x.extractLsb' 0 13).toNat % 8 = 0 ∧ (x.extractLsb' 16 13).toNat % 8 = 0 ∧ (x.extractLsb' 32 13).toNat % 8 = 0) ∧
    rst.quiescent 1 = true ∧ rst.quiescent 0 = true ∧ (handling 0).quiescent 0 = false ∧ ¬ 152 ≤ ((151 : Word).extractLsb' 0 13).toNat ∧
    poolAddr 0 256 2560 (192 * 256) = some (coreBase 0) ∧ poolAddr 0 256 2560 (192 * 2560 - 1) = some (coreBase 0 + 192 * 2304 - 1) ∧
    poolAddr 0 256 2560 (192 * 2560) = none ∧ poolAddr 0 152 152 (192 * 152 - 1) = some (regBase 0 + 192 * 152 - 1) ∧
    poolAddr 0 264 2560 (192 * 256) = some (regBase 0 + 192 * 256) ∧
    ((0x2424 : Word).extractLsb' 0 6).toNat ≤ ((0x2424 : Word).extractLsb' 8 6).toNat ∧ ((0x2424 : Word).extractLsb' 8 6).toNat ≤ 36 ∧
    ((0x1819 : Word).extractLsb' 8 6).toNat < ((0x1819 : Word).extractLsb' 0 6).toNat ∧ 36 < ((0x2500 : Word).extractLsb' 8 6).toNat := by
  decide +kernel

/-- Partition 0 of `paged` with a class command, and a failed or a live entry. -/
def commands (w : Word) (es : List Entry) : State := { paged.updPart 0 (fun k => { k with clscmd := w }) with dir := es }
def freeze0 : Freeze := ⟨1, desc0, []⟩
/-- `Obligations.ClassSteps`: no command; an install of class 0, of 4096, of OP 2; a descriptor that stands, one that does not, and one
that cannot be read. -/
theorem witness_install : (rst.part 0).clscmd.getLsbD 18 = false ∧
    (∀ n ∈ ([0x40000, 0x50000, 0x41000, 0x60000] : List Nat), let w : Word := BitVec.ofNat 64 n;
      w.getLsbD 18 = true ∧ (commands w []).isFrozen 0 (w.extractLsb' 0 16) = false ∧ ((commands w []).part 0).clscmd = w) ∧
    ((0x60000 : Word).extractLsb' 16 2).toNat = 2 ∧ 4096 ≤ ((0x41000 : Word).extractLsb' 0 16).toNat ∧
    ((0x50000 : Word).extractLsb' 16 2).toNat = 1 ∧
    (paged.staged 0).2 = .ok desc0 ∧ (paged.staged 0).1.badDesc 0 desc0 = false ∧
    (let s := paged.updPart 0 (fun k => { k with clsarg := 18528 });
      (s.staged 0).2 = .ok 0 ∧ (s.staged 0).1.badDesc 0 0 = true) ∧
    ((paged.updPart 0 (fun k => { k with clsarg := 1 })).staged 0).2 = .bad ∧
    (let s := paged.updPart 0 (fun k => { k with clsarg := 49152 });
      (match (s.staged 0).2 with
        | .wait => true
        | _ => false) = true) := by decide +kernel
/-- `Obligations.ClassSteps`: the table's page is resident, is away, or its address fails a check. -/
theorem witness_table : let at_ (a : Word) : State := paged.updPart 0 (fun k => { k with clsbase := a })
    (paged.writeTable 0 0 desc0).2 = true ∧ (paged.writeTable 0 0 desc0).1.dir = [] ∧ ((at_ 49152).writeTable 0 0 desc0).2 = false ∧
    ((at_ 98304).writeTable 0 0 desc0).2 = true ∧ ((at_ 98304).writeTable 0 0 desc0).1.part 0 = (at_ 98304).part 0 := by
  decide +kernel
theorem witness_clear : (∀ e ∈ ([ent 0 .failed, ent 0 .live] : List Entry),
      ((commands 0x50000 [e]).updPart 0 (fun k => { k with clsarg := 0 })).entry? ⟨0, 0, 0⟩ = some e) ∧
    (commands 0x50000 []).entry? ⟨0, 0, 0x4800⟩ = none ∧ (rst.part 0).frozen = [] ∧
    (let s := (commands 0x40000 [{ ent 0 .live with busy := true }]).updPart 0 (fun k => { k with frozen := [(0, freeze0)] });
      (s.part 0).frozen = [((0 : BitVec 16).toNat, freeze0)] ∧ freeze0.step = 1 ∧ s.classRuns 0 0 = true) ∧
    (let s := (commands 0x40000 []).updPart 0 (fun k => { k with frozen := [(0, freeze0)] });
      (s.part 0).frozen = [((0 : BitVec 16).toNat, freeze0)] ∧ freeze0.hold = [] ∧ s.dir = []) := by decide +kernel

/-- `Claim.DebugSteps`: a running thread, a free one, a halted one; a lookup that finds an entry, and one that does not. -/
theorem witness_debug : ((rst.thr 0).unit = some bootUnit ∧ bootUnit.step3 = false ∧ (rst.thr 0).halted = false) ∧ (rst.thr 127).unit = none ∧
    (on (fun h => { h with halted := true })).me.halted = true ∧ (0x80000000 : Word).getLsbD 31 = true ∧
    (let k : AKey := ⟨0, 0, 0⟩;
      let s := withEnt (ent 0 .live);
      k.slice < 16 ∧ (s.slice k.slice).dkey = 0 ∧ s.entry? k = some (ent 0 .live) ∧ rst.entry? k = none) := by decide +kernel
/-- `Claim.RegisterWrites`: a thread at U, one at S of partition 0, and a port that is frozen. -/
theorem witness_rights : ((stat 0).thr 0).priv = privU ∧ (((stat 1).thr 0).priv = privS ∧ (stat 1).partOf 0 = 0) ∧
    (stat 1).partOf 0 ≠ 1 ∧ ((rst.port 0).frozen = false ∧ rst.holds 0 = false ∧ rst.module.boot ≠ 7) ∧
    ((rst.setPort 1 { Port.init with frozen := true }).port 1).frozen = true ∧ (rst.port 1).frozen = false := by decide +kernel
/-! ## Witnesses: ports, rings, the fabric and resets -/

/-- Port 0 changed, and the module. -/
def port0 (f : Port → Port) (g : Module → Module) : State := { rst with ports := [(0, f Port.init)], module := g rst.module }
/-- `Claim.SemaphoreSteps`: MSEM free, a port's own, and the other port's; a lease at its end, and before; a frozen port. -/
theorem witness_semaphore : let held (o now : Nat) : State := { rst with mesh := now, module := { rst.module with held := true, owner := o, lease := 2 } }
    (rst.port 0).frozen = false ∧ rst.module.held = false ∧ (held 0 0).module.held = true ∧ (held 0 0).module.owner = 0 ∧ ([5, 0, 0, 0] : List Byte).length = 4 ∧
    (held 1 0).module.owner ≠ 0 ∧ (held 1 0).module.takenAt = (held 1 0).mesh ∧ (held 1 1).module.takenAt ≠ (held 1 1).mesh ∧ (port0 (fun q => { q with frozen := true }) id |>.port 0).frozen = true ∧
    (held 0 2047).mesh < (held 0 0).module.reqAt + 1024 * max 1 (held 0 0).module.lease.toNat ∧
    (held 0 0).module.reqAt + 1024 * max 1 (held 0 0).module.lease.toNat ≤ (held 0 2048).mesh := by decide +kernel

def packet0 : Packet := { (default : Packet) with flags := 3, pasid := some 5 }
/-- Interface 0 of port 0, as given. -/
def bound (f : Iface) (c : List (Nat × Word)) : State := port0 (fun q => { q with ifs := [(0, f)], ceq := c }) id
/-- `Claim.PacketSteps`: interfaces that are free, bound, and bound and revoked; a packet of another PASID; a ring without slots,
with room, and full; a release of interface 0. -/
theorem witness_packet : (Iface.init.cfg.getLsbD 63 = false ∧ (rst.port 0).frozen = false ∧ (rst.port 0).iface 0 = Iface.init) ∧
    (let f := { Iface.init with cfg := 0x8000000000000005 };
      ((bound f []).port 0).iface 0 = f ∧ f.cfg.getLsbD 63 = true ∧ f.cfg.getLsbD 62 = false ∧
      packet0.pasid = some (f.cfg.extractLsb' 0 20) ∧ ({ packet0 with pasid := none }).pasid ≠ some (f.cfg.extractLsb' 0 20) ∧
      packet0.hseq.setWidth 64 = f.next ∧ packet0.len.toNat ≤ 32 ∧ packet0.flags = 3 ∧ packet0.rsv7 = 0 ∧ packet0.rsv60 = 0 ∧
      f.buf.length < 32 ∧ f.buf = [] ∧ (bound f []).cls? 0 0 = none ∧ (bound f []).module.boot ≠ 7) ∧
    (port0 id (fun m => { m with boot := 7 })).module.boot = 7 ∧
    (0xC000000000000005 : Word).getLsbD 62 = true ∧ (1 : Word).getLsbD 0 = true ∧
    (rst.port 0).ceq.find? (fun e => e.1 == 0) = none ∧
    (∀ n ∈ ([0, 1, 2] : List Nat), let f := { Iface.init with csl := BitVec.ofNat 64 n, ctr := 1 };
      ((bound f [(0, 7)]).port 0).ceq.find? (fun e => e.1 == 0) = some (0, 7) ∧ ((bound f [(0, 7)]).port 0).iface 0 = f ∧
      ((f.ctr.toNat + 2 ^ 32 - f.chd.toNat) % 2 ^ 32 = f.csl.toNat ↔ n = 1) ∧ Memory.wf (bound f [(0, 7)]).mem = true) := by
  decide +kernel

/-- The management ring of port 0, which holds the semaphore, with a command and what stands at bus address 0x4000. -/
def ringed (op : Nat) (args image : List Byte) (f : State → State) : State :=
  let s := f (port0 (fun q => { q with mrbase := 0x1000, mrslots := 4, mrrbase := 0x2000, mrtail := 1 })
    (fun m => { m with held := true, owner := 0 }))
  (s.wrBytes (busKey 0x1000) ([0, 0, 0, 0, BitVec.ofNat 8 op, 0, 0, 0] ++ args)).wrBytes (busKey 0x4000) image
/-- What `Claim.Commands` asks, in a form that can be evaluated. -/
def commandsB (s : State) (i : Instr) : Bool :=
  let q := s.port 0
  let b := Claim.command s 0
  decide (q.mrslots ≠ 0 ∧ q.mrstop.getLsbD 0 = false ∧ q.mrdone ≠ q.mrtail ∧ q.mrrbase ≠ 0 ∧
    slotNat b 0 4 = q.mrdone.toNat % 2 ^ 32 ∧ slotNat b 6 8 = 0 ∧ s.module.boot ≠ 7 ∧ s.module.held = true ∧ s.module.owner = 0) &&
  (match Claim.ring i with
    | some (p, n, _) => p == 0 && n == slotNat b 4 6
    | none => false)
theorem in_ring {s : State} {i : Instr} (e : commandsB s i = true) : Claim.Commands s 0 i := by
  simp only [commandsB, Bool.and_eq_true, decide_eq_true_eq] at e
  obtain ⟨⟨a, b, c, d, f, g, h, j, k⟩, e⟩ := e
  refine ⟨⟨a, b, c, d⟩, f, g, h, ⟨j, k⟩, ?_⟩
  split at e
  · next p n o eq => exact ⟨o, by simp only [Bool.and_eq_true, beq_iff_eq] at e; rw [eq, e.1, e.2]⟩
  · exact absurd e (by simp)
/-- Partition 1 exists, and runs on cluster 0 or not; partition 2 moves from there, or has moved. -/
def part1 (s : State) : State := { s with parts := [(1, { Part.init with pstate := 1 })] }
def runs1 (s : State) : State := { part1 s with clusters := [(0, { Cluster.init with
  rot := #v[0x8000000100000000, 0, 0, 0], rotEff := #v[0x8000000100000000, 0, 0, 0] })] }

/-- `Claim.RingOrder`: an empty ring; one without a response ring; a command out of sequence; an OP that there is not, one of another
step, and one without the semaphore. -/
theorem witness_ring_order :
    ((rst.port 0).mrslots = 0) ∧
    (let q := (port0 (fun q => { q with mrslots := 4, mrtail := 1 }) id).port 0;
      q.mrslots ≠ 0 ∧ q.mrstop.getLsbD 0 = false ∧ q.mrdone ≠ q.mrtail ∧ q.mrrbase = 0) ∧
    (let s := ringed 1 [] [] id;
      slotNat (Claim.command (s.wrBytes (busKey 0x1000) [1]) 0) 0 4 ≠ (s.port 0).mrdone.toNat % 2 ^ 32 ∧
      slotNat (Claim.command s 0) 0 4 = (s.port 0).mrdone.toNat % 2 ^ 32 ∧ slotZero (Claim.command s 0) 6 8 = true ∧
      slotNat (Claim.command s 0) 4 6 = 1 ∧ s.module.boot ≠ 7) ∧
    (∀ n ∈ ([0, 10] : List Nat), slotNat (Claim.command (ringed n [] [] id) 0) 4 6 = n) ∧
    (ringed 2 [] [] (fun s => { s with module := { s.module with held := false } })).module.held = false ∧
    Claim.ring (.createPartition 0) = some (0, 1, true) ∧ Memory.wf rst.mem = true := by decide +kernel
theorem witness_rings : Claim.Rings (ringed 1 [] [] id) 0 ∧ Claim.Rings ((ringed 1 [] [] id).wrBytes (busKey 0x1000) [1]) 0 := by
  unfold Claim.Rings
  decide +kernel

/-- `Claim.PartitionChange`: a create of a partition that there is not, of one that there is, and with a window out of order; a destroy of
one that there is not, that runs, and that does not. -/
def make3 : List Byte := [0, 3, 0, 0, 0, 0, 0, 0, 0, 0x40]
def end1 : List Byte := [1, 1]
theorem witness_create : let s := ringed 1 make3 [] id
    let b := Claim.command s 0
    slotNat b 8 9 = 0 ∧ slotNat b 9 10 = 3 ∧ slotZero b 10 16 = true ∧ slotZero b 24 64 = true ∧ slotNat b 16 24 = 0x4000 ∧
    s.partExists 3 = false ∧ ((winImage (s.rdBytes (busKey 0x4000) 128)).toList.any winBad) = false ∧
    ((winImage ((ringed 1 make3 [0, 0, 0, 0, 0, 0, 0, 0x80] id).rdBytes (busKey 0x4000) 128)).toList.any winBad) = true ∧
    (let t := ringed 1 (make3.set 1 1) [] part1;
      slotNat (Claim.command t 0) 9 10 = 1 ∧ t.partExists 1 = true) := by decide +kernel
theorem witness_destroy : (∀ f ∈ ([id, runs1, part1] : List (State → State)), let s := ringed 1 end1 [] f
      let b := Claim.command s 0
      slotNat b 8 9 = 1 ∧ slotNat b 9 10 = 1) ∧
    (ringed 1 end1 [] id).partExists 1 = false ∧
    ((ringed 1 end1 [] runs1).partExists 1 = true ∧ (ringed 1 end1 [] runs1).partRuns 1 = true) ∧
    ((ringed 1 end1 [] part1).partExists 1 = true ∧ (ringed 1 end1 [] part1).partRuns 1 = false) ∧
    ((ringed 1 end1 [] runs1).part 1).dying = false := by decide +kernel
theorem witness_changes : Claim.Commands (ringed 1 make3 [] id) 0 (.createPartition 0) ∧
    Claim.Commands (ringed 1 (make3.set 1 1) [] part1) 0 (.createPartition 0) ∧
    Claim.Commands (ringed 1 end1 [] id) 0 (.destroyPartition 0) ∧ Claim.Commands (ringed 1 end1 [] runs1) 0 (.destroyPartition 0) ∧
    Claim.Commands (ringed 1 end1 [] part1) 0 (.destroyPartition 0) ∧ Claim.Commands (ringed 1 end1 [] id) 0 (.createPartition 0) :=
  ⟨in_ring (by decide +kernel), in_ring (by decide +kernel), in_ring (by decide +kernel), in_ring (by decide +kernel),
    in_ring (by decide +kernel), in_ring (by decide +kernel)⟩

/-- A partition that moves, stopped or RUNNING again. -/
def moving1 (n : Word) (s : State) : State := { s with parts := [(1, { Part.init with pstate := n, moveTo := [1] })] }
/-- `Claim.ClusterCommands`. -/
theorem witness_cluster : Claim.Commands (ringed 2 [] [] id) 0 (.writeRotation 0 287 0x18 0) ∧
    Claim.Commands (ringed 2 [] [] id) 0 (.writeRotation 0 0 0x120 0) ∧
    Claim.Commands (ringed 2 [] [] id) 0 (.writeRotation 0 288 0x128 0) ∧
    Claim.Commands (ringed 3 [] [] runs1) 0 (.migratePartition 0 1 [1]) ∧
    Claim.Commands (ringed 3 [] [] part1) 0 (.migratePartition 0 1 []) ∧
    Claim.Commands (ringed 3 [] [] (moving1 1)) 0 (.migratePartition 0 1 [1]) ∧
    Claim.Commands (ringed 3 [] [] (moving1 2)) 0 (.migratePartition 0 1 [1]) :=
  ⟨in_ring (by decide +kernel), in_ring (by decide +kernel), in_ring (by decide +kernel), in_ring (by decide +kernel),
    in_ring (by decide +kernel), in_ring (by decide +kernel), in_ring (by decide +kernel)⟩
theorem witness_move_part :
    (let s := ringed 3 [] [] runs1;
      (s.part 1).moveTo = [] ∧ s.mayMove 1 [1] = true ∧ s.partRuns 1 = true ∧ s.mayMove 1 [1, 2] = false) ∧
    (let s := ringed 3 [] [] part1;
      (s.part 1).moveTo = [] ∧ s.mayMove 1 [] = true ∧ s.partRuns 1 = false) ∧
    (∀ n ∈ ([1, 2] : List Nat), let s := ringed 3 [] [] (moving1 (BitVec.ofNat 64 n));
      (s.part 1).moveTo ≠ [] ∧ ((s.part 1).pstate = 1 ↔ n = 1)) := by decide +kernel

/-- A page request of partition 1 is outstanding. -/
def asked1 (s : State) : State := { part1 s with pagereq := [(3, { request 0 [] with part := 1 })] }
def bind1 (flg : Byte) : List Byte := [1, flg]
/-- `Claim.BindCommands`. -/
theorem witness_bind :
    (∀ f ∈ ([part1, asked1] : List (State → State)), ∀ flg ∈ ([1, 128] : List Nat), let s := ringed 4 (bind1 (BitVec.ofNat 8 flg)) [] f
      let b := Claim.command s 0
      slotNat b 8 9 = 1 ∧ s.partExists 1 = true ∧ slotNat b 9 10 = flg ∧ flg / 2 % 64 = 0 ∧ slotZero b 10 12 = true ∧
      slotNat b 12 16 = 0 ∧ slotZero b 16 64 = true) ∧
    (ringed 4 (bind1 1) [] part1).pagereq = [] ∧ (3, { request 0 [] with part := 1 }) ∈ (ringed 4 (bind1 1) [] asked1).pagereq ∧
    (3 < answered ∧ (ringed 4 (bind1 1) [] id).partExists 1 = false) ∧
    (ringed 5 [] [] part1).partExists 1 = true ∧ (ringed 5 [] [] id).partExists 1 = false ∧ tsorted (ringed 5 [] [] id).ports = true := by
  decide +kernel
theorem witness_binds : Claim.Commands (ringed 4 (bind1 1) [] part1) 0 (.bindPort 0) ∧
    Claim.Commands (ringed 4 (bind1 128) [] part1) 0 (.unbindPort 0) ∧
    Claim.Commands (ringed 4 (bind1 1) [] asked1) 0 (.bindPort 0) ∧ Claim.Commands (ringed 4 (bind1 128) [] asked1) 0 (.unbindPort 0) ∧
    Claim.Commands (ringed 4 (bind1 1) [] id) 0 (.bindPort 0) ∧
    Claim.Commands (ringed 5 [] [] part1) 0 (.bindInterface 0 1 63 1 5) ∧
    Claim.Commands (ringed 5 [] [] id) 0 (.bindInterface 0 2 64 1 5) ∧
    Claim.Commands (ringed 5 [] [] id) 0 (.revoke 0 5) ∧ Claim.Commands (ringed 6 [] [] id) 0 (.writeRoute 0 511 0) ∧
    Claim.Commands (ringed 6 [] [] id) 0 (.writeRoute 0 512 0) :=
  ⟨in_ring (by decide +kernel), in_ring (by decide +kernel), in_ring (by decide +kernel), in_ring (by decide +kernel),
    in_ring (by decide +kernel), in_ring (by decide +kernel), in_ring (by decide +kernel), in_ring (by decide +kernel),
    in_ring (by decide +kernel), in_ring (by decide +kernel)⟩

/-- A buffer of n bytes at bus address 0x4000. -/
def buffer (n : Nat) : List Byte := bytesOfNat 8 0x4000 ++ bytesOfNat 4 n
/-- `Claim.FirmwareCommands`. -/
theorem witness_firmware : Claim.Commands (ringed 7 [] [] id) 0 (.firmwareImage 0 1 true []) ∧
    Claim.Commands (ringed 7 [] [] id) 0 (.firmwareImage 0 0 false []) ∧
    Claim.Commands (ringed 8 (buffer 17226) [] id) 0 (.attestationQuote 0 1) ∧ Claim.Commands (ringed 8 (buffer 17225) [] id) 0 (.attestationQuote 0 1) ∧
    Claim.Commands (ringed 9 (buffer 0) [] id) 0 (.readErrorRing 0) ∧
    Claim.Commands (ringed 9 (buffer 0) [] (fun s => { s with module := { s.module with ring := [0] } })) 0 (.readErrorRing 0) ∧
    imageOk [] 0 = false :=
  ⟨in_ring (by decide +kernel), in_ring (by decide +kernel), in_ring (by decide +kernel), in_ring (by decide +kernel),
    in_ring (by decide +kernel), in_ring (by decide +kernel), rfl⟩
theorem quote_length (s : State) (n : BitVec 256) : 17225 < (s.quote n).length ∧ (s.quote n).length ≤ 17226 := by
  have l : ∀ n x, (bytesOfNat n x).length = n := by
    intro n
    induction n with
    | zero => exact fun _ => rfl
    | succ n ih => exact fun x => by simp [bytesOfNat, ih]
  simp [State.quote, l]
theorem witness_buffers : slotNat (Claim.command (ringed 8 (buffer 17226) [] id) 0) 16 20 = 17226 ∧
    slotNat (Claim.command (ringed 8 (buffer 17225) [] id) 0) 16 20 = 17225 ∧ (ringed 9 (buffer 0) [] id).module.ring = [] := by decide +kernel

/-- Link 0 is up, package 2 lies behind it, and partition 0 exports its first 48 KiB. -/
def linked : State := { paged with
  links := [(0, { Link.init with up := true })], route := [(2, 0x8000000000000000)]
  parts := [(0, { paged.part 0 with pexp := (paged.part 0).pexp.set 0 (0, 0xC00000000000C000) })] }
/-- Flits as their links deliver them. -/
def flit0 (t : BitVec 6) : Flit := { (default : Flit) with typ := t, dpkg := linked.pkg }
/-- `Claim.FlitSteps`: one to go on, one to a package without a path, loads, a store, a message, an answer. -/
theorem witness_flit : (rst.link 0).up = false ∧ (linked.link 0).up = true ∧ (flit0 7).typ.toNat = 7 ∧ (linked.link 0).lane 0 = [] ∧
    (∀ t ∈ ([1, 2, 4, 8] : List (BitVec 6)), linked.flitWaits (flit0 t) = false ∧ (flit0 t).msgs = []) ∧
    (∀ d ∈ ([2, 3] : List (BitVec 9)), let f := { flit0 1 with dpkg := d };
      f.dpkg ≠ linked.pkg ∧ linked.flitWaits f = false ∧ ((Claim.Taken linked 0 0).pass f).2 = (d == 2)) ∧
    ((flit0 2).dpkg = linked.pkg ∧ ({ flit0 2 with data := [8] }).data = [BitVec.ofNat 8 8] ∧ linked.peerRefuses 0 false 0 8 = 0 ∧
      linked.poisoned 0 8 = false ∧ ({ linked with poison := [0] }).poisoned 0 8 = true ∧ linked.peerRefuses 0 false 0xC000 8 ≠ 0) ∧
    (linked.peerRefuses 0 true 0 1 = 0 ∧ Memory.wf linked.mem = true ∧
      ({ flit0 1 with data := [0, 5, 1, 6] }).data = [0, ((0x65 : Byte).extractLsb' 0 4).setWidth 8, 1,
        ((0x65 : Byte).extractLsb' 4 4).setWidth 8]) ∧
    (({ flit0 8 with msgs := [msg0] }).msgs = [msg0] ∧ rst.partLive 0 = false) ∧ linked.outst? 0 = none ∧
    (linked.partLive 0 = true ∧ (paged.part 0).pexp.toList.all (fun w => (w.2 &&& 0xC000000000000000#64) == 0) = true ∧
      paged.partLive 0 = true) := by decide +kernel
/-- A lane's buffer with n flits of a kind. -/
def lane0 (n : Nat) (f : Flit) : State := linked.setLink 0 ((linked.link 0).setLane 0 (List.replicate n f))
def msg145 : Msg := { msg0 with len := 145 }
def held2 : Flit := { flit0 1 with dpkg := 2 }
/-- The sixty-fourth flit of a lane and the ninety-seventh; one that waits behind another that waits for a route; the first of two
flits, and the second. -/
theorem witness_lane : ((lane0 63 (flit0 1)).link 0).lane 0 = List.replicate 63 (flit0 1) ∧
    96 ≤ (((lane0 96 (flit0 1)).link 0).lane 0).length ∧
    (let s : State := { lane0 1 held2 with rhold := [⟨2, 0, [5], [], [], 100⟩], outst := [out0 true none none] };
      s.routeHeld 2 0 = true ∧ s.flitWaits held2 = true ∧ (s.link 0).lane 0 = [held2] ∧ isFirst held2 = false) ∧
    (let f := { flit0 8 with msgs := [msg145] };
      f.typ = 8 ∧ 144 < msg145.len.toNat ∧ ((lane0 1 f).link 0).lane 0 = [f] ∧ f.dpkg = (lane0 1 f).pkg ∧ rst.partLive f.part.toNat = false) := by
  decide +kernel
/-- `Claim.LinkSteps`: a resend of one flit after none and after seven others, and the ninth; a resend that confirms the oldest;
a lane that waits; a message of 145 bytes. -/
theorem witness_link : let k (u : Bool) (n : Nat) : State := { rst with links := [(0, { Link.init with up := u, replay := [flit0 1, flit0 1], fails := n })] }
    (((k true 7).link 0).up = true ∧ 1 < ((k true 7).link 0).replay.length ∧ ((k true 7).link 0).fails < 8) ∧ 8 ≤ ((k true 8).link 0).fails ∧
    ((k true 8).link 0).queue = [] ∧ ((k false 0).link 0).up = false ∧ (rst.link 0).replay = [] ∧
    (∀ e ∈ (k true 0).links, ∀ b ∈ e.2.buf.toList, b = []) ∧
    (let k := { Link.init with stop := Vector.replicate 4 true };
      k.stop.toList.getD (flit0 1).vl.toNat false = true) ∧
    (Link.init.stop.toList.getD (flit0 1).vl.toNat false = false ∧ Link.init.queue = []) ∧
    (let f := { flit0 8 with dpkg := 2, msgs := [{ msg145 with payload := List.replicate 145 7 }] };
      f.typ = 8 ∧ linked.routeHeld f.dpkg.toNat f.vl = false ∧ linked.routeTo f.dpkg.toNat = some 0) ∧
    (let h := { flit0 0x15 with dpkg := 2, secs := [(0, [1]), (1, [2]), (2, [3]), (3, [4])], msgs := [{ msg145 with len := 192, payload := List.replicate 192 7 }] };
      h.typ = 0x15 ∧ ∀ m ∈ h.msgs, m.payload.length = m.len.toNat ∧ m.len.toNat ≤ 192) := by decide +kernel
/-- `Claim.HostSteps`: at the end of HBM, in the control window, and at the end of the range of a port; a range that is written
while a request is outstanding. -/
theorem witness_host : let s := port0 (fun q => { q with hdmbase := 0x1000, hdmsize := 0x1000 }) id
    (s.port 0).frozen = false ∧ (s.port 0).hdmNew = none ∧ s.module.boot ≠ 7 ∧
    (let u := port0 (fun q => { q with hdmbase := 0x1000, hdmsize := 0x1000 }) (fun m => { m with boot := 7 });
      (u.port 0).frozen = false ∧ u.module.boot = 7 ∧ (u.port 0).hdmNew = none) ∧ paPkg (hbmEnd - 8) = s.pkg.toNat ∧
    paLocal (hbmEnd - 8) + (List.replicate 8 (0 : Byte)).length ≤ hbmEnd ∧
    paLocal (hbmEnd - 8) + 8 ≤ hbmEnd ∧ (List.replicate 8 (0 : Byte)).length = 8 ∧
    (hbmEnd < paLocal hbmEnd + 1 ∧ paLocal hbmEnd < ctlWin) ∧
    (paPkg (ctlEnd - 8) = s.pkg.toNat ∧ ctlWin ≤ paLocal (ctlEnd - 8) ∧ paLocal (ctlEnd - 8) + 8 ≤ ctlEnd ∧
      (paLocal (ctlEnd - 8) - ctlWin) % 8 = 0) ∧
    (s.port 0).hdmsize.toNat < 0x1000 + ([0] : List Byte).length ∧ 0xFFF + ([0] : List Byte).length ≤ (s.port 0).hdmsize.toNat ∧
    (port0 (fun q => { q with frozen := true }) id |>.port 0).frozen = true ∧
    (let u := port0 (fun q => { q with hdmNew := some (0, 0), memOut := [(false, 5)] }) (fun m => { m with held := true, owner := 0 });
      (u.port 0).hdmNew = some (0, 0) ∧ u.memLeft 0 ≠ []) ∧
    (let u := port0 (fun q => { q with memOut := [(false, 5)] }) (fun m => { m with held := true, owner := 0 });
      (u.port 0).frozen = false ∧ u.holds 0 = true ∧ (u.port 0).hdmNew = none ∧ u.memLeft 0 ≠ [] ∧
      hdmOk ((0xC000000 : Word).toNat % 2 ^ 43) (u.port 0).hdmsize.toNat = true) := by decide +kernel

/-- `Claim.BuildTable`: the values of the table of R142 and of those of R143 are those that firmware writes. -/
theorem test_build : Claim.BuildTable { State.reset with build := buildTable 1 } := by
  unfold Claim.BuildTable
  decide +kernel
/-- `Obligations.ResetSteps`, `Obligations.MemoryFormReset`, `Obligations.MemoryFormKept`: the memory after reset, and a step of it. -/
theorem witness_reset : rst.MemWf := by
  unfold State.MemWf
  decide +kernel
theorem witness_kept : ∃ t : State, step { rst with agenda := [.tick 1] } = .next t := ⟨_, rfl⟩

end Sys2Proof.Tests
end

section
/-! SUPPORT. Groups 0x02 to 0x05: the words that the products, quotients, bit counts, bit fields and moves
write (R149-R151, R155-R158, R160), and the obligations about them. -/

namespace Sys2Proof.Machine

/-! ## An instruction that writes one scalar register -/

/-- Of the function that computes the written word, only its value at the current thread's registers matters. -/
theorem does_of_run_ws {s : State} {h : Hdr} {i : Instr} {d : SOp} {x y : Thread → Word} (r : Ready s h i)
    (e : exec i s = run s h i (fun s t => .done (s.updThr t (fun th => th.ws d (x th)))))
    (hxy : x s.me = y s.me) : Does s i (fun th => th.ws d (y th)) := by
  have hu : s.updThr s.cur (fun th => th.ws d (x th)) = s.updThr s.cur (fun th => th.ws d (y th)) :=
    congrArg (fun w => s.setThr s.cur (s.me.ws d w)) hxy
  calc exec i s = .next ((s.updThr s.cur (fun th => th.ws d (x th))).complete s.cur (reach i)) :=
        e.trans (run_done r rfl)
    _ = .next ((s.updThr s.cur (fun th => th.ws d (y th))).complete s.cur (reach i)) := by rw [hu]

/-! ## Products (R149) -/

theorem signExtend_mul_signExtend (a b : Word) (w : Nat) :
    a.signExtend w * b.signExtend w = BitVec.ofInt w (a.toInt * b.toInt) :=
  (BitVec.ofInt_mul _ _).symm

/-- The upper half of a product is its floor quotient by 2^64, whatever its sign. -/
theorem extractLsb'_ofInt_high (p : Int) :
    (BitVec.ofInt 128 p).extractLsb' 64 64 = BitVec.ofInt 64 (p / 2 ^ 64) := by
  apply BitVec.eq_of_toNat_eq
  rw [BitVec.extractLsb'_toNat, BitVec.toNat_ofInt, BitVec.toNat_ofInt, Nat.shiftRight_eq_div_pow]
  omega

theorem mulHi_eq (a b : Word) : mulHi a b = (a.signExtend 128 * b.signExtend 128).extractLsb' 64 64 := by
  rw [signExtend_mul_signExtend, extractLsb'_ofInt_high, mulHi]

theorem mulHiU_eq (a b : Word) : mulHiU a b = (a.setWidth 128 * b.setWidth 128).extractLsb' 64 64 := by
  have hp : a.setWidth 128 * b.setWidth 128 = BitVec.ofInt 128 ((a.toNat * b.toNat : Nat) : Int) := by
    rw [BitVec.ofInt_natCast, BitVec.ofNat_mul, BitVec.ofNat_toNat, BitVec.ofNat_toNat]
  rw [hp, extractLsb'_ofInt_high, mulHiU, ← BitVec.ofInt_natCast]
  norm_cast

/-! ## Quotients and remainders (R150, R151) -/

theorem divS_eq (a b : Word) : divS a b = if b = 0 then BitVec.allOnes 64 else a.sdiv b := by
  have hq : BitVec.ofInt 64 (a.toInt.tdiv b.toInt) = a.sdiv b := by
    apply BitVec.eq_of_toInt_eq
    rw [BitVec.toInt_sdiv, BitVec.toInt_ofInt]
  rw [divS, hq]

theorem remS_eq (a b : Word) : remS a b = if b = 0 then a else a.srem b := by
  rw [remS, ← BitVec.toInt_srem, BitVec.ofInt_toInt]

theorem divU_eq (a b : Word) : divU a b = if b = 0 then BitVec.allOnes 64 else a / b := by
  rw [divU, ← BitVec.toNat_udiv, BitVec.ofNat_toNat, BitVec.setWidth_eq]

theorem remU_eq (a b : Word) : remU a b = if b = 0 then a else a % b := by
  rw [remU, ← BitVec.toNat_umod, BitVec.ofNat_toNat, BitVec.setWidth_eq]

/-- From k = 63 on the divisor 3 · 2^k exceeds every word. -/
theorem toNat_lt_granule (a : Word) {k : Nat} (hk : 63 ≤ k) : a.toNat < 3 * 2 ^ k := by
  have := Nat.pow_le_pow_right (n := 2) (by decide) hk
  omega

theorem divl_eq (qr : Bool) (a : Word) (k : Nat) :
    divl qr a k = BitVec.ofNat 64
      (if qr then a.toNat - a.toNat / (3 * 2 ^ k) * (3 * 2 ^ k) else a.toNat / (3 * 2 ^ k)) := by
  rw [← Nat.mod_eq_sub_div_mul, divl]
  by_cases hk : 63 ≤ k
  · have hlt := toNat_lt_granule a hk
    cases qr <;> simp [hk, Nat.div_eq_of_lt hlt, Nat.mod_eq_of_lt hlt]
  · cases qr <;> simp [hk]

/-! ## Bit counts (R155) -/

/-- One bit of BREV: bit n of A goes to bit 63 - n, and no other bit changes. -/
theorem getLsbD_brev_bit (a w : Word) {n k : Nat} (hn : n < 64) (hk : k < 64) :
    (if a.getLsbD n then w ||| (1#64 <<< (63 - n)) else w).getLsbD k =
      (w.getLsbD k || (decide (63 - k = n) && a.getLsbD n)) := by
  have hone : (1#64 <<< (63 - n)).getLsbD k = decide (63 - k = n) := by
    rw [← BitVec.twoPow_eq, BitVec.getLsbD_twoPow, decide_eq_true (by omega), Bool.true_and, decide_eq_decide]
    omega
  cases ha : a.getLsbD n
  · simp
  · rw [if_pos rfl, BitVec.getLsbD_or, hone, Bool.and_true]

/-- BREV after the first n bits of A. -/
theorem getLsbD_brev_fold (a : Word) {n k : Nat} (hn : n ≤ 64) (hk : k < 64) :
    ((List.range n).foldl (fun (w : Word) i => if a.getLsbD i then w ||| (1#64 <<< (63 - i)) else w) 0).getLsbD k =
      (decide (63 - k < n) && a.getLsbD (63 - k)) := by
  induction n with
  | zero => simp
  | succ n ih =>
    rw [List.range_succ, List.foldl_append, List.foldl_cons, List.foldl_nil, getLsbD_brev_bit a _ (by omega) hk,
      ih (by omega)]
    by_cases hkn : 63 - k = n
    · simp [hkn]
    · have hlt : 63 - k < n ↔ 63 - k < n + 1 := by omega
      rw [decide_eq_false hkn, Bool.false_and, Bool.or_false, decide_eq_decide.mpr hlt]

theorem getLsbD_brev64 (a : Word) {k : Nat} (hk : k < 64) : (brev64 a).getLsbD k = a.getLsbD (63 - k) := by
  rw [brev64, getLsbD_brev_fold a le_rfl hk, decide_eq_true (by omega), Bool.true_and]

/-- The number that CLZ writes. -/
def clzCount (a : Word) : Nat := if a = 0 then 64 else 63 - a.toNat.log2

theorem clz64_eq (a : Word) : clz64 a = BitVec.ofNat 64 (clzCount a) := by
  rw [clz64, clzCount]
  split <;> rfl

theorem zerosAbove_clzCount (a : Word) : Claim.zerosAbove a (clzCount a) := by
  by_cases h0 : a = 0
  · simp [clzCount, h0, Claim.zerosAbove]
  · have hne : a.toNat ≠ 0 := by simpa [← BitVec.toNat_inj] using h0
    have hl : a.toNat.log2 < 64 := (Nat.log2_lt hne).mpr a.isLt
    rw [clzCount, if_neg h0]
    refine ⟨by omega, fun k hk => ?_, fun _ => ?_⟩
    · exact Nat.testBit_lt_two_pow ((Nat.log2_lt hne).mp (by omega))
    · rw [show 63 - (63 - a.toNat.log2) = a.toNat.log2 by omega]
      exact Nat.testBit_log2 hne

theorem zerosBelow_of_zerosAbove_brev64 {a : Word} {n : Nat} (hz : Claim.zerosAbove (brev64 a) n) :
    Claim.zerosBelow a n := by
  obtain ⟨hn, hzero, hone⟩ := hz
  have hbit : ∀ k < 64, (brev64 a).getLsbD (63 - k) = a.getLsbD k := fun k hk => by
    rw [getLsbD_brev64 a (by omega), show 63 - (63 - k) = k by omega]
  exact ⟨hn, fun k hk => hbit k (by omega) ▸ hzero k hk, fun hlt => hbit n hlt ▸ hone hlt⟩

theorem popc_eq_countP {n : Nat} (a : BitVec n) : popc a = (List.range n).countP (fun k => a.getLsbD k) :=
  List.countP_eq_length_filter.symm

/-! ## Bit fields (R156) -/

theorem getLsbD_loBits (n : Nat) (a : Word) {k : Nat} (hk : k < 64) :
    (loBits n a).getLsbD k = (decide (k < n) && a.getLsbD k) := by
  rw [loBits, BitVec.getLsbD_ofNat, Nat.testBit_mod_two_pow, decide_eq_true hk, Bool.true_and]
  rfl

theorem lt_lenOf (len : BitVec 6) (k : Nat) : k < lenOf len ↔ k ≤ len.toNat := Nat.lt_succ_iff

/-- The mask of R156, bit by bit. -/
theorem testBit_fieldMask (len at_ k : Nat) :
    ((2 ^ len - 1) * 2 ^ at_).testBit k = decide (at_ ≤ k ∧ k < at_ + len) := by
  rw [Nat.testBit_mul_two_pow, Nat.testBit_two_pow_sub_one, Bool.decide_and]
  by_cases hk : at_ ≤ k
  · simp [hk, Nat.sub_lt_iff_lt_add' hk]
  · simp [hk]

theorem getLsbD_bitInsert (len at_ : Nat) (a b : Word) {k : Nat} (hk : k < 64) :
    (bitInsert len at_ a b).getLsbD k =
      if at_ ≤ k ∧ k < at_ + len then b.getLsbD (k - at_) else a.getLsbD k := by
  have hm : (BitVec.ofNat 64 ((2 ^ len - 1) * 2 ^ at_)).getLsbD k = decide (at_ ≤ k ∧ k < at_ + len) := by
    rw [BitVec.getLsbD_ofNat, testBit_fieldMask, decide_eq_true hk, Bool.true_and]
  simp only [bitInsert, BitVec.getLsbD_or, BitVec.getLsbD_and, BitVec.getLsbD_not, BitVec.getLsbD_shiftLeft, hm]
  by_cases hin : at_ ≤ k ∧ k < at_ + len
  · simp [hin, hk, Nat.not_lt.mpr hin.1]
  · simp [hin, hk]

/-- The signed reading of the low n bits is that of the n-bit word. -/
theorem toI_true_eq_toInt (n : Nat) (a : Word) : toI true (n + 1) a.toNat = (a.setWidth (n + 1)).toInt := by
  rw [BitVec.toInt_eq_toNat_cond, BitVec.toNat_setWidth]
  simp only [toI, Bool.true_and, decide_eq_true_eq, Nat.add_sub_cancel, Nat.pow_succ]
  push_cast
  split <;> split <;> omega

theorem getLsbD_sextLo (n : Nat) (a : Word) {k : Nat} (hk : k < 64) :
    (sextLo (n + 1) a).getLsbD k = a.getLsbD (min k n) := by
  have hs : sextLo (n + 1) a = (a.setWidth (n + 1)).signExtend 64 := by
    rw [sextLo, toI_true_eq_toInt, BitVec.signExtend]
  rw [hs, BitVec.getLsbD_signExtend, decide_eq_true hk, Bool.true_and]
  by_cases hkn : k < n + 1
  · rw [if_pos hkn, min_eq_left (by omega), BitVec.getLsbD_setWidth, decide_eq_true hkn, Bool.true_and]
  · rw [if_neg hkn, min_eq_right (by omega), BitVec.msb_setWidth]
    simp

/-! ## Addresses and moves (R157, R158, R160) -/

theorem ofInt_two_pow (k : Nat) : BitVec.ofInt 64 (2 ^ k) = BitVec.twoPow 64 k := by
  apply BitVec.eq_of_toNat_eq
  rw [BitVec.toNat_twoPow, ← BitVec.toNat_ofNat, ← BitVec.ofInt_natCast]
  norm_cast

theorem leaSum_eq (x3 : Bool) (k : BitVec 6) (imm : BitVec 32) (a b : Word) :
    leaSum x3 k imm a b =
      BitVec.ofInt 64 (a.toNat + b.toNat * (if x3 then 3 else 1) * 2 ^ k.toNat + imm.toInt) := by
  have hn (w : Word) : BitVec.ofInt 64 (w.toNat : Int) = w := by
    rw [BitVec.ofInt_natCast, BitVec.ofNat_toNat, BitVec.setWidth_eq]
  rw [leaSum, BitVec.ofInt_add, BitVec.ofInt_add, BitVec.ofInt_mul, BitVec.ofInt_mul, hn, hn,
    ofInt_two_pow, ← BitVec.shiftLeft_eq_mul_twoPow, BitVec.signExtend]
  cases x3 <;> rfl

theorem rp_iff (th : Thread) (c : BitVec 3) : th.rp c = true ↔ c = 0 ∨ th.p.getLsbD c.toNat = true := by
  simp [Thread.rp]

theorem append_low_eq (imm : BitVec 32) (a : Word) :
    imm ++ a.extractLsb' 0 32 = BitVec.ofNat 64 (imm.toNat * 2 ^ 32 + a.toNat % 2 ^ 32) := by
  apply BitVec.eq_of_toNat_eq
  have ha : a.toNat % 2 ^ 32 < 2 ^ 32 := Nat.mod_lt _ (by decide)
  rw [BitVec.toNat_append, BitVec.extractLsb'_toNat, Nat.shiftRight_zero, ← Nat.shiftLeft_add_eq_or_of_lt ha,
    Nat.shiftLeft_eq, BitVec.toNat_ofNat]
  omega

/-! ## What the instructions do -/

theorem multiplyResult : Claim.MultiplyResult := by
  intro s h d a b x c
  refine ⟨fun r => ?mul, fun r => ?mulh, fun r => ?mulhu, fun r => ?madd⟩
  case mul => exact does_of_run_ws r rfl (by simp [BitVec.ofNat_mul])
  case mulh => exact does_of_run_ws r rfl (mulHi_eq _ _)
  case mulhu => exact does_of_run_ws r rfl (mulHiU_eq _ _)
  case madd => exact does_of_run_ws r rfl (by simp [BitVec.ofNat_mul, BitVec.ofNat_add])

theorem divideResult : Claim.DivideResult := by
  intro s h d a b
  refine ⟨fun r => ?div, fun r => ?rem, fun r => ?divu, fun r => ?remu⟩
  case div => exact does_of_run_ws r rfl (divS_eq _ _)
  case rem => exact does_of_run_ws r rfl (remS_eq _ _)
  case divu => exact does_of_run_ws r rfl (divU_eq _ _)
  case remu => exact does_of_run_ws r rfl (remU_eq _ _)

theorem divlResult : Claim.DivlResult := by
  intro s h d a b qr r
  exact does_of_run_ws r rfl (divl_eq _ _ _)

theorem bitCounts : Claim.BitCounts := by
  intro s h d a
  refine ⟨fun r => ?clz, fun r => ?ctz, fun r => ?popc, fun r => ?brev⟩
  case clz => exact ⟨_, zerosAbove_clzCount (s.me.rs a), does_of_run_ws r rfl (clz64_eq _)⟩
  case ctz =>
    exact ⟨_, zerosBelow_of_zerosAbove_brev64 (zerosAbove_clzCount (brev64 (s.me.rs a))),
      does_of_run_ws r rfl (clz64_eq _)⟩
  case popc => exact does_of_run_ws r rfl (congrArg (BitVec.ofNat 64) (popc_eq_countP _))
  case brev => exact ⟨brev64 (s.me.rs a), fun k hk => getLsbD_brev64 _ hk, does_of_run_ws r rfl rfl⟩

theorem bitFields : Claim.BitFields := by
  intro s h d a b len pos
  refine ⟨fun r _ => ?bfx, fun r _ => ?bfi, fun r => ?sext, fun r => ?zext⟩
  case bfx =>
    refine ⟨loBits (lenOf len) (s.me.rs a >>> pos.toNat), fun k hk => ?_, does_of_run_ws r rfl rfl⟩
    simp only [getLsbD_loBits _ _ hk, lt_lenOf, BitVec.getLsbD_ushiftRight]
  case bfi =>
    refine ⟨bitInsert (lenOf len) pos.toNat (s.me.rs a) (s.me.rs b), fun k hk => ?_, does_of_run_ws r rfl rfl⟩
    simp only [getLsbD_bitInsert _ _ _ _ hk, lenOf, ← Nat.add_assoc, Nat.lt_succ_iff]
  case sext =>
    exact ⟨sextLo (lenOf len) (s.me.rs a), fun k hk => getLsbD_sextLo _ _ hk, does_of_run_ws r rfl rfl⟩
  case zext =>
    refine ⟨loBits (lenOf len) (s.me.rs a), fun k hk => ?_, does_of_run_ws r rfl rfl⟩
    simp only [getLsbD_loBits _ _ hk, lt_lenOf]

/-- Settles O8: each word that the model computes is the product or quotient of the rule, and the instruction
writes it and goes on. -/
theorem multiplyDivide : Obligations.MultiplyDivide := ⟨multiplyResult, divideResult, divlResult⟩

/-- Settles O10: the counts and fields of the model, bit by bit. -/
theorem bitResult : Obligations.BitResult := ⟨bitCounts, bitFields⟩

/-- Settles O11: the sum of LEA is taken modulo 2^64 once, and the other moves are words of the registers or of
the immediate. -/
theorem moveResult : Obligations.MoveResult := by
  intro s h d a b x3 k imm c zx
  refine ⟨fun r => ?lea, fun r => ?sel, fun r => ?movi, fun r => ?movhi, fun r => ?mov, fun r => ?clkrd, fun r => ?nop⟩
  case lea => exact does_of_run_ws r rfl (leaSum_eq x3 k imm _ _)
  case sel => exact does_of_run_ws r rfl (if_congr (rp_iff s.me c) rfl rfl)
  case movi => exact does_of_run_ws r rfl (by rw [BitVec.ofNat_toNat, BitVec.signExtend])
  case movhi => exact does_of_run_ws r rfl (append_low_eq imm _)
  case mov => exact does_of_run_ws r rfl rfl
  case clkrd => exact run_done r rfl
  case nop => exact run_done r rfl

end Sys2Proof.Machine
end
